-- ==== Sys2Proof/Word.lean ====
section
/-! DEFINITION. The byte of the two links (spec/10 R175, spec/05 R83) and the numbers by which the part names
its bays, profile slots and strings (spec/00 section 5.4), each counted from 0 here. -/

namespace Sys2Proof

/-- A byte of the host link or of the stage bus. -/
abbrev Byte := BitVec 8

/-- A bay: bay number n of the spec (1 to 48) is `n - 1`. -/
abbrev BayId := Fin 48

/-- A profile slot: slot number n of the spec (1 to 8) is `n - 1`. -/
abbrev ProfileId := Fin 8

/-- A string: string number n of the spec (1 to 16) is `n - 1`. -/
abbrev StringId := Fin 16

end Sys2Proof
end

