-- ==== Sys2Proof/Syntax.lean ====
section
/-! DEFINITION. The commands of the part: one constructor per row of spec/opcode_table.json.
A message of the host link carries the frame tag and the body bytes of its request frame (R175); an event carries
what the outside world decides of it. -/

namespace Sys2Proof

/-- One of the two module places of a position (spec/00 section 5.4). -/
inductive SeatName where
  | a | b
  deriving DecidableEq, Repr

/-- A seat of the bank: string, position number from 1, seat (R138). -/
structure SeatId where
  str : StringId
  pos : Nat
  seat : SeatName
  deriving DecidableEq, Repr

/-- How a frame begun while a reply was pending came to its end (R178). `length` carries LEN; `gap` carries the
bytes held after SYNC. -/
inductive OverrunEnd where
  | complete
  | length (hi lo : Byte)
  | gap (held : List Byte)
  deriving DecidableEq, Repr

/-- The commands. `t` is the frame tag of a request and `body` its body bytes. -/
inductive Instr where
  -- Host link (spec/10)
  | echo (t : Byte) (body : List Byte)
  | getIdentity (t : Byte) (body : List Byte)
  | reset (t : Byte) (body : List Byte)
  /-- The RESET pin is asserted (R185). -/
  | resetInput
  | getLinkLog (t : Byte) (body : List Byte)
  | clearLinkError (t : Byte) (body : List Byte)
  | setLinkMode (t : Byte) (body : List Byte)
  | setLinkRate (t : Byte) (body : List Byte)
  -- Profiles (spec/01)
  | writeProfile (t : Byte) (body : List Byte)
  | readProfile (t : Byte) (body : List Byte)
  | eraseProfile (t : Byte) (body : List Byte)
  -- Calibration (spec/02)
  | enterCal (t : Byte) (body : List Byte)
  | trim (t : Byte) (body : List Byte)
  | setTrimRange (t : Byte) (body : List Byte)
  | exitCal (t : Byte) (body : List Byte)
  | getTrim (t : Byte) (body : List Byte)
  -- Windows (spec/03)
  | getWindow (t : Byte) (body : List Byte)
  -- Bays (spec/04)
  | load (t : Byte) (body : List Byte)
  | start (t : Byte) (body : List Byte)
  | startGroup (t : Byte) (body : List Byte)
  | suspend (t : Byte) (body : List Byte)
  | resume (t : Byte) (body : List Byte)
  | resumeGroup (t : Byte) (body : List Byte)
  | abort (t : Byte) (body : List Byte)
  | abortGroup (t : Byte) (body : List Byte)
  | unload (t : Byte) (body : List Byte)
  | getBay (t : Byte) (body : List Byte)
  -- Stage bus and allowance (spec/05)
  | stopAll (t : Byte) (body : List Byte)
  | getStageBus (t : Byte) (body : List Byte)
  | setLimit (t : Byte) (body : List Byte)
  | getAllowance (t : Byte) (body : List Byte)
  -- Candidate pool (spec/07)
  | restoreCandidate (t : Byte) (body : List Byte)
  | withdraw (t : Byte) (body : List Byte)
  | getPool (t : Byte) (body : List Byte)
  | getCandidate (t : Byte) (body : List Byte)
  -- Bank table (spec/08)
  | openString (t : Byte) (body : List Byte)
  | setReference (t : Byte) (body : List Byte)
  | declareVacancy (t : Byte) (body : List Byte)
  | releaseString (t : Byte) (body : List Byte)
  | restoreSeat (t : Byte) (body : List Byte)
  | installDirect (t : Byte) (body : List Byte)
  | getString (t : Byte) (body : List Byte)
  | getPosition (t : Byte) (body : List Byte)
  -- Placement matcher (spec/09)
  | placed (t : Byte) (body : List Byte)
  | notPlaced (t : Byte) (body : List Byte)
  | pauseMatcher (t : Byte) (body : List Byte)
  | resumeMatcher (t : Byte) (body : List Byte)
  | setPlacementTimeout (t : Byte) (body : List Byte)
  | getMatcher (t : Byte) (body : List Byte)
  -- Notices and alert (spec/11)
  | fetchNotices (t : Byte) (body : List Byte)
  | setNoticeThreshold (t : Byte) (body : List Byte)
  | getAlert (t : Byte) (body : List Byte)
  | setAlertEnable (t : Byte) (body : List Byte)
  | clearAlert (t : Byte) (body : List Byte)
  -- Events of the host link (spec/10)
  /-- A good frame whose KIND `k` is no code of the catalogue (R177). -/
  | badKind (k t : Byte) (body : List Byte)
  /-- A frame completed by a CHECK byte that does not make its sum 0 (R176): KIND, TAG, body, CHECK as received. -/
  | checkError (k t : Byte) (body : List Byte) (check : Byte)
  /-- Both LEN bytes are held and LEN is above 250 (R176). -/
  | lengthError (hi lo : Byte)
  /-- The gap timer expires within a frame (R176); `held` are the bytes held after SYNC. -/
  | gapError (held : List Byte)
  /-- The end of a frame begun while a reply was pending (R178). -/
  | overrunFrame (ending : OverrunEnd)
  | replyStart
  | replyEnd
  -- Events of SCAN and WEV (spec/02, spec/03)
  /-- A sample of bay `b`: its three analog inputs in mV, 10 mA and 0.1 °C (R17 to R19), and the bay's calibration
  flag as it stood when the sample was taken (R23). -/
  | sample (b : BayId) (vin iin tin : Int) (inCal : Bool)
  | calWindowCompletion (b : BayId)
  | phaseEntry (b : BayId)
  | clockStart (b : BayId)
  | phaseLeave (b : BayId)
  -- Events of BSQ and CAA (spec/04, spec/05)
  | sampleReport (b : BayId)
  | closingReport (b : BayId)
  | request
  | leave
  | grant
  | grantReturn
  -- Events of the stage bus (spec/05)
  | transactionStart
  | ack
  | nack
  /-- The two bytes read in place of the acknowledge slot: status and reply check (R84). -/
  | statusReadOutcome (status check : Byte)
  | broadcastComplete
  | arbitrationLost
  | foreignStart
  /-- The bytes of the foreign transaction whose stop condition is read (R95). -/
  | foreignTransaction (bytes : List Byte)
  | stall
  | busRecovery
  | faultAssertion
  | faultRelease
  -- Events of PLM (spec/09)
  | matchingPass
  | timeStep
  | expiry (seat : SeatId)
  /-- Reset is released with SDA, SCL and FAULT at these levels, true for high (R88, R93, R96). -/
  | resetRelease (sda scl fault : Bool)
  deriving DecidableEq, Repr

end Sys2Proof
end

