-- ==== Sys2Proof/Decode.lean ====
section
/-! DEFINITION. Decoding. The opcode table gives no row any bits, so `decodeTableWord` reads no command from a word.
What the part itself decodes is the KIND byte of a good frame (R177, R186): `decodeRequest`, and back. -/

namespace Sys2Proof

/-- The command that a word spells by the table's bits: the table gives bits to no row, so none. -/
def decodeTableWord (_nbits _w : Nat) : Option Instr := none

/-- The command of a good frame with this KIND, TAG and body: the message of the catalogue (R186), or BAD_KIND for a
KIND that is no code of it (R177). -/
def decodeRequest (k t : Byte) (body : List Byte) : Instr :=
  match k.toNat with
  | 0x01 => .echo t body
  | 0x02 => .getIdentity t body
  | 0x03 => .reset t body
  | 0x04 => .getLinkLog t body
  | 0x05 => .clearLinkError t body
  | 0x06 => .setLinkMode t body
  | 0x07 => .setLinkRate t body
  | 0x10 => .writeProfile t body
  | 0x11 => .readProfile t body
  | 0x12 => .eraseProfile t body
  | 0x20 => .enterCal t body
  | 0x21 => .trim t body
  | 0x22 => .setTrimRange t body
  | 0x23 => .exitCal t body
  | 0x24 => .getTrim t body
  | 0x25 => .getWindow t body
  | 0x30 => .load t body
  | 0x31 => .start t body
  | 0x32 => .startGroup t body
  | 0x33 => .suspend t body
  | 0x34 => .resume t body
  | 0x35 => .resumeGroup t body
  | 0x36 => .abort t body
  | 0x37 => .abortGroup t body
  | 0x38 => .unload t body
  | 0x39 => .getBay t body
  | 0x40 => .stopAll t body
  | 0x41 => .getStageBus t body
  | 0x42 => .setLimit t body
  | 0x43 => .getAllowance t body
  | 0x50 => .restoreCandidate t body
  | 0x51 => .withdraw t body
  | 0x52 => .getPool t body
  | 0x53 => .getCandidate t body
  | 0x60 => .openString t body
  | 0x61 => .setReference t body
  | 0x62 => .declareVacancy t body
  | 0x63 => .releaseString t body
  | 0x64 => .restoreSeat t body
  | 0x65 => .installDirect t body
  | 0x66 => .getString t body
  | 0x67 => .getPosition t body
  | 0x70 => .placed t body
  | 0x71 => .notPlaced t body
  | 0x72 => .pauseMatcher t body
  | 0x73 => .resumeMatcher t body
  | 0x74 => .setPlacementTimeout t body
  | 0x75 => .getMatcher t body
  | 0x78 => .fetchNotices t body
  | 0x79 => .setNoticeThreshold t body
  | 0x7A => .getAlert t body
  | 0x7B => .setAlertEnable t body
  | 0x7C => .clearAlert t body
  | _ => .badKind k t body

/-- Whether a KIND is a code of the catalogue (R186). -/
def knownKind (k : Byte) : Bool :=
  match decodeRequest k 0 [] with
  | .badKind _ _ _ => false
  | _ => true

/-- The KIND, TAG and body of the good frame that a command of the host link stands for; none for the events. -/
def Instr.frameOf : Instr → Option (Byte × Byte × List Byte)
  | .echo t body => some (0x01, t, body)
  | .getIdentity t body => some (0x02, t, body)
  | .reset t body => some (0x03, t, body)
  | .getLinkLog t body => some (0x04, t, body)
  | .clearLinkError t body => some (0x05, t, body)
  | .setLinkMode t body => some (0x06, t, body)
  | .setLinkRate t body => some (0x07, t, body)
  | .writeProfile t body => some (0x10, t, body)
  | .readProfile t body => some (0x11, t, body)
  | .eraseProfile t body => some (0x12, t, body)
  | .enterCal t body => some (0x20, t, body)
  | .trim t body => some (0x21, t, body)
  | .setTrimRange t body => some (0x22, t, body)
  | .exitCal t body => some (0x23, t, body)
  | .getTrim t body => some (0x24, t, body)
  | .getWindow t body => some (0x25, t, body)
  | .load t body => some (0x30, t, body)
  | .start t body => some (0x31, t, body)
  | .startGroup t body => some (0x32, t, body)
  | .suspend t body => some (0x33, t, body)
  | .resume t body => some (0x34, t, body)
  | .resumeGroup t body => some (0x35, t, body)
  | .abort t body => some (0x36, t, body)
  | .abortGroup t body => some (0x37, t, body)
  | .unload t body => some (0x38, t, body)
  | .getBay t body => some (0x39, t, body)
  | .stopAll t body => some (0x40, t, body)
  | .getStageBus t body => some (0x41, t, body)
  | .setLimit t body => some (0x42, t, body)
  | .getAllowance t body => some (0x43, t, body)
  | .restoreCandidate t body => some (0x50, t, body)
  | .withdraw t body => some (0x51, t, body)
  | .getPool t body => some (0x52, t, body)
  | .getCandidate t body => some (0x53, t, body)
  | .openString t body => some (0x60, t, body)
  | .setReference t body => some (0x61, t, body)
  | .declareVacancy t body => some (0x62, t, body)
  | .releaseString t body => some (0x63, t, body)
  | .restoreSeat t body => some (0x64, t, body)
  | .installDirect t body => some (0x65, t, body)
  | .getString t body => some (0x66, t, body)
  | .getPosition t body => some (0x67, t, body)
  | .placed t body => some (0x70, t, body)
  | .notPlaced t body => some (0x71, t, body)
  | .pauseMatcher t body => some (0x72, t, body)
  | .resumeMatcher t body => some (0x73, t, body)
  | .setPlacementTimeout t body => some (0x74, t, body)
  | .getMatcher t body => some (0x75, t, body)
  | .fetchNotices t body => some (0x78, t, body)
  | .setNoticeThreshold t body => some (0x79, t, body)
  | .getAlert t body => some (0x7A, t, body)
  | .setAlertEnable t body => some (0x7B, t, body)
  | .clearAlert t body => some (0x7C, t, body)
  | .badKind k t body => some (k, t, body)
  | .resetInput => none
  | .checkError _ _ _ _ => none
  | .lengthError _ _ => none
  | .gapError _ => none
  | .overrunFrame _ => none
  | .replyStart => none
  | .replyEnd => none
  | .sample _ _ _ _ _ => none
  | .calWindowCompletion _ => none
  | .phaseEntry _ => none
  | .clockStart _ => none
  | .phaseLeave _ => none
  | .sampleReport _ => none
  | .closingReport _ => none
  | .request => none
  | .leave => none
  | .grant => none
  | .grantReturn => none
  | .transactionStart => none
  | .ack => none
  | .nack => none
  | .statusReadOutcome _ _ => none
  | .broadcastComplete => none
  | .arbitrationLost => none
  | .foreignStart => none
  | .foreignTransaction _ => none
  | .stall => none
  | .busRecovery => none
  | .faultAssertion => none
  | .faultRelease => none
  | .matchingPass => none
  | .timeStep => none
  | .expiry _ => none
  | .resetRelease _ _ _ => none

end Sys2Proof
end

