-- ==== Sys2Proof/Config.lean ====
section
/-! DEFINITION. What the part fixes (spec/00 section 2 and the chapters named), and the one value the spec leaves
unstated, as an opaque constant. -/

namespace Sys2Proof

/-- The states of a string (R138). -/
inductive StringState where
  | unused | forming | sealed | service
  deriving DecidableEq, Repr

namespace Config

/-- SYNC (R175). -/
def sync : Byte := 0xA7
/-- The largest LEN that is no LENGTH error (R176). -/
def maxBody : Nat := 250
/-- Vendor code, part code and revision (R184). -/
def vendorCode : Nat := 0x2C41
def partCode : Nat := 0x0048
def revision : Nat := 0x01
/-- Samples of a CAL window (R25). -/
def calWindow : Nat := 50
/-- The top of the limit (R104). -/
def maxLimit : Nat := 100000
/-- Records the pool holds at most (R123). -/
def poolRoom : Nat := 128
/-- Notices the queue holds at most (R190). -/
def noticeRoom : Nat := 64
/-- Reservations a string holds at most (R141). -/
def maxReservations : Nat := 4
/-- The top of the sample counters charge time and discharge time (R54). -/
def maxTime : Nat := 16777215
/-- The top of Q and of 32-bit quantities (R54). -/
def max32 : Nat := 4294967295
/-- The top of a deadline, in steps of 100 ms (R156). -/
def maxDeadline : Nat := 36000

/-- The code of a string state in the replies of GET-STRING and GET-POSITION. DESIGN CHOICE (log 11): R187 gives no
code for it, so it is a free constant of each part: nothing is known of its values. Safe. -/
opaque stringStateCode : StringState → Byte

end Config

end Sys2Proof
end

