-- ==== Sys2Proof/Machine/State.lean ====
section
/-! DEFINITION. The state of the part: everything the spec gives it (INVENTORY.md, heading State), as plain data, and
its value right after reset. -/

namespace Sys2Proof.Machine

/-! ## Profiles (spec/01) -/

/-- The 39 fields of a module type profile, in field order (R2 to R7); only fields 6 and 7 are signed (R188). -/
structure Profile where
  nameplate : Nat
  nominalRes : Nat
  presentLow : Nat
  presentHigh : Nat
  floor : Nat
  tempLow : Int
  tempHigh : Int
  windowLen : Nat
  deadBand : Nat
  settleLimit : Nat
  restMin : Nat
  restMax : Nat
  chargeCurrent : Nat
  cvVoltage : Nat
  endCurrent : Nat
  chargeLimit : Nat
  dischargeCurrent : Nat
  cutoff : Nat
  dischargeLimit : Nat
  pulseCurrent : Nat
  pulseLen : Nat
  prePulse : Nat
  minDelta : Nat
  observation : Nat
  revHigh : Nat
  revLow : Nat
  rippleLow : Nat
  rippleHigh : Nat
  sagDrift : Nat
  tempCoeff : Nat
  sohA : Nat
  sohB : Nat
  sohC : Nat
  ratioA : Nat
  ratioB : Nat
  ratioC : Nat
  sdA : Nat
  sdB : Nat
  sdC : Nat
  deriving DecidableEq, Repr

/-! ## Scan Converter (spec/02) -/

/-- The three trimmed quantities (R27). -/
inductive TrimQuantity where
  | gain | offset | current
  deriving DecidableEq, Repr

inductive TrimRange where
  | fine | coarse
  deriving DecidableEq, Repr

/-- A bay's trim set and calibration flag (R20, R23). `flagMoved`, whether the flag has changed since the bay's last
sample was handed over, is the model's own (log 10). -/
structure TrimSet where
  gain : Int
  range : TrimRange
  offset : Int
  current : Int
  pending : Option (TrimQuantity × Int)
  calFlag : Bool
  flagMoved : Bool
  deriving DecidableEq, Repr

/-- A sample as SCAN hands it to WEV, its bay apart (R16). -/
structure Sample where
  v : Nat
  i : Int
  t : Int
  satV : Bool
  satI : Bool
  satT : Bool
  untrimmed : Bool
  deriving DecidableEq, Repr

/-! ## Phases and bay states (spec/04) -/

/-- The nine phases, in their order (R54). -/
inductive Phase where
  | check | rest0 | chargeCC | chargeCV | rest1 | discharge | restP | pulse | rest2
  deriving DecidableEq, Repr

/-- The 17 bay states: eight of their own and one per phase (R54). -/
inductive BayState where
  | empty | cal | loaded | phase (p : Phase) | parked | done | rejected | suspended | aborted
  deriving DecidableEq, Repr

inductive Substate where
  | none | awaitingGrant | awaitingStage | running
  deriving DecidableEq, Repr

/-- The suspension causes (R73). -/
inductive SuspensionCause where
  | contactNoise | contactLost | overtemp | overcurrent | sensor | tempOut | stageNoAnswer | stageFault
  | externalOff | busStall | stopAll | lineRequest | allowanceOverLimit
  deriving DecidableEq, Repr

/-- The reject causes of BSQ (R72) and of GRU (R118). -/
inductive RejectCause where
  | notPresent | overvoltage | deepDischarge | voltageSag | noResistance | belowClassC
  deriving DecidableEq, Repr

/-- The stage status codes of R84; `ok` stands where a cause carries no code. -/
inductive StageCode where
  | ok | overtemp | outputFault | inputLoss
  deriving DecidableEq, Repr

/-- The cause field of a bay record (R54). -/
inductive Cause where
  | none
  | suspension (c : SuspensionCause) (code : StageCode)
  | reject (c : RejectCause)
  deriving DecidableEq, Repr

/-- The six marks of a bay record and of a grade record (R54). -/
structure Marks where
  unsettled : Bool := false
  chargeTimeout : Bool := false
  dischargeTimeout : Bool := false
  saturated : Bool := false
  interrupted : Bool := false
  watchOff : Bool := false
  deriving DecidableEq, Repr

inductive RestEnding where
  | none | settled | maximum
  deriving DecidableEq, Repr

inductive GradeClass where
  | a | b | c | x
  deriving DecidableEq, Repr

/-- A grade record (R121). `res` is resistance and ratio, present together. -/
structure GradeRecord where
  tag : Nat
  profile : ProfileId
  bay : BayId
  cls : GradeClass
  reject : Option RejectCause
  craw : Nat
  tm : Int
  ccorr : Nat
  soh : Nat
  res : Option (Nat × Nat)
  sd : Option Nat
  marks : Marks
  deriving DecidableEq, Repr

/-- A bay record of BSQ (R54). -/
structure Bay where
  state : BayState
  substate : Substate
  tag : Option Nat
  profile : Option ProfileId
  entry : Nat
  clock : Nat
  resume : Option Phase
  cause : Cause
  marks : Marks
  chargeTime : Nat
  dischargeTime : Nat
  q : Nat
  dCount : Nat
  dWeight : Int
  preV : Nat
  preI : Int
  pulseV : Nat
  pulseI : Int
  obsIndex : Nat
  obsFirst : Nat
  obsK : Nat
  obsLeft : Nat
  obsLast : Nat
  lastIndex : Nat
  lastSumV : Nat
  restEnding : RestEnding
  grade : Option GradeRecord
  deriving DecidableEq, Repr

/-! ## Window Evaluator (spec/03) -/

/-- A bay's phase entry at WEV (R32). -/
structure PhaseEntry where
  phase : Phase
  number : Nat
  started : Bool
  deriving DecidableEq, Repr

/-- The window in progress (R35 to R38). `dir` is the direction of the last difference not ignored, true for up. -/
structure WindowAcc where
  index : Nat
  n : Nat
  sumV : Nat
  firstV : Nat
  lastV : Nat
  minV : Nat
  maxV : Nat
  reversals : Nat
  dir : Option Bool
  sumI : Int
  sumT : Int
  sat : Bool
  satT : Bool
  deriving DecidableEq, Repr

/-- A closed window record, its bay apart (R36); `phase` is none for CAL. -/
structure WindowRecord where
  phase : Option Phase
  index : Nat
  count : Nat
  sumV : Nat
  meanV : Nat
  minV : Nat
  maxV : Nat
  ripple : Nat
  drift : Int
  reversals : Nat
  sumI : Int
  meanI : Int
  meanT : Int
  sat : Bool
  isPartial : Bool
  deriving DecidableEq, Repr

/-- The condition a window enters into the condition history (R48). -/
inductive Condition where
  | noise | sag | none
  deriving DecidableEq, Repr

/-- What WEV holds for one bay (R32, section 3.6). -/
structure WevBay where
  entry : Option PhaseEntry
  window : Option WindowAcc
  nextIndex : Nat
  lastRecord : Option WindowRecord
  ring : List (Nat × Int)
  quietRun : Nat
  settledOnce : Bool
  eocRun : Nat
  history : List Condition
  watch : Bool
  cal : Bool
  deriving DecidableEq, Repr

/-- A window verdict (R43). An outcome of `none` was not evaluated. -/
structure Verdict where
  record : WindowRecord
  quiet : Option Bool
  quietRun : Nat
  settled : Bool
  firstSettle : Bool
  endOfCharge : Option Bool
  noise : Option Bool
  sag : Option Bool
  anomaly : Option Condition
  contactLost : Option Bool
  overtemp : Option Bool
  sensor : Option Bool
  deriving DecidableEq, Repr

/-- A sample report (R41). `magnitude` is present in a current phase. -/
structure SampleReport where
  phase : Phase
  entry : Nat
  v : Nat
  i : Int
  satI : Bool
  cvCrossed : Bool
  cutoff : Bool
  magnitude : Option Nat
  verdict : Option Verdict
  deriving DecidableEq, Repr

/-- A closing report (R41). `finished` tells BSQ whether the phase it closed ended by its own condition or by a limit
(R61, R70); BSQ gave it with the leave. -/
structure ClosingReport where
  phase : Phase
  entry : Nat
  part : Option WindowRecord
  ringV : Nat
  ringI : Int
  ringN : Nat
  watch : Bool
  finished : Bool
  deriving DecidableEq, Repr

/-! ## What stands between two blocks (log 3) -/

/-- BSQ to WEV (section 3.2). A leave tells whether the phase was finished (R70) and whether it was handed over in
answering a sample report (R41). -/
inductive WevMsg where
  | entry (p : Phase) (number : Nat)
  | clockStart
  | leave (finished answering : Bool)
  deriving DecidableEq, Repr

/-- WEV to BSQ (section 3.4). -/
inductive BsqMsg where
  | report (r : SampleReport)
  | closing (c : ClosingReport)
  deriving DecidableEq, Repr

/-- BSQ to CAA (R101). -/
inductive CaaMsg where
  | request (b : BayId) (mag entry : Nat)
  | leave (b : BayId)
  | giveBack (b : BayId) (entry : Nat)
  deriving DecidableEq, Repr

/-- CAA to BSQ (R60): a grant for the phase entry that asked for it. -/
structure GrantMsg where
  bay : BayId
  entry : Nat
  deriving DecidableEq, Repr

/-! ## Stage bus and allowance (spec/05) -/

/-- The setpoint writes (R83). -/
inductive WriteKind where
  | off | chargeCurrent | chargeVoltage | dischargeCurrent
  deriving DecidableEq, Repr

/-- An entry of the stage queue (R85). -/
inductive BusEntry where
  | write (b : BayId) (kind : WriteKind) (value label : Nat)
  | statusRead (b : BayId)
  | broadcastOff
  deriving DecidableEq, Repr

inductive BusState where
  | idle | busy | stalled
  deriving DecidableEq, Repr

/-- The stall timer: both lines high, a line low, or past 20 ms (R96). -/
inductive StallTimer where
  | clear | running | passed
  deriving DecidableEq, Repr

/-- What SBC holds (R85, R88, R93, R94, R96). `newer`, whether the bay of the write last taken from the queue has queued
a write since (R94), and `recovery`, the bays that stalls have suspended since a broadcast OFF last completed, whose
recovery broadcast is thus still to complete (R76, R97), are what those rules ask of the past (logs 36, 37). -/
structure StageBus where
  queue : List BusEntry
  inFlight : Option BusEntry
  abandoned : Option BusEntry
  newer : Bool
  recovery : List BayId
  bus : BusState
  listening : Bool
  timer : StallTimer
  stallCount : Nat
  faultLow : Bool
  deriving DecidableEq, Repr

/-- A bay's grant, 0 when it holds none (R100). `entry` is the model's own (log 15). -/
structure Grant where
  mag : Nat
  entry : Nat
  deriving DecidableEq, Repr

/-- An entry of the waiting list (R100). -/
structure Waiting where
  bay : BayId
  mag : Nat
  entry : Nat
  deriving DecidableEq, Repr

structure Allowance where
  limit : Nat
  grants : Vector Grant 48
  committed : Nat
  waiting : List Waiting
  deriving DecidableEq, Repr

/-! ## Candidate pool (spec/07) -/

/-- A candidate record (R124). `status` is none when FREE and the seat of its reservation when RESERVED. -/
structure Candidate where
  grade : GradeRecord
  seq : Nat
  lapses : Nat
  status : Option SeatId
  deriving DecidableEq, Repr

structure Pool where
  records : List Candidate
  nextSeq : Nat
  park : List BayId
  deriving DecidableEq, Repr

/-! ## Bank table (spec/08) -/

/-- The in-service values of the module in the other seat (R140). -/
structure Override where
  cap : Nat
  res : Nat
  deriving DecidableEq, Repr

/-- What a RESERVED seat returns to (R140). -/
inductive UnderState where
  | empty
  | vacancy (ov : Option Override)
  deriving DecidableEq, Repr

/-- A seat record (R140). `deadline` counts 100 ms steps (R156); 0 is an expiry not yet taken (log 20). -/
inductive Seat where
  | empty
  | reserved (tag deadline : Nat) (under : UnderState)
  | installed (r : GradeRecord)
  | vacant (ov : Option Override)
  deriving DecidableEq, Repr

structure Position where
  a : Seat
  b : Seat
  deriving DecidableEq, Repr

/-- A string record (R138). Its position count N is the length of `positions`. -/
structure BankString where
  state : StringState
  profile : Option ProfileId
  minClass : Option GradeClass
  reference : Nat
  strTol : Nat
  capTol : Nat
  imbalance : Nat
  resCount : Nat
  positions : List Position
  deriving DecidableEq, Repr

/-! ## Placement matcher (spec/09) -/

/-- The result of the last pass: seats served, reservations made, and the seat at which a pass stopped (R156). -/
inductive PassResult where
  | none
  | complete (served made : Nat)
  | noticeRoom (served made : Nat) (seat : SeatId)
  deriving DecidableEq, Repr

structure Matcher where
  paused : Bool
  passPending : Bool
  timeout : Nat
  lastPass : PassResult
  deriving DecidableEq, Repr

/-! ## Notices and alert (spec/11) -/

/-- The notices (R190). `graded` of a REJECTED notice is Ccorr, SOH and the resistance where present, when GRU ran. -/
inductive Notice where
  | graded (tag : Nat) (bay : BayId) (cls : GradeClass) (ccorr soh : Nat)
  | rejected (tag : Nat) (bay : BayId) (cause : RejectCause) (graded : Option (Nat × Nat × Option Nat))
  | suspended (bay : BayId) (cause : SuspensionCause) (code : StageCode) (resume : Option Phase)
  | place (tag : Nat) (seat : SeatId) (seconds : Nat)
  | lapsed (tag : Nat) (seat : SeatId) (lapses : Nat)
  | dropped (tag : Nat)
  | stringComplete (str : StringId)
  deriving DecidableEq, Repr

/-- One flag per alert cause, in bit order (R194). -/
structure Causes where
  notices : Bool
  attention : Bool
  poolFull : Bool
  linkError : Bool
  overflow : Bool
  stageBus : Bool
  deriving DecidableEq, Repr

/-- The notice queue, the latched causes and the enables. The level causes are computed (`State.rawCauses`). -/
structure Nqa where
  queue : List Notice
  overflow : Nat
  threshold : Nat
  linkError : Bool
  overflowCause : Bool
  stageBus : Bool
  enables : Causes
  deriving DecidableEq, Repr

/-! ## Host link (spec/10) -/

/-- The receiver (R176): hunting, or within a frame with the bytes held after SYNC; `overrun` marks a frame begun
while a reply was pending (R178). -/
inductive Receiver where
  | hunt
  | frame (held : List Byte) (overrun : Bool)
  deriving DecidableEq, Repr

/-- The statuses of a reply, in code order (R175). -/
inductive Status where
  | ok | badLength | badKind | badValue | wrongState | busy | notFound | duplicate
  | full | inUse | limit | late | mismatch | notMatched | reserved | linkHeld
  deriving DecidableEq, Repr

inductive LinkMode where
  | hold | continue
  deriving DecidableEq, Repr

/-- 115,200, 460,800 and 921,600 bit/s (R183). -/
inductive LinkRate where
  | r115 | r460 | r921
  deriving DecidableEq, Repr

/-- What comes about when the last bit of a reply has been sent (R183, R185). -/
inductive ReplyAct where
  | none | setRate (r : LinkRate) | reset
  deriving DecidableEq, Repr

/-- A reply (R175): KIND with its top bit set, TAG, STATUS, the two FLAGS, body. -/
structure Reply where
  kind : Byte
  tag : Byte
  status : Status
  clamped : Bool
  overrun : Bool
  body : List Byte
  act : ReplyAct
  deriving DecidableEq, Repr

inductive LinkCause where
  | check | length | gap
  deriving DecidableEq, Repr

/-- The log of the first link error (R180). -/
structure LinkLog where
  cause : LinkCause
  kind : Byte
  tag : Byte
  len : Nat
  received : Byte
  computed : Byte
  deriving DecidableEq, Repr

/-- What LNK holds. The reply-pending flag of R178 is `reply.isSome`. -/
structure Link where
  rx : Receiver
  reply : Option Reply
  sending : Option Reply
  overrun : Bool
  mode : LinkMode
  log : Option LinkLog
  errorCount : Nat
  rate : LinkRate
  deriving DecidableEq, Repr

/-! ## The whole -/

/-- The state of the part and its queue of commands. -/
structure State where
  inReset : Bool
  profiles : Vector (Option Profile) 8
  scan : Vector TrimSet 48
  wev : Vector WevBay 48
  bays : Vector Bay 48
  sbc : StageBus
  caa : Allowance
  pool : Pool
  bank : Vector BankString 16
  plm : Matcher
  nqa : Nqa
  link : Link
  toWev : Vector (List WevMsg) 48
  toBsq : Vector (List BsqMsg) 48
  toScan : Vector Nat 48
  toCaa : List CaaMsg
  grantsOut : List GrantMsg
  pending : List Instr
  deriving DecidableEq, Repr

/-- No command of the model ends in a fault: the part has none that stops it (INVENTORY.md, heading Faults). Safe. -/
inductive Fault where
  deriving DecidableEq, Repr

/-- The refusals of the model. -/
inductive Refusal where
  /-- Raised by an arm of exec whose command has no meaning yet; no arm is left so. Safe. -/
  | notModelled (mnemonic : String)
  deriving DecidableEq, Repr

/-! ## Reset -/

/-- R20, R31. -/
def TrimSet.reset : TrimSet :=
  { gain := 0, range := .fine, offset := 0, current := 0, pending := none, calFlag := false, flagMoved := false }

/-- R32. -/
def WevBay.reset : WevBay :=
  { entry := none, window := none, nextIndex := 0, lastRecord := none, ring := [], quietRun := 0, settledOnce := false,
    eocRun := 0, history := [], watch := false, cal := false }

/-- R54. -/
def Bay.reset : Bay :=
  { state := .empty, substate := .none, tag := none, profile := none, entry := 0, clock := 0, resume := none,
    cause := .none, marks := {}, chargeTime := 0, dischargeTime := 0, q := 0, dCount := 0, dWeight := 0, preV := 0,
    preI := 0, pulseV := 0, pulseI := 0, obsIndex := 0, obsFirst := 0, obsK := 0, obsLeft := 0, obsLast := 0,
    lastIndex := 0, lastSumV := 0, restEnding := .none, grade := none }

/-- R85, R93, R96; the bus as it stands with both lines and FAULT high at release (log 7, DESIGN CHOICE, unsafe). -/
def StageBus.reset : StageBus :=
  { queue := [.broadcastOff], inFlight := none, abandoned := none, newer := false, recovery := [],
    bus := .idle, listening := false, timer := .clear,
    stallCount := 0, faultLow := false }

/-- R100. -/
def Allowance.reset : Allowance :=
  { limit := 0, grants := Vector.replicate 48 { mag := 0, entry := 0 }, committed := 0, waiting := [] }

/-- R123, R125, R134. -/
def Pool.reset : Pool := { records := [], nextSeq := 0, park := [] }

/-- An UNUSED string (R138). -/
def BankString.unused : BankString :=
  { state := .unused, profile := none, minClass := none, reference := 0, strTol := 0, capTol := 0, imbalance := 0,
    resCount := 0, positions := [] }

/-- R156. -/
def Matcher.reset : Matcher := { paused := false, passPending := false, timeout := 300, lastPass := .none }

/-- R190, R193, R194, R195. -/
def Nqa.reset : Nqa :=
  { queue := [], overflow := 0, threshold := 1, linkError := false, overflowCause := false, stageBus := false,
    enables := { notices := true, attention := true, poolFull := false, linkError := true, overflow := false,
                 stageBus := false } }

/-- R185 and section 10.1. -/
def Link.reset : Link :=
  { rx := .hunt, reply := none, sending := none, overrun := false, mode := .hold, log := none, errorCount := 0,
    rate := .r115 }

/-- The part right after reset, as the rules named above state it; released, with an empty queue of commands. -/
def State.reset : State :=
  { inReset := false
    profiles := Vector.replicate 8 none
    scan := Vector.replicate 48 .reset
    wev := Vector.replicate 48 .reset
    bays := Vector.replicate 48 .reset
    sbc := .reset
    caa := .reset
    pool := .reset
    bank := Vector.replicate 16 .unused
    plm := .reset
    nqa := .reset
    link := .reset
    toWev := Vector.replicate 48 []
    toBsq := Vector.replicate 48 []
    toScan := Vector.replicate 48 0
    toCaa := []
    grantsOut := []
    pending := [] }

end Sys2Proof.Machine
end

