-- ==== Sys2Proof/Machine/Operands.lean ====
section
/-! DEFINITION. The operand forms of the host link: byte order (R175), numbers of bays, slots, strings and seats
(spec/00 section 5.4), the codes of R187 and the layouts of R188 and R189, both ways. -/

namespace Sys2Proof.Machine

/-! ## Bytes and numbers: most significant byte first (R175) -/

/-- The number a list of bytes spells. -/
def beNat : List Byte → Nat
  | [] => 0
  | x :: rest => x.toNat * 256 ^ rest.length + beNat rest

/-- The `w` bytes of a number, its lowest `8 * w` bits. -/
def beBytes : Nat → Nat → List Byte
  | 0, _ => []
  | w + 1, n => BitVec.ofNat 8 (n / 256 ^ w) :: beBytes w n

/-- The two's complement bytes of a signed number (R187). -/
def sBytes (w : Nat) (x : Int) : List Byte := beBytes w (x % (256 ^ w : Nat)).toNat

/-- The signed number that the lowest `8 * w` bits of `n` spell (R187). -/
def signedOf (w n : Nat) : Int := if 2 * n < 256 ^ w then n else (n : Int) - (256 ^ w : Nat)

/-- The unsigned field of `w` bytes at an offset of a body. -/
def uField (body : List Byte) (off w : Nat) : Nat := beNat ((body.drop off).take w)

/-- The signed field of `w` bytes at an offset of a body. -/
def sField (body : List Byte) (off w : Nat) : Int := signedOf w (uField body off w)

/-- A flag or yes/no value (R187). -/
def flagByte (x : Bool) : Byte := if x then 1 else 0

/-! ## Numbers of the part's objects (spec/00 section 5.4) -/

/-- The bay of a number 1 to 48. -/
def bayOf (n : Nat) : Option BayId := if h : 1 ≤ n ∧ n ≤ 48 then some ⟨n - 1, by omega⟩ else none

/-- The slot of a number 1 to 8. -/
def profileOf (n : Nat) : Option ProfileId := if h : 1 ≤ n ∧ n ≤ 8 then some ⟨n - 1, by omega⟩ else none

/-- The string of a number 1 to 16. -/
def stringOf (n : Nat) : Option StringId := if h : 1 ≤ n ∧ n ≤ 16 then some ⟨n - 1, by omega⟩ else none

/-- The seat of a code (R187). -/
def seatOf : Nat → Option SeatName
  | 1 => some .a
  | 2 => some .b
  | _ => none

def bayByte (b : BayId) : Byte := BitVec.ofNat 8 (b.val + 1)
def profileByte (p : ProfileId) : Byte := BitVec.ofNat 8 (p.val + 1)
def stringByte (x : StringId) : Byte := BitVec.ofNat 8 (x.val + 1)

def seatByte : SeatName → Byte
  | .a => 1
  | .b => 2

/-- String, position and seat, one byte each (R179). -/
def seatIdBytes (id : SeatId) : List Byte := [stringByte id.str, BitVec.ofNat 8 id.pos, seatByte id.seat]

/-- Every bay, in ascending number. -/
def allBays : List BayId := List.finRange 48

/-- Whether the 6 bytes of a bay set at an offset of a body hold a bay (R187). -/
def inBaySet (body : List Byte) (off : Nat) (b : BayId) : Bool :=
  (body.getD (off + b.val / 8) 0).getLsbD (b.val % 8)

/-- The 6 bytes of a bay set (R187). -/
def baySetBytes (set : List BayId) : List Byte :=
  (List.range 6).map fun k =>
    (List.range 8).foldl (fun (x : Byte) j =>
      if set.any (fun b => b.val == 8 * k + j) then x ||| BitVec.ofNat 8 (2 ^ j) else x) 0

/-! ## Codes (R175, R187, R83) -/

def Status.code : Status → Byte
  | .ok => 0x00 | .badLength => 0x01 | .badKind => 0x02 | .badValue => 0x03
  | .wrongState => 0x04 | .busy => 0x05 | .notFound => 0x06 | .duplicate => 0x07
  | .full => 0x08 | .inUse => 0x09 | .limit => 0x0A | .late => 0x0B
  | .mismatch => 0x0C | .notMatched => 0x0D | .reserved => 0x0E | .linkHeld => 0x0F

def Phase.code : Phase → Byte
  | .check => 1 | .rest0 => 2 | .chargeCC => 3 | .chargeCV => 4 | .rest1 => 5
  | .discharge => 6 | .restP => 7 | .pulse => 8 | .rest2 => 9

/-- NONE is 0 (R187). -/
def phaseByte : Option Phase → Byte
  | none => 0
  | some p => p.code

def BayState.code : BayState → Byte
  | .empty => 0x00 | .phase p => p.code | .cal => 0x0A | .loaded => 0x0B | .parked => 0x0C
  | .done => 0x0D | .rejected => 0x0E | .suspended => 0x0F | .aborted => 0x10

def Substate.code : Substate → Byte
  | .none => 0 | .awaitingGrant => 1 | .awaitingStage => 2 | .running => 3

def SuspensionCause.code : SuspensionCause → Byte
  | .contactNoise => 1 | .contactLost => 2 | .overtemp => 3 | .overcurrent => 4 | .sensor => 5
  | .tempOut => 6 | .stageNoAnswer => 7 | .stageFault => 8 | .externalOff => 9 | .busStall => 10
  | .stopAll => 11 | .lineRequest => 12 | .allowanceOverLimit => 13

def RejectCause.code : RejectCause → Byte
  | .notPresent => 1 | .overvoltage => 2 | .deepDischarge => 3 | .voltageSag => 4
  | .noResistance => 5 | .belowClassC => 6

def StageCode.code : StageCode → Byte
  | .ok => 0 | .overtemp => 1 | .outputFault => 2 | .inputLoss => 3

def GradeClass.code : GradeClass → Byte
  | .a => 1 | .b => 2 | .c => 3 | .x => 4

/-- The class of a code that a minimum class or a given record may carry: A, B or C. -/
def classOf : Nat → Option GradeClass
  | 1 => some .a
  | 2 => some .b
  | 3 => some .c
  | _ => none

def TrimQuantity.code : TrimQuantity → Byte
  | .gain => 1 | .offset => 2 | .current => 3

def trimQuantityOf : Nat → Option TrimQuantity
  | 1 => some .gain
  | 2 => some .offset
  | 3 => some .current
  | _ => none

def TrimRange.code : TrimRange → Byte
  | .fine => 0 | .coarse => 1

def trimRangeOf : Nat → Option TrimRange
  | 0 => some .fine
  | 1 => some .coarse
  | _ => none

/-- off 0, on 1 (R187). -/
def watchOf : Nat → Option Bool
  | 0 => some false
  | 1 => some true
  | _ => none

def LinkMode.code : LinkMode → Byte
  | .hold => 0 | .continue => 1

def linkModeOf : Nat → Option LinkMode
  | 0 => some .hold
  | 1 => some .continue
  | _ => none

def LinkRate.code : LinkRate → Byte
  | .r115 => 0 | .r460 => 1 | .r921 => 2

def linkRateOf : Nat → Option LinkRate
  | 0 => some .r115
  | 1 => some .r460
  | 2 => some .r921
  | _ => none

def LinkCause.code : LinkCause → Byte
  | .check => 1 | .length => 2 | .gap => 3

def BusState.code : BusState → Byte
  | .idle => 0 | .busy => 1 | .stalled => 2

def RestEnding.code : RestEnding → Byte
  | .none => 0 | .settled => 1 | .maximum => 2

/-- The kind codes of the stage bus (R83). -/
def WriteKind.code : WriteKind → Byte
  | .off => 0x10 | .chargeCurrent => 0x21 | .chargeVoltage => 0x22 | .dischargeCurrent => 0x23

def BusEntry.code : BusEntry → Byte
  | .write _ k _ _ => k.code
  | .statusRead _ => 0x30
  | .broadcastOff => 0x10

/-- The address byte of a transaction (R83). -/
def BusEntry.address : BusEntry → Byte
  | .write b _ _ _ => bayByte b
  | .statusRead b => bayByte b
  | .broadcastOff => 0

/-- The two value bytes of a transaction (R83). -/
def BusEntry.value : BusEntry → Nat
  | .write _ _ v _ => v
  | _ => 0

/-- The sum of a list of bytes modulo 256. -/
def byteSum (l : List Byte) : Byte := l.foldl (· + ·) 0

/-- The bytes with the check byte that makes their sum 0 modulo 256 at the end (R83, R175). -/
def withCheck (l : List Byte) : List Byte := l ++ [-(byteSum l)]

/-- The five bytes that the part sends for a transaction after its start condition (R83). -/
def BusEntry.bytes (e : BusEntry) : List Byte := withCheck ([e.address, e.code] ++ beBytes 2 e.value)

/-- The frame of a request, SYNC first (R175). -/
def requestFrame (kind tag : Byte) (body : List Byte) : List Byte :=
  Config.sync :: withCheck (beBytes 2 body.length ++ [kind, tag] ++ body)

/-- FLAGS: bit 0 CLAMPED, bit 1 OVERRUN (R175). -/
def Reply.flags (r : Reply) : Byte := (if r.clamped then 1 else 0) ||| (if r.overrun then 2 else 0)

/-- The frame of a reply, SYNC first (R175). -/
def Reply.frame (r : Reply) : List Byte :=
  Config.sync :: withCheck (beBytes 2 r.body.length ++ [r.kind, r.tag, r.status.code, r.flags] ++ r.body)

/-! ## Marks and causes as bytes (R187, R194) -/

def bitIf (x : Bool) (n : Nat) : Byte := if x then BitVec.ofNat 8 (2 ^ n) else 0

def Marks.byte (m : Marks) : Byte :=
  bitIf m.unsettled 0 ||| bitIf m.chargeTimeout 1 ||| bitIf m.dischargeTimeout 2 ||| bitIf m.saturated 3 |||
    bitIf m.interrupted 4 ||| bitIf m.watchOff 5

def marksOf (x : Byte) : Marks :=
  { unsettled := x.getLsbD 0, chargeTimeout := x.getLsbD 1, dischargeTimeout := x.getLsbD 2,
    saturated := x.getLsbD 3, interrupted := x.getLsbD 4, watchOff := x.getLsbD 5 }

def Causes.byte (c : Causes) : Byte :=
  bitIf c.notices 0 ||| bitIf c.attention 1 ||| bitIf c.poolFull 2 ||| bitIf c.linkError 3 |||
    bitIf c.overflow 4 ||| bitIf c.stageBus 5

def causesOf (x : Byte) : Causes :=
  { notices := x.getLsbD 0, attention := x.getLsbD 1, poolFull := x.getLsbD 2, linkError := x.getLsbD 3,
    overflow := x.getLsbD 4, stageBus := x.getLsbD 5 }

/-! ## Profiles on the link (R188) -/

/-- The profile whose 71 bytes stand at an offset of a body. -/
def Profile.ofBytes (body : List Byte) (o : Nat) : Profile :=
  { nameplate := uField body o 2, nominalRes := uField body (o + 2) 2, presentLow := uField body (o + 4) 2,
    presentHigh := uField body (o + 6) 2, floor := uField body (o + 8) 2, tempLow := sField body (o + 10) 2,
    tempHigh := sField body (o + 12) 2, windowLen := uField body (o + 14) 1, deadBand := uField body (o + 15) 1,
    settleLimit := uField body (o + 16) 1, restMin := uField body (o + 17) 2, restMax := uField body (o + 19) 2,
    chargeCurrent := uField body (o + 21) 2, cvVoltage := uField body (o + 23) 2, endCurrent := uField body (o + 25) 2,
    chargeLimit := uField body (o + 27) 2, dischargeCurrent := uField body (o + 29) 2, cutoff := uField body (o + 31) 2,
    dischargeLimit := uField body (o + 33) 2, pulseCurrent := uField body (o + 35) 2, pulseLen := uField body (o + 37) 1,
    prePulse := uField body (o + 38) 2, minDelta := uField body (o + 40) 2, observation := uField body (o + 42) 2,
    revHigh := uField body (o + 44) 1, revLow := uField body (o + 45) 1, rippleLow := uField body (o + 46) 2,
    rippleHigh := uField body (o + 48) 2, sagDrift := uField body (o + 50) 2, tempCoeff := uField body (o + 52) 1,
    sohA := uField body (o + 53) 2, sohB := uField body (o + 55) 2, sohC := uField body (o + 57) 2,
    ratioA := uField body (o + 59) 2, ratioB := uField body (o + 61) 2, ratioC := uField body (o + 63) 2,
    sdA := uField body (o + 65) 2, sdB := uField body (o + 67) 2, sdC := uField body (o + 69) 2 }

/-- The 71 bytes of a profile. -/
def Profile.bytes (p : Profile) : List Byte :=
  beBytes 2 p.nameplate ++ beBytes 2 p.nominalRes ++ beBytes 2 p.presentLow ++ beBytes 2 p.presentHigh ++
  beBytes 2 p.floor ++ sBytes 2 p.tempLow ++ sBytes 2 p.tempHigh ++ beBytes 1 p.windowLen ++ beBytes 1 p.deadBand ++
  beBytes 1 p.settleLimit ++ beBytes 2 p.restMin ++ beBytes 2 p.restMax ++ beBytes 2 p.chargeCurrent ++
  beBytes 2 p.cvVoltage ++ beBytes 2 p.endCurrent ++ beBytes 2 p.chargeLimit ++ beBytes 2 p.dischargeCurrent ++
  beBytes 2 p.cutoff ++ beBytes 2 p.dischargeLimit ++ beBytes 2 p.pulseCurrent ++ beBytes 1 p.pulseLen ++
  beBytes 2 p.prePulse ++ beBytes 2 p.minDelta ++ beBytes 2 p.observation ++ beBytes 1 p.revHigh ++
  beBytes 1 p.revLow ++ beBytes 2 p.rippleLow ++ beBytes 2 p.rippleHigh ++ beBytes 2 p.sagDrift ++
  beBytes 1 p.tempCoeff ++ beBytes 2 p.sohA ++ beBytes 2 p.sohB ++ beBytes 2 p.sohC ++ beBytes 2 p.ratioA ++
  beBytes 2 p.ratioB ++ beBytes 2 p.ratioC ++ beBytes 2 p.sdA ++ beBytes 2 p.sdB ++ beBytes 2 p.sdC

/-! ## Grade records on the link (R188) -/

/-- A grade record given on the link, at an offset of a body, as far as its codes go: profile 1 to 8, bay 1 to 48,
class A to C, no reject cause, resistance and ratio present, no presence or mark bit without a meaning (R128 check 2,
R148 check 5, R177; log 22). The self-discharge bytes of a record whose presence bit is clear are not looked at: DESIGN
CHOICE (log 22). The ranges of tag, Tm and SOH are left to the owner. -/
def gradeOfBytes (body : List Byte) (o : Nat) : Option GradeRecord :=
  match profileOf (uField body (o + 4) 1), bayOf (uField body (o + 5) 1), classOf (uField body (o + 6) 1) with
  | some p, some b, some cls =>
    if uField body (o + 7) 1 = 0 ∧ uField body (o + 22) 1 % 2 = 1 ∧ uField body (o + 22) 1 < 4 ∧
        uField body (o + 23) 1 < 64 then
      some { tag := uField body o 4, profile := p, bay := b, cls := cls, reject := none, craw := uField body (o + 8) 2,
             tm := sField body (o + 10) 2, ccorr := uField body (o + 12) 2, soh := uField body (o + 14) 2,
             res := some (uField body (o + 16) 2, uField body (o + 18) 2),
             sd := if uField body (o + 22) 1 = 3 then some (uField body (o + 20) 2) else none,
             marks := marksOf (body.getD (o + 23) 0) }
    else none
  | _, _, _ => none

/-- The 24 bytes of a grade record. -/
def GradeRecord.bytes (r : GradeRecord) : List Byte :=
  beBytes 4 r.tag ++ [profileByte r.profile, bayByte r.bay, r.cls.code, (r.reject.map RejectCause.code).getD 0] ++
  beBytes 2 r.craw ++ sBytes 2 r.tm ++ beBytes 2 r.ccorr ++ beBytes 2 r.soh ++
  beBytes 2 ((r.res.map Prod.fst).getD 0) ++ beBytes 2 ((r.res.map Prod.snd).getD 0) ++ beBytes 2 (r.sd.getD 0) ++
  [bitIf r.res.isSome 0 ||| bitIf r.sd.isSome 1, r.marks.byte]

/-- `w` bytes of zero. -/
def zeros (w : Nat) : List Byte := List.replicate w 0

/-- The 32 bytes of a candidate record. -/
def Candidate.bytes (r : Candidate) : List Byte :=
  r.grade.bytes ++ beBytes 4 r.seq ++ beBytes 1 r.lapses ++
  (match r.status with
   | none => zeros 3
   | some id => seatIdBytes id)

/-! ## Window record and bay record on the link (R189) -/

/-- The 30 bytes of GET-WINDOW; all zeros when no window has been closed (R40). A CAL window has phase 0x0A. -/
def windowBytes (b : BayId) : Option WindowRecord → List Byte
  | none => zeros 30
  | some r =>
    [bayByte b, match r.phase with | none => 0x0A | some p => p.code] ++ beBytes 4 r.index ++ beBytes 1 r.count ++
    beBytes 3 r.sumV ++ beBytes 2 r.meanV ++ beBytes 2 r.minV ++ beBytes 2 r.maxV ++ beBytes 2 r.ripple ++
    sBytes 3 r.drift ++ beBytes 1 r.reversals ++ sBytes 3 r.sumI ++ sBytes 2 r.meanI ++ sBytes 2 r.meanT ++
    [bitIf r.sat 0 ||| bitIf r.isPartial 1]

/-- The cause byte and the stage code byte of a bay record (R189). -/
def Cause.bytes : Cause → List Byte
  | .none => [0, 0]
  | .suspension c k => [c.code, k.code]
  | .reject c => [c.code, 0]

/-- The 87 bytes of GET-BAY. -/
def Bay.bytes (r : Bay) : List Byte :=
  [r.state.code, r.substate.code, bitIf (r.state == .done) 0 ||| bitIf r.grade.isSome 1] ++
  beBytes 4 (r.tag.getD 0) ++ [(r.profile.map profileByte).getD 0] ++ beBytes 2 r.entry ++ beBytes 3 r.clock ++
  [phaseByte r.resume] ++ r.cause.bytes ++ [r.marks.byte] ++ beBytes 3 r.chargeTime ++ beBytes 3 r.dischargeTime ++
  beBytes 4 r.q ++ beBytes 3 r.dCount ++ sBytes 4 r.dWeight ++ beBytes 3 r.preV ++ sBytes 3 r.preI ++
  beBytes 3 r.pulseV ++ sBytes 3 r.pulseI ++ beBytes 4 r.obsIndex ++ beBytes 3 r.obsFirst ++ beBytes 3 r.obsK ++
  beBytes 3 r.obsLeft ++ beBytes 3 r.obsLast ++ [r.restEnding.code] ++
  (match r.grade with
   | none => zeros 24
   | some g => g.bytes)

/-! ## Notices on the link (R189) -/

/-- The fields of a notice after its kind, packed. -/
def Notice.fields : Notice → List Byte
  | .graded tag bay cls ccorr soh => beBytes 4 tag ++ [bayByte bay, cls.code] ++ beBytes 2 ccorr ++ beBytes 2 soh
  | .rejected tag bay cause none => beBytes 4 tag ++ [bayByte bay, cause.code, 0] ++ zeros 6
  | .rejected tag bay cause (some (ccorr, soh, res)) =>
    beBytes 4 tag ++ [bayByte bay, cause.code, 1 ||| bitIf res.isSome 1] ++ beBytes 2 ccorr ++ beBytes 2 soh ++
    beBytes 2 (res.getD 0)
  | .suspended bay cause code resume => [bayByte bay, cause.code, code.code, phaseByte resume]
  | .place tag seat seconds => beBytes 4 tag ++ seatIdBytes seat ++ beBytes 2 seconds
  | .lapsed tag seat lapses => beBytes 4 tag ++ seatIdBytes seat ++ beBytes 1 lapses
  | .dropped tag => beBytes 4 tag
  | .stringComplete str => [stringByte str]

def Notice.code : Notice → Byte
  | .graded .. => 1 | .rejected .. => 2 | .suspended .. => 3 | .place .. => 4 | .lapsed .. => 5
  | .dropped .. => 6 | .stringComplete .. => 7

/-- The 14 bytes of a notice. -/
def Notice.bytes (n : Notice) : List Byte := (n.code :: n.fields) ++ zeros (13 - n.fields.length)

end Sys2Proof.Machine
end

