-- ==== Sys2Proof/Machine/Flags.lean ====
section
/-! DEFINITION. The flags of the part: the alert causes and the ALERT line (R194, R195), the marks of a record and
the caps they set (R119), and the hold of the link (R181). -/

namespace Sys2Proof.Machine

/-- NOTICES, ATTENTION and POOL_FULL follow their conditions; LINK_ERROR, OVERFLOW and STAGE_BUS are latched (R194). -/
def State.rawCauses (s : State) : Causes :=
  { notices := decide (s.nqa.threshold ≤ s.nqa.queue.length)
    attention := s.bays.toList.any fun r => r.state == .suspended
    poolFull := decide (s.pool.records.length = Config.poolRoom)
    linkError := s.nqa.linkError
    overflow := s.nqa.overflowCause
    stageBus := s.nqa.stageBus }

/-- The causes both enabled and raised (R195). -/
def State.activeCauses (s : State) : Causes :=
  let r := s.rawCauses
  let e := s.nqa.enables
  { notices := r.notices && e.notices, attention := r.attention && e.attention, poolFull := r.poolFull && e.poolFull,
    linkError := r.linkError && e.linkError, overflow := r.overflow && e.overflow,
    stageBus := r.stageBus && e.stageBus }

/-- ALERT is driven low while at least one cause is both enabled and raised, and is released during reset (R195). -/
def State.alertLow (s : State) : Bool :=
  let c := s.activeCauses
  !s.inReset && (c.notices || c.attention || c.poolFull || c.linkError || c.overflow || c.stageBus)

/-- The link is held while its mode is HOLD and the error count is at least 1 (R181). -/
def Link.held (l : Link) : Bool := l.mode == .hold && decide (1 ≤ l.errorCount)

/-- A, B, C, X from best to worst, as numbers that rise as the class falls. -/
def GradeClass.rank : GradeClass → Nat
  | .a => 0 | .b => 1 | .c => 2 | .x => 3

/-- The highest class that the marks allow (R119). -/
def Marks.cap (m : Marks) : GradeClass :=
  if m.chargeTimeout || m.saturated || m.dischargeTimeout then .c
  else if m.unsettled || m.interrupted || m.watchOff then .b
  else .a

/-- A class lowered to a cap; X stays X (R119). -/
def GradeClass.capped (cls cap : GradeClass) : GradeClass := if cls.rank < cap.rank then cap else cls

/-- A counter that stays at its top (R54, R180, R191). -/
def satAdd (top n k : Nat) : Nat := min top (n + k)

end Sys2Proof.Machine
end

