-- ==== Sys2Proof/Machine/Ops.lean ====
section
/-! DEFINITION. The shared operations: access to the numbered records, the hand-overs between blocks (log 3), the
stage queue (R86), the notice queue (R191), the link's dispatch of a request (R177) and its errors (R180), and the two
shells in which every command runs. -/

namespace Sys2Proof.Machine

/-! ## Numbered records -/

/-- A numbered record replaced by a function of itself. -/
def updAt {α : Type} {n : Nat} (v : Vector α n) (i : Fin n) (f : α → α) : Vector α n := v.set i.val (f (v.get i)) i.isLt

def State.bay (s : State) (b : BayId) : Bay := s.bays.get b
def State.wevBay (s : State) (b : BayId) : WevBay := s.wev.get b
def State.trims (s : State) (b : BayId) : TrimSet := s.scan.get b
def State.string (s : State) (x : StringId) : BankString := s.bank.get x
def State.grantOf (s : State) (b : BayId) : Nat := (s.caa.grants.get b).mag

def State.updBay (s : State) (b : BayId) (f : Bay → Bay) : State := { s with bays := updAt s.bays b f }
def State.updWev (s : State) (b : BayId) (f : WevBay → WevBay) : State := { s with wev := updAt s.wev b f }
def State.updTrims (s : State) (b : BayId) (f : TrimSet → TrimSet) : State := { s with scan := updAt s.scan b f }
def State.updString (s : State) (x : StringId) (f : BankString → BankString) : State :=
  { s with bank := updAt s.bank x f }
def State.updNqa (s : State) (f : Nqa → Nqa) : State := { s with nqa := f s.nqa }
def State.updSbc (s : State) (f : StageBus → StageBus) : State := { s with sbc := f s.sbc }
def State.updCaa (s : State) (f : Allowance → Allowance) : State := { s with caa := f s.caa }
def State.updPool (s : State) (f : Pool → Pool) : State := { s with pool := f s.pool }
def State.updPlm (s : State) (f : Matcher → Matcher) : State := { s with plm := f s.plm }
def State.updLink (s : State) (f : Link → Link) : State := { s with link := f s.link }

/-! ## Hand-overs (log 3) -/

def State.tellWev (s : State) (b : BayId) (m : WevMsg) : State := { s with toWev := updAt s.toWev b (· ++ [m]) }
def State.tellBsq (s : State) (b : BayId) (m : BsqMsg) : State := { s with toBsq := updAt s.toBsq b (· ++ [m]) }
def State.tellCaa (s : State) (m : CaaMsg) : State := { s with toCaa := s.toCaa ++ [m] }
def State.handGrant (s : State) (m : GrantMsg) : State := { s with grantsOut := s.grantsOut ++ [m] }

/-! ## Profiles in use by a bay (R14, R52) -/

/-- What a bay without a profile would read: no bay in a phase is without one (R14; log 32). -/
def Profile.blank : Profile :=
  { nameplate := 0, nominalRes := 0, presentLow := 0, presentHigh := 0, floor := 0, tempLow := 0, tempHigh := 0,
    windowLen := 0, deadBand := 0, settleLimit := 0, restMin := 0, restMax := 0, chargeCurrent := 0, cvVoltage := 0,
    endCurrent := 0, chargeLimit := 0, dischargeCurrent := 0, cutoff := 0, dischargeLimit := 0, pulseCurrent := 0,
    pulseLen := 0, prePulse := 0, minDelta := 0, observation := 0, revHigh := 0, revLow := 0, rippleLow := 0,
    rippleHigh := 0, sagDrift := 0, tempCoeff := 0, sohA := 0, sohB := 0, sohC := 0, ratioA := 0, ratioB := 0,
    ratioC := 0, sdA := 0, sdB := 0, sdC := 0 }

/-- The profile in a slot, if it is FILLED (R1). -/
def State.slot (s : State) (p : ProfileId) : Option Profile := s.profiles.get p

/-- The profile of a bay, read from its slot (R14). -/
def State.profileOfBay (s : State) (b : BayId) : Profile :=
  ((s.bay b).profile.bind s.slot).getD Profile.blank

/-! ## Phases (spec/00 section 4) -/

def Phase.isCurrent : Phase → Bool
  | .chargeCC | .chargeCV | .discharge | .pulse => true
  | _ => false

def Phase.isRest : Phase → Bool
  | .rest0 | .rest1 | .restP | .rest2 => true
  | _ => false

/-- The setpoint current magnitude of a current phase, which is its request and its grant (R42, R59). -/
def Profile.phaseCurrent (p : Profile) : Phase → Nat
  | .chargeCC | .chargeCV => p.chargeCurrent
  | .discharge => p.dischargeCurrent
  | .pulse => p.pulseCurrent
  | _ => 0

/-! ## The stage queue (R86) -/

def BusEntry.isWriteOf (b : BayId) : BusEntry → Bool
  | .write b' _ _ _ => b' == b
  | _ => false

def BusEntry.isReadOf (b : BayId) : BusEntry → Bool
  | .statusRead b' => b' == b
  | _ => false

def BusEntry.isWrite : BusEntry → Bool
  | .write _ _ _ _ => true
  | _ => false

def BusEntry.isBroadcast : BusEntry → Bool
  | .broadcastOff => true
  | _ => false

/-- A setpoint write joins at the tail, or takes the place of the bay's pending one (R86). -/
def joinWrite (b : BayId) (k : WriteKind) (value label : Nat) (q : List BusEntry) : List BusEntry :=
  if q.any (·.isWriteOf b) then q.map fun e => if e.isWriteOf b then .write b k value label else e
  else q ++ [.write b k value label]

/-- A status read joins at the tail, or is merged with the bay's pending one (R86). -/
def joinRead (b : BayId) (q : List BusEntry) : List BusEntry :=
  if q.any (·.isReadOf b) then q else q ++ [.statusRead b]

/-- The broadcast OFF joins at the head, or is merged with the pending one (R86). -/
def joinBroadcast (q : List BusEntry) : List BusEntry :=
  if q.any (·.isBroadcast) then q else .broadcastOff :: q

/-- The queue without the pending setpoint write of a bay. -/
def dropWrite (b : BayId) (q : List BusEntry) : List BusEntry := q.filter fun e => !e.isWriteOf b

/-- An entry put at the head, behind a pending broadcast OFF (R94). -/
def putHead (e : BusEntry) : List BusEntry → List BusEntry
  | .broadcastOff :: q => .broadcastOff :: e :: q
  | q => e :: q

/-- An abandoned entry returned to the queue, or dropped where a newer one of its kind has been queued since: of a
setpoint write, whether or not the newer one is still there (R94). -/
def returnEntry (newer : Bool) (e : BusEntry) (q : List BusEntry) : List BusEntry :=
  match e with
  | .write b _ _ _ => if newer || q.any (·.isWriteOf b) then q else putHead e q
  | .statusRead b => if q.any (·.isReadOf b) then q else putHead e q
  | .broadcastOff => joinBroadcast q

/-- Whether the transaction in flight or abandoned is a setpoint write of a bay (R94). -/
def StageBus.hasTaken (b : BayId) (x : StageBus) : Bool :=
  x.inFlight.any (·.isWriteOf b) || x.abandoned.any (·.isWriteOf b)

/-- A setpoint write of a bay is queued (R86); it is newer than a write of the bay in flight or abandoned (R94). -/
def StageBus.write (b : BayId) (k : WriteKind) (value label : Nat) (x : StageBus) : StageBus :=
  { x with queue := joinWrite b k value label x.queue, newer := x.newer || x.hasTaken b }

def State.queueWrite (s : State) (b : BayId) (k : WriteKind) (value label : Nat) : State :=
  s.updSbc (StageBus.write b k value label)

/-- Whether a setpoint write of the bay is pending or in flight at SBC. A write abandoned at a lost arbitration and
not yet dealt with counts as pending (log 12, DESIGN CHOICE). -/
def State.writeInHand (s : State) (b : BayId) : Bool :=
  s.sbc.queue.any (·.isWriteOf b) || s.sbc.inFlight.any (·.isWriteOf b) || s.sbc.abandoned.any (·.isWriteOf b)

/-- Whether a broadcast OFF is pending or in flight at SBC; an abandoned one counts as pending (log 12). -/
def State.broadcastInHand (s : State) : Bool :=
  s.sbc.queue.any (·.isBroadcast) || s.sbc.inFlight.any (·.isBroadcast) || s.sbc.abandoned.any (·.isBroadcast)

/-! ## Notices and passes -/

/-- A notice offered to NQA: it joins the tail, or is discarded and counted (R191). -/
def Nqa.push (n : Notice) (x : Nqa) : Nqa :=
  if x.queue.length < Config.noticeRoom then { x with queue := x.queue ++ [n] }
  else { x with overflow := satAdd 255 x.overflow 1, overflowCause := true }

def State.notify (s : State) (n : Notice) : State := s.updNqa (Nqa.push n)

/-- A pass is asked for: pending, or dropped while the matcher is paused (R157). -/
def State.askPass (s : State) : State :=
  s.updPlm fun m => if m.paused then m else { m with passPending := true }

/-! ## Tags held (R55, R129, R140) -/

/-- Whether a bay in this state holds its tag (R55). -/
def BayState.holdsTag : BayState → Bool
  | .empty | .cal | .done => false
  | _ => true

def Bay.holds (r : Bay) (tag : Nat) : Bool := r.state.holdsTag && r.tag == some tag

/-- The tag a seat holds (R140). -/
def Seat.tag : Seat → Option Nat
  | .reserved tag _ _ => some tag
  | .installed r => some r.tag
  | _ => none

/-- The seats of a string, in the order of positions, A before B. -/
def BankString.seats (x : BankString) : List Seat := x.positions.flatMap fun p => [p.a, p.b]

/-- Whether a tag is held by any bay, pool record or seat. -/
def State.tagHeld (s : State) (tag : Nat) : Bool :=
  s.bays.toList.any (·.holds tag) || s.pool.records.any (·.grade.tag == tag) ||
    s.bank.toList.any fun x => x.seats.any (·.tag == some tag)

/-! ## Link errors (R180) -/

/-- A link error: logged when it is the first since the last clear, counted, and LINK_ERROR latched. -/
def State.linkError (s : State) (e : LinkLog) : State :=
  { s with
    link := { s.link with log := if s.link.errorCount = 0 then some e else s.link.log,
                          errorCount := satAdd 255 s.link.errorCount 1 }
    nqa := { s.nqa with linkError := true } }

/-- The log of a LENGTH error (R180). -/
def lengthLog (hi lo : Byte) : LinkLog :=
  { cause := .length, kind := 0, tag := 0, len := beNat [hi, lo], received := 0, computed := 0 }

/-- The log of a GAP error after the bytes held (R180). -/
def gapLog (held : List Byte) : LinkLog :=
  { cause := .gap, kind := held.getD 2 0, tag := held.getD 3 0,
    len := if 2 ≤ held.length then beNat (held.take 2) else 0, received := 0, computed := 0 }

/-- The CHECK that makes the sum of a frame 0 (R175). -/
def computedCheck (k t : Byte) (body : List Byte) : Byte := -(byteSum (beBytes 2 body.length ++ [k, t] ++ body))

/-- The log of a CHECK error (R180). -/
def checkLog (k t : Byte) (body : List Byte) (check : Byte) : LinkLog :=
  { cause := .check, kind := k, tag := t, len := body.length, received := check, computed := computedCheck k t body }

/-! ## Dispatch of a request (R177, R179) -/

/-- What the owner of a message answers: status, CLAMPED, body, and what follows the sending of the reply. -/
structure Answer where
  status : Status
  clamped : Bool := false
  body : List Byte := []
  act : ReplyAct := .none
  deriving DecidableEq, Repr

def Answer.ok (body : List Byte := []) : Answer := { status := .ok, body := body }
def Answer.refuse (st : Status) (body : List Byte := []) : Answer := { status := st, body := body }

/-- A message kind of the catalogue (R186): its code, its body sizes, whether it is served on a held link (R177), and
the body of a reply that the link itself refuses (R179). -/
structure MessageKind where
  code : Byte
  size : Nat
  upTo : Bool := false
  onHeld : Bool := false
  refusedBody : List Byte := []
  deriving DecidableEq, Repr

/-- Whether a body size suits the kind (R186). -/
def MessageKind.takes (m : MessageKind) (len : Nat) : Bool :=
  if m.upTo then decide (len ≤ m.size) else decide (len = m.size)

/-- The reply of an answer to a request (R175). -/
def Answer.reply (a : Answer) (kind tag : Byte) : Reply :=
  { kind := kind ||| 0x80, tag := tag, status := a.status, clamped := a.clamped, overrun := false, body := a.body,
    act := a.act }

/-- A request answered: its reply is formed, which is pending until it begins to be sent (R175, R178). The receiver has
returned to HUNT with the frame's last byte (R176), and may be within a next frame. -/
def State.answered (s : State) (kind tag : Byte) (a : Answer) : State :=
  s.updLink fun l => { l with reply := some (a.reply kind tag) }

/-- A frame that meets a pending reply is an overrun frame: it is not dispatched, and sets the mark (R178; log 6). -/
def State.overrunFrame (s : State) : State := s.updLink fun l => { l with overrun := true }

/-- A good frame of a known kind, dispatched in the order of R177. The owner serves the request in the same taking. -/
def message (m : MessageKind) (t : Byte) (body : List Byte) (serve : State → State × Answer) (s : State) :
    Host.Outcome State Fault Refusal :=
  .next <|
    if s.inReset then s
    else if s.link.reply.isSome then s.overrunFrame
    else if s.link.held && !m.onHeld then s.answered m.code t (.refuse .linkHeld m.refusedBody)
    else if m.takes body.length then (serve s).1.answered m.code t (serve s).2
    else s.answered m.code t (.refuse .badLength m.refusedBody)

/-- An event; the part held in reset takes none (log 7). -/
def event (f : State → State) (s : State) : Host.Outcome State Fault Refusal :=
  .next (if s.inReset then s else f s)

/-! ## Forms of request that many messages share -/

/-- A message that names a bay in the first byte of its body: NOT_FOUND for a number outside 1 to 48. -/
def onBay (body : List Byte) (f : BayId → State → State × Answer) (s : State) : State × Answer :=
  match bayOf (uField body 0 1) with
  | none => (s, .refuse .notFound)
  | some b => f b s

/-- A message that names a string at an offset of its body: NOT_FOUND for a number outside 1 to 16 (R138). -/
def onString (body : List Byte) (off : Nat) (f : StringId → State → State × Answer) (s : State) : State × Answer :=
  match stringOf (uField body off 1) with
  | none => (s, .refuse .notFound)
  | some x => f x s

end Sys2Proof.Machine
end

