-- ==== Sys2Proof/Machine/Grade.lean ====
section
/-! DEFINITION. The Grade Unit (spec/06): the stages of the grading arithmetic on exact integers, each with the
rounding its rule states. GRU holds no state (R106). -/

namespace Sys2Proof.Machine

/-- Rounded half up (spec/00 section 5.2). -/
def roundHalfUp (a b : Nat) : Nat := (a + b / 2) / b

/-- A signed quotient rounded half away from zero (R36, R110). -/
def roundHalfAway (x : Int) (n : Nat) : Int :=
  let m : Nat := (x.natAbs + n / 2) / n
  if x < 0 then -(m : Int) else m

/-- A result cut to 16 bits, and whether it was saturated (R108). -/
def sat16 (x : Nat) : Nat := min 65535 x
def over16 (x : Nat) : Bool := decide (65535 < x)

/-- What BSQ hands GRU (R107). `obs` is first window sum V, last window sum V and K. -/
structure GradeInputs where
  q : Nat
  dCount : Nat
  dWeight : Int
  preV : Nat
  preI : Int
  pulseV : Nat
  pulseI : Int
  obs : Option (Nat × Nat × Nat)
  marks : Marks
  tag : Nat
  bay : BayId
  profile : ProfileId
  deriving DecidableEq, Repr

/-- Stage 1 before saturation (R109). -/
def crawOf (q : Nat) : Nat := (q + 18000) / 36000

/-- Stage 2 (R110). -/
def tmOf (weight : Int) (count : Nat) : Int := roundHalfAway weight count

/-- Stage 3 (R111). -/
def factorOf (c : Nat) (tm : Int) : Nat :=
  (min 11000 (max 9000 (10000 + ((c : Int) * (250 - tm)).tdiv 10))).toNat

/-- Stage 4 before saturation (R112). -/
def ccorrOf (craw f : Nat) : Nat := (craw * f + 5000) / 10000

/-- Stage 5 (R113). -/
def sohOf (ccorr nameplate : Nat) : Nat := min 1200 (roundHalfUp (ccorr * 1000) nameplate)

/-- Stage 6: ΔVs (R114). -/
def deltaV (preV pulseV : Nat) : Int := (preV : Int) - pulseV

/-- Stage 6: ΔIs (R114). -/
def deltaI (preI pulseI : Int) : Nat := (pulseI - preI).natAbs

/-- Stage 6: the resistance before saturation, where it is present (R114, R115). -/
def resistanceOf (minDelta : Nat) (dv : Int) (di : Nat) : Option Nat :=
  if di < 4 * minDelta ∨ dv ≤ 0 then none else some (roundHalfUp (dv.toNat * 10000) di)

/-- Stage 6: the ratio before saturation (R116). -/
def ratioOf (r nominal : Nat) : Nat := roundHalfUp (r * 100) nominal

/-- Stage 7 before saturation: the drop of the observation over its span K windows of W samples (R117). -/
def selfDischargeOf (w first last k : Nat) : Nat :=
  roundHalfUp ((first - last) * 864000) (w * (k * w))

/-- One class test of R118: SOH, ratio and self-discharge against the limits of a class. -/
def passes (soh ratio : Nat) (sd : Option Nat) (sohMin ratioMax sdMax : Nat) : Bool :=
  decide (sohMin ≤ soh) && decide (ratio ≤ ratioMax) && sd.all fun x => decide (x ≤ sdMax)

/-- The class before caps, with its reject cause (R118). -/
def classBefore (p : Profile) (soh : Nat) (ratio sd : Option Nat) : GradeClass × Option RejectCause :=
  match ratio with
  | none => (.x, some .noResistance)
  | some r =>
    if passes soh r sd p.sohA p.ratioA p.sdA then (.a, none)
    else if passes soh r sd p.sohB p.ratioB p.sdB then (.b, none)
    else if passes soh r sd p.sohC p.ratioC p.sdC then (.c, none)
    else (.x, some .belowClassC)

/-- The grade record of a set of inputs under a profile (R106, R121). -/
def gradeRecord (p : Profile) (x : GradeInputs) : GradeRecord :=
  let craw0 := crawOf x.q
  let craw := sat16 craw0
  let tm := tmOf x.dWeight x.dCount
  let ccorr0 := ccorrOf craw (factorOf p.tempCoeff tm)
  let ccorr := sat16 ccorr0
  let soh := sohOf ccorr p.nameplate
  let res0 := resistanceOf p.minDelta (deltaV x.preV x.pulseV) (deltaI x.preI x.pulseI)
  let res := res0.map sat16
  let ratio0 := res.map (ratioOf · p.nominalRes)
  let ratio := ratio0.map sat16
  let sd0 := x.obs.map fun (first, last, k) => selfDischargeOf p.windowLen first last k
  let sd := sd0.map sat16
  let saturated := x.marks.saturated || over16 craw0 || over16 ccorr0 || res0.any over16 || ratio0.any over16 ||
    sd0.any over16
  let marks := { x.marks with saturated := saturated }
  let before := classBefore p soh ratio sd
  { tag := x.tag, profile := x.profile, bay := x.bay, cls := before.1.capped marks.cap, reject := before.2,
    craw := craw, tm := tm, ccorr := ccorr, soh := soh,
    res := res.bind fun r => ratio.map fun k => (r, k),
    sd := sd, marks := marks }

end Sys2Proof.Machine
end

