-- ==== Sys2Proof/Machine/Window.lean ====
section
/-! DEFINITION. The Scan Converter's arithmetic (spec/02 sections 2.4 and 2.5) and the Window Evaluator (spec/03):
folding, window records, detectors and checks, and the three events that WEV takes from BSQ. -/

namespace Sys2Proof.Machine

/-! ## Conversion and trim -/

/-- A value clamped to a range. -/
def clampTo (lo hi x : Int) : Int := max lo (min hi x)

/-- Whether a value lies outside a range. -/
def outside (lo hi x : Int) : Bool := decide (x < lo) || decide (hi < x)

/-- The gain factor of a trim set (R21). -/
def TrimSet.factor (k : TrimSet) : Int :=
  match k.range with
  | .fine => 10000 + k.gain
  | .coarse => 10000 + 5 * k.gain

/-- The raw voltage with the gain trim, rounded half up, and the offset trim, before its clamp (R21). -/
def TrimSet.trimV (k : TrimSet) (raw : Int) : Int := (raw * k.factor + 5000) / 10000 + k.offset

/-- The sample of three analog inputs, trimmed unless the bay was in calibration when it was taken (R17 to R23). -/
def convert (k : TrimSet) (vin iin tin : Int) (inCal : Bool) : Sample :=
  let rawV := clampTo 0 65535 vin
  let rawI := clampTo (-32767) 32767 iin
  let trimmedV := if inCal then rawV else k.trimV rawV
  let trimmedI := if inCal then rawI else rawI + k.current
  { v := (clampTo 0 65535 trimmedV).toNat
    i := clampTo (-32767) 32767 trimmedI
    t := clampTo (-400) 1250 tin
    satV := outside 0 65535 vin || outside 0 65535 trimmedV
    satI := outside (-32767) 32767 iin || outside (-32767) 32767 trimmedI
    satT := outside (-400) 1250 tin
    untrimmed := inCal }

/-! ## Windows -/

/-- Whether a sample carries a SAT mark (R16). -/
def Sample.sat (x : Sample) : Bool := x.satV || x.satI || x.satT

/-- The window that a sample begins (R35, R38). -/
def WindowAcc.begin (index : Nat) (x : Sample) : WindowAcc :=
  { index := index, n := 1, sumV := x.v, firstV := x.v, lastV := x.v, minV := x.v, maxV := x.v, reversals := 0,
    dir := none, sumI := x.i, sumT := x.t, sat := x.sat, satT := x.satT }

/-- A sample added to the window in progress; differences within the dead band are ignored (R36 to R38). -/
def WindowAcc.add (dead : Nat) (a : WindowAcc) (x : Sample) : WindowAcc :=
  let d : Int := (x.v : Int) - a.lastV
  let counted := decide (dead < d.natAbs)
  let up := decide (0 < d)
  { a with
    n := a.n + 1, sumV := a.sumV + x.v, lastV := x.v, minV := min a.minV x.v, maxV := max a.maxV x.v,
    reversals := if counted && a.dir == some (!up) then a.reversals + 1 else a.reversals,
    dir := if counted then some up else a.dir,
    sumI := a.sumI + x.i, sumT := a.sumT + x.t, sat := a.sat || x.sat, satT := a.satT || x.satT }

/-- The record of a window that is closed (R36, R37). -/
def WindowAcc.close (phase : Option Phase) (isPartial : Bool) (a : WindowAcc) : WindowRecord :=
  { phase := phase, index := a.index, count := a.n, sumV := a.sumV, meanV := roundHalfUp a.sumV a.n, minV := a.minV,
    maxV := a.maxV, ripple := a.maxV - a.minV, drift := (a.lastV : Int) - a.firstV, reversals := a.reversals,
    sumI := a.sumI, meanI := roundHalfAway a.sumI a.n, meanT := roundHalfAway a.sumT a.n, sat := a.sat,
    isPartial := isPartial }

/-- The last-four sample ring with a sample added (R39). -/
def ringAdd (ring : List (Nat × Int)) (x : Sample) : List (Nat × Int) :=
  (if ring.length < 4 then ring else ring.drop 1) ++ [(x.v, x.i)]

/-! ## Detectors and checks (sections 3.6 and 3.8) -/

/-- Quiet: the magnitude of the drift does not exceed the settle limit (R44). -/
def quietWindow (p : Profile) (r : WindowRecord) : Bool := decide (r.drift.natAbs ≤ p.settleLimit)

/-- R46. -/
def noiseWindow (p : Profile) (r : WindowRecord) : Bool :=
  decide (p.revHigh ≤ r.reversals) && decide (p.rippleLow ≤ r.ripple) && decide (r.ripple ≤ p.rippleHigh)

/-- R47. -/
def sagWindow (p : Profile) (r : WindowRecord) : Bool :=
  decide (r.reversals ≤ p.revLow) && decide (r.drift ≤ -(p.sagDrift : Int))

/-- Where SAG is evaluated: the two charge phases, and a rest after its first settle (R47). -/
def sagEvaluated (phase : Phase) (settledOnce : Bool) : Bool :=
  phase == .chargeCC || phase == .chargeCV || (phase.isRest && settledOnce)

/-- A run count raised up to a top, or set to 0 (R44, R45). -/
def runCount (top n : Nat) (goes : Bool) : Nat := if goes then min top (n + 1) else 0

/-- The condition history with a condition entered: the 3 most recent (R48). -/
def historyAdd (h : List Condition) (c : Condition) : List Condition :=
  (if h.length < 3 then h else h.drop 1) ++ [c]

/-- The anomaly trigger: at least 2 of the conditions held (R48). -/
def triggerOf (h : List Condition) : Option Condition :=
  if 2 ≤ h.count .noise then some .noise
  else if 2 ≤ h.count .sag then some .sag
  else none

/-- The condition of a window (R48). -/
def conditionOf (noise sag : Bool) : Condition := if noise then .noise else if sag then .sag else .none

/-- The verdict of a complete window of a phase, with what WEV holds after it (R43 to R51). Contact loss is judged by the
present window low alone, as R50 says, though the Note of R2 calls the high a limit for it too: DEDUCED (log 40). -/
def judgeWindow (p : Profile) (phase : Phase) (r : WindowRecord) (satT : Bool) (w : WevBay) : Verdict × WevBay :=
  if phase = .check then
    ({ record := r, quiet := none, quietRun := 0, settled := false, firstSettle := false, endOfCharge := none,
       noise := none, sag := none, anomaly := none, contactLost := none, overtemp := none, sensor := none }, w)
  else
    let rest := phase.isRest
    let cv := phase == .chargeCV
    let quiet := quietWindow p r
    let quietRun := if rest then runCount 3 w.quietRun quiet else w.quietRun
    let settled := rest && quietRun == 3
    let eocRun := if cv then runCount 2 w.eocRun (decide (r.meanI ≤ (p.endCurrent : Int))) else w.eocRun
    let noise := noiseWindow p r
    let sagEval := sagEvaluated phase w.settledOnce
    let sag := sagEval && sagWindow p r
    let history := historyAdd w.history (conditionOf noise sag)
    let anomaly := if w.watch then triggerOf history else none
    ({ record := r
       quiet := if rest then some quiet else none
       quietRun := quietRun
       settled := settled
       firstSettle := settled && !w.settledOnce
       endOfCharge := if cv then some (eocRun == 2) else none
       noise := some noise
       sag := if sagEval then some sag else none
       anomaly := anomaly
       contactLost := some (decide (r.meanV < p.presentLow))
       overtemp := if phase.isCurrent then some (decide (p.tempHigh < r.meanT)) else none
       sensor := if phase.isCurrent then some satT else none },
     { w with quietRun := quietRun, settledOnce := w.settledOnce || settled, eocRun := eocRun, history := history,
              watch := w.watch && anomaly.isNone })

/-- The sample outcomes of a report (R41). -/
def reportOf (p : Profile) (e : PhaseEntry) (x : Sample) (v : Option Verdict) : SampleReport :=
  { phase := e.phase, entry := e.number, v := x.v, i := x.i, satI := x.satI,
    cvCrossed := e.phase == .chargeCC && decide (p.cvVoltage ≤ x.v),
    cutoff := e.phase == .discharge && decide (x.v ≤ p.cutoff),
    magnitude := if e.phase.isCurrent then some x.i.natAbs else none,
    verdict := v }

/-- The window in progress with a sample folded in, begun by it where there is none (R35). -/
def WevBay.foldInto (dead : Nat) (w : WevBay) (x : Sample) : WindowAcc :=
  match w.window with
  | none => WindowAcc.begin w.nextIndex x
  | some a => a.add dead x

/-- A sample folded in a phase: the window, the ring, the verdict of a window it completes, the report (R33, R35). -/
def foldPhase (p : Profile) (e : PhaseEntry) (x : Sample) (w : WevBay) : WevBay × SampleReport :=
  let a := w.foldInto p.deadBand x
  let w1 := { w with ring := ringAdd w.ring x }
  if p.windowLen ≤ a.n then
    let r := a.close (some e.phase) false
    let j := judgeWindow p e.phase r a.satT w1
    ({ j.2 with window := none, nextIndex := a.index + 1, lastRecord := some r }, reportOf p e x (some j.1))
  else ({ w1 with window := some a }, reportOf p e x none)

/-- A sample folded into the CAL window, and whether it completes it (R53). The index counts on without a top where R35
ends at 32 bits, which no phase but only a stay in CAL could reach: DESIGN CHOICE (log 29). -/
def foldCal (x : Sample) (w : WevBay) : WevBay × Bool :=
  let a := w.foldInto 0 x
  if Config.calWindow ≤ a.n then
    ({ w with window := none, nextIndex := a.index + 1, lastRecord := some (a.close none false) }, true)
  else ({ w with window := some a }, false)

/-- A sample reaches WEV: folded in a phase whose clock has started, folded into a CAL window, or discarded (R33). -/
def State.foldSample (s : State) (b : BayId) (x : Sample) : State :=
  let w := s.wevBay b
  match w.entry with
  | some e =>
    if e.started then
      let f := foldPhase (s.profileOfBay b) e x w
      (s.updWev b fun _ => f.1).tellBsq b (.report f.2)
    else s
  | none =>
    if w.cal && x.untrimmed then
      let f := foldCal x w
      { (s.updWev b fun _ => f.1) with toScan := if f.2 then updAt s.toScan b (· + 1) else s.toScan }
    else s

/-! ## The events that WEV takes from BSQ (section 3.2) -/

/-- A phase left at WEV: the window in progress closed as PARTIAL, the entry none, the closing report (R35, R41). -/
def WevBay.leavePhase (e : PhaseEntry) (finished : Bool) (w : WevBay) : WevBay × ClosingReport :=
  let part := w.window.map (·.close (some e.phase) true)
  ({ w with entry := none, window := none, lastRecord := part.or w.lastRecord },
   { phase := e.phase, entry := e.number, part := part, ringV := (w.ring.map Prod.fst).sum,
     ringI := (w.ring.map Prod.snd).sum, ringN := w.ring.length, watch := w.watch, finished := finished })

/-- A phase leave taken by WEV; where no entry is held there is nothing to leave. -/
def State.wevLeave (s : State) (b : BayId) (finished : Bool) : State :=
  match (s.wevBay b).entry with
  | none => s
  | some e =>
    let f := (s.wevBay b).leavePhase e finished
    (s.updWev b fun _ => f.1).tellBsq b (.closing f.2)

/-- A phase entry taken by WEV, an earlier one first treated as left; histories and ring are cleared and the watch
flag and the last record are not (R32, R34). No phase entry is taken for a CAL bay (R52). -/
def State.wevEnter (s : State) (b : BayId) (p : Phase) (number : Nat) : State :=
  if (s.wevBay b).cal then s
  else
    (s.wevLeave b false).updWev b fun w =>
      { w with entry := some { phase := p, number := number, started := false }, window := none, nextIndex := 0,
               ring := [], quietRun := 0, settledOnce := false, eocRun := 0, history := [] }

/-- A clock start taken by WEV (R32). -/
def State.wevClock (s : State) (b : BayId) : State :=
  s.updWev b fun w => { w with entry := w.entry.map fun e => { e with started := true } }

/-- WEV takes one message of BSQ. -/
def State.wevTake (s : State) (b : BayId) : WevMsg → State
  | .entry p n => s.wevEnter b p n
  | .clockStart => s.wevClock b
  | .leave finished _ => s.wevLeave b finished

/-- WEV takes the oldest message handed over for a bay. -/
def State.wevTakeHead (s : State) (b : BayId) : State :=
  match s.toWev.get b with
  | [] => s
  | m :: rest => ({ s with toWev := updAt s.toWev b fun _ => rest }).wevTake b m

/-- WEV takes the oldest message handed over for a bay where it is of a kind; else that event has not come (log 2). -/
def State.wevTakeIf (s : State) (b : BayId) (kind : WevMsg → Bool) : State :=
  match s.toWev.get b with
  | m :: _ => if kind m then s.wevTakeHead b else s
  | [] => s

/-- WEV takes up to `n` messages handed over for a bay. -/
def State.wevTakeMany (b : BayId) : Nat → State → State
  | 0, s => s
  | n + 1, s => wevTakeMany b n (s.wevTakeHead b)

def WevMsg.isEntry : WevMsg → Bool
  | .entry _ _ => true
  | _ => false

def WevMsg.isClock : WevMsg → Bool
  | .clockStart => true
  | _ => false

def WevMsg.isLeave : WevMsg → Bool
  | .leave _ _ => true
  | _ => false

def WevMsg.isAnswer : WevMsg → Bool
  | .leave _ answering => answering
  | _ => false

/-! ## The rows of WEV -/

/-- PHASE_ENTRY (R32, R34, R35). -/
def execPhaseEntry (b : BayId) (s : State) : Host.Outcome State Fault Refusal :=
  event (fun s => s.wevTakeIf b WevMsg.isEntry) s

/-- CLOCK_START (R32). -/
def execClockStart (b : BayId) (s : State) : Host.Outcome State Fault Refusal :=
  event (fun s => s.wevTakeIf b WevMsg.isClock) s

/-- PHASE_LEAVE (R35, R41). -/
def execPhaseLeave (b : BayId) (s : State) : Host.Outcome State Fault Refusal :=
  event (fun s => s.wevTakeIf b WevMsg.isLeave) s

/-- GET-WINDOW (R40). -/
def serveGetWindow (body : List Byte) : State → State × Answer :=
  onBay body fun b s => (s, .ok (windowBytes b (s.wevBay b).lastRecord))

def execGetWindow (t : Byte) (body : List Byte) (s : State) : Host.Outcome State Fault Refusal :=
  message { code := 0x25, size := 1 } t body (serveGetWindow body) s

end Sys2Proof.Machine
end

