-- ==== Sys2Proof/Machine/Pool.lean ====
section
/-! DEFINITION. The candidate pool (spec/07): its order, entry, removal with park service, and its four messages. -/

namespace Sys2Proof.Machine

/-! ## Order (R123) -/

/-- Lexicographic comparison of keys. -/
def keyLt : List Nat → List Nat → Bool
  | x :: xs, y :: ys => decide (x < y) || (decide (x = y) && keyLt xs ys)
  | _, _ => false

/-- Ccorr, then entry sequence, then tag (R123). -/
def Candidate.key (c : Candidate) : List Nat := [c.grade.ccorr, c.seq, c.grade.tag]

/-- A record inserted at the place its key gives it. -/
def insertCandidate (c : Candidate) : List Candidate → List Candidate
  | [] => [c]
  | d :: rest => if keyLt c.key d.key then c :: d :: rest else d :: insertCandidate c rest

def Pool.find (p : Pool) (tag : Nat) : Option Candidate := p.records.find? (·.grade.tag == tag)
def Pool.index (p : Pool) (tag : Nat) : Nat := p.records.findIdx (·.grade.tag == tag)

/-- A change of the record of a tag that leaves it at its index (R123). -/
def Pool.update (tag : Nat) (f : Candidate → Candidate) (p : Pool) : Pool :=
  { p with records := p.records.map fun c => if c.grade.tag == tag then f c else c }

/-! ## Entry (R126) -/

/-- A record enters: sequence from the counter, lapse count 0, FREE, inserted; the counter rises (R125, R126). -/
def Pool.enter (g : GradeRecord) (p : Pool) : Pool :=
  { p with records := insertCandidate { grade := g, seq := p.nextSeq, lapses := 0, status := none } p.records,
           nextSeq := (p.nextSeq + 1) % (Config.max32 + 1) }

/-- The GRADED notice of a record that enters from its bay (R190). -/
def gradedNotice (g : GradeRecord) (b : BayId) : Notice := .graded g.tag b g.cls g.ccorr g.soh

/-- An entry from a bay: the record, then its notice, then the pass asked for (R126); the bay goes to DONE. -/
def State.enterFromBay (s : State) (b : BayId) (g : GradeRecord) : State :=
  (((s.updPool (Pool.enter g)).updBay b fun r => { r with state := .done, substate := .none }).notify
    (gradedNotice g b)).askPass

/-! ## Removal and the park list (R131, R134) -/

/-- The bay at the head of the park list is taken from it, and its record enters the pool (R134). -/
def State.servePark (s : State) : State :=
  match s.pool.park with
  | [] => s
  | b :: rest =>
    let s1 := s.updPool fun p => { p with park := rest }
    match (s.bay b).grade with
    | some g => s1.enterFromBay b g
    | none => s1

/-- The record of a tag leaves the pool, and the head of the park list is served (R131). -/
def State.removeRecord (s : State) (tag : Nat) : State :=
  if (s.pool.find tag).isSome then
    (s.updPool fun p => { p with records := p.records.filter fun c => !(c.grade.tag == tag) }).servePark
  else s

/-! ## Messages -/

/-- RESTORE-CANDIDATE (R128). -/
def serveRestoreCandidate (body : List Byte) (s : State) : State × Answer :=
  if uField body 0 4 = 0 then (s, .refuse .badValue)
  else match gradeOfBytes body 0 with
    | none => (s, .refuse .badValue)
    | some g =>
      if outside (-400) 1250 g.tm || decide (1200 < g.soh) then (s, .refuse .badValue)
      else if (s.slot g.profile).isNone then (s, .refuse .notFound)
      else if s.tagHeld g.tag then (s, .refuse .duplicate)
      else if Config.poolRoom ≤ s.pool.records.length then (s, .refuse .full)
      else
        let s1 := (s.updPool (Pool.enter g)).askPass
        (s1, .ok (beBytes 4 s.pool.nextSeq ++ beBytes 1 (s1.pool.index g.tag)))

def execRestoreCandidate (t : Byte) (body : List Byte) (s : State) : Host.Outcome State Fault Refusal :=
  message { code := 0x50, size := 24 } t body (serveRestoreCandidate body) s

/-- WITHDRAW (R132). -/
def serveWithdraw (body : List Byte) (s : State) : State × Answer :=
  let tag := uField body 0 4
  if tag = 0 then (s, .refuse .badValue)
  else match s.pool.find tag with
    | none => (s, .refuse .notFound)
    | some c =>
      match c.status with
      | some id => (s, .refuse .reserved (seatIdBytes id))
      | none => (s.removeRecord tag, .ok c.bytes)

def execWithdraw (t : Byte) (body : List Byte) (s : State) : Host.Outcome State Fault Refusal :=
  message { code := 0x51, size := 4 } t body (serveWithdraw body) s

/-- A count of entries asked for, 0 standing for 8 (spec/00 section 5.4). -/
def countOf (n : Nat) : Nat := if n = 0 then 8 else n

/-- The records of GET-POOL, each with its index (R135). -/
def Pool.page (p : Pool) (first count : Nat) : List (Nat × Candidate) :=
  ((p.records.zipIdx.drop first).take count).map fun (c, k) => (k, c)

/-- The reply body of GET-POOL (R135, R188). -/
def Pool.pageBytes (p : Pool) (first count : Nat) : List Byte :=
  beBytes 1 p.records.length ++ beBytes 4 p.nextSeq ++ beBytes 1 p.park.length ++ p.park.map bayByte ++
  beBytes 1 (p.page first count).length ++
  (p.page first count).flatMap fun (k, c) => beBytes 1 k ++ c.bytes

/-- GET-POOL (R135): a count above 8 is clamped. -/
def serveGetPool (body : List Byte) (s : State) : State × Answer :=
  let first := uField body 0 1
  let count := countOf (uField body 1 1)
  if 127 < first then (s, .refuse .badValue)
  else (s, { status := .ok, clamped := decide (8 < count), body := s.pool.pageBytes first (min 8 count) })

def execGetPool (t : Byte) (body : List Byte) (s : State) : Host.Outcome State Fault Refusal :=
  message { code := 0x52, size := 2 } t body (serveGetPool body) s

/-- GET-CANDIDATE (R136). -/
def serveGetCandidate (body : List Byte) (s : State) : State × Answer :=
  let tag := uField body 0 4
  if tag = 0 then (s, .refuse .badValue)
  else match s.pool.find tag with
    | none => (s, .refuse .notFound)
    | some c => (s, .ok (beBytes 1 (s.pool.index tag) ++ c.bytes))

def execGetCandidate (t : Byte) (body : List Byte) (s : State) : Host.Outcome State Fault Refusal :=
  message { code := 0x53, size := 4 } t body (serveGetCandidate body) s

end Sys2Proof.Machine
end

