-- ==== Sys2Proof/Machine/Sequencer.lean ====
section
/-! DEFINITION. The Bay Sequencer (spec/04): phase entry and leave, suspension, rejection, the outcomes of a sample
report, the end of the test, closing reports, grants, stage outcomes, and its messages. -/

namespace Sys2Proof.Machine

/-! ## Entering and leaving a phase (R59) -/

def State.offWrite (s : State) (b : BayId) : State := s.queueWrite b .off 0 (s.bay b).entry

/-- The request of a bay for the current of a phase, labelled with its present entry number (R59, R101). -/
def State.askCurrent (s : State) (b : BayId) (p : Phase) : State :=
  s.tellCaa (.request b ((s.profileOfBay b).phaseCurrent p) (s.bay b).entry)

/-- The part of a phase entry that is the same for every phase: number, clock, state, last window, WEV told (R59, R54). -/
def Bay.enter (p : Phase) (sub : Substate) (r : Bay) : Bay :=
  { r with state := .phase p, substate := sub, entry := (r.entry + 1) % 65536, clock := 0, lastIndex := 0,
           lastSumV := 0 }

def State.beginPhase (s : State) (b : BayId) (p : Phase) (sub : Substate) : State :=
  (s.updBay b (Bay.enter p sub)).tellWev b (.entry p (((s.bay b).entry + 1) % 65536))

/-- A phase entry (R59). -/
def State.enterPhase (s : State) (b : BayId) (p : Phase) : State :=
  match p with
  | .check | .rest0 | .rest1 | .restP | .rest2 => (s.beginPhase b p .awaitingStage).offWrite b
  | .chargeCC | .discharge | .pulse => (s.beginPhase b p .awaitingGrant).askCurrent b p
  | .chargeCV =>
    let s1 := s.beginPhase b p .awaitingStage
    s1.queueWrite b .chargeVoltage (s1.profileOfBay b).cvVoltage (s1.bay b).entry

/-- A phase entry that opens with a clearing OFF, whatever the phase (R78). -/
def State.enterCleared (s : State) (b : BayId) (p : Phase) : State := (s.beginPhase b p .awaitingStage).offWrite b

/-- A leave of the present phase: WEV is told, and CAA too unless the grant is carried over (R59). -/
def State.leavePhase (s : State) (b : BayId) (finished answering carry : Bool) : State :=
  let s1 := s.tellWev b (.leave finished answering)
  if carry then s1 else s1.tellCaa (.leave b)

/-- A phase ended by its own condition or by a limit, and the next one entered (R70). -/
def State.nextPhase (s : State) (b : BayId) (p : Phase) : State :=
  (s.leavePhase b true true (p == .chargeCV)).enterPhase b p

/-! ## Suspension and rejection -/

/-- Whether the suspension by a cause queues an OFF (R73). -/
def SuspensionCause.queuesOff : SuspensionCause → Bool
  | .externalOff | .busStall => false
  | _ => true

/-- A bay in a phase state is suspended (R73). -/
def State.suspendBay (s : State) (b : BayId) (c : SuspensionCause) (code : StageCode) (answering : Bool) : State :=
  match (s.bay b).state with
  | .phase p =>
    let s1 := (s.leavePhase b false answering false).updBay b fun r =>
      { r with state := .suspended, substate := .none, resume := some p, cause := .suspension c code }
    let s2 := if c.queuesOff then s1.offWrite b else s1
    s2.notify (.suspended b c code (some p))
  | _ => s

/-- The cause of a SUSPENDED bay changed by a stage report, with a notice when it changes anything (R74). -/
def State.changeCause (s : State) (b : BayId) (c : SuspensionCause) (code : StageCode) : State :=
  if (s.bay b).state = .suspended ∧ (s.bay b).cause ≠ .suspension c code then
    (s.updBay b fun r => { r with cause := .suspension c code }).notify (.suspended b c code (s.bay b).resume)
  else s

/-- A stage report that suspends a bay in a phase and changes the cause of a SUSPENDED one (R73, R74). -/
def State.stageReport (s : State) (b : BayId) (c : SuspensionCause) (code : StageCode) : State :=
  match (s.bay b).state with
  | .phase _ => s.suspendBay b c code false
  | _ => s.changeCause b c code

/-- A bay rejected in a phase (R72). -/
def State.rejectBay (s : State) (b : BayId) (c : RejectCause) : State :=
  (((s.leavePhase b false true false).updBay b fun r =>
      { r with state := .rejected, substate := .none, cause := .reject c }).offWrite b).notify
    (.rejected ((s.bay b).tag.getD 0) b c none)

/-- Whether a bay is in a current phase, or in a phase in AWAITING_STAGE: the bays that a stall, a foreign broadcast
OFF and STOP-ALL suspend, and that a FAULT assertion reads (R73, R93). -/
def Bay.inHand (r : Bay) : Bool :=
  match r.state with
  | .phase p => p.isCurrent || r.substate == .awaitingStage
  | _ => false

def State.baysInHand (s : State) : List BayId := allBays.filter fun b => (s.bay b).inHand

/-- Several bays suspended by one event, in ascending bay number (R73). -/
def State.suspendMany (s : State) (set : List BayId) (c : SuspensionCause) : State :=
  set.foldl (fun s b => s.suspendBay b c .ok false) s

/-! ## Counting a sample (R62) -/

/-- Q with a discharge sample added: held at 0 and at its top, and whether it passed its top (R62). -/
def qAdd (q : Nat) (i : Int) : Nat × Bool :=
  let x : Int := (q : Int) - i
  (min Config.max32 x.toNat, decide ((Config.max32 : Int) < x))

/-- A window record added to the discharge accumulators (R61, R62). -/
def Bay.addDischarge (rec : WindowRecord) (r : Bay) : Bay :=
  { r with dCount := r.dCount + rec.count, dWeight := r.dWeight + (rec.count : Int) * rec.meanT }

/-- A report counted in the bay record, before its outcomes are judged (R62, R54). -/
def Bay.count (p : Phase) (x : SampleReport) (r : Bay) : Bay :=
  let r1 := { r with clock := r.clock + 1 }
  let r2 :=
    if p = .chargeCC ∨ p = .chargeCV then { r1 with chargeTime := satAdd Config.maxTime r1.chargeTime 1 }
    else if p = .discharge then
      let q := qAdd r1.q x.i
      { r1 with dischargeTime := satAdd Config.maxTime r1.dischargeTime 1, q := q.1,
                marks := { r1.marks with saturated := r1.marks.saturated || q.2 || x.satI } }
    else r1
  match x.verdict with
  | none => r2
  | some v =>
    let r3 := if p = .discharge then r2.addDischarge v.record else r2
    { r3 with lastIndex := v.record.index, lastSumV := v.record.sumV }

/-! ## The outcomes of a report (R63) -/

/-- An over-current: the magnitude exceeds the grant by more than 5 % (R42). -/
def overCurrent (p : Profile) (phase : Phase) (x : SampleReport) : Bool :=
  x.magnitude.any fun m => decide (p.phaseCurrent phase * 105 < m * 100)

/-- The outcomes of orders 1 to 6 of R63: the first that applies. -/
inductive Upset where
  | suspend (c : SuspensionCause)
  | reject (c : RejectCause)
  deriving DecidableEq, Repr

def upsetOf (p : Profile) (phase : Phase) (x : SampleReport) : Option Upset :=
  let v := x.verdict
  if v.any (·.contactLost == some true) then some (.suspend .contactLost)
  else if v.any (·.sensor == some true) then some (.suspend .sensor)
  else if v.any (·.overtemp == some true) then some (.suspend .overtemp)
  else if overCurrent p phase x then some (.suspend .overcurrent)
  else if v.any (·.anomaly == some .noise) then some (.suspend .contactNoise)
  else if v.any (·.anomaly == some .sag) then some (.reject .voltageSag)
  else none

/-! ## The end of the test (R71) -/

/-- The inputs of grading (R107). -/
def Bay.gradeInputs (r : Bay) (b : BayId) (observed : Bool) : GradeInputs :=
  { q := r.q, dCount := r.dCount, dWeight := r.dWeight, preV := r.preV, preI := r.preI, pulseV := r.pulseV,
    pulseI := r.pulseI, obs := if observed then some (r.obsFirst, r.obsLast, r.obsK) else none, marks := r.marks,
    tag := r.tag.getD 0, bay := b, profile := r.profile.getD 0 }

/-- The REJECTED notice of a module graded to X (R71, R120). -/
def rejectedNotice (b : BayId) (g : GradeRecord) (c : RejectCause) : Notice :=
  .rejected g.tag b c (some (g.ccorr, g.soh, g.res.map Prod.fst))

/-- What a grade record does to its bay: REJECTED, DONE with its record in the pool, or PARKED (R71, R127). -/
def State.settleGrade (s : State) (b : BayId) (g : GradeRecord) : State :=
  let s1 := s.updBay b fun r => { r with grade := some g, substate := .none }
  match g.reject with
  | some c =>
    (s1.updBay b fun r => { r with state := .rejected, cause := .reject c }).notify (rejectedNotice b g c)
  | none =>
    if s1.pool.records.length < Config.poolRoom then s1.enterFromBay b g
    else (s1.updBay b fun r => { r with state := .parked }).updPool fun p => { p with park := p.park ++ [b] }

/-- REST2 ends: WEV takes the leave and BSQ its closing report, and GRU grades, in the one taking (R70, R71; log 5). -/
def State.finishTest (s : State) (b : BayId) : State :=
  let w := s.wevBay b
  let s1 := (match w.entry with
    | none => s
    | some e => s.updWev b fun _ => (w.leavePhase e true).1).tellCaa (.leave b)
  let s2 := s1.updBay b fun r => { r with marks := { r.marks with watchOff := r.marks.watchOff || !w.watch } }
  let p := s2.profileOfBay b
  s2.settleGrade b (gradeRecord p ((s2.bay b).gradeInputs b (decide (p.observation ≠ 0))))

/-! ## The phases (R64 to R69) -/

/-- The windows of an observation: its samples in windows of W, rounded up (R66, R8). -/
def Profile.obsWindows (p : Profile) : Nat := (p.observation * 600 + p.windowLen - 1) / p.windowLen

/-- CHECK judged on its first complete window (R64). -/
def State.judgeCheck (s : State) (b : BayId) (p : Profile) (r : WindowRecord) : State :=
  if r.meanV < p.presentLow then s.rejectBay b .notPresent
  else if p.presentHigh < r.meanV then s.rejectBay b .overvoltage
  else if r.meanV < p.floor then s.rejectBay b .deepDischarge
  else if r.meanT < p.tempLow ∨ p.tempHigh < r.meanT then s.suspendBay b .tempOut .ok true
  else s.nextPhase b .rest0

/-- The rest part of REST2 has ended: the test ends, or the settle point opens the observation (R66). -/
def State.restPartEnded (s : State) (b : BayId) (p : Profile) (how : RestEnding) (index sumV : Nat) : State :=
  let s1 := s.updBay b fun r => { r with restEnding := how }
  if p.observation = 0 then s1.finishTest b
  else s1.updBay b fun r =>
    { r with obsIndex := index, obsFirst := sumV, obsK := p.obsWindows, obsLeft := p.obsWindows }

/-- A mark set on a bay record. -/
def State.mark (s : State) (b : BayId) (f : Marks → Marks) : State := s.updBay b fun r => { r with marks := f r.marks }

/-- A settled verdict at or after the rest minimum (R65). -/
def settledEnd (p : Profile) (r : Bay) (x : SampleReport) : Bool :=
  x.verdict.any (·.settled) && decide (p.restMin * 10 ≤ r.clock)

/-- The end of the phase by its own condition or by a limit, orders 7 and 8 of R63; the record is already counted. A
CHARGE_CC resumed at or above its charge limit whose first sample carries CV_CROSSED ends by the crossing, as R63 orders,
where R77 names the limit alone: DEDUCED (log 39). -/
def State.phaseOutcome (s : State) (b : BayId) (p : Profile) (phase : Phase) (x : SampleReport) : State :=
  let r := s.bay b
  match phase with
  | .check =>
    match x.verdict with
    | none => s
    | some v => s.judgeCheck b p v.record
  | .rest0 | .rest1 =>
    let next := if phase = .rest0 then Phase.chargeCC else .discharge
    if settledEnd p r x then s.nextPhase b next
    else if p.restMax * 10 ≤ r.clock then (s.mark b fun m => { m with unsettled := true }).nextPhase b next
    else s
  | .chargeCC =>
    if x.cvCrossed then s.nextPhase b .chargeCV
    else if p.chargeLimit * 600 ≤ r.chargeTime then
      (s.mark b fun m => { m with chargeTimeout := true }).nextPhase b .rest1
    else s
  | .chargeCV =>
    if x.verdict.any (·.endOfCharge == some true) then s.nextPhase b .rest1
    else if p.chargeLimit * 600 ≤ r.chargeTime then
      (s.mark b fun m => { m with chargeTimeout := true }).nextPhase b .rest1
    else s
  | .discharge =>
    if x.cutoff then s.nextPhase b .restP
    else if p.dischargeLimit * 600 ≤ r.dischargeTime then
      (s.mark b fun m => { m with dischargeTimeout := true }).nextPhase b .restP
    else s
  | .restP => if p.prePulse ≤ r.clock then s.nextPhase b .pulse else s
  | .pulse => if p.pulseLen ≤ r.clock then s.nextPhase b .rest2 else s
  | .rest2 =>
    match r.restEnding with
    | .none =>
      if settledEnd p r x then s.restPartEnded b p .settled r.lastIndex r.lastSumV
      else if p.restMax * 10 ≤ r.clock then
        (s.mark b fun m => { m with unsettled := true }).restPartEnded b p .maximum r.lastIndex r.lastSumV
      else s
    | _ =>
      match x.verdict with
      | none => s
      | some v =>
        if r.obsLeft ≤ 1 then
          (s.updBay b fun r => { r with obsLeft := 0, obsLast := v.record.sumV }).finishTest b
        else s.updBay b fun r => { r with obsLeft := r.obsLeft - 1 }

/-- A sample report taken under the present entry: counted, then its first outcome acted on; any other report is
discarded (R61, R62, R63). -/
def State.takeReport (s : State) (b : BayId) (x : SampleReport) : State :=
  match (s.bay b).state with
  | .phase phase =>
    if x.entry = (s.bay b).entry then
      let p := s.profileOfBay b
      let s1 := s.updBay b (Bay.count phase x)
      match upsetOf p phase x with
      | some (.suspend c) => s1.suspendBay b c .ok true
      | some (.reject c) => s1.rejectBay b c
      | none => s1.phaseOutcome b p phase x
    else s
  | _ => s

/-! ## Closing reports (R61) -/

/-- The closing report of a phase, taken for the entry it names (R61, R69, R70). It is always one of the bay's present
module, since UNLOAD leaves none standing (log 24). -/
def Bay.takeClosing (c : ClosingReport) (r : Bay) : Bay :=
  let r1 := match c.phase, c.part with
    | .discharge, some rec => r.addDischarge rec
    | _, _ => r
  if c.finished then
    let r2 := match c.phase with
      | .restP => { r1 with preV := c.ringV, preI := c.ringI }
      | .pulse => { r1 with pulseV := c.ringV, pulseI := c.ringI }
      | _ => r1
    { r2 with marks := { r2.marks with watchOff := r2.marks.watchOff || !c.watch } }
  else r1

def State.bsqTake (s : State) (b : BayId) : BsqMsg → State
  | .report x => s.takeReport b x
  | .closing c => s.updBay b (Bay.takeClosing c)

/-- BSQ takes the oldest message of WEV for a bay. -/
def State.bsqTakeHead (s : State) (b : BayId) : State :=
  match s.toBsq.get b with
  | [] => s
  | m :: rest => ({ s with toBsq := updAt s.toBsq b fun _ => rest }).bsqTake b m

def BsqMsg.isReport : BsqMsg → Bool
  | .report _ => true
  | _ => false

/-- BSQ takes the oldest message of WEV for a bay where it is of a kind; else that event has not come (log 2). -/
def State.bsqTakeIf (s : State) (b : BayId) (kind : BsqMsg → Bool) : State :=
  match s.toBsq.get b with
  | m :: _ => if kind m then s.bsqTakeHead b else s
  | [] => s

/-- SAMPLE_REPORT (R63). -/
def execSampleReport (b : BayId) (s : State) : Host.Outcome State Fault Refusal :=
  event (fun s => s.bsqTakeIf b BsqMsg.isReport) s

/-- CLOSING_REPORT (R61). -/
def execClosingReport (b : BayId) (s : State) : Host.Outcome State Fault Refusal :=
  event (fun s => s.bsqTakeIf b fun m => !m.isReport) s

/-! ## A sample is folded once the bay's last report is answered (R41; log 4) -/

/-- BSQ takes the messages of a bay until no sample report of it is left, of at most `n` messages. -/
def State.answerReports (b : BayId) : Nat → State → State
  | 0, s => s
  | n + 1, s => if (s.toBsq.get b).any BsqMsg.isReport then answerReports b n (s.bsqTakeHead b) else s

/-- WEV takes the messages of a bay until no leave handed over in answer to a report is left, of at most `n`. -/
def State.takeAnswers (b : BayId) : Nat → State → State
  | 0, s => s
  | n + 1, s => if (s.toWev.get b).any WevMsg.isAnswer then takeAnswers b n (s.wevTakeHead b) else s

/-- What R41 places before a bay's next sample: its report answered, and the leave of the answer taken. -/
def State.settleBay (s : State) (b : BayId) : State :=
  let s1 := State.answerReports b (s.toBsq.get b).length s
  State.takeAnswers b (s1.toWev.get b).length s1

/-- The calibration flag as it stood when a sample was taken (R23): the flag itself, unless it has changed since the
bay's last sample, when the sample may have been taken before the change or after it (log 10). -/
def TrimSet.flagTaken (inCal : Bool) (k : TrimSet) : Bool := if k.flagMoved then inCal else k.calFlag

/-- SCAN has handed over a sample of the bay: the next one is taken after this (R15; log 10). -/
def State.handedOver (s : State) (b : BayId) : State := s.updTrims b fun k => { k with flagMoved := false }

/-- SAMPLE (R15 to R23, R33). A trimmed sample takes the trims applied when the command is taken, also where they have
changed since the sample was taken: DESIGN CHOICE (log 41). -/
def execSample (b : BayId) (vin iin tin : Int) (inCal : Bool) (s : State) : Host.Outcome State Fault Refusal :=
  event (fun s =>
    let s1 := s.settleBay b
    let k := s1.trims b
    (s1.handedOver b).foldSample b (convert k vin iin tin (k.flagTaken inCal))) s

/-! ## Grants and stage outcomes at BSQ -/

/-- The opening write of a granted phase (R60). -/
def State.openCurrent (s : State) (b : BayId) (p : Phase) : State :=
  let k := if p = .chargeCC then WriteKind.chargeCurrent else .dischargeCurrent
  s.queueWrite b k ((s.profileOfBay b).phaseCurrent p) (s.bay b).entry

/-- A grant taken by BSQ: the opening write, or the grant handed back where its entry has ended (R60, R101). -/
def State.takeGrant (s : State) (m : GrantMsg) : State :=
  match (s.bay m.bay).state with
  | .phase p =>
    if (s.bay m.bay).substate = .awaitingGrant ∧ (s.bay m.bay).entry = m.entry then
      (s.updBay m.bay fun r => { r with substate := .awaitingStage }).openCurrent m.bay p
    else s.tellCaa (.giveBack m.bay m.entry)
  | _ => s.tellCaa (.giveBack m.bay m.entry)

/-- GRANT (R60). -/
def execGrant (s : State) : Host.Outcome State Fault Refusal :=
  event (fun s =>
    match s.grantsOut with
    | [] => s
    | m :: rest => ({ s with grantsOut := rest }).takeGrant m) s

/-- An acknowledgement at BSQ: the clock of the present entry starts, or the request that follows a clearing OFF is
made (R60, R78). -/
def State.bsqAck (s : State) (b : BayId) (k : WriteKind) (label : Nat) : State :=
  match (s.bay b).state with
  | .phase p =>
    if (s.bay b).substate = .awaitingStage ∧ (s.bay b).entry = label then
      if p.isCurrent && k == .off then
        (s.updBay b fun r => { r with substate := .awaitingGrant }).askCurrent b p
      else (s.updBay b fun r => { r with substate := .running }).tellWev b .clockStart
    else s
  | _ => s

/-! ## Calibration (spec/02 sections 2.6 and 2.7) that acts on the bay state is in Scan.lean; the bay messages follow. -/

/-- LOAD (R56). -/
def serveLoad (body : List Byte) : State → State × Answer :=
  onBay body fun b s =>
    let tag := uField body 1 4
    if (s.bay b).state ≠ .empty then (s, .refuse .wrongState)
    else if tag = 0 then (s, .refuse .badValue)
    else match profileOf (uField body 5 1) with
      | none => (s, .refuse .badValue)
      | some k =>
        match s.slot k with
        | none => (s, .refuse .notFound)
        | some p =>
          if s.tagHeld tag then (s, .refuse .duplicate)
          else if p.chargeCurrent ≤ s.caa.limit ∧ p.dischargeCurrent ≤ s.caa.limit ∧
              p.pulseCurrent ≤ s.caa.limit then
            (s.updBay b fun r =>
              { Bay.reset with state := .loaded, tag := some tag, profile := some k, entry := r.entry,
                               lastIndex := r.lastIndex, lastSumV := r.lastSumV }, .ok)
          else (s, .refuse .limit)

def execLoad (t : Byte) (body : List Byte) (s : State) : Host.Outcome State Fault Refusal :=
  message { code := 0x30, size := 6 } t body (serveLoad body) s

/-- The watch set armed or disarmed in the taking of START, RESUME or UNLOAD (R49). -/
def State.setWatch (s : State) (b : BayId) (on : Bool) : State := s.updWev b fun w => { w with watch := on }

/-- START of one bay, where it is LOADED (R57). -/
def State.startBay (s : State) (b : BayId) : Option State :=
  if (s.bay b).state = .loaded then some ((s.setWatch b true).enterPhase b .check) else none

/-- A message served by an act on one bay that takes place, or WRONG_STATE. -/
def oneBay (act : State → BayId → Option State) (b : BayId) (s : State) : State × Answer :=
  match act s b with
  | some s1 => (s1, .ok)
  | none => (s, .refuse .wrongState)

/-- An act on the bays of a set in ascending number; each that takes it is served (R58). -/
def groupAct (act : State → BayId → Option State) (set : List BayId) (s : State) : State × List BayId :=
  set.foldl (fun x b =>
    match act x.1 b with
    | some s1 => (s1, x.2 ++ [b])
    | none => x) (s, [])

/-- The bays of a set given at an offset of a body, ascending. -/
def baysOf (body : List Byte) (off : Nat) : List BayId := allBays.filter (inBaySet body off)

def serveGroup (act : State → BayId → Option State) (body : List Byte) (s : State) : State × Answer :=
  let x := groupAct act (baysOf body 0) s
  (x.1, .ok (baySetBytes x.2))

def execStart (t : Byte) (body : List Byte) (s : State) : Host.Outcome State Fault Refusal :=
  message { code := 0x31, size := 1 } t body (onBay body (oneBay State.startBay)) s

def execStartGroup (t : Byte) (body : List Byte) (s : State) : Host.Outcome State Fault Refusal :=
  message { code := 0x32, size := 6 } t body (serveGroup State.startBay body) s

/-- SUSPEND of one bay, in any phase state (R75). -/
def State.lineSuspend (s : State) (b : BayId) : Option State :=
  match (s.bay b).state with
  | .phase _ => some (s.suspendBay b .lineRequest .ok false)
  | _ => none

def execSuspend (t : Byte) (body : List Byte) (s : State) : Host.Outcome State Fault Refusal :=
  message { code := 0x33, size := 1 } t body (onBay body (oneBay State.lineSuspend)) s

/-! ### RESUME (R76 to R78) -/

/-- The phase a RESUME enters (R77). -/
def Phase.resumesInto : Phase → Phase
  | .chargeCV => .chargeCC
  | .pulse => .restP
  | p => p

/-- What a RESUME clears or sets in the bay record (R77). -/
def Bay.resumed (p : Phase) (r : Bay) : Bay :=
  let r1 := { r with cause := .none, resume := none }
  match p with
  | .rest0 | .rest1 | .restP | .pulse => { r1 with restEnding := .none }
  | .rest2 => { r1 with restEnding := .none, obsIndex := 0, obsFirst := 0, obsK := 0, obsLeft := 0, obsLast := 0 }
  | .discharge => { r1 with marks := { r1.marks with interrupted := true } }
  | _ => r1

def Cause.isNoAnswer : Cause → Bool
  | .suspension .stageNoAnswer _ => true
  | _ => false

def Cause.isBusStall : Cause → Bool
  | .suspension .busStall _ => true
  | _ => false

/-- Whether a SUSPENDED bay is BUSY to a RESUME (R76). One suspended with BUS_STALL is BUSY until the recovery broadcast
of its own stall has completed, whether or not it holds a grant: DEDUCED, R76's prose says so of every such bay while its
table names writes and grants alone (log 37). -/
def State.resumeBusy (s : State) (b : BayId) : Bool :=
  s.writeInHand b || (decide (s.grantOf b ≠ 0) && !(s.bay b).cause.isNoAnswer) ||
    (s.sbc.recovery.contains b && (s.bay b).cause.isBusStall)

/-- A RESUME that passes its checks: the watch, the record, the phase entry, opened by a clearing OFF from
STAGE_NO_ANSWER (R76 to R78). The watch is set at once, before a leave handed over and not yet taken by WEV, whose
closing report then carries the new value: DESIGN CHOICE (log 35). -/
def State.doResume (s : State) (b : BayId) (on : Bool) (p : Phase) : State :=
  let cleared := (s.bay b).cause.isNoAnswer
  let s1 := (s.setWatch b on).updBay b (Bay.resumed p)
  if cleared then s1.enterCleared b p.resumesInto else s1.enterPhase b p.resumesInto

/-- RESUME of one bay, where it would be taken. -/
def State.resumeBay (on : Bool) (s : State) (b : BayId) : Option State :=
  if (s.bay b).state = .suspended ∧ s.resumeBusy b = false then
    (s.bay b).resume.map (s.doResume b on)
  else none

/-- RESUME (R76). -/
def serveResume (body : List Byte) : State → State × Answer :=
  onBay body fun b s =>
    match watchOf (uField body 1 1) with
    | none => (s, .refuse .badValue)
    | some on =>
      if (s.bay b).state ≠ .suspended then (s, .refuse .wrongState)
      else if s.resumeBusy b then (s, .refuse .busy)
      else oneBay (State.resumeBay on) b s

def execResume (t : Byte) (body : List Byte) (s : State) : Host.Outcome State Fault Refusal :=
  message { code := 0x34, size := 2 } t body (serveResume body) s

/-- RESUME-GROUP (R58): refused as a whole when its watch value is neither on nor off. -/
def serveResumeGroup (body : List Byte) (s : State) : State × Answer :=
  match watchOf (uField body 6 1) with
  | none => (s, .refuse .badValue)
  | some on => serveGroup (State.resumeBay on) body s

def execResumeGroup (t : Byte) (body : List Byte) (s : State) : Host.Outcome State Fault Refusal :=
  message { code := 0x35, size := 7 } t body (serveResumeGroup body) s

/-! ### ABORT (R81) -/

/-- ABORT of one bay, from a state that takes it. -/
def State.abortBay (s : State) (b : BayId) : Option State :=
  let done (s : State) := (s.updBay b fun r =>
    { r with state := .aborted, substate := .none, resume := none, cause := .none }).offWrite b
  match (s.bay b).state with
  | .phase _ => some (done (s.leavePhase b false false false))
  | .loaded => some (done s)
  | .suspended => some (done s)
  | .parked =>
    some (done ((s.updPool fun p => { p with park := p.park.filter (· ≠ b) }).updBay b fun r => { r with grade := none }))
  | _ => none

def execAbort (t : Byte) (body : List Byte) (s : State) : Host.Outcome State Fault Refusal :=
  message { code := 0x36, size := 1 } t body (onBay body (oneBay State.abortBay)) s

def execAbortGroup (t : Byte) (body : List Byte) (s : State) : Host.Outcome State Fault Refusal :=
  message { code := 0x37, size := 6 } t body (serveGroup State.abortBay body) s

/-! ### Reading a bay -/

/-- GET-BAY (R82). -/
def serveGetBay (body : List Byte) : State → State × Answer :=
  onBay body fun b s => (s, .ok (s.bay b).bytes)

def execGetBay (t : Byte) (body : List Byte) (s : State) : Host.Outcome State Fault Refusal :=
  message { code := 0x39, size := 1 } t body (serveGetBay body) s

end Sys2Proof.Machine
end

