-- ==== Sys2Proof/Machine/Allowance.lean ====
section
/-! DEFINITION. The Current Allowance Arbiter (spec/05 sections 5.10 and 5.11): examination, release, and its rows. -/

namespace Sys2Proof.Machine

/-- The waiting list without the entry of a bay (R101). -/
def unwait (b : BayId) (l : List Waiting) : List Waiting := l.filter fun w => !(w.bay == b)

/-- BSQ suspends a bay whose request is above the limit, where that request is the bay's present one (R102, R73;
log 17). -/
def State.overLimit (s : State) (w : Waiting) : State :=
  if (s.bay w.bay).substate = .awaitingGrant ∧ (s.bay w.bay).entry = w.entry then
    s.suspendBay w.bay .allowanceOverLimit .ok false
  else s

/-- The head of the waiting list is granted (R102). A bay that waits holds no grant, so the committed allowance, which
is the sum of the grants, rises by the magnitude (R100). -/
def Allowance.give (w : Waiting) (rest : List Waiting) (a : Allowance) : Allowance :=
  { a with grants := updAt a.grants w.bay fun _ => { mag := w.mag, entry := w.entry },
           committed := a.committed - (a.grants.get w.bay).mag + w.mag, waiting := rest }

/-- The judging of at most `n` heads of the waiting list (R102). -/
def State.examineMany : Nat → State → State
  | 0, s => s
  | n + 1, s =>
    match s.caa.waiting with
    | [] => s
    | w :: rest =>
      if s.caa.limit < w.mag then
        examineMany n ((s.updCaa fun a => { a with waiting := rest }).overLimit w)
      else if s.broadcastInHand then s
      else if s.caa.committed + w.mag ≤ s.caa.limit then
        examineMany n ((s.updCaa (Allowance.give w rest)).handGrant { bay := w.bay, entry := w.entry })
      else s

/-- One examination of the waiting list: heads are judged until the list is empty or the head must wait (R102). -/
def State.examine (s : State) : State := s.examineMany s.caa.waiting.length

/-- A bay's grant ended (R103). -/
def Allowance.drop (b : BayId) (a : Allowance) : Allowance :=
  { a with grants := updAt a.grants b fun _ => { mag := 0, entry := 0 }, committed := a.committed - (a.grants.get b).mag }

/-- A release of one bay: a bay holding no grant is left, and nothing changes (R103). -/
def State.release (s : State) (b : BayId) : State :=
  if s.grantOf b = 0 then s else (s.updCaa (Allowance.drop b)).examine

/-- The sum of the grants held (R100). -/
def Allowance.sum (a : Allowance) : Nat := (a.grants.toList.map Grant.mag).sum

/-- Every grant released, and then the waiting list examined once (R92, R95; log 28). -/
def State.releaseAll (s : State) : State :=
  (s.updCaa fun a =>
    { a with grants := Vector.replicate 48 { mag := 0, entry := 0 }, committed := a.committed - a.sum }).examine

/-- Waiting bays taken off the list in the taking that suspends them (R95, R96, R98; log 16). -/
def State.unwaitMany (s : State) (set : List BayId) : State :=
  s.updCaa fun a => { a with waiting := a.waiting.filter fun w => !set.contains w.bay }

/-! ## Rows -/

/-- A request taken onto the tail; a bay stands on the list once (R100, R101). -/
def State.takeRequest (s : State) (b : BayId) (mag entry : Nat) : State :=
  (if s.caa.waiting.any (·.bay == b) then s
   else s.updCaa fun a => { a with waiting := a.waiting ++ [{ bay := b, mag := mag, entry := entry }] }).examine

/-- A leave taken (R101). -/
def State.takeLeave (s : State) (b : BayId) : State := (s.updCaa fun a => { a with waiting := unwait b a.waiting }).examine

/-- A grant handed back: that grant is released, unless it has been released already (R101, R103; log 15). -/
def State.takeReturn (s : State) (b : BayId) (entry : Nat) : State :=
  if (s.caa.grants.get b).entry = entry then s.release b else s

/-- REQUEST (R101): CAA takes the oldest message of BSQ where it is a request. -/
def execRequest (s : State) : Host.Outcome State Fault Refusal :=
  event (fun s =>
    match s.toCaa with
    | .request b mag entry :: rest => ({ s with toCaa := rest }).takeRequest b mag entry
    | _ => s) s

/-- LEAVE (R101): CAA takes the oldest message of BSQ where it is a leave. -/
def execLeave (s : State) : Host.Outcome State Fault Refusal :=
  event (fun s =>
    match s.toCaa with
    | .leave b :: rest => ({ s with toCaa := rest }).takeLeave b
    | _ => s) s

/-- GRANT_RETURN (R101): CAA takes the oldest message of BSQ where it is a grant handed back. -/
def execGrantReturn (s : State) : Host.Outcome State Fault Refusal :=
  event (fun s =>
    match s.toCaa with
    | .giveBack b entry :: rest => ({ s with toCaa := rest }).takeReturn b entry
    | _ => s) s

/-- SET-LIMIT (R104). -/
def serveSetLimit (body : List Byte) (s : State) : State × Answer :=
  let x := uField body 0 4
  let limit := min Config.maxLimit x
  ((s.updCaa fun a => { a with limit := limit }).examine,
   { status := .ok, clamped := decide (Config.maxLimit < x), body := beBytes 4 limit })

def execSetLimit (t : Byte) (body : List Byte) (s : State) : Host.Outcome State Fault Refusal :=
  message { code := 0x42, size := 4 } t body (serveSetLimit body) s

/-- The bays holding grants, ascending (R105). -/
def State.granted (s : State) : List BayId := allBays.filter fun b => decide (s.grantOf b ≠ 0)

/-- The reply body of GET-ALLOWANCE (R105 and the note of section 10.7). -/
def State.allowanceBytes (s : State) : List Byte :=
  beBytes 4 s.caa.limit ++ beBytes 4 s.caa.committed ++ beBytes 1 s.granted.length ++
  (s.granted.flatMap fun b => bayByte b :: beBytes 2 (s.grantOf b)) ++ beBytes 1 s.caa.waiting.length ++
  s.caa.waiting.flatMap fun w => bayByte w.bay :: beBytes 2 w.mag

def serveGetAllowance (s : State) : State × Answer := (s, .ok s.allowanceBytes)

def execGetAllowance (t : Byte) (body : List Byte) (s : State) : Host.Outcome State Fault Refusal :=
  message { code := 0x43, size := 0 } t body serveGetAllowance s

end Sys2Proof.Machine
end

