-- ==== Sys2Proof/Machine/Bank.lean ====
section
/-! DEFINITION. The Bank Table (spec/08): seats, the pairing rules, installation and sealing, and its messages. -/

namespace Sys2Proof.Machine

/-! ## Positions and seats (R138, R140) -/

/-- The position of a number 1 to N. -/
def BankString.position (x : BankString) (pos : Nat) : Option Position :=
  if pos = 0 then none else x.positions[pos - 1]?

def Position.get (p : Position) : SeatName → Seat
  | .a => p.a
  | .b => p.b

def otherSeat : SeatName → SeatName
  | .a => .b
  | .b => .a

def Position.upd (n : SeatName) (f : Seat → Seat) (p : Position) : Position :=
  match n with
  | .a => { p with a := f p.a }
  | .b => { p with b := f p.b }

def BankString.updPosition (pos : Nat) (f : Position → Position) (x : BankString) : BankString :=
  if pos = 0 then x else { x with positions := x.positions.modify (pos - 1) f }

/-- The seat of an identifier, where its string has that position. -/
def State.seat (s : State) (id : SeatId) : Option Seat :=
  ((s.string id.str).position id.pos).map (·.get id.seat)

/-- The other seat of the position. -/
def mateOf (id : SeatId) : SeatId := { id with seat := otherSeat id.seat }

def State.updSeat (s : State) (id : SeatId) (f : Seat → Seat) : State :=
  s.updString id.str (BankString.updPosition id.pos (Position.upd id.seat f))

def Seat.isEmpty : Seat → Bool
  | .empty => true
  | _ => false

def Seat.isReserved : Seat → Bool
  | .reserved _ _ _ => true
  | _ => false

def Seat.isInstalled : Seat → Bool
  | .installed _ => true
  | _ => false

def Seat.isVacant : Seat → Bool
  | .vacant _ => true
  | _ => false

/-- EMPTY or VACANT: a seat that a module can be judged for (R159). -/
def Seat.isFree (x : Seat) : Bool := x.isEmpty || x.isVacant

/-- Vacant in the sense of R139: VACANT, or RESERVED over a vacancy. -/
def Seat.stoodVacant : Seat → Bool
  | .vacant _ => true
  | .reserved _ _ (.vacancy _) => true
  | _ => false

/-- The override a seat holds, as VACANT or in its under-state (R140). -/
def Seat.override : Seat → Option Override
  | .vacant ov => ov
  | .reserved _ _ (.vacancy ov) => ov
  | _ => none

/-- The number of RESERVED seats that a seat counts for. -/
def Seat.countReserved (x : Seat) : Nat := if x.isReserved then 1 else 0

/-! ## Pairing rules (R142 to R145) -/

/-- Where partner values come from (R155). -/
inductive PartnerSource where
  | installed | reserved | override
  deriving DecidableEq, Repr

/-- Partner values (R143). -/
structure Partner where
  cap : Nat
  res : Nat
  source : PartnerSource
  deriving DecidableEq, Repr

/-- The resistance of a record; a record in the pool or in a seat has one (R115, R118, R128, R148). -/
def GradeRecord.r (g : GradeRecord) : Nat := (g.res.map Prod.fst).getD 0

/-- The partner values of a seat from it and the other seat of its position (R143). -/
def partnerOf (p : Pool) (judged other : Seat) : Option Partner :=
  match other with
  | .installed g =>
    match judged.override with
    | some ov => some { cap := ov.cap, res := ov.res, source := .override }
    | none => some { cap := g.ccorr, res := g.r, source := .installed }
  | .reserved tag _ _ => (p.find tag).map fun c => { cap := c.grade.ccorr, res := c.grade.r, source := .reserved }
  | _ => none

def State.partner (s : State) (id : SeatId) : Option Partner :=
  match s.seat id, s.seat (mateOf id) with
  | some x, some y => partnerOf s.pool x y
  | _, _ => none

/-- The magnitude of a difference. -/
def dist (x y : Nat) : Nat := ((x : Int) - y).natAbs

/-- The imbalance in per mille (R144). -/
def imbalanceOf (r rp : Nat) : Nat := if r + rp = 0 then 0 else (dist r rp * 1000 + (r + rp) / 2) / (r + rp)

/-- The tests of R145, in their order. -/
inductive PairTest where
  | profile | cls | reserved | pairCapacity | imbalance | string
  deriving DecidableEq, Repr

/-- R179. -/
def PairTest.code : PairTest → Byte
  | .profile => 1 | .cls => 2 | .reserved => 3 | .pairCapacity => 4 | .imbalance => 5 | .string => 6

/-- The string rule (R145). -/
def stringRule (x : BankString) (c : Nat) : Option Partner → Bool
  | some q => decide (dist (c + q.cap) x.reference ≤ x.strTol)
  | none => decide (dist (2 * c) x.reference ≤ x.strTol + x.capTol)

/-- Whether a class is at least the minimum class of a string (R142). -/
def GradeClass.meets (cls : GradeClass) (least : Option GradeClass) : Bool :=
  least.any fun m => decide (cls.rank ≤ m.rank)

/-- A candidate judged for a seat of a string: the first test failed, or none (R142 to R145). -/
def judge (x : BankString) (partner : Option Partner) (c : Candidate) : Option PairTest :=
  if x.profile ≠ some c.grade.profile then some .profile
  else if c.grade.cls.meets x.minClass = false then some .cls
  else if c.status.isSome then some .reserved
  else if partner.any fun q => decide (x.capTol < dist c.grade.ccorr q.cap) then some .pairCapacity
  else if partner.any fun q => decide (x.imbalance < imbalanceOf c.grade.r q.res) then some .imbalance
  else if stringRule x c.grade.ccorr partner = false then some .string
  else none

/-! ## Installation and sealing (R146, R147) -/

/-- A seat becomes INSTALLED; the reservation or override it held is gone (R146). -/
def State.install (s : State) (id : SeatId) (g : GradeRecord) : State :=
  let ended := (s.seat id).any Seat.isReserved
  (s.updSeat id fun _ => .installed g).updString id.str fun x =>
    { x with resCount := if ended then x.resCount - 1 else x.resCount }

/-- Whether the string is to be SEALED: every seat INSTALLED, from FORMING or SERVICE (R147). -/
def BankString.complete (x : BankString) : Bool :=
  (x.state == .forming || x.state == .service) && x.seats.all Seat.isInstalled

/-- The sealing check (R147). -/
def State.seal (s : State) (x : StringId) : State :=
  if (s.string x).complete then
    (s.updString x fun r => { r with state := .sealed }).notify (.stringComplete x)
  else s

/-- The reply of an installation: whether the string was sealed by it. -/
def sealedAnswer (s : State) (x : StringId) : Answer := .ok [flagByte (s.string x).complete]

/-! ## Naming a seat (R138) -/

/-- What a message names: the seat, or the refusal of a bad position or seat. -/
def nameSeat (x : StringId) (str : BankString) (pos seat : Nat) : Except Status (SeatId × Seat) :=
  match str.position pos with
  | none => .error .notFound
  | some p =>
    match seatOf seat with
    | none => .error .badValue
    | some n => .ok ({ str := x, pos := pos, seat := n }, p.get n)

/-! ## Messages -/

/-- What OPEN-STRING makes of an UNUSED string (R150). -/
def openedString (k : ProfileId) (n : Nat) (least : GradeClass) (ref strTol capTol imb : Nat) : BankString :=
  { state := .forming, profile := some k, minClass := some least, reference := ref, strTol := strTol, capTol := capTol,
    imbalance := imb, resCount := 0, positions := List.replicate n { a := .empty, b := .empty } }

/-- OPEN-STRING (R150). -/
def serveOpenString (body : List Byte) : State → State × Answer :=
  onString body 0 fun x s =>
    let n := uField body 2 1
    let ref := uField body 4 3
    let imb := uField body 11 2
    if (s.string x).state ≠ .unused then (s, .refuse .wrongState)
    else match profileOf (uField body 1 1) with
      | none => (s, .refuse .badValue)
      | some k =>
        if n < 2 ∨ 24 < n then (s, .refuse .badValue)
        else match classOf (uField body 3 1) with
          | none => (s, .refuse .badValue)
          | some least =>
            if ref < 1 ∨ 131070 < ref then (s, .refuse .badValue)
            else if 1000 < imb then (s, .refuse .badValue)
            else if (s.slot k).isNone then (s, .refuse .notFound)
            else
              ((s.updString x fun _ => openedString k n least ref (uField body 7 2) (uField body 9 2) imb).askPass, .ok)

def execOpenString (t : Byte) (body : List Byte) (s : State) : Host.Outcome State Fault Refusal :=
  message { code := 0x60, size := 13 } t body (serveOpenString body) s

/-- SET-REFERENCE (R151). -/
def serveSetReference (body : List Byte) : State → State × Answer :=
  onString body 0 fun x s =>
    let ref := uField body 1 3
    let imb := uField body 8 2
    if (s.string x).state = .unused then (s, .refuse .wrongState)
    else if ref < 1 ∨ 131070 < ref then (s, .refuse .badValue)
    else if 1000 < imb then (s, .refuse .badValue)
    else
      ((s.updString x fun r =>
          { r with reference := ref, strTol := uField body 4 2, capTol := uField body 6 2, imbalance := imb }).askPass,
       .ok)

def execSetReference (t : Byte) (body : List Byte) (s : State) : Host.Outcome State Fault Refusal :=
  message { code := 0x61, size := 10 } t body (serveSetReference body) s

/-- The override of a vacant seat, or of the under-state of a RESERVED one, dropped (R152). -/
def Seat.dropOverride : Seat → Seat
  | .vacant _ => .vacant none
  | .reserved tag d (.vacancy _) => .reserved tag d (.vacancy none)
  | x => x

/-- A module taken out of a seat (R152, steps 1 to 3). -/
def State.vacate (s : State) (id : SeatId) (ov : Override) : State :=
  let kept := (s.seat (mateOf id)).any Seat.isInstalled
  let s1 := s.updSeat id fun _ => .vacant (if kept then some ov else none)
  let s2 := if kept then s1 else s1.updSeat (mateOf id) Seat.dropOverride
  s2.updString id.str fun x => { x with state := .service }

/-- DECLARE-VACANCY (R152). -/
def serveDeclareVacancy (body : List Byte) : State → State × Answer :=
  onString body 0 fun x s =>
    if (s.string x).state ≠ .sealed ∧ (s.string x).state ≠ .service then (s, .refuse .wrongState)
    else match nameSeat x (s.string x) (uField body 1 1) (uField body 2 1) with
      | .error st => (s, .refuse st)
      | .ok (id, seat) =>
        if seat.isReserved then (s, .refuse .inUse)
        else if seat.isInstalled then
          ((s.vacate id { cap := uField body 3 2, res := uField body 5 2 }).askPass, .ok)
        else (s, .refuse .wrongState)

def execDeclareVacancy (t : Byte) (body : List Byte) (s : State) : Host.Outcome State Fault Refusal :=
  message { code := 0x62, size := 7 } t body (serveDeclareVacancy body) s

/-- RELEASE-STRING (R153). -/
def serveReleaseString (body : List Byte) : State → State × Answer :=
  onString body 0 fun x s =>
    if (s.string x).state = .unused then (s, .refuse .wrongState)
    else if 0 < (s.string x).resCount then (s, .refuse .inUse)
    else (s.updString x fun _ => .unused, .ok)

def execReleaseString (t : Byte) (body : List Byte) (s : State) : Host.Outcome State Fault Refusal :=
  message { code := 0x63, size := 1 } t body (serveReleaseString body) s

/-- The record given with RESTORE-SEAT, if it passes check 5 of R148 for a string of this profile. -/
def restoredRecord (body : List Byte) (off : Nat) (profile : Option ProfileId) : Option GradeRecord :=
  (gradeOfBytes body off).filter fun g =>
    decide (g.tag ≠ 0) && decide (profile = some g.profile) && !outside (-400) 1250 g.tm && decide (g.soh ≤ 1200)

/-- RESTORE-SEAT (R148). -/
def serveRestoreSeat (body : List Byte) : State → State × Answer :=
  onString body 0 fun x s =>
    if (s.string x).state ≠ .forming then (s, .refuse .wrongState)
    else match nameSeat x (s.string x) (uField body 1 1) (uField body 2 1) with
      | .error st => (s, .refuse st)
      | .ok (id, seat) =>
        if seat.isReserved then (s, .refuse .inUse)
        else if seat.isEmpty = false then (s, .refuse .wrongState)
        else match restoredRecord body 3 (s.string x).profile with
          | none => (s, .refuse .badValue)
          | some g =>
            if s.tagHeld g.tag then (s, .refuse .duplicate)
            else
              let s1 := s.install id g
              ((s1.seal x).askPass, sealedAnswer s1 x)

def execRestoreSeat (t : Byte) (body : List Byte) (s : State) : Host.Outcome State Fault Refusal :=
  message { code := 0x64, size := 27 } t body (serveRestoreSeat body) s

/-- INSTALL-DIRECT (R149). -/
def serveInstallDirect (body : List Byte) (s : State) : State × Answer :=
  let tag := uField body 0 4
  if tag = 0 then (s, .refuse .badValue)
  else onString body 4 (fun x s =>
    if (s.string x).state ≠ .forming ∧ (s.string x).state ≠ .service then (s, .refuse .wrongState)
    else match nameSeat x (s.string x) (uField body 5 1) (uField body 6 1) with
      | .error st => (s, .refuse st)
      | .ok (id, seat) =>
        if seat.isReserved then (s, .refuse .inUse)
        else if seat.isInstalled then (s, .refuse .wrongState)
        else match s.pool.find tag with
          | none => (s, .refuse .notFound)
          | some c =>
            match c.status, judge (s.string x) (s.partner id) c with
            | some held, _ => (s, .refuse .reserved (seatIdBytes held))
            | none, some failed => (s, .refuse .notMatched [failed.code])
            | none, none =>
              let s1 := (s.removeRecord tag).install id c.grade
              ((s1.seal x).askPass, sealedAnswer s1 x)) s

def execInstallDirect (t : Byte) (body : List Byte) (s : State) : Host.Outcome State Fault Refusal :=
  message { code := 0x65, size := 7 } t body (serveInstallDirect body) s

/-- The number of seats of a string of one kind, as a byte. -/
def BankString.countByte (x : BankString) (kind : Seat → Bool) : List Byte := beBytes 1 (x.seats.countP kind)

/-- The 18 bytes of GET-STRING (R154). -/
def BankString.bytes (x : BankString) : List Byte :=
  [Config.stringStateCode x.state, (x.profile.map profileByte).getD 0] ++ beBytes 1 x.positions.length ++
  [(x.minClass.map GradeClass.code).getD 0] ++ beBytes 3 x.reference ++ beBytes 2 x.strTol ++ beBytes 2 x.capTol ++
  beBytes 2 x.imbalance ++ beBytes 1 x.resCount ++ x.countByte Seat.isEmpty ++ x.countByte Seat.isReserved ++
  x.countByte Seat.isInstalled ++ x.countByte Seat.isVacant

def serveGetString (body : List Byte) : State → State × Answer :=
  onString body 0 fun x s => (s, .ok (s.string x).bytes)

def execGetString (t : Byte) (body : List Byte) (s : State) : Host.Outcome State Fault Refusal :=
  message { code := 0x66, size := 1 } t body (serveGetString body) s

/-- Steps remaining as seconds (R163). -/
def secondsOf (steps : Nat) : Nat := (steps + 9) / 10

/-- The override fields of a seat record: present, capacity, resistance (R189). -/
def overrideBytes : Option Override → List Byte
  | none => zeros 5
  | some ov => 1 :: (beBytes 2 ov.cap ++ beBytes 2 ov.res)

/-- R189. -/
def PartnerSource.code : PartnerSource → Byte
  | .installed => 1 | .reserved => 2 | .override => 3

def partnerBytes : Option Partner → List Byte
  | none => zeros 5
  | some q => q.source.code :: (beBytes 2 q.cap ++ beBytes 2 q.res)

/-- The 42 bytes of a seat record (R189); partner values are given for an EMPTY or VACANT seat. -/
def Seat.bytes (partner : Option Partner) : Seat → List Byte
  | .empty => [0] ++ zeros 12 ++ partnerBytes partner ++ zeros 24
  | .reserved tag d under =>
    [1] ++ beBytes 4 tag ++ beBytes 2 (secondsOf d) ++
    (match under with
     | .empty => 0 :: zeros 5
     | .vacancy ov => 1 :: overrideBytes ov) ++ zeros 29
  | .installed g => [2] ++ beBytes 4 g.tag ++ zeros 13 ++ g.bytes
  | .vacant ov => [3] ++ zeros 7 ++ overrideBytes ov ++ partnerBytes partner ++ zeros 24

/-- The 85 bytes of GET-POSITION (R155). -/
def State.positionBytes (s : State) (x : StringId) (p : Position) : List Byte :=
  [Config.stringStateCode (s.string x).state] ++ p.a.bytes (partnerOf s.pool p.a p.b) ++
    p.b.bytes (partnerOf s.pool p.b p.a)

/-- GET-POSITION (R155). -/
def serveGetPosition (body : List Byte) : State → State × Answer :=
  onString body 0 fun x s =>
    if (s.string x).state = .unused then (s, .refuse .wrongState)
    else match (s.string x).position (uField body 1 1) with
      | none => (s, .refuse .notFound)
      | some p => (s, .ok (s.positionBytes x p))

def execGetPosition (t : Byte) (body : List Byte) (s : State) : Host.Outcome State Fault Refusal :=
  message { code := 0x67, size := 2 } t body (serveGetPosition body) s

end Sys2Proof.Machine
end

