-- ==== Sys2Proof/WellFormed.lean ====
section
/-! DEFINITION. Which commands can come about: the checks that the operands of a command keep by the rule of its row.
The meanings do not rest on them: each is total. -/

namespace Sys2Proof

/-- A body that a frame can carry (R176). -/
def bodyFits (body : List Byte) : Bool := decide (body.length ≤ Config.maxBody)

/-- LEN as its two bytes give it (R175). -/
def lenOf (hi lo : Byte) : Nat := Machine.beNat [hi, lo]

/-- The bytes held of a frame not yet complete: at most LEN and what LEN asks for less one byte (R176). -/
def frameUnfinished : List Byte → Bool
  | hi :: lo :: rest => decide (lenOf hi lo ≤ Config.maxBody) && decide (rest.length < lenOf hi lo + 3)
  | _ => true

/-- The sum of the bytes after SYNC of a completed frame, CHECK included (R176). -/
def frameSum (k t : Byte) (body : List Byte) (check : Byte) : Byte :=
  Machine.byteSum (Machine.beBytes 2 body.length ++ [k, t] ++ body ++ [check])

def OverrunEnd.wf : OverrunEnd → Bool
  | .complete => true
  | .length hi lo => decide (Config.maxBody < lenOf hi lo)
  | .gap held => frameUnfinished held

/-- The checks of a command. -/
def Instr.wf (i : Instr) : Bool :=
  match i with
  | .badKind k _ body => bodyFits body && !knownKind k
  | .checkError k t body check => bodyFits body && frameSum k t body check != 0
  | .lengthError hi lo => decide (Config.maxBody < lenOf hi lo)
  | .gapError held => frameUnfinished held
  | .overrunFrame e => e.wf
  | .expiry seat => decide (1 ≤ seat.pos) && decide (seat.pos ≤ 24)
  | i =>
    match i.frameOf with
    | some (_, _, body) => bodyFits body
    | none => true

end Sys2Proof
end

