-- ==== Sys2Proof/Machine/Link.lean ====
section
/-! DEFINITION. The Link Port (spec/10): its messages, link errors, overrun frames, the sending of replies, and the two
ways into reset with the release. -/

namespace Sys2Proof.Machine

/-! ## Messages -/

/-- ECHO (R184). -/
def serveEcho (body : List Byte) (s : State) : State × Answer := (s, .ok body)

def execEcho (t : Byte) (body : List Byte) (s : State) : Host.Outcome State Fault Refusal :=
  message { code := 0x01, size := 250, upTo := true, onHeld := true } t body (serveEcho body) s

/-- GET-IDENTITY (R184). -/
def identityBytes : List Byte := beBytes 2 Config.vendorCode ++ beBytes 2 Config.partCode ++ beBytes 1 Config.revision

def serveGetIdentity (s : State) : State × Answer := (s, .ok identityBytes)

def execGetIdentity (t : Byte) (body : List Byte) (s : State) : Host.Outcome State Fault Refusal :=
  message { code := 0x02, size := 0 } t body serveGetIdentity s

/-- RESET (R185): answered OK; the part enters reset when the reply has been sent. -/
def serveReset (s : State) : State × Answer := (s, { status := .ok, act := .reset })

def execReset (t : Byte) (body : List Byte) (s : State) : Host.Outcome State Fault Refusal :=
  message { code := 0x03, size := 0 } t body serveReset s

/-- The 7 bytes of the link error log (R180). -/
def LinkLog.bytes (e : LinkLog) : List Byte :=
  [e.cause.code, e.kind, e.tag] ++ beBytes 2 e.len ++ [e.received, e.computed]

/-- The 10 bytes of GET-LINK-LOG (R182). -/
def Link.logBytes (l : Link) : List Byte :=
  [l.mode.code, l.rate.code] ++ beBytes 1 l.errorCount ++
  (match l.log with
   | none => zeros 7
   | some e => e.bytes)

def serveGetLinkLog (s : State) : State × Answer := (s, .ok s.link.logBytes)

def execGetLinkLog (t : Byte) (body : List Byte) (s : State) : Host.Outcome State Fault Refusal :=
  message { code := 0x04, size := 0, onHeld := true } t body serveGetLinkLog s

/-- CLEAR-LINK-ERROR (R182). -/
def serveClearLinkError (s : State) : State × Answer :=
  ((s.updLink fun l => { l with log := none, errorCount := 0 }).updNqa fun x => { x with linkError := false }, .ok)

def execClearLinkError (t : Byte) (body : List Byte) (s : State) : Host.Outcome State Fault Refusal :=
  message { code := 0x05, size := 0, onHeld := true } t body serveClearLinkError s

/-- SET-LINK-MODE (R181). -/
def serveSetLinkMode (body : List Byte) (s : State) : State × Answer :=
  match linkModeOf (uField body 0 1) with
  | none => (s, .refuse .badValue)
  | some m => (s.updLink fun l => { l with mode := m }, .ok [m.code])

def execSetLinkMode (t : Byte) (body : List Byte) (s : State) : Host.Outcome State Fault Refusal :=
  message { code := 0x06, size := 1 } t body (serveSetLinkMode body) s

/-- SET-LINK-RATE (R183): the rate changes when the reply has been sent. -/
def serveSetLinkRate (body : List Byte) (s : State) : State × Answer :=
  match linkRateOf (uField body 0 1) with
  | none => (s, .refuse .badValue)
  | some r => (s, { status := .ok, body := [r.code], act := .setRate r })

def execSetLinkRate (t : Byte) (body : List Byte) (s : State) : Host.Outcome State Fault Refusal :=
  message { code := 0x07, size := 1 } t body (serveSetLinkRate body) s

/-! ## Frames that are not served -/

/-- BAD_KIND (R177): answered with no body, whether or not the link is held. -/
def execBadKind (k t : Byte) (body : List Byte) (s : State) : Host.Outcome State Fault Refusal :=
  event (fun s =>
    if knownKind k || !bodyFits body then s
    else if s.link.reply.isSome then s.overrunFrame
    else s.answered k t (.refuse .badKind)) s

/-- CHECK_ERROR (R176, R180); met by a pending reply it is an overrun frame, whose CHECK is not tested (R178). -/
def execCheckError (k t : Byte) (body : List Byte) (check : Byte) (s : State) : Host.Outcome State Fault Refusal :=
  event (fun s =>
    if frameSum k t body check = 0 then s
    else if s.link.reply.isSome then s.overrunFrame
    else s.linkError (checkLog k t body check)) s

/-- The end of a frame by a LENGTH or GAP error: a link error, and an overrun frame where a reply is pending
(R178, R180). -/
def State.cutFrame (s : State) (e : LinkLog) : State :=
  (if s.link.reply.isSome then s.overrunFrame else s).linkError e

/-- LENGTH_ERROR (R176). -/
def execLengthError (hi lo : Byte) (s : State) : Host.Outcome State Fault Refusal :=
  event (fun s => if Config.maxBody < lenOf hi lo then s.cutFrame (lengthLog hi lo) else s) s

/-- GAP_ERROR (R176). -/
def execGapError (held : List Byte) (s : State) : Host.Outcome State Fault Refusal :=
  event (fun s => if frameUnfinished held then s.cutFrame (gapLog held) else s) s

/-- OVERRUN_FRAME (R178): its LENGTH and GAP errors are link errors; its CHECK is not tested. -/
def execOverrunFrame (ending : OverrunEnd) (s : State) : Host.Outcome State Fault Refusal :=
  event (fun s =>
    if ending.wf then
      match ending with
      | .complete => s.overrunFrame
      | .length hi lo => s.overrunFrame.linkError (lengthLog hi lo)
      | .gap held => s.overrunFrame.linkError (gapLog held)
    else s) s

/-! ## Replies sent (R178, R183, R185) -/

/-- REPLY_START (R178): the pending reply begins, with the mark in its FLAGS; it waits while one is being sent
(log 31). -/
def Link.startReply (l : Link) : Link :=
  match l.sending, l.reply with
  | none, some r => { l with sending := some { r with overrun := l.overrun }, reply := none, overrun := false }
  | _, _ => l

def execReplyStart (s : State) : Host.Outcome State Fault Refusal := event (fun s => s.updLink Link.startReply) s

/-- Every block at its values after reset, reset still asserted; the commands that wait stay in the queue (R185;
log 7). -/
def State.enterReset (s : State) : State := { State.reset with inReset := true, pending := s.pending }

/-- What follows the last bit of a reply (R183, R185). A frame abandoned at the change of rate sets no overrun mark, were
it an overrun frame too: DESIGN CHOICE (log 38). -/
def State.afterReply (s : State) : ReplyAct → State
  | .none => s
  | .setRate r => s.updLink fun l => { l with rate := r, rx := .hunt }
  | .reset => s.enterReset

/-- REPLY_END (R183, R185). -/
def execReplyEnd (s : State) : Host.Outcome State Fault Refusal :=
  event (fun s =>
    match s.link.sending with
    | none => s
    | some r => (s.updLink fun l => { l with sending := none }).afterReply r.act) s

/-! ## Reset -/

/-- RESET_INPUT (R185 and section 5.8 of spec/00). -/
def execResetInput (s : State) : Host.Outcome State Fault Refusal := .next s.enterReset

/-- The stage bus at the release of reset, from the levels of SDA, SCL and FAULT (R88, R93, R96). -/
def StageBus.release (sda scl fault : Bool) (x : StageBus) : StageBus :=
  if sda && scl then { x with bus := .idle, timer := .clear, faultLow := !fault }
  else { x with bus := .busy, timer := .running, faultLow := !fault }

/-- RESET_RELEASE (R15, R88, R93, R96, R156). -/
def execResetRelease (sda scl fault : Bool) (s : State) : Host.Outcome State Fault Refusal :=
  .next (if s.inReset then { s with inReset := false, sbc := s.sbc.release sda scl fault } else s)

end Sys2Proof.Machine
end

