-- ==== Sys2Proof/Machine/Matcher.lean ====
section
/-! DEFINITION. The Placement Matcher (spec/09): the pass, deadlines, the three ends of a reservation, its messages. -/

namespace Sys2Proof.Machine

/-! ## Seat order (R158) -/

/-- Every string, in ascending number. -/
def allStrings : List StringId := List.finRange 16

/-- The seats of a string: positions ascending, A before B. -/
def seatsOf (x : StringId) (n : Nat) : List SeatId :=
  (List.range n).flatMap fun k => [{ str := x, pos := k + 1, seat := .a }, { str := x, pos := k + 1, seat := .b }]

/-- The seats of the strings in one state. -/
def State.seatsIn (s : State) (st : StringState) : List SeatId :=
  (allStrings.filter fun x => (s.string x).state == st).flatMap fun x => seatsOf x (s.string x).positions.length

/-- The seat order as it stands when the pass begins (R158). -/
def State.seatOrder (s : State) : List SeatId := s.seatsIn .service ++ s.seatsIn .forming

/-! ## Choice (R161) -/

/-- The keys of a candidate for a seat, in the order in which they are compared (R161). -/
def choiceKey (x : BankString) (c : Candidate) : Option Partner → List Nat
  | some q => [dist c.grade.ccorr q.cap, imbalanceOf c.grade.r q.res, c.seq, c.grade.tag]
  | none => [dist (2 * c.grade.ccorr) x.reference, c.grade.r, c.seq, c.grade.tag]

/-- The first record of smallest key. -/
def smallest (key : Candidate → List Nat) : List Candidate → Option Candidate
  | [] => none
  | c :: rest =>
    match smallest key rest with
    | none => some c
    | some d => if keyLt (key d) (key c) then some d else some c

/-- The candidate that a pass chooses for a seat it serves (R161). -/
def State.choose (s : State) (id : SeatId) : Option Candidate :=
  let x := s.string id.str
  let partner := s.partner id
  smallest (fun c => choiceKey x c partner) (s.pool.records.filter fun c => (judge x partner c).isNone)

/-! ## Reservation (R141, R162) -/

/-- The under-state of a seat about to be reserved (R141). -/
def Seat.under : Seat → UnderState
  | .vacant ov => .vacancy ov
  | _ => .empty

/-- A seat reserved for a tag, over what it is. -/
def Seat.reserve (tag deadline : Nat) (x : Seat) : Seat := .reserved tag deadline x.under

/-- A reservation made for a seat and a record, in one taking (R162). -/
def State.reserve (s : State) (id : SeatId) (tag : Nat) : State :=
  let s1 := s.updPool (Pool.update tag fun c => { c with status := some id })
  let s2 := (s1.updSeat id (Seat.reserve tag (s.plm.timeout * 10))).updString id.str fun x =>
    { x with resCount := x.resCount + 1 }
  s2.notify (.place tag id s.plm.timeout)

/-! ## The pass (R158 to R160) -/

/-- Tests 1 to 3 of R159. -/
def State.mayServe (s : State) (id : SeatId) : Bool :=
  (s.seat id).any Seat.isFree && decide ((s.string id.str).resCount < Config.maxReservations) &&
    (id.seat == .a || (s.seat { id with seat := .a }).any fun x => !x.isFree)

/-- The walk over the seats left in the order, with the seats served and the reservations made so far. -/
def passWalk : List SeatId → Nat → Nat → State → State × PassResult
  | [], served, made, s => (s, .complete served made)
  | id :: rest, served, made, s =>
    if s.mayServe id = false then passWalk rest served made s
    else if Config.noticeRoom ≤ s.nqa.queue.length then (s, .noticeRoom served made id)
    else
      match s.choose id with
      | none => passWalk rest (served + 1) made s
      | some c => passWalk rest (served + 1) (made + 1) (s.reserve id c.grade.tag)

/-- A pass, from the first seat of the order to its end (R158, R160). -/
def State.runPass (s : State) : State :=
  let x := passWalk s.seatOrder 0 0 s
  x.1.updPlm fun m => { m with lastPass := x.2 }

/-- MATCHING_PASS (R157): a pending pass is taken, which clears the flag and runs it. -/
def execMatchingPass (s : State) : Host.Outcome State Fault Refusal :=
  event (fun s =>
    if s.plm.passPending then (s.updPlm fun m => { m with passPending := false }).runPass else s) s

/-! ## Deadlines (R163) -/

/-- A deadline run down by one step; at 0 its expiry stands to be taken (log 20). -/
def Seat.tick : Seat → Seat
  | .reserved tag d under => .reserved tag (d - 1) under
  | x => x

def Position.tick (p : Position) : Position := { a := p.a.tick, b := p.b.tick }

def BankString.tick (x : BankString) : BankString := { x with positions := x.positions.map Position.tick }

/-- TIME_STEP (R163): every deadline runs down by 1. -/
def execTimeStep (s : State) : Host.Outcome State Fault Refusal :=
  event (fun s => { s with bank := s.bank.map BankString.tick }) s

/-! ## The ends of a reservation (section 9.6) -/

/-- What a RESERVED seat returns to (R141). -/
def UnderState.seat : UnderState → Seat
  | .empty => .empty
  | .vacancy ov => .vacant ov

/-- The seat of a reservation that ends otherwise than by installation, and the string's count (R141). -/
def State.returnSeat (s : State) (id : SeatId) (under : UnderState) : State :=
  (s.updSeat id fun _ => under.seat).updString id.str fun x => { x with resCount := x.resCount - 1 }

/-- The pool record of a tag returned to FREE, its lapse count changed (R130, R133). -/
def State.freeRecord (s : State) (tag lapses : Nat) : State :=
  s.updPool (Pool.update tag fun c => { c with status := none, lapses := lapses })

/-- A lapse: the record by its lapse count, with its notice (R169). -/
def State.lapse (s : State) (id : SeatId) (c : Candidate) : State :=
  let tag := c.grade.tag
  if c.lapses < 2 then (s.freeRecord tag (c.lapses + 1)).notify (.lapsed tag id (c.lapses + 1))
  else (s.notify (.dropped tag)).removeRecord tag

/-- EXPIRY (R169): the reservation of a seat whose deadline has reached 0. -/
def execExpiry (seat : SeatId) (s : State) : Host.Outcome State Fault Refusal :=
  event (fun s =>
    match s.seat seat with
    | some (.reserved tag 0 under) =>
      let s1 := s.returnSeat seat under
      match s.pool.find tag with
      | some c => (s1.lapse seat c).askPass
      | none => s1.askPass
    | _ => s) s

/-- The seat named by PLACED and NOT-PLACED, as their checks of string, position and seat leave it (R165, R167). -/
def namedSeat (body : List Byte) (off : Nat) : Except Status SeatId :=
  match stringOf (uField body off 1) with
  | none => .error .notFound
  | some x =>
    if uField body (off + 1) 1 < 1 ∨ 24 < uField body (off + 1) 1 then .error .notFound
    else match seatOf (uField body (off + 2) 1) with
      | none => .error .badValue
      | some n => .ok { str := x, pos := uField body (off + 1) 1, seat := n }

/-- The under-state of a seat that is RESERVED with a tag (check 5 of R165, check 6 of R167). -/
def State.reservation (s : State) (id : SeatId) (tag : Nat) : Option UnderState :=
  match s.seat id with
  | some (.reserved held _ under) => if held = tag then some under else none
  | _ => none

/-- The reply to a PLACED that names no reservation (R166). -/
def State.notReserved (s : State) (id : SeatId) (tag : Nat) : Answer :=
  match (s.pool.find tag).bind Candidate.status with
  | some held => if held = id then .refuse .late else .refuse .mismatch (seatIdBytes held)
  | none => .refuse .late

/-- A reservation ended by installation (R165). -/
def State.place (s : State) (id : SeatId) (tag : Nat) (g : GradeRecord) : State :=
  (((s.install id g).removeRecord tag).seal id.str).askPass

/-- PLACED (R165, R166). A reservation always has its record (R130; log 32). -/
def servePlaced (body : List Byte) (s : State) : State × Answer :=
  let tag := uField body 0 4
  if tag = 0 then (s, .refuse .badValue)
  else match namedSeat body 4 with
    | .error st => (s, .refuse st)
    | .ok id =>
      match s.reservation id tag, s.pool.find tag with
      | some _, some c => (s.place id tag c.grade, sealedAnswer (s.install id c.grade) id.str)
      | _, _ => (s, s.notReserved id tag)

def execPlaced (t : Byte) (body : List Byte) (s : State) : Host.Outcome State Fault Refusal :=
  message { code := 0x70, size := 7 } t body (servePlaced body) s

/-- Reasons of NOT-PLACED (R187). -/
inductive NotPlacedReason where
  | missing | damaged | other
  deriving DecidableEq, Repr

def reasonOf : Nat → Option NotPlacedReason
  | 1 => some .missing
  | 2 => some .damaged
  | 3 => some .other
  | _ => none

/-- The pool record after NOT-PLACED (R167). -/
def State.dealWith (s : State) (tag : Nat) : NotPlacedReason → State
  | .missing => s.removeRecord tag
  | .damaged => s.removeRecord tag
  | .other => s.updPool (Pool.update tag fun c => { c with status := none })

/-- NOT-PLACED (R167, R168). -/
def serveNotPlaced (body : List Byte) (s : State) : State × Answer :=
  let tag := uField body 0 4
  if tag = 0 then (s, .refuse .badValue)
  else match reasonOf (uField body 7 1) with
    | none => (s, .refuse .badValue)
    | some why =>
      match namedSeat body 4 with
      | .error st => (s, .refuse st)
      | .ok id =>
        match s.reservation id tag with
        | none => (s, .refuse .notFound)
        | some under => (((s.returnSeat id under).dealWith tag why).askPass, .ok)

def execNotPlaced (t : Byte) (body : List Byte) (s : State) : Host.Outcome State Fault Refusal :=
  message { code := 0x71, size := 8 } t body (serveNotPlaced body) s

/-! ## Pausing, timeout, reading -/

/-- PAUSE-MATCHER (R172). -/
def servePauseMatcher (s : State) : State × Answer :=
  (s.updPlm fun m => { m with paused := true, passPending := false }, .ok)

def execPauseMatcher (t : Byte) (body : List Byte) (s : State) : Host.Outcome State Fault Refusal :=
  message { code := 0x72, size := 0 } t body servePauseMatcher s

/-- RESUME-MATCHER (R173). -/
def serveResumeMatcher (s : State) : State × Answer := ((s.updPlm fun m => { m with paused := false }).askPass, .ok)

def execResumeMatcher (t : Byte) (body : List Byte) (s : State) : Host.Outcome State Fault Refusal :=
  message { code := 0x73, size := 0 } t body serveResumeMatcher s

/-- SET-PLACEMENT-TIMEOUT (R164). -/
def serveSetPlacementTimeout (body : List Byte) (s : State) : State × Answer :=
  let x := uField body 0 2
  let timeout := min 3600 (max 30 x)
  (s.updPlm fun m => { m with timeout := timeout },
   { status := .ok, clamped := decide (timeout ≠ x), body := beBytes 2 timeout })

def execSetPlacementTimeout (t : Byte) (body : List Byte) (s : State) : Host.Outcome State Fault Refusal :=
  message { code := 0x74, size := 2 } t body (serveSetPlacementTimeout body) s

/-- The 7 bytes of the last pass result in GET-MATCHER (R174, R187 and the note of section 10.7). -/
def PassResult.bytes : PassResult → List Byte
  | .none => 0 :: zeros 6
  | .complete served made => 1 :: (beBytes 2 served ++ beBytes 1 made ++ zeros 3)
  | .noticeRoom served made id => 2 :: (beBytes 2 served ++ beBytes 1 made ++ seatIdBytes id)

/-- The number of reservations held (R174). -/
def State.reservations (s : State) : Nat := (s.bank.toList.map BankString.resCount).sum

/-- The 12 bytes of GET-MATCHER (R174). -/
def State.matcherBytes (s : State) : List Byte :=
  [flagByte s.plm.paused, flagByte s.plm.passPending] ++ beBytes 2 s.plm.timeout ++ beBytes 1 s.reservations ++
    s.plm.lastPass.bytes

def serveGetMatcher (s : State) : State × Answer := (s, .ok s.matcherBytes)

def execGetMatcher (t : Byte) (body : List Byte) (s : State) : Host.Outcome State Fault Refusal :=
  message { code := 0x75, size := 0 } t body serveGetMatcher s

end Sys2Proof.Machine
end

