-- ==== Sys2Proof/Machine/Notices.lean ====
section
/-! DEFINITION. Notices and alert (spec/11): fetching, the threshold, the enables and the clearing of latched causes. -/

namespace Sys2Proof.Machine

/-- The notices that leave the queue go, and the overflow count becomes 0 (R192). -/
def Nqa.fetch (n : Nat) (x : Nqa) : Nqa := { x with queue := x.queue.drop n, overflow := 0 }

/-- The reply body of FETCH-NOTICES: overflow count, number of notices, notices (R192, R189). -/
def Nqa.fetched (n : Nat) (x : Nqa) : List Byte :=
  beBytes 1 x.overflow ++ beBytes 1 (x.queue.take n).length ++ (x.queue.take n).flatMap Notice.bytes

/-- FETCH-NOTICES (R192). -/
def serveFetchNotices (body : List Byte) (s : State) : State × Answer :=
  let n := countOf (uField body 0 1)
  if 8 < n then (s, .refuse .badValue)
  else
    let s1 := s.updNqa (Nqa.fetch n)
    (if s.nqa.queue.isEmpty then s1 else s1.askPass, .ok (s.nqa.fetched n))

def execFetchNotices (t : Byte) (body : List Byte) (s : State) : Host.Outcome State Fault Refusal :=
  message { code := 0x78, size := 1 } t body (serveFetchNotices body) s

/-- SET-NOTICE-THRESHOLD (R193). -/
def serveSetNoticeThreshold (body : List Byte) (s : State) : State × Answer :=
  let n := countOf (uField body 0 1)
  if 8 < n then (s, .refuse .badValue)
  else (s.updNqa fun x => { x with threshold := n }, .ok (beBytes 1 n))

def execSetNoticeThreshold (t : Byte) (body : List Byte) (s : State) : Host.Outcome State Fault Refusal :=
  message { code := 0x79, size := 1 } t body (serveSetNoticeThreshold body) s

/-- GET-ALERT (R195). -/
def serveGetAlert (s : State) : State × Answer :=
  (s, .ok [s.rawCauses.byte, s.nqa.enables.byte, s.activeCauses.byte])

def execGetAlert (t : Byte) (body : List Byte) (s : State) : Host.Outcome State Fault Refusal :=
  message { code := 0x7A, size := 0 } t body serveGetAlert s

/-- The cause byte of a body, where its bits 6 and 7 are clear (R195, R196). -/
def causeByte (body : List Byte) : Option Causes :=
  if uField body 0 1 < 64 then some (causesOf (body.getD 0 0)) else none

/-- SET-ALERT-ENABLE (R195). -/
def serveSetAlertEnable (body : List Byte) (s : State) : State × Answer :=
  match causeByte body with
  | none => (s, .refuse .badValue)
  | some c => (s.updNqa fun x => { x with enables := c }, .ok [c.byte])

def execSetAlertEnable (t : Byte) (body : List Byte) (s : State) : Host.Outcome State Fault Refusal :=
  message { code := 0x7B, size := 1 } t body (serveSetAlertEnable body) s

/-- The latched causes of a set cleared (R196). -/
def Nqa.clear (c : Causes) (x : Nqa) : Nqa :=
  { x with linkError := x.linkError && !c.linkError, overflowCause := x.overflowCause && !c.overflow,
           stageBus := x.stageBus && !c.stageBus }

/-- CLEAR-ALERT (R196). -/
def serveClearAlert (body : List Byte) (s : State) : State × Answer :=
  match causeByte body with
  | none => (s, .refuse .badValue)
  | some c => (s.updNqa (Nqa.clear c), .ok [(s.updNqa (Nqa.clear c)).rawCauses.byte])

def execClearAlert (t : Byte) (body : List Byte) (s : State) : Host.Outcome State Fault Refusal :=
  message { code := 0x7C, size := 1 } t body (serveClearAlert body) s

end Sys2Proof.Machine
end

