-- ==== Sys2Proof/Machine/ProfileTable.lean ====
section
/-! DEFINITION. The Profile Table (spec/01): the checks of a write in field order, slots in use, and its messages. -/

namespace Sys2Proof.Machine

def within (lo hi x : Nat) : Bool := decide (lo ≤ x) && decide (x ≤ hi)

def withinTemp (x : Int) : Bool := !(decide (x < -400) || decide (1250 < x))

/-- For each field number, whether the field lies in its range and keeps its relation to fields of lower number
(R2 to R7). -/
def Profile.checks (p : Profile) : List (Nat × Bool) :=
  [(1, within 100 65535 p.nameplate), (2, within 10 65535 p.nominalRes), (3, within 0 65535 p.presentLow),
   (4, within 0 65535 p.presentHigh && decide (p.presentLow < p.presentHigh)),
   (5, within 0 65535 p.floor && decide (p.presentLow ≤ p.floor) && decide (p.floor < p.presentHigh)),
   (6, withinTemp p.tempLow), (7, withinTemp p.tempHigh && decide (p.tempLow < p.tempHigh)),
   (8, within 10 250 p.windowLen), (9, within 0 50 p.deadBand), (10, within 1 200 p.settleLimit),
   (11, within 60 14400 p.restMin), (12, within 60 14400 p.restMax && decide (p.restMin ≤ p.restMax)),
   (13, within 1 32767 p.chargeCurrent),
   (14, within 0 65535 p.cvVoltage && decide (p.presentLow ≤ p.cvVoltage) && decide (p.cvVoltage ≤ p.presentHigh)),
   (15, within 1 32767 p.endCurrent && decide (p.endCurrent < p.chargeCurrent)), (16, within 10 1440 p.chargeLimit),
   (17, within 1 32767 p.dischargeCurrent),
   (18, within 0 65535 p.cutoff && decide (p.floor < p.cutoff) && decide (p.cutoff < p.cvVoltage)),
   (19, within 10 1440 p.dischargeLimit), (20, within 1 32767 p.pulseCurrent), (21, within 10 100 p.pulseLen),
   (22, within 4 600 p.prePulse), (23, within 1 32767 p.minDelta), (24, within 0 1440 p.observation),
   (25, within 1 248 p.revHigh), (26, within 0 247 p.revLow && decide (p.revLow < p.revHigh)),
   (27, within 0 65535 p.rippleLow), (28, within 0 65535 p.rippleHigh && decide (p.rippleLow ≤ p.rippleHigh)),
   (29, within 1 65535 p.sagDrift), (30, within 0 100 p.tempCoeff), (31, within 0 1200 p.sohA),
   (32, within 0 1200 p.sohB && decide (p.sohB ≤ p.sohA)), (33, within 0 1200 p.sohC && decide (p.sohC ≤ p.sohB)),
   (34, within 1 65535 p.ratioA), (35, within 1 65535 p.ratioB && decide (p.ratioA ≤ p.ratioB)),
   (36, within 1 65535 p.ratioC && decide (p.ratioB ≤ p.ratioC)), (37, within 0 65535 p.sdA),
   (38, within 0 65535 p.sdB && decide (p.sdA ≤ p.sdB)), (39, within 0 65535 p.sdC && decide (p.sdB ≤ p.sdC))]

/-- The number of the first bad field (R9). -/
def Profile.firstBad (p : Profile) : Option Nat := (p.checks.find? fun c => !c.2).map Prod.fst

/-- Whether a bay in this state refers to its profile (R13). -/
def BayState.refersToProfile : BayState → Bool
  | .empty | .cal => false
  | _ => true

/-- Whether a slot is in use by a bay, a pool record or a string (R13). -/
def State.slotInUse (s : State) (k : ProfileId) : Bool :=
  s.bays.toList.any (fun r => r.state.refersToProfile && r.profile == some k) ||
    s.pool.records.any (fun c => c.grade.profile == k) ||
    s.bank.toList.any fun x => x.state != .unused && x.profile == some k

/-- WRITE-PROFILE (R9, R10): every reply names a field number, 0xFF unless BAD_VALUE. -/
def serveWriteProfile (body : List Byte) (s : State) : State × Answer :=
  match profileOf (uField body 0 1) with
  | none => (s, .refuse .badValue [0])
  | some k =>
    if (s.slot k).isSome && s.slotInUse k then (s, .refuse .inUse [0xFF])
    else
      let p := Profile.ofBytes body 1
      match p.firstBad with
      | some n => (s, .refuse .badValue (beBytes 1 n))
      | none => ({ s with profiles := updAt s.profiles k fun _ => some p }, .ok [0xFF])

def execWriteProfile (t : Byte) (body : List Byte) (s : State) : Host.Outcome State Fault Refusal :=
  message { code := 0x10, size := 72, refusedBody := [0xFF] } t body (serveWriteProfile body) s

/-- READ-PROFILE (R11). -/
def serveReadProfile (body : List Byte) (s : State) : State × Answer :=
  match profileOf (uField body 0 1) with
  | none => (s, .refuse .badValue)
  | some k =>
    match s.slot k with
    | none => (s, .refuse .notFound)
    | some p => (s, .ok p.bytes)

def execReadProfile (t : Byte) (body : List Byte) (s : State) : Host.Outcome State Fault Refusal :=
  message { code := 0x11, size := 1 } t body (serveReadProfile body) s

/-- ERASE-PROFILE (R12). -/
def serveEraseProfile (body : List Byte) (s : State) : State × Answer :=
  match profileOf (uField body 0 1) with
  | none => (s, .refuse .badValue)
  | some k =>
    match s.slot k with
    | none => (s, .refuse .notFound)
    | some _ =>
      if s.slotInUse k then (s, .refuse .inUse)
      else ({ s with profiles := updAt s.profiles k fun _ => none }, .ok)

def execEraseProfile (t : Byte) (body : List Byte) (s : State) : Host.Outcome State Fault Refusal :=
  message { code := 0x12, size := 1 } t body (serveEraseProfile body) s

end Sys2Proof.Machine
end

