-- ==== Sys2Proof/Machine/Scan.lean ====
section
/-! DEFINITION. Calibration (spec/02 sections 2.6 and 2.7): the CAL state, pending trims and their messages. -/

namespace Sys2Proof.Machine

/-- The applied value of a quantity (section 2.5). -/
def TrimSet.applied (k : TrimSet) : TrimQuantity → Int
  | .gain => k.gain
  | .offset => k.offset
  | .current => k.current

/-- The range of a quantity (section 2.5). -/
def TrimQuantity.lo : TrimQuantity → Int
  | .gain => -64
  | .offset => -32
  | .current => -50

def TrimQuantity.hi : TrimQuantity → Int
  | .gain => 63
  | .offset => 31
  | .current => 50

def TrimSet.set (k : TrimSet) (q : TrimQuantity) (x : Int) : TrimSet :=
  match q with
  | .gain => { k with gain := x }
  | .offset => { k with offset := x }
  | .current => { k with current := x }

/-- A pending trim becomes the applied value (R28). -/
def TrimSet.applyPending (k : TrimSet) : TrimSet :=
  match k.pending with
  | none => k
  | some (q, x) => { k.set q x with pending := none }

/-- The 7 bytes of GET-TRIM, in the order of R31. -/
def TrimSet.bytes (k : TrimSet) : List Byte :=
  sBytes 1 k.gain ++ [k.range.code] ++ sBytes 1 k.offset ++ sBytes 1 k.current ++
  (match k.pending with
   | none => [0, 0]
   | some (q, x) => q.code :: sBytes 1 x) ++
  [flagByte k.calFlag]

/-- ENTER-CAL (R24): the bay state, SCAN's calibration flag and WEV's CAL flag in one taking. -/
def serveEnterCal (body : List Byte) : State → State × Answer :=
  onBay body fun b s =>
    if (s.bay b).state = .empty then
      (((s.updBay b fun r => { r with state := .cal }).updTrims b fun k =>
          { k with calFlag := true, flagMoved := true }).updWev b fun w =>
        { w with cal := true, window := none, nextIndex := 0 }, .ok)
    else (s, .refuse .wrongState)

def execEnterCal (t : Byte) (body : List Byte) (s : State) : Host.Outcome State Fault Refusal :=
  message { code := 0x20, size := 1 } t body (serveEnterCal body) s

/-- The steps of a TRIM clamped, and the new value clamped (R27). -/
def trimSteps (steps : Int) : Int := clampTo (-4) 4 steps
def TrimSet.target (k : TrimSet) (q : TrimQuantity) (steps : Int) : Int :=
  clampTo q.lo q.hi (k.applied q + trimSteps steps)

/-- TRIM (R27). -/
def serveTrim (body : List Byte) : State → State × Answer :=
  onBay body fun b s =>
    match trimQuantityOf (uField body 1 1) with
    | none => (s, .refuse .badValue)
    | some q =>
      let steps := sField body 2 1
      let k := s.trims b
      if (s.bay b).state ≠ .cal then (s, .refuse .wrongState)
      else if k.pending.isSome then (s, .refuse .busy)
      else
        (s.updTrims b fun k => { k with pending := some (q, k.target q steps) },
         { status := .ok
           clamped := outside (-4) 4 steps || outside q.lo q.hi (k.applied q + trimSteps steps)
           body := q.code :: (sBytes 1 (k.applied q) ++ sBytes 1 (k.target q steps)) })

def execTrim (t : Byte) (body : List Byte) (s : State) : Host.Outcome State Fault Refusal :=
  message { code := 0x21, size := 3 } t body (serveTrim body) s

/-- Whether a gain trim is pending (R29). -/
def TrimSet.gainPending (k : TrimSet) : Bool := k.pending.any fun x => x.1 == .gain

/-- SET-TRIM-RANGE (R29). -/
def serveSetTrimRange (body : List Byte) : State → State × Answer :=
  onBay body fun b s =>
    match trimRangeOf (uField body 1 1) with
    | none => (s, .refuse .badValue)
    | some x =>
      if (s.bay b).state = .cal ∧ (s.trims b).gain = 0 ∧ (s.trims b).gainPending = false then
        (s.updTrims b fun k => { k with range := x }, .ok)
      else (s, .refuse .wrongState)

def execSetTrimRange (t : Byte) (body : List Byte) (s : State) : Host.Outcome State Fault Refusal :=
  message { code := 0x22, size := 2 } t body (serveSetTrimRange body) s

/-- EXIT-CAL (R30). Completions reported and not yet taken have nothing left to apply, and the record of a window that
WEV has completed stays, its completion taken by SCAN or not: DEDUCED (log 23). -/
def serveExitCal (body : List Byte) : State → State × Answer :=
  onBay body fun b s =>
    if (s.bay b).state = .cal then
      let s1 := s.updTrims b fun k => { k.applyPending with calFlag := false, flagMoved := true }
      let s2 := s1.updWev b fun w => { w with cal := false, window := none, nextIndex := 0 }
      ({ (s2.updBay b fun r => { r with state := .empty }) with toScan := updAt s2.toScan b fun _ => 0 },
       .ok (s1.trims b).bytes)
    else (s, .refuse .wrongState)

def execExitCal (t : Byte) (body : List Byte) (s : State) : Host.Outcome State Fault Refusal :=
  message { code := 0x23, size := 1 } t body (serveExitCal body) s

/-- GET-TRIM (R31). -/
def serveGetTrim (body : List Byte) : State → State × Answer :=
  onBay body fun b s => (s, .ok (s.trims b).bytes)

def execGetTrim (t : Byte) (body : List Byte) (s : State) : Host.Outcome State Fault Refusal :=
  message { code := 0x24, size := 1 } t body (serveGetTrim body) s

/-- CAL_WINDOW_COMPLETION (R28): SCAN takes a completion that WEV has reported. -/
def execCalWindowCompletion (b : BayId) (s : State) : Host.Outcome State Fault Refusal :=
  event (fun s =>
    if s.toScan.get b = 0 then s
    else ({ s with toScan := updAt s.toScan b (· - 1) }).updTrims b TrimSet.applyPending) s

end Sys2Proof.Machine
end

