-- ==== Sys2Proof/Machine/StageBus.lean ====
section
/-! DEFINITION. The Stage Bus Controller (spec/05 sections 5.2 to 5.9): the start of a transaction, its outcomes and
the order in which they are handed on, the FAULT line, arbitration and foreign transactions, stalls, STOP-ALL. -/

namespace Sys2Proof.Machine

/-- TRANSACTION_START (R87): with the bus IDLE and nothing in flight, the head leaves the queue and is sent; no write is
newer than it yet (R94). -/
def StageBus.begin (x : StageBus) : StageBus :=
  match x.queue with
  | e :: rest =>
    if x.bus = .idle ∧ x.inFlight = none then { x with queue := rest, inFlight := some e, newer := false, bus := .busy } else x
  | [] => x

def execTransactionStart (s : State) : Host.Outcome State Fault Refusal :=
  event (fun s => s.updSbc StageBus.begin) s

/-- The transaction in flight has come to its outcome and its stop condition: the bus is IDLE (R87, R88). -/
def StageBus.finish (x : StageBus) : StageBus := { x with inFlight := none, bus := .idle }

/-- An acknowledged write, first at CAA, which takes an OFF as a release, and then at BSQ (R89). -/
def State.acknowledged (s : State) (b : BayId) (k : WriteKind) (label : Nat) : State :=
  (if k = .off then s.release b else s).bsqAck b k label

/-- ACK (R89). -/
def execAck (s : State) : Host.Outcome State Fault Refusal :=
  event (fun s =>
    match s.sbc.inFlight with
    | some (.write b k _ label) => (s.updSbc StageBus.finish).acknowledged b k label
    | _ => s) s

/-- A write NACKed, or a status read without an answer: the bay's pending write goes, and BSQ takes the report
(R90, R91, R74). -/
def State.noAnswer (s : State) (b : BayId) : State :=
  (s.updSbc fun x => { x with queue := dropWrite b x.queue }).stageReport b .stageNoAnswer .ok

/-- NACK (R90). -/
def execNack (s : State) : Host.Outcome State Fault Refusal :=
  event (fun s =>
    match s.sbc.inFlight with
    | some (.write b _ _ _) => (s.updSbc StageBus.finish).noAnswer b
    | _ => s) s

/-- The outcome of a status read; none is NO_ANSWER (R84). -/
def statusOf (status check : Byte) : Option StageCode :=
  if status + check ≠ 0 then none
  else if status = 0x00 then some .ok
  else if status = 0x01 then some .overtemp
  else if status = 0x03 then some .inputLoss
  else some .outputFault

/-- The outcome of a status read handed on (R91). -/
def State.statusRead (s : State) (b : BayId) : Option StageCode → State
  | none => s.noAnswer b
  | some .ok => s
  | some code => (s.release b).stageReport b .stageFault code

/-- STATUS_READ_OUTCOME (R91). -/
def execStatusReadOutcome (status check : Byte) (s : State) : Host.Outcome State Fault Refusal :=
  event (fun s =>
    match s.sbc.inFlight with
    | some (.statusRead b) => (s.updSbc StageBus.finish).statusRead b (statusOf status check)
    | _ => s) s

/-- BROADCAST_COMPLETE (R92): a recovery broadcast has completed with it (R97). -/
def execBroadcastComplete (s : State) : Host.Outcome State Fault Refusal :=
  event (fun s =>
    match s.sbc.inFlight with
    | some .broadcastOff => (s.updSbc fun x => { x.finish with recovery := [] }).releaseAll
    | _ => s) s

/-- ARBITRATION_LOST (R94): the entry in flight is abandoned, and the part listens. -/
def execArbitrationLost (s : State) : Host.Outcome State Fault Refusal :=
  event (fun s =>
    match s.sbc.inFlight with
    | some e => s.updSbc fun x => { x with inFlight := none, abandoned := some e, listening := true }
    | none => s) s

/-- FOREIGN_START (R88): a start condition of another master while the bus is IDLE. -/
def execForeignStart (s : State) : Host.Outcome State Fault Refusal :=
  event (fun s => if s.sbc.bus = .idle then s.updSbc fun x => { x with bus := .busy, listening := true } else s) s

/-- A foreign broadcast OFF: address 0, kind OFF, five bytes that sum to 0 modulo 256 (R95; log 27). -/
def isForeignOff (bytes : List Byte) : Bool :=
  decide (bytes.length = 5) && bytes.getD 0 0 == 0x00 && bytes.getD 1 0 == 0x10 && byteSum bytes == 0

/-- Whether an abandoned entry is dropped since a foreign broadcast OFF has suspended its bay (R94). -/
def BusEntry.ofAny (set : List BayId) : BusEntry → Bool
  | .write b _ _ _ => set.contains b
  | .statusRead b => set.contains b
  | .broadcastOff => false

/-- The abandoned entry dealt with once the foreign transaction has been judged (R94). -/
def StageBus.settleAbandoned (set : List BayId) (x : StageBus) : StageBus :=
  match x.abandoned with
  | none => x
  | some e =>
    { x with abandoned := none, queue := if e.ofAny set then x.queue else returnEntry x.newer e x.queue }

/-- The three acts of a foreign broadcast OFF, in their order (R95). -/
def State.foreignOff (s : State) (set : List BayId) : State :=
  let s1 := (s.suspendMany set .externalOff).unwaitMany set
  let s2 := s1.updSbc fun x => { x with queue := set.foldl (fun q b => dropWrite b q) x.queue }
  s2.releaseAll

/-- FOREIGN_TRANSACTION (R94, R95): judged at its stop condition. -/
def execForeignTransaction (bytes : List Byte) (s : State) : Host.Outcome State Fault Refusal :=
  event (fun s =>
    if s.sbc.listening then
      let set := if isForeignOff bytes then s.baysInHand else []
      let s1 := if isForeignOff bytes then s.foreignOff set else s
      s1.updSbc fun x => { x.settleAbandoned set with listening := false, bus := .idle }
    else s) s

/-- A stall at SBC, after which these bays await the recovery broadcast (R96, R97). -/
def StageBus.stall (awaiting : List BayId) (x : StageBus) : StageBus :=
  { x with queue := [.broadcastOff], inFlight := none, abandoned := none, newer := false, recovery := awaiting,
           bus := .stalled, listening := false, timer := .passed, stallCount := satAdd 255 x.stallCount 1 }

/-- The bays that await the recovery broadcast after a stall: those it suspends, and those of an earlier stall whose
recovery broadcast it cuts or removes (R97). -/
def State.awaitRecovery (s : State) : List BayId :=
  allBays.filter fun b => s.sbc.recovery.contains b || (s.bay b).inHand

/-- STALL (R96): the stall timer passes 20 ms. -/
def execStall (s : State) : Host.Outcome State Fault Refusal :=
  event (fun s =>
    if s.sbc.bus = .stalled then s
    else
      let s1 := s.updSbc (StageBus.stall s.awaitRecovery)
      let s2 := s1.updNqa fun x => { x with stageBus := true }
      (s2.suspendMany s.baysInHand .busStall).unwaitMany s.baysInHand) s

/-- Whether the bus is held by no transaction of its own account: STALLED, or BUSY since the release of reset with a
line low (R88; log 26). -/
def StageBus.waitsForLines (x : StageBus) : Bool :=
  x.bus == .stalled || (x.bus == .busy && x.inFlight.isNone && !x.listening)

/-- BUS_RECOVERY (R97): both lines are high again. -/
def execBusRecovery (s : State) : Host.Outcome State Fault Refusal :=
  event (fun s =>
    if s.sbc.waitsForLines then s.updSbc fun x => { x with bus := .idle, timer := .clear } else s) s

/-- FAULT_ASSERTION (R93): a status read of every bay in hand, ascending. -/
def execFaultAssertion (s : State) : Host.Outcome State Fault Refusal :=
  event (fun s =>
    if s.sbc.faultLow then s
    else s.updSbc fun x =>
      { x with faultLow := true, queue := s.baysInHand.foldl (fun q b => joinRead b q) x.queue }) s

/-- FAULT_RELEASE (R93). -/
def execFaultRelease (s : State) : Host.Outcome State Fault Refusal :=
  event (fun s => s.updSbc fun x => { x with faultLow := false }) s

/-- STOP-ALL (R98). -/
def serveStopAll (s : State) : State × Answer :=
  let set := s.baysInHand
  let s1 := s.updSbc fun x => { x with queue := joinBroadcast (x.queue.filter fun e => !e.isWrite) }
  ((s1.suspendMany set .stopAll).unwaitMany set, .ok (baySetBytes set))

def execStopAll (t : Byte) (body : List Byte) (s : State) : Host.Outcome State Fault Refusal :=
  message { code := 0x40, size := 0 } t body serveStopAll s

/-- The reply body of GET-STAGE-BUS (R99, R187). An entry abandoned at a lost arbitration is counted neither in the
queue length nor as a pending broadcast here, where the queue itself is reported: DESIGN CHOICE (log 12). -/
def StageBus.bytes (x : StageBus) : List Byte :=
  [x.bus.code] ++ beBytes 1 x.queue.length ++ [flagByte (x.queue.any (·.isBroadcast))] ++
  (match x.inFlight with
   | none => [0, 0]
   | some e => [e.code, e.address]) ++
  beBytes 1 x.stallCount ++ [flagByte (!x.faultLow)]

def serveGetStageBus (s : State) : State × Answer := (s, .ok s.sbc.bytes)

def execGetStageBus (t : Byte) (body : List Byte) (s : State) : Host.Outcome State Fault Refusal :=
  message { code := 0x41, size := 0 } t body serveGetStageBus s

end Sys2Proof.Machine
end

