-- ==== Sys2Proof/Machine/Unload.lean ====
section
/-! DEFINITION. UNLOAD (R80): what stands handed over for the bay between the blocks is taken first, and then the bay
returns to EMPTY (log 24). -/

namespace Sys2Proof.Machine

/-- The bay record of a bay returned to EMPTY: what R80 lists is cleared; what it does not name stays (log 30). -/
def Bay.unloaded (r : Bay) : Bay :=
  { Bay.reset with entry := r.entry, clock := r.clock, resume := r.resume, lastIndex := r.lastIndex,
                   lastSumV := r.lastSumV, restEnding := r.restEnding }

/-- The bay that a message to CAA concerns. -/
def CaaMsg.bay : CaaMsg → BayId
  | .request b _ _ => b
  | .leave b => b
  | .giveBack b _ => b

/-- CAA takes one message of BSQ (R101). -/
def State.caaTake (s : State) : CaaMsg → State
  | .request b mag entry => s.takeRequest b mag entry
  | .leave b => s.takeLeave b
  | .giveBack b entry => s.takeReturn b entry

/-- CAA takes the oldest message handed over. -/
def State.caaTakeHead (s : State) : State :=
  match s.toCaa with
  | [] => s
  | m :: rest => ({ s with toCaa := rest }).caaTake m

/-- CAA takes what BSQ has handed over, in order, until no message of a bay is left, of at most `n` messages. -/
def State.caaTakeFor (b : BayId) : Nat → State → State
  | 0, s => s
  | n + 1, s => if s.toCaa.any (·.bay == b) then caaTakeFor b n s.caaTakeHead else s

/-- The leave of the bay, where it still stands, is taken by CAA before the bay can be EMPTY, so that no EMPTY or CAL bay
waits for a grant (R26, R80; log 24). -/
def State.caaUnload (s : State) (b : BayId) : State := State.caaTakeFor b s.toCaa.length s

/-- WEV takes all that stands handed over for a bay, and then its return to EMPTY, which disarms the watch
(R80, R49; log 24). -/
def State.wevUnload (s : State) (b : BayId) : State :=
  (State.wevTakeMany b (s.toWev.get b).length s).setWatch b false

/-- BSQ takes all that WEV has reported for a bay in no phase: a sample report changes nothing (R61), and what a closing
report adds is cleared with the record, so that none is left (log 24). -/
def State.dropReports (s : State) (b : BayId) : State := { s with toBsq := updAt s.toBsq b fun _ => [] }

/-- UNLOAD (R80). -/
def serveUnload (body : List Byte) : State → State × Answer :=
  onBay body fun b s =>
    if (s.bay b).state = .done ∨ (s.bay b).state = .rejected ∨ (s.bay b).state = .aborted then
      if s.writeInHand b then (s, .refuse .busy)
      else
        let s1 := if s.grantOf b = 0 then s.caaUnload b else s
        if s1.grantOf b ≠ 0 then (s1.offWrite b, .refuse .busy)
        else (((s1.wevUnload b).dropReports b).updBay b Bay.unloaded, .ok)
    else (s, .refuse .wrongState)

def execUnload (t : Byte) (body : List Byte) (s : State) : Host.Outcome State Fault Refusal :=
  message { code := 0x38, size := 1 } t body (serveUnload body) s

end Sys2Proof.Machine
end

