-- ==== Sys2Proof/Machine/Dispatch.lean ====
section
/-! DEFINITION. One arm per command, each a direct call of its meaning. -/

namespace Sys2Proof.Machine

def exec (i : Instr) (s : State) : Host.Outcome State Fault Refusal :=
  match i with
  | .echo t body => Sys2Proof.Machine.execEcho t body s
  | .getIdentity t body => Sys2Proof.Machine.execGetIdentity t body s
  | .reset t body => Sys2Proof.Machine.execReset t body s
  | .resetInput => Sys2Proof.Machine.execResetInput s
  | .getLinkLog t body => Sys2Proof.Machine.execGetLinkLog t body s
  | .clearLinkError t body => Sys2Proof.Machine.execClearLinkError t body s
  | .setLinkMode t body => Sys2Proof.Machine.execSetLinkMode t body s
  | .setLinkRate t body => Sys2Proof.Machine.execSetLinkRate t body s
  | .writeProfile t body => Sys2Proof.Machine.execWriteProfile t body s
  | .readProfile t body => Sys2Proof.Machine.execReadProfile t body s
  | .eraseProfile t body => Sys2Proof.Machine.execEraseProfile t body s
  | .enterCal t body => Sys2Proof.Machine.execEnterCal t body s
  | .trim t body => Sys2Proof.Machine.execTrim t body s
  | .setTrimRange t body => Sys2Proof.Machine.execSetTrimRange t body s
  | .exitCal t body => Sys2Proof.Machine.execExitCal t body s
  | .getTrim t body => Sys2Proof.Machine.execGetTrim t body s
  | .getWindow t body => Sys2Proof.Machine.execGetWindow t body s
  | .load t body => Sys2Proof.Machine.execLoad t body s
  | .start t body => Sys2Proof.Machine.execStart t body s
  | .startGroup t body => Sys2Proof.Machine.execStartGroup t body s
  | .suspend t body => Sys2Proof.Machine.execSuspend t body s
  | .resume t body => Sys2Proof.Machine.execResume t body s
  | .resumeGroup t body => Sys2Proof.Machine.execResumeGroup t body s
  | .abort t body => Sys2Proof.Machine.execAbort t body s
  | .abortGroup t body => Sys2Proof.Machine.execAbortGroup t body s
  | .unload t body => Sys2Proof.Machine.execUnload t body s
  | .getBay t body => Sys2Proof.Machine.execGetBay t body s
  | .stopAll t body => Sys2Proof.Machine.execStopAll t body s
  | .getStageBus t body => Sys2Proof.Machine.execGetStageBus t body s
  | .setLimit t body => Sys2Proof.Machine.execSetLimit t body s
  | .getAllowance t body => Sys2Proof.Machine.execGetAllowance t body s
  | .restoreCandidate t body => Sys2Proof.Machine.execRestoreCandidate t body s
  | .withdraw t body => Sys2Proof.Machine.execWithdraw t body s
  | .getPool t body => Sys2Proof.Machine.execGetPool t body s
  | .getCandidate t body => Sys2Proof.Machine.execGetCandidate t body s
  | .openString t body => Sys2Proof.Machine.execOpenString t body s
  | .setReference t body => Sys2Proof.Machine.execSetReference t body s
  | .declareVacancy t body => Sys2Proof.Machine.execDeclareVacancy t body s
  | .releaseString t body => Sys2Proof.Machine.execReleaseString t body s
  | .restoreSeat t body => Sys2Proof.Machine.execRestoreSeat t body s
  | .installDirect t body => Sys2Proof.Machine.execInstallDirect t body s
  | .getString t body => Sys2Proof.Machine.execGetString t body s
  | .getPosition t body => Sys2Proof.Machine.execGetPosition t body s
  | .placed t body => Sys2Proof.Machine.execPlaced t body s
  | .notPlaced t body => Sys2Proof.Machine.execNotPlaced t body s
  | .pauseMatcher t body => Sys2Proof.Machine.execPauseMatcher t body s
  | .resumeMatcher t body => Sys2Proof.Machine.execResumeMatcher t body s
  | .setPlacementTimeout t body => Sys2Proof.Machine.execSetPlacementTimeout t body s
  | .getMatcher t body => Sys2Proof.Machine.execGetMatcher t body s
  | .fetchNotices t body => Sys2Proof.Machine.execFetchNotices t body s
  | .setNoticeThreshold t body => Sys2Proof.Machine.execSetNoticeThreshold t body s
  | .getAlert t body => Sys2Proof.Machine.execGetAlert t body s
  | .setAlertEnable t body => Sys2Proof.Machine.execSetAlertEnable t body s
  | .clearAlert t body => Sys2Proof.Machine.execClearAlert t body s
  | .badKind k t body => Sys2Proof.Machine.execBadKind k t body s
  | .checkError k t body check => Sys2Proof.Machine.execCheckError k t body check s
  | .lengthError hi lo => Sys2Proof.Machine.execLengthError hi lo s
  | .gapError held => Sys2Proof.Machine.execGapError held s
  | .overrunFrame ending => Sys2Proof.Machine.execOverrunFrame ending s
  | .replyStart => Sys2Proof.Machine.execReplyStart s
  | .replyEnd => Sys2Proof.Machine.execReplyEnd s
  | .sample b vin iin tin inCal => Sys2Proof.Machine.execSample b vin iin tin inCal s
  | .calWindowCompletion b => Sys2Proof.Machine.execCalWindowCompletion b s
  | .phaseEntry b => Sys2Proof.Machine.execPhaseEntry b s
  | .clockStart b => Sys2Proof.Machine.execClockStart b s
  | .phaseLeave b => Sys2Proof.Machine.execPhaseLeave b s
  | .sampleReport b => Sys2Proof.Machine.execSampleReport b s
  | .closingReport b => Sys2Proof.Machine.execClosingReport b s
  | .request => Sys2Proof.Machine.execRequest s
  | .leave => Sys2Proof.Machine.execLeave s
  | .grant => Sys2Proof.Machine.execGrant s
  | .grantReturn => Sys2Proof.Machine.execGrantReturn s
  | .transactionStart => Sys2Proof.Machine.execTransactionStart s
  | .ack => Sys2Proof.Machine.execAck s
  | .nack => Sys2Proof.Machine.execNack s
  | .statusReadOutcome status check => Sys2Proof.Machine.execStatusReadOutcome status check s
  | .broadcastComplete => Sys2Proof.Machine.execBroadcastComplete s
  | .arbitrationLost => Sys2Proof.Machine.execArbitrationLost s
  | .foreignStart => Sys2Proof.Machine.execForeignStart s
  | .foreignTransaction bytes => Sys2Proof.Machine.execForeignTransaction bytes s
  | .stall => Sys2Proof.Machine.execStall s
  | .busRecovery => Sys2Proof.Machine.execBusRecovery s
  | .faultAssertion => Sys2Proof.Machine.execFaultAssertion s
  | .faultRelease => Sys2Proof.Machine.execFaultRelease s
  | .matchingPass => Sys2Proof.Machine.execMatchingPass s
  | .timeStep => Sys2Proof.Machine.execTimeStep s
  | .expiry seat => Sys2Proof.Machine.execExpiry seat s
  | .resetRelease sda scl fault => Sys2Proof.Machine.execResetRelease sda scl fault s

end Sys2Proof.Machine
end

