-- ==== Sys2Proof/Machine/Receiver.lean ====
section
/-! DEFINITION. The receiver (R176, R178): what a byte of the line does, and what the expiry of the gap timer does. The
opcode table has no row for a byte, so these are functions of the line's side: each ends a frame by putting the
command it makes at the tail of the queue (log 8, DESIGN CHOICE). -/

namespace Sys2Proof.Machine

/-- A frame is at its end: the receiver hunts, and the command waits (R176). -/
def State.frameEnds (s : State) (c : Instr) : State :=
  { s.updLink fun l => { l with rx := .hunt } with pending := s.pending ++ [c] }

/-- The command of a frame that its last byte completes: the bytes after SYNC, CHECK last (R176, R178). -/
def completedFrame (held : List Byte) (overrun : Bool) : Instr :=
  let k := held.getD 2 0
  let t := held.getD 3 0
  let body := (held.drop 4).dropLast
  if overrun then .overrunFrame .complete
  else if byteSum held = 0 then decodeRequest k t body
  else .checkError k t body (held.getLastD 0)

/-- The command of a frame whose LEN is above 250 (R176, R178). -/
def lengthFrame (hi lo : Byte) (overrun : Bool) : Instr :=
  if overrun then .overrunFrame (.length hi lo) else .lengthError hi lo

/-- The command of a frame that the gap timer cuts (R176, R178). -/
def gapFrame (held : List Byte) (overrun : Bool) : Instr :=
  if overrun then .overrunFrame (.gap held) else .gapError held

/-- The bytes of a frame after SYNC, with one more stored in its place (R176). -/
def State.holdByte (s : State) (held : List Byte) (overrun : Bool) : State :=
  match held with
  | hi :: lo :: rest =>
    if Config.maxBody < lenOf hi lo then s.frameEnds (lengthFrame hi lo overrun)
    else if rest.length = lenOf hi lo + 3 then s.frameEnds (completedFrame held overrun)
    else s.updLink fun l => { l with rx := .frame held overrun }
  | _ => s.updLink fun l => { l with rx := .frame held overrun }

/-- A byte arrives on the line (R176, R178). -/
def State.receiveByte (s : State) (x : Byte) : State :=
  if s.inReset then s
  else
    match s.link.rx with
    | .hunt =>
      if x = Config.sync then s.updLink fun l => { l with rx := .frame [] l.reply.isSome } else s
    | .frame held overrun => s.holdByte (held ++ [x]) overrun

/-- A byte on the line with the level of its stop bit: one whose stop bit is low is as if it had not arrived (R176). -/
def State.receiveLine (s : State) (x : Byte) (stopHigh : Bool) : State := if stopHigh then s.receiveByte x else s

/-- Bytes arrive one after the other. -/
def State.receive (s : State) (bytes : List Byte) : State := bytes.foldl State.receiveByte s

/-- The gap timer expires (R176). -/
def State.gapExpiry (s : State) : State :=
  match s.link.rx with
  | .hunt => s
  | .frame held overrun => s.frameEnds (gapFrame held overrun)

end Sys2Proof.Machine
end

