-- ==== Sys2Proof/Safety.lean ====
section
/-! DEFINITION. The terms in which claims are stated: when the link serves a request, what a well-formed frame is, the
catalogue of sizes, and the invariants that every step is to keep. -/

namespace Sys2Proof.Machine

/-! ## When the link serves -/

/-- The part is out of reset and no reply is pending: a frame is dispatched (R177, R178). -/
def State.dispatches (s : State) : Prop := s.inReset = false ∧ s.link.reply = none

/-- A frame is dispatched and the link is not held: every message is served (R177, R181). -/
def State.ready (s : State) : Prop := s.dispatches ∧ s.link.held = false

/-- The request body sizes of the catalogue: code, least and largest (R186). -/
def catalogue : List (Nat × Nat × Nat) :=
  [(0x01, 0, 250), (0x02, 0, 0), (0x03, 0, 0), (0x04, 0, 0), (0x05, 0, 0), (0x06, 1, 1), (0x07, 1, 1),
   (0x10, 72, 72), (0x11, 1, 1), (0x12, 1, 1), (0x20, 1, 1), (0x21, 3, 3), (0x22, 2, 2), (0x23, 1, 1), (0x24, 1, 1),
   (0x25, 1, 1), (0x30, 6, 6), (0x31, 1, 1), (0x32, 6, 6), (0x33, 1, 1), (0x34, 2, 2), (0x35, 7, 7), (0x36, 1, 1),
   (0x37, 6, 6), (0x38, 1, 1), (0x39, 1, 1), (0x40, 0, 0), (0x41, 0, 0), (0x42, 4, 4), (0x43, 0, 0),
   (0x50, 24, 24), (0x51, 4, 4), (0x52, 2, 2), (0x53, 4, 4), (0x60, 13, 13), (0x61, 10, 10), (0x62, 7, 7),
   (0x63, 1, 1), (0x64, 27, 27), (0x65, 7, 7), (0x66, 1, 1), (0x67, 2, 2), (0x70, 7, 7), (0x71, 8, 8), (0x72, 0, 0),
   (0x73, 0, 0), (0x74, 2, 2), (0x75, 0, 0), (0x78, 1, 1), (0x79, 1, 1), (0x7A, 0, 0), (0x7B, 1, 1), (0x7C, 1, 1)]

/-! ## Profiles -/

/-- Each field lies in the bytes that carry it (R188). -/
def Profile.encodable (p : Profile) : Prop :=
  (∀ x ∈ [p.nameplate, p.nominalRes, p.presentLow, p.presentHigh, p.floor, p.restMin, p.restMax, p.chargeCurrent,
      p.cvVoltage, p.endCurrent, p.chargeLimit, p.dischargeCurrent, p.cutoff, p.dischargeLimit, p.pulseCurrent,
      p.prePulse, p.minDelta, p.observation, p.rippleLow, p.rippleHigh, p.sagDrift, p.sohA, p.sohB, p.sohC, p.ratioA,
      p.ratioB, p.ratioC, p.sdA, p.sdB, p.sdC], x < 65536) ∧
  (∀ x ∈ [p.windowLen, p.deadBand, p.settleLimit, p.pulseLen, p.revHigh, p.revLow, p.tempCoeff], x < 256) ∧
  ∀ x ∈ [p.tempLow, p.tempHigh], -32768 ≤ x ∧ x ≤ 32767

/-- A slot is in use: a bay refers to it, or a record of the pool, or a string (R13). -/
def State.inUse (s : State) (k : ProfileId) : Prop :=
  (∃ b, (s.bay b).state ≠ .empty ∧ (s.bay b).state ≠ .cal ∧ (s.bay b).profile = some k) ∨
  (∃ c ∈ s.pool.records, c.grade.profile = k) ∨
  ∃ x, (s.string x).state ≠ .unused ∧ (s.string x).profile = some k

/-- Every FILLED slot holds a profile whose fields keep their ranges and relations (R2 to R7). -/
def ProfilesValid (s : State) : Prop := ∀ k p, s.slot k = some p → p.firstBad = none

/-! ## Tags -/

/-- A tag is held by a bay, a record of the pool or a seat (R55, R129, R140). -/
def State.holdsTag (s : State) (tag : Nat) : Prop :=
  (∃ b, (s.bay b).state ≠ .empty ∧ (s.bay b).state ≠ .cal ∧ (s.bay b).state ≠ .done ∧ (s.bay b).tag = some tag) ∨
  (∃ c ∈ s.pool.records, c.grade.tag = tag) ∨
  ∃ id x, s.seat id = some x ∧ x.tag = some tag

/-- A bay with a module has a tag and a profile; the park list holds each PARKED bay once and no other, and a PARKED bay
has the grade record of its module (R54, R55, R127, R134). -/
def BaysWhole (s : State) : Prop :=
  s.pool.park.Nodup ∧ ∀ b, (b ∈ s.pool.park ↔ (s.bay b).state = .parked) ∧
    ((s.bay b).state ≠ .empty → (s.bay b).state ≠ .cal →
      (s.bay b).tag.isSome = true ∧ (s.bay b).profile.isSome = true) ∧
    ((s.bay b).state = .parked → ∃ g, (s.bay b).grade = some g ∧ (s.bay b).tag = some g.tag ∧
      (s.bay b).profile = some g.profile)

/-- A tag is held at most once, but for a record and a seat of one reservation, which name each other (R55, R129, R130):
no two bays, no two records and no two seats hold one tag, no bay holds one with a record or a seat, and no record one
with an INSTALLED seat. -/
def TagsHeldOnce (s : State) : Prop :=
  (∀ b c tag, (s.bay b).holds tag = true → (s.bay c).holds tag = true → b = c) ∧
  (s.pool.records.map fun c => c.grade.tag).Nodup ∧
  (∀ id d x y tag, s.seat id = some x → s.seat d = some y → x.tag = some tag → y.tag = some tag → id = d) ∧
  (∀ b tag, (s.bay b).holds tag = true →
    (∀ c ∈ s.pool.records, c.grade.tag ≠ tag) ∧ ∀ id x, s.seat id = some x → x.tag ≠ some tag) ∧
  (∀ c ∈ s.pool.records, ∀ id g, s.seat id = some (.installed g) → g.tag ≠ c.grade.tag) ∧
  (∀ c ∈ s.pool.records, ∀ id, c.status = some id → ∃ n under, s.seat id = some (.reserved c.grade.tag n under)) ∧
  ∀ id tag n under, s.seat id = some (.reserved tag n under) →
    ∃ c ∈ s.pool.records, c.grade.tag = tag ∧ c.status = some id

/-- A slot that a bay, a record or a string refers to is FILLED (R14). -/
def SlotsKept (s : State) : Prop := ∀ k, s.inUse k → s.slot k ≠ none

/-- The fields of a record that the link can carry for RESTORE-CANDIDATE and RESTORE-SEAT (R128, R148, R188). -/
def GradeRecord.given (g : GradeRecord) : Prop :=
  g.cls ≠ .x ∧ g.reject = none ∧ g.tag < 4294967296 ∧ g.craw < 65536 ∧ -32768 ≤ g.tm ∧ g.tm ≤ 32767 ∧
    g.ccorr < 65536 ∧ g.soh < 65536 ∧ (∃ r k, g.res = some (r, k) ∧ r < 65536 ∧ k < 65536) ∧
    ∀ d, g.sd = some d → d < 65536

/-- The 24 bytes of a grade record that check 2 of R128 and check 5 of R148 refuse whatever its profile: tag 0, a bay, class
or reject cause out of place, no resistance, a presence or mark bit without a meaning (log 22), Tm or SOH out of range. -/
def recordRefused (y : List Byte) : Prop :=
  beNat (y.take 4) = 0 ∨ y.getD 5 0 = 0 ∨ 48 < (y.getD 5 0).toNat ∨ y.getD 6 0 = 0 ∨ 3 < (y.getD 6 0).toNat ∨
    y.getD 7 0 ≠ 0 ∨ (y.getD 22 0).getLsbD 0 = false ∨ 4 ≤ (y.getD 22 0).toNat ∨ 64 ≤ (y.getD 23 0).toNat ∨
    sField y 10 2 < -400 ∨ 1250 < sField y 10 2 ∨ 1200 < beNat ((y.drop 14).take 2)

/-! ## Bays taken one after the other -/

/-- The bays `served`, in ascending number, take a single message one after the other, from `s` to `u` (R58). -/
def ServedInOrder (single : BayId → Instr) (code t : Byte) (served : List BayId) (s u : State) : Prop :=
  served.Pairwise (· < ·) ∧ ∃ at_ : Nat → State, at_ 0 = s ∧ at_ served.length = u ∧
    ∀ n b, served[n]? = some b → exec (single b) (at_ n) = .next ((at_ (n + 1)).answered code t .ok)

/-- What `v` holds of bay records, leaves to WEV and CAA, and notices is what `s` holds once BSQ has suspended for one cause
every bay in hand, in ascending number (R73): each bay in a current phase, or in a phase in AWAITING_STAGE. -/
def HandsSuspended (c : SuspensionCause) (s v : State) : Prop :=
  ∃ set : List BayId, set.Pairwise (· < ·) ∧
    (∀ b, b ∈ set ↔ ∃ p, (s.bay b).state = .phase p ∧
      (p ∈ [Phase.chargeCC, .chargeCV, .discharge, .pulse] ∨ (s.bay b).substate = .awaitingStage)) ∧
    (∀ b, (b ∈ set → ∀ p, (s.bay b).state = .phase p → v.bay b = { s.bay b with
        state := .suspended, substate := .none, resume := some p, cause := .suspension c .ok }) ∧
      (b ∉ set → v.bay b = s.bay b)) ∧
    (∀ b, v.toWev.get b = s.toWev.get b ++ if b ∈ set then [.leave false false] else []) ∧
    v.toCaa = s.toCaa ++ set.map CaaMsg.leave ∧
    v.nqa = set.foldl (fun x b => x.push (.suspended b c .ok
      (match (s.bay b).state with
       | .phase p => some p
       | _ => none))) s.nqa

/-! ## Trims -/

def TrimQuantity.holds (q : TrimQuantity) (x : Int) : Prop := q.lo ≤ x ∧ x ≤ q.hi

/-- Every applied and every pending trim lies in the range of its quantity (section 2.5). -/
def TrimsInRange (s : State) : Prop :=
  ∀ b q, q.holds ((s.trims b).applied q) ∧ ∀ x, (s.trims b).pending = some (q, x) → q.holds x

/-! ## Windows -/

/-- The directions, true for up, of the differences between successive voltages that exceed the dead band (R38). -/
def directions (dead : Nat) : List Nat → List Bool
  | v :: w :: rest =>
    if dead < ((w : Int) - v).natAbs then decide (v < w) :: directions dead (w :: rest) else directions dead (w :: rest)
  | _ => []

/-- How often a list of directions changes (R38). -/
def turns : List Bool → Nat
  | x :: y :: rest => (if x = y then 0 else 1) + turns (y :: rest)
  | _ => 0

/-! ## Stage queue -/

/-- Two entries that R86 does not let stand in the queue together. -/
def BusEntry.clashes : BusEntry → BusEntry → Prop
  | .write b _ _ _, .write c _ _ _ => b = c
  | .statusRead b, .statusRead c => b = c
  | .broadcastOff, .broadcastOff => True
  | _, _ => False

/-- At most one setpoint write and one status read of each bay, and at most one broadcast OFF, which stands at the
head (R85, R86). -/
def QueueTidy (s : State) : Prop :=
  s.sbc.queue.Pairwise (fun e f => ¬ e.clashes f) ∧ ∀ e ∈ s.sbc.queue.tail, e ≠ .broadcastOff

/-! ## Allowance -/

/-- The committed allowance is the sum of the grants, at or below the top of the limit, and a bay waits once (R100). -/
def AllowanceBalanced (s : State) : Prop :=
  s.caa.committed = s.caa.sum ∧ s.caa.committed ≤ Config.maxLimit ∧ s.caa.limit ≤ Config.maxLimit ∧
    (s.caa.waiting.map Waiting.bay).Nodup

/-! ## Pool -/

/-- At most 128 records in the order of R123, each with a lapse count of at most 2 (R124). -/
def PoolOrdered (s : State) : Prop :=
  s.pool.records.length ≤ Config.poolRoom ∧
    s.pool.records.Pairwise (fun c d => keyLt d.key c.key = false) ∧ ∀ c ∈ s.pool.records, c.lapses ≤ 2

/-! ## Bank -/

/-- A seat of an EMPTY under-state or none: not vacant in the sense of R139. -/
def Seat.stoodEmpty : Seat → Bool
  | .empty => true
  | .reserved _ _ .empty => true
  | _ => false

/-- The reservation count is the number of RESERVED seats and at most 4; N is 2 to 24; the state says what the seats
are (R138, R139, R141). -/
def BankString.consistent (x : BankString) : Prop :=
  x.resCount = x.seats.countP Seat.isReserved ∧ x.resCount ≤ Config.maxReservations ∧
  match x.state with
  | .unused => x = .unused
  | .forming => 2 ≤ x.positions.length ∧ x.positions.length ≤ 24 ∧ x.seats.all (fun e => !e.stoodVacant) = true ∧
      x.seats.all Seat.isInstalled = false
  | .sealed => 2 ≤ x.positions.length ∧ x.positions.length ≤ 24 ∧ x.seats.all Seat.isInstalled = true
  | .service => 2 ≤ x.positions.length ∧ x.positions.length ≤ 24 ∧ x.seats.all (fun e => !e.stoodEmpty) = true ∧
      x.seats.any Seat.stoodVacant = true

def BankConsistent (s : State) : Prop := ∀ x, (s.string x).consistent

/-! ## Counters -/

/-- The tops of the capped counters of a bay record (R54). The phase clock and the discharge sample count have none in the
model (log 29). -/
def Bay.bounded (r : Bay) : Prop :=
  r.entry ≤ 65535 ∧ r.chargeTime ≤ Config.maxTime ∧ r.dischargeTime ≤ Config.maxTime ∧ r.q ≤ Config.max32

/-- The tops of what WEV holds for a bay (R39, R44, R45, R48). -/
def WevBay.bounded (w : WevBay) : Prop :=
  w.quietRun ≤ 3 ∧ w.eocRun ≤ 2 ∧ w.ring.length ≤ 4 ∧ w.history.length ≤ 3

/-- The notice queue, its counts and its threshold (R190, R193). -/
def Nqa.bounded (x : Nqa) : Prop := x.queue.length ≤ Config.noticeRoom ∧ x.overflow ≤ 255 ∧ 1 ≤ x.threshold ∧ x.threshold ≤ 8

/-- The log is filled exactly when the error count is at least 1 (R180). -/
def Link.counted (l : Link) : Prop := l.errorCount ≤ 255 ∧ (l.log.isSome = true ↔ 1 ≤ l.errorCount)

/-- The placement timeout, and no pass pending while paused (R156, R172). -/
def Matcher.bounded (m : Matcher) : Prop := 30 ≤ m.timeout ∧ m.timeout ≤ 3600 ∧ (m.paused = true → m.passPending = false)

/-- No deadline of a string exceeds the 36,000 steps of the longest placement timeout (R156). -/
def BankString.due (x : BankString) : Prop :=
  ∀ tag n under, Seat.reserved tag n under ∈ x.seats → n ≤ Config.maxDeadline

def CountersBounded (s : State) : Prop :=
  (∀ b, (s.bay b).bounded) ∧ (∀ b, (s.wevBay b).bounded) ∧ s.nqa.bounded ∧ s.link.counted ∧ s.plm.bounded ∧
    s.sbc.stallCount ≤ 255 ∧ s.pool.nextSeq ≤ Config.max32 ∧ ∀ x, (s.string x).due

end Sys2Proof.Machine
end

