-- ==== Sys2Proof/Certificates/Slice0/Obligations.lean ====
section
/-! DEFINITION. The statements for the provers: rules of the spec as propositions about the model. -/

open Sys2Proof Sys2Proof.Machine

/-! ## The machine as a whole -/

/-- The command at the front of the queue is taken, and the step is exec of it on the rest of the queue; every command
answers a next state. With no command waiting the part idles: the model's choice (log 1). -/
def Obligations.StepTakesFrontCommand : Prop :=
  (∀ (c : Instr) (rest : List Instr) (s : State),
    step { s with pending := c :: rest } = exec c { s with pending := rest }) ∧
  (∀ (i : Instr) (s : State), ∃ t, exec i s = .next t) ∧ ∀ s : State, s.pending = [] → step s = .next s

/-- Reset leaves every block at the values its rules state. -/
def Obligations.ResetLeavesStatedValues : Prop :=
  (∀ k, State.reset.slot k = none) ∧
  (∀ b, (State.reset.trims b).gain = 0 ∧ (State.reset.trims b).range = .fine ∧ (State.reset.trims b).offset = 0 ∧
    (State.reset.trims b).current = 0 ∧ (State.reset.trims b).pending = none ∧ (State.reset.trims b).calFlag = false) ∧
  (∀ b, (State.reset.wevBay b).entry = none ∧ (State.reset.wevBay b).lastRecord = none ∧
    (State.reset.wevBay b).ring = [] ∧ (State.reset.wevBay b).watch = false ∧ (State.reset.wevBay b).cal = false) ∧
  (∀ b, (State.reset.bay b).state = .empty ∧ (State.reset.bay b).tag = none ∧ State.reset.grantOf b = 0) ∧
  State.reset.sbc.queue = [.broadcastOff] ∧ State.reset.sbc.inFlight = none ∧ State.reset.sbc.stallCount = 0 ∧
  State.reset.caa.limit = 0 ∧ State.reset.caa.committed = 0 ∧ State.reset.caa.waiting = [] ∧
  State.reset.pool.records = [] ∧ State.reset.pool.nextSeq = 0 ∧ State.reset.pool.park = [] ∧
  (∀ x, State.reset.string x = .unused) ∧
  State.reset.plm = { paused := false, passPending := false, timeout := 300, lastPass := .none } ∧
  State.reset.nqa.queue = [] ∧ State.reset.nqa.overflow = 0 ∧ State.reset.nqa.threshold = 1 ∧
  State.reset.nqa.enables.byte = 0x0B ∧ State.reset.rawCauses.byte = 0 ∧ State.reset.alertLow = false ∧
  State.reset.link.reply = none ∧ State.reset.link.overrun = false ∧ State.reset.link.mode = .hold ∧
  State.reset.link.log = none ∧ State.reset.link.errorCount = 0 ∧ State.reset.link.rate = .r115

/-- The state right after reset meets every invariant of the statements below. -/
def Obligations.ResetMeetsInvariants : Prop :=
  ProfilesValid .reset ∧ TrimsInRange .reset ∧ QueueTidy .reset ∧ AllowanceBalanced .reset ∧ PoolOrdered .reset ∧
    BankConsistent .reset ∧ CountersBounded .reset ∧ BaysWhole .reset ∧ TagsHeldOnce .reset ∧ SlotsKept .reset

/-- A FILLED slot always holds a profile whose fields keep their ranges and relations (R2 to R7, R9), and a slot referred
to stays FILLED, its profile unchanged but for a reset (R14). That it does rests on what a bay with a module and the park
list hold, which the statement on tags keeps. -/
def Obligations.StepKeepsProfilesValid : Prop :=
  (∀ s t : State, ProfilesValid s → step s = .next t → ProfilesValid t) ∧
  ∀ s t : State, BaysWhole s → SlotsKept s → step s = .next t →
    SlotsKept t ∧ ∀ k, s.inUse k → t.inReset = false → t.slot k = s.slot k

/-- Applied and pending trims stay in the ranges of their quantities (section 2.5, R27). -/
def Obligations.StepKeepsTrimsInRange : Prop := ∀ s t : State, TrimsInRange s → step s = .next t → TrimsInRange t

/-- The stage queue keeps its form (R85, R86). -/
def Obligations.StepKeepsStageQueueTidy : Prop := ∀ s t : State, QueueTidy s → step s = .next t → QueueTidy t

/-- The committed allowance stays the sum of the grants, at or below 100,000 (R100). -/
def Obligations.StepKeepsAllowanceBalanced : Prop :=
  ∀ s t : State, AllowanceBalanced s → step s = .next t → AllowanceBalanced t

/-- The pool stays in its order, with at most 128 records (R123, R124). -/
def Obligations.StepKeepsPoolOrdered : Prop := ∀ s t : State, PoolOrdered s → step s = .next t → PoolOrdered t

/-- The reservation count stays the number of RESERVED seats, at most 4, and the string states stay what the seats
make them (R138, R139, R141). With it, a tag stays held at most once, but for a record and a seat of one reservation,
which name each other (R55, R129, R130), and the park list stays the PARKED bays (R134). -/
def Obligations.StepKeepsBankConsistent : Prop :=
  (∀ s t : State, BankConsistent s → step s = .next t → BankConsistent t) ∧
  (∀ s t : State, BaysWhole s → step s = .next t → BaysWhole t) ∧
  ∀ s t : State, BankConsistent s → BaysWhole s → TagsHeldOnce s → step s = .next t → TagsHeldOnce t

/-- These stay within their tops: of a bay record, entry number, charge time, discharge time and Q (R54); of WEV, the
quiet run, the end-of-charge run, the ring and the condition history (R39, R44, R45, R48); the notice queue, its overflow
count and threshold (R190, R191, R193); the stall count (R96); the entry sequence (R125); the placement timeout and every
deadline (R156, R172). The link log is filled exactly while the error count is at least 1 (R180). The phase clock and the
discharge sample count have no top in the model, its choice (log 29), and are not bounded here. -/
def Obligations.StepKeepsCountersBounded : Prop :=
  ∀ s t : State, CountersBounded s → step s = .next t → CountersBounded t

/-! ## Frames (spec/10) -/

/-- A request frame received byte by byte becomes exactly its command (R175 to R177); that the receiver puts it at the
back of the queue of commands is the model's choice (log 8). -/
def Obligations.RequestFrameBecomesItsCommand : Prop :=
  ∀ (s : State) (i : Instr) (k t : Byte) (body : List Byte),
    i.wf = true → i.frameOf = some (k, t, body) → s.inReset = false → s.link.rx = .hunt → s.link.reply = none →
    s.receive (requestFrame k t body) = { s with pending := s.pending ++ [i] }

/-- A frame with a wrong CHECK is a CHECK error, a LEN above 250 a LENGTH error at once, and a frame that the gap timer
cuts, wherever it stands, a GAP error; a frame begun while a reply is pending is an overrun frame, ended in the same three
ways but for its CHECK, which is not tested. Each end leaves the receiver hunting, where the gap timer does not run. A
byte whose stop bit is low is as if it had not arrived. What the part sends: a reply frame and a stage transaction byte by
byte, each summing to 0 modulo 256 after SYNC, or from address to check; numbers most significant byte first and in two's
complement; the codes of R83, R175, R179, R183 and R187 (R83, R175, R176, R178, R179, R187). That a finished frame becomes
a command at the back of the queue is the model's choice (log 8). -/
def Obligations.FramesJudgedAndSummed : Prop :=
  (∀ (s : State) (k t check hi lo : Byte) (body held : List Byte), s.inReset = false → s.link.rx = .hunt →
    (s.link.reply = none → body.length ≤ 250 → frameSum k t body check ≠ 0 →
      s.receive ([0xA7] ++ beBytes 2 body.length ++ [k, t] ++ body ++ [check]) =
        { s with pending := s.pending ++ [.checkError k t body check] }) ∧
    (s.link.reply.isSome = true → body.length ≤ 250 →
      s.receive ([0xA7] ++ beBytes 2 body.length ++ [k, t] ++ body ++ [check]) =
        { s with pending := s.pending ++ [.overrunFrame .complete] }) ∧
    (250 < lenOf hi lo → s.receive [0xA7, hi, lo] = { s with
      pending := s.pending ++ [if s.link.reply.isSome then .overrunFrame (.length hi lo) else .lengthError hi lo] }) ∧
    (frameUnfinished held = true → (s.receive (0xA7 :: held)).gapExpiry = { s with
      pending := s.pending ++ [if s.link.reply.isSome then .overrunFrame (.gap held) else .gapError held] }) ∧
    s.gapExpiry = s ∧
    (∀ x : Byte, x ≠ 0xA7 → s.receive [x] = s)) ∧
  (∀ (s : State) (x : Byte), s.receiveLine x false = s ∧ s.receiveLine x true = s.receive [x]) ∧
  (∀ r : Reply, byteSum (r.frame.drop 1) = 0 ∧ r.frame.length = r.body.length + 8 ∧ ∃ flags check : Byte,
    r.frame = [0xA7] ++ beBytes 2 r.body.length ++ [r.kind, r.tag, r.status.code, flags] ++ r.body ++ [check] ∧
    flags.getLsbD 0 = r.clamped ∧ flags.getLsbD 1 = r.overrun ∧ ∀ j, 2 ≤ j → flags.getLsbD j = false) ∧
  (∀ (s : State) (k t : Byte) (a : Answer), ∃ r : Reply,
    s.answered k t a = { s with link := { s.link with reply := some r } } ∧ r.kind = k ||| 0x80 ∧ r.tag = t ∧
    r.status = a.status ∧ r.clamped = a.clamped ∧ r.overrun = false ∧ r.body = a.body) ∧
  (∀ e : BusEntry, byteSum e.bytes = 0 ∧ e.bytes.length = 5 ∧ e.bytes.take 4 = match e with
    | .write b k value _ => [bayByte b, k.code] ++ beBytes 2 value
    | .statusRead b => [bayByte b, 0x30, 0x00, 0x00]
    | .broadcastOff => [0x00, 0x10, 0x00, 0x00]) ∧
  (∀ n : Nat, beBytes 1 n = [BitVec.ofNat 8 n] ∧ beBytes 2 n = [BitVec.ofNat 8 (n / 256), BitVec.ofNat 8 n] ∧
    beBytes 3 n = BitVec.ofNat 8 (n / 65536) :: beBytes 2 n ∧
    beBytes 4 n = BitVec.ofNat 8 (n / 16777216) :: beBytes 3 n) ∧
  (∀ (w : Nat) (x : Int), ∃ n : Nat, (n : Int) = x % (256 ^ w : Nat) ∧ sBytes w x = beBytes w n) ∧
  (∀ (b : BayId) (k : ProfileId) (x : StringId), bayByte b = BitVec.ofNat 8 (b.val + 1) ∧
    profileByte k = BitVec.ofNat 8 (k.val + 1) ∧ stringByte x = BitVec.ofNat 8 (x.val + 1)) ∧
  (∀ id : SeatId, seatIdBytes id = [stringByte id.str, BitVec.ofNat 8 id.pos, seatByte id.seat]) ∧
  (∀ m : Marks, m.byte.getLsbD 0 = m.unsettled ∧ m.byte.getLsbD 1 = m.chargeTimeout ∧
    m.byte.getLsbD 2 = m.dischargeTimeout ∧ m.byte.getLsbD 3 = m.saturated ∧ m.byte.getLsbD 4 = m.interrupted ∧
    m.byte.getLsbD 5 = m.watchOff ∧ m.byte.getLsbD 6 = false ∧ m.byte.getLsbD 7 = false) ∧
  [Status.ok, .badLength, .badKind, .badValue, .wrongState, .busy, .notFound, .duplicate, .full, .inUse, .limit, .late,
    .mismatch, .notMatched, .reserved, .linkHeld].map Status.code = (List.range 16).map (BitVec.ofNat 8) ∧
  [WriteKind.off, .chargeCurrent, .chargeVoltage, .dischargeCurrent].map WriteKind.code = [0x10, 0x21, 0x22, 0x23] ∧
  [PairTest.profile, .cls, .reserved, .pairCapacity, .imbalance, .string].map PairTest.code = [1, 2, 3, 4, 5, 6] ∧
  [none, some Phase.check, some .rest0, some .chargeCC, some .chargeCV, some .rest1, some .discharge, some .restP,
    some .pulse, some .rest2].map phaseByte = [0, 1, 2, 3, 4, 5, 6, 7, 8, 9] ∧
  [BayState.empty, .phase .check, .phase .rest0, .phase .chargeCC, .phase .chargeCV, .phase .rest1, .phase .discharge,
    .phase .restP, .phase .pulse, .phase .rest2, .cal, .loaded, .parked, .done, .rejected, .suspended,
    .aborted].map BayState.code = (List.range 17).map (BitVec.ofNat 8) ∧
  [Substate.none, .awaitingGrant, .awaitingStage, .running].map Substate.code = [0, 1, 2, 3] ∧
  [SuspensionCause.contactNoise, .contactLost, .overtemp, .overcurrent, .sensor, .tempOut, .stageNoAnswer, .stageFault,
    .externalOff, .busStall, .stopAll, .lineRequest, .allowanceOverLimit].map SuspensionCause.code =
      (List.range' 1 13).map (BitVec.ofNat 8) ∧
  [RejectCause.notPresent, .overvoltage, .deepDischarge, .voltageSag, .noResistance, .belowClassC].map RejectCause.code =
    [1, 2, 3, 4, 5, 6] ∧
  [StageCode.ok, .overtemp, .outputFault, .inputLoss].map StageCode.code = [0, 1, 2, 3] ∧
  [GradeClass.a, .b, .c, .x].map GradeClass.code = [1, 2, 3, 4] ∧ [SeatName.a, .b].map seatByte = [1, 2] ∧
  [TrimQuantity.gain, .offset, .current].map TrimQuantity.code = [1, 2, 3] ∧
  [TrimRange.fine, .coarse].map TrimRange.code = [0, 1] ∧ [LinkMode.hold, .continue].map LinkMode.code = [0, 1] ∧
  [LinkRate.r115, .r460, .r921].map LinkRate.code = [0, 1, 2] ∧
  [LinkCause.check, .length, .gap].map LinkCause.code = [1, 2, 3] ∧
  [BusState.idle, .busy, .stalled].map BusState.code = [0, 1, 2] ∧
  [RestEnding.none, .settled, .maximum].map RestEnding.code = [0, 1, 2]

/-- A frame that meets a pending reply sets the overrun mark (log 6); else the order of R177 decides: BAD_KIND, then
LINK_HELD but for GET-LINK-LOG, CLEAR-LINK-ERROR and ECHO, then BAD_LENGTH; none of them has another effect. The reply
of WRITE-PROFILE names field 0xFF. The link is held exactly in mode HOLD with an error counted (R177 to R179, R181,
R186). -/
def Obligations.DispatchFollowsItsOrder : Prop :=
  (∀ l : Link, l.held = true ↔ l.mode = .hold ∧ 1 ≤ l.errorCount) ∧
  ∀ (s : State) (i : Instr) (k t : Byte) (body : List Byte),
    i.wf = true → i.frameOf = some (k, t, body) → s.inReset = false →
    (s.link.reply.isSome = true → exec i s = .next { s with link := { s.link with overrun := true } }) ∧
    (s.link.reply = none →
      ((∀ e ∈ catalogue, e.1 ≠ k.toNat) → exec i s = .next (s.answered k t (.refuse .badKind))) ∧
      ∀ lo hi, (k.toNat, lo, hi) ∈ catalogue →
        (s.link.held = true → k ≠ 0x01 → k ≠ 0x04 → k ≠ 0x05 →
          exec i s = .next (s.answered k t (.refuse .linkHeld (if k = 0x10 then [0xFF] else [])))) ∧
        ((s.link.held = false ∨ k = 0x01 ∨ k = 0x04 ∨ k = 0x05) → (body.length < lo ∨ hi < body.length) →
          exec i s = .next (s.answered k t (.refuse .badLength (if k = 0x10 then [0xFF] else [])))))

/-! ## Link messages and errors (spec/10) -/

/-- ECHO, served on a held link too, and GET-IDENTITY (R184). -/
def Obligations.EchoAndIdentityAnswered : Prop :=
  ∀ (s : State) (t : Byte) (body : List Byte),
    (s.dispatches → body.length ≤ 250 → exec (.echo t body) s = .next (s.answered 0x01 t (.ok body))) ∧
    (s.ready → exec (.getIdentity t []) s = .next (s.answered 0x02 t (.ok [0x2C, 0x41, 0x00, 0x48, 0x01])))

/-- GET-LINK-LOG, CLEAR-LINK-ERROR and CLEAR-ALERT naming LINK_ERROR (R182). -/
def Obligations.LinkLogReadAndCleared : Prop :=
  ∀ (s : State) (t : Byte),
    (s.dispatches → exec (.getLinkLog t []) s = .next (s.answered 0x04 t (.ok
      ([s.link.mode.code, s.link.rate.code, BitVec.ofNat 8 s.link.errorCount] ++
        match s.link.log with
        | none => [0, 0, 0, 0, 0, 0, 0]
        | some e => [e.cause.code, e.kind, e.tag] ++ beBytes 2 e.len ++ [e.received, e.computed])))) ∧
    (s.dispatches → ∃ u : State,
      u = { s with link := { s.link with log := none, errorCount := 0 }, nqa := { s.nqa with linkError := false } } ∧
      exec (.clearLinkError t []) s = .next (u.answered 0x05 t .ok) ∧ u.link.held = false ∧
      ∀ e, (u.linkError e).link.log = some e) ∧
    (s.ready → ∃ u : State, u = { s with nqa := { s.nqa with linkError := false } } ∧
      exec (.clearAlert t [0x08]) s = .next (u.answered 0x7C t (.ok [u.rawCauses.byte])))

/-- CHECK, LENGTH and GAP errors: the log filled when the count is 0, the count raised up to 255, LINK_ERROR latched;
the end of an overrun frame sets the mark, and its LENGTH and GAP errors are taken in the same way (R176, R178, R180).
A frame that meets a pending reply is an overrun frame (log 6). -/
def Obligations.LinkErrorsLogged : Prop :=
  ∀ (s : State) (k t check hi lo : Byte) (body held : List Byte) (e : LinkLog), s.inReset = false →
    ∃ (u : State) (ofLength ofGap : LinkLog),
    u = { s with link := { s.link with overrun := true } } ∧
    ofLength = { cause := .length, kind := 0, tag := 0, len := lenOf hi lo, received := 0, computed := 0 } ∧
    ofGap = { cause := .gap, kind := held.getD 2 0, tag := held.getD 3 0,
              len := if 2 ≤ held.length then beNat (held.take 2) else 0, received := 0, computed := 0 } ∧
    (s.linkError e = { s with
      link := { s.link with log := if s.link.errorCount = 0 then some e else s.link.log,
                            errorCount := min 255 (s.link.errorCount + 1) }
      nqa := { s.nqa with linkError := true } }) ∧
    (s.link.reply = none → body.length ≤ 250 → frameSum k t body check ≠ 0 →
      exec (.checkError k t body check) s = .next (s.linkError
        { cause := .check, kind := k, tag := t, len := body.length, received := check,
          computed := computedCheck k t body })) ∧
    frameSum k t body (computedCheck k t body) = 0 ∧
    (s.link.reply = none → 250 < lenOf hi lo → exec (.lengthError hi lo) s = .next (s.linkError ofLength)) ∧
    (s.link.reply = none → frameUnfinished held = true →
      exec (.gapError held) s = .next (s.linkError ofGap)) ∧
    exec (.overrunFrame .complete) s = .next u ∧
    (250 < lenOf hi lo → exec (.overrunFrame (.length hi lo)) s = .next (u.linkError ofLength)) ∧
    (frameUnfinished held = true → exec (.overrunFrame (.gap held)) s = .next (u.linkError ofGap))

/-- SET-LINK-MODE, SET-LINK-RATE and RESET; a reply begins with the mark in its FLAGS, and its end brings about the
rate or the reset asked for (R178, R181, R183, R185). The model's choices: a reply waits while one is being sent (log
31), a reset keeps the queue of commands (log 7), and an overrun frame that a change of rate abandons sets no overrun
mark (log 38). -/
def Obligations.RateAndResetComeWithTheReply : Prop :=
  (∀ (s : State) (t x : Byte), s.ready →
    exec (.setLinkMode t [x]) s = .next (
      if x = 0 then State.answered { s with link := { s.link with mode := .hold } } 0x06 t (.ok [0])
      else if x = 1 then State.answered { s with link := { s.link with mode := .continue } } 0x06 t (.ok [1])
      else s.answered 0x06 t (.refuse .badValue)) ∧
    exec (.setLinkRate t [x]) s = .next (s.answered 0x07 t (
      if x = 0 then { status := .ok, body := [0], act := .setRate .r115 }
      else if x = 1 then { status := .ok, body := [1], act := .setRate .r460 }
      else if x = 2 then { status := .ok, body := [2], act := .setRate .r921 }
      else .refuse .badValue)) ∧
    exec (.reset t []) s = .next (s.answered 0x03 t { status := .ok, act := .reset })) ∧
  ∀ (s : State) (r : Reply), s.inReset = false →
    (s.link.sending = none → s.link.reply = some r → exec .replyStart s = .next
      { s with link := { s.link with sending := some { r with overrun := s.link.overrun }, reply := none,
                                     overrun := false } }) ∧
    (s.link.sending = some r → exec .replyEnd s = .next
      (match r.act with
       | .none => { s with link := { s.link with sending := none } }
       | .setRate q => { s with link := { s.link with sending := none, rate := q, rx := .hunt } }
       | .reset => { State.reset with inReset := true, pending := s.pending }))

/-- The RESET input, the release, and what is taken in between: only those two (R88, R93, R96, R185; log 7). -/
def Obligations.ResetEnteredAndReleased : Prop :=
  ∀ s : State,
    exec .resetInput s = .next { State.reset with inReset := true, pending := s.pending } ∧
    (s.inReset = true →
      (∀ sda scl fault : Bool, exec (.resetRelease sda scl fault) s = .next
        { s with inReset := false
                 sbc := { s.sbc with bus := if sda && scl then .idle else .busy,
                                     timer := if sda && scl then .clear else .running, faultLow := !fault } }) ∧
      ∀ i : Instr, i ≠ .resetInput → (∀ x y z, i ≠ .resetRelease x y z) → exec i s = .next s)

/-! ## Numbers of bays and strings -/

/-- A bay number outside 1 to 48, or a string number outside 1 to 16, is refused with NOT_FOUND and changes nothing
(R24, R27, R29 to R31, R40, R56, R57, R75, R76, R80 to R82, R138). -/
def Obligations.NumberOutsideRangeIsNotFound : Prop :=
  ∀ (s : State) (i : Instr) (k t n : Byte) (rest : List Byte),
    i.wf = true → i.frameOf = some (k, t, n :: rest) → (k.toNat, rest.length + 1, rest.length + 1) ∈ catalogue →
    s.ready →
    (k.toNat ∈ [0x20, 0x21, 0x22, 0x23, 0x24, 0x25, 0x30, 0x31, 0x33, 0x34, 0x36, 0x38, 0x39] →
      (n = 0 ∨ 48 < n.toNat) → exec i s = .next (s.answered k t (.refuse .notFound))) ∧
    (k.toNat ∈ [0x60, 0x61, 0x62, 0x63, 0x64, 0x66, 0x67] →
      (n = 0 ∨ 16 < n.toNat) → exec i s = .next (s.answered k t (.refuse .notFound)))

/-! ## Profiles (spec/01) -/

/-- WRITE-PROFILE in the order of R9: slot number, slot in use, first bad field, which is the lowest that fails its
range or its relation; else the slot takes the profile (R10). A profile is sent as its 39 fields in order (R188). -/
def Obligations.WriteProfileJudgedInOrder : Prop :=
  (∀ p : Profile, p.bytes =
    ([p.nameplate, p.nominalRes, p.presentLow, p.presentHigh, p.floor].flatMap (beBytes 2)) ++
    sBytes 2 p.tempLow ++ sBytes 2 p.tempHigh ++ ([p.windowLen, p.deadBand, p.settleLimit].flatMap (beBytes 1)) ++
    ([p.restMin, p.restMax, p.chargeCurrent, p.cvVoltage, p.endCurrent, p.chargeLimit, p.dischargeCurrent, p.cutoff,
      p.dischargeLimit, p.pulseCurrent].flatMap (beBytes 2)) ++ beBytes 1 p.pulseLen ++
    ([p.prePulse, p.minDelta, p.observation].flatMap (beBytes 2)) ++ ([p.revHigh, p.revLow].flatMap (beBytes 1)) ++
    ([p.rippleLow, p.rippleHigh, p.sagDrift].flatMap (beBytes 2)) ++ beBytes 1 p.tempCoeff ++
    ([p.sohA, p.sohB, p.sohC, p.ratioA, p.ratioB, p.ratioC, p.sdA, p.sdB, p.sdC].flatMap (beBytes 2))) ∧
  ∀ (s : State) (t n : Byte) (k : ProfileId) (p : Profile), s.ready → p.encodable →
    ((n = 0 ∨ 8 < n.toNat) →
      exec (.writeProfile t (n :: p.bytes)) s = .next (s.answered 0x10 t (.refuse .badValue [0]))) ∧
    ((s.slot k).isSome = true → s.inUse k →
      exec (.writeProfile t (profileByte k :: p.bytes)) s = .next (s.answered 0x10 t (.refuse .inUse [0xFF]))) ∧
    ((s.slot k = none ∨ ¬ s.inUse k) →
      (∀ f, p.firstBad = some f →
        1 ≤ f ∧ f ≤ 39 ∧ (f, false) ∈ p.checks ∧ (∀ g ok, (g, ok) ∈ p.checks → g < f → ok = true) ∧
        exec (.writeProfile t (profileByte k :: p.bytes)) s =
          .next (s.answered 0x10 t (.refuse .badValue [BitVec.ofNat 8 f]))) ∧
      (p.firstBad = none →
        exec (.writeProfile t (profileByte k :: p.bytes)) s =
          .next (({ s with profiles := s.profiles.set k (some p) }).answered 0x10 t (.ok [0xFF]))))

/-- READ-PROFILE and ERASE-PROFILE (R11, R12). -/
def Obligations.ProfileReadAndErased : Prop :=
  ∀ (s : State) (t n : Byte) (k : ProfileId), s.ready →
    ((n = 0 ∨ 8 < n.toNat) →
      exec (.readProfile t [n]) s = .next (s.answered 0x11 t (.refuse .badValue)) ∧
      exec (.eraseProfile t [n]) s = .next (s.answered 0x12 t (.refuse .badValue))) ∧
    (s.slot k = none →
      exec (.readProfile t [profileByte k]) s = .next (s.answered 0x11 t (.refuse .notFound)) ∧
      exec (.eraseProfile t [profileByte k]) s = .next (s.answered 0x12 t (.refuse .notFound))) ∧
    ∀ p, s.slot k = some p →
      exec (.readProfile t [profileByte k]) s = .next (s.answered 0x11 t (.ok p.bytes)) ∧ p.bytes.length = 71 ∧
      (s.inUse k → exec (.eraseProfile t [profileByte k]) s = .next (s.answered 0x12 t (.refuse .inUse))) ∧
      (¬ s.inUse k → exec (.eraseProfile t [profileByte k]) s =
        .next (({ s with profiles := s.profiles.set k none }).answered 0x12 t .ok))

/-! ## Calibration (spec/02) -/

/-- TRIM on a bay, by the order of its checks; steps and new value clamped, CLAMPED when either changed (R27). -/
def Obligations.TrimMakesPendingTrim : Prop :=
  (∀ (s : State) (t kb steps : Byte) (b : BayId), s.ready → (kb = 0 ∨ 3 < kb.toNat) →
    exec (.trim t [bayByte b, kb, steps]) s = .next (s.answered 0x21 t (.refuse .badValue))) ∧
  ∀ (s : State) (t : Byte) (b : BayId) (q : TrimQuantity) (steps : Int), s.ready → -128 ≤ steps → steps ≤ 127 →
    exec (.trim t ([bayByte b, q.code] ++ sBytes 1 steps)) s = .next (
      if (s.bay b).state ≠ .cal then s.answered 0x21 t (.refuse .wrongState)
      else if (s.trims b).pending ≠ none then s.answered 0x21 t (.refuse .busy)
      else
        let moved := (s.trims b).applied q + max (-4) (min 4 steps)
        let value := max q.lo (min q.hi moved)
        (s.updTrims b fun k => { k with pending := some (q, value) }).answered 0x21 t
          { status := .ok
            clamped := decide (steps < -4 ∨ 4 < steps ∨ moved < q.lo ∨ q.hi < moved)
            body := q.code :: (sBytes 1 ((s.trims b).applied q) ++ sBytes 1 value) })

/-- ENTER-CAL, SET-TRIM-RANGE and EXIT-CAL on a bay, and the CAL window completion that applies the pending trim (R24,
R25, R28 to R30). Completions wait in a count, which EXIT-CAL voids, and a change of the flag is remembered until the
next sample: the model's choices (logs 3, 10, 23). A range byte above 1 is BAD_VALUE in any state of the bay. -/
def Obligations.CalibrationEnteredAndLeft : Prop :=
  (∀ (s : State) (t gb : Byte) (b : BayId), s.ready → 1 < gb.toNat →
    exec (.setTrimRange t [bayByte b, gb]) s = .next (s.answered 0x22 t (.refuse .badValue))) ∧
  (∀ (s : State) (t : Byte) (b : BayId) (g : TrimRange), s.ready →
    exec (.enterCal t [bayByte b]) s = .next (
      if (s.bay b).state = .empty then
        (((s.updBay b fun r => { r with state := .cal }).updTrims b fun k =>
          { k with calFlag := true, flagMoved := true }).updWev b
          fun w => { w with cal := true, window := none, nextIndex := 0 }).answered 0x20 t .ok
      else s.answered 0x20 t (.refuse .wrongState)) ∧
    exec (.setTrimRange t [bayByte b, g.code]) s = .next (
      if (s.bay b).state = .cal ∧ (s.trims b).gain = 0 ∧ (s.trims b).pending.map Prod.fst ≠ some .gain then
        (s.updTrims b fun k => { k with range := g }).answered 0x22 t .ok
      else s.answered 0x22 t (.refuse .wrongState)) ∧
    exec (.exitCal t [bayByte b]) s = .next (
      if (s.bay b).state = .cal then
        let k := { (s.trims b).applyPending with calFlag := false, flagMoved := true }
        ({ ((s.updTrims b fun _ => k).updWev b fun w => { w with cal := false, window := none, nextIndex := 0 }).updBay b
            fun r => { r with state := .empty } with toScan := s.toScan.set b 0 }).answered 0x23 t (.ok k.bytes)
      else s.answered 0x23 t (.refuse .wrongState))) ∧
  ∀ (s : State) (b : BayId), s.inReset = false → s.toScan.get b ≠ 0 → ∃ u : State,
    u = { s with toScan := s.toScan.set b (s.toScan.get b - 1) } ∧
    ((s.trims b).pending = none → exec (.calWindowCompletion b) s = .next u) ∧
    ∀ x,
      ((s.trims b).pending = some (.gain, x) → exec (.calWindowCompletion b) s =
        .next (u.updTrims b fun k => { k with gain := x, pending := none })) ∧
      ((s.trims b).pending = some (.offset, x) → exec (.calWindowCompletion b) s =
        .next (u.updTrims b fun k => { k with offset := x, pending := none })) ∧
      ((s.trims b).pending = some (.current, x) → exec (.calWindowCompletion b) s =
        .next (u.updTrims b fun k => { k with current := x, pending := none }))

/-! ## Samples and windows (spec/02, spec/03) -/

/-- The sample of three inputs. Each converter reads an input beyond its range as the end of it, with its mark; in
calibration that reading is the sample, else it is trimmed and clamped, either clamp setting the mark (R17 to R19, R21 to
R23). -/
def Obligations.SampleConvertedByTrims : Prop :=
  ∀ (k : TrimSet) (v i tin : Int), -64 ≤ k.gain → k.gain ≤ 63 → ∃ rawV rawI f moved : Int,
    rawV = (if v < 0 then 0 else if 65535 < v then 65535 else v) ∧
    rawI = (if i < -32767 then -32767 else if 32767 < i then 32767 else i) ∧
    f = (if k.range = .fine then 10000 + k.gain else 10000 + 5 * k.gain) ∧ 9680 ≤ f ∧ f ≤ 10315 ∧
    moved = (rawV * f + 5000).tdiv 10000 + k.offset ∧
    (∀ inCal, (convert k v i tin inCal).untrimmed = inCal ∧
      (convert k v i tin inCal).t = (if tin < -400 then -400 else if 1250 < tin then 1250 else tin) ∧
      ((convert k v i tin inCal).satT = true ↔ tin < -400 ∨ 1250 < tin)) ∧
    ((convert k v i tin true).v : Int) = rawV ∧ (convert k v i tin true).i = rawI ∧
    ((convert k v i tin true).satV = true ↔ v < 0 ∨ 65535 < v) ∧
    ((convert k v i tin true).satI = true ↔ i < -32767 ∨ 32767 < i) ∧
    ((convert k v i tin false).v : Int) = max 0 (min 65535 moved) ∧
    ((convert k v i tin false).satV = true ↔ v < 0 ∨ 65535 < v ∨ moved < 0 ∨ 65535 < moved) ∧
    (convert k v i tin false).i = max (-32767) (min 32767 (rawI + k.current)) ∧
    ((convert k v i tin false).satI = true ↔
      i < -32767 ∨ 32767 < i ∨ rawI + k.current < -32767 ∨ 32767 < rawI + k.current)

/-- A sample of a bay whose reports have been answered follows the calibration flag as it stood when it was taken, and is
folded in a phase whose clock has started, folded into the CAL window, or discarded (R23, R33). A folded sample joins
the ring and the window in progress, or begins one; the W-th sample completes it, which replaces the last record, judges
it for the report, and leaves the next index one higher; the outcomes of the report are those of its phase (R35, R39 to
R41, R43). A CAL window completes with its 50th sample, has dead band 0, and fills no ring (R53). Reports wait in a queue,
where the flag has changed since the last sample the command says how it stood, the trims are those applied when the
command is taken, and the index has no top in the model: its choices (logs 3, 10, 41, 29). -/
def Obligations.SampleFoldedOrDiscarded : Prop :=
  (∀ (index dead : Nat) (x : Sample) (a : WindowAcc), (WindowAcc.begin index x).n = 1 ∧
    (WindowAcc.begin index x).index = index ∧ (a.add dead x).n = a.n + 1 ∧ (a.add dead x).index = a.index) ∧
  (∀ (p : Profile) (e : PhaseEntry) (x : Sample) (w u : WevBay) (r : SampleReport), foldPhase p e x w = (u, r) →
    ∃ a : WindowAcc, (w.window = none → a = .begin w.nextIndex x) ∧ (∀ y, w.window = some y → a = y.add p.deadBand x) ∧
    r.phase = e.phase ∧ r.entry = e.number ∧ r.v = x.v ∧ r.i = x.i ∧ r.satI = x.satI ∧
    (r.cvCrossed = true ↔ e.phase = .chargeCC ∧ p.cvVoltage ≤ x.v) ∧
    (r.cutoff = true ↔ e.phase = .discharge ∧ x.v ≤ p.cutoff) ∧
    r.magnitude = (if e.phase ∈ [.chargeCC, .chargeCV, .discharge, .pulse] then some x.i.natAbs else none) ∧
    (w.ring.length ≤ 4 → u.ring = (w.ring ++ [(x.v, x.i)]).drop (w.ring.length - 3)) ∧
    (a.n < p.windowLen → r.verdict = none ∧ u = { w with ring := u.ring, window := some a }) ∧
    (p.windowLen ≤ a.n → ∃ (z : WindowRecord) (v : Verdict) (t : WevBay), z = a.close (some e.phase) false ∧
      judgeWindow p e.phase z a.satT { w with ring := u.ring } = (v, t) ∧ r.verdict = some v ∧
      u = { t with window := none, nextIndex := a.index + 1, lastRecord := some z })) ∧
  (∀ (p : Profile) (e : PhaseEntry) (x y : Sample) (xs : List Sample) (w u : WevBay), w.window = none →
    xs.length + 2 ≤ p.windowLen → u = (x :: xs).foldl (fun v z => (foldPhase p e z v).1) w →
    u.window = some (xs.foldl (WindowAcc.add p.deadBand) (.begin w.nextIndex x)) ∧ u.lastRecord = w.lastRecord ∧
    ((foldPhase p e y u).2.verdict.isSome = true ↔ xs.length + 2 = p.windowLen)) ∧
  (∀ (x : Sample) (w u : WevBay) (full : Bool), foldCal x w = (u, full) →
    ∃ a : WindowAcc, (w.window = none → a = .begin w.nextIndex x) ∧ (∀ y, w.window = some y → a = y.add 0 x) ∧
    (full = true ↔ 50 ≤ a.n) ∧ (a.n < 50 → u = { w with window := some a }) ∧
    (50 ≤ a.n → u = { w with
      window := none, nextIndex := a.index + 1, lastRecord := some (a.close none false) })) ∧
  ∀ (s : State) (b : BayId) (v i tin : Int) (inCal : Bool),
    s.inReset = false → (∀ m ∈ s.toBsq.get b, m.isReport = false) → (∀ m ∈ s.toWev.get b, m.isAnswer = false) →
    ∃ (x : Sample) (u : State),
    x = convert (s.trims b) v i tin (if (s.trims b).flagMoved then inCal else (s.trims b).calFlag) ∧
    u = { s with scan := s.scan.set b { s.trims b with flagMoved := false } } ∧
    (∀ e, (s.wevBay b).entry = some e → e.started = true → ∃ w r,
      (w, r) = foldPhase (s.profileOfBay b) e x (s.wevBay b) ∧ r.entry = e.number ∧ r.phase = e.phase ∧ r.v = x.v ∧
      r.i = x.i ∧ exec (.sample b v i tin inCal) s = .next ((u.updWev b fun _ => w).tellBsq b (.report r))) ∧
    ((∀ e, (s.wevBay b).entry = some e → e.started = false) → (x.untrimmed = false ∨ (s.wevBay b).cal = false) →
      exec (.sample b v i tin inCal) s = .next u) ∧
    ((s.wevBay b).entry = none → (s.wevBay b).cal = true → x.untrimmed = true → ∃ w full,
      (w, full) = foldCal x (s.wevBay b) ∧ (full = true ↔ w.window = none) ∧
      exec (.sample b v i tin inCal) s = .next
        { u.updWev b fun _ => w with toScan := if full then s.toScan.set b (s.toScan.get b + 1) else s.toScan })

/-- The record of a window formed from its samples: counts, sums, least and largest, ripple, drift, the three means and
the reversals; SETTLED, which holds on a window of a rest exactly when that window and the two before it are quiet; and
each outcome of a verdict, with what WEV holds after it (R36 to R38, R43 to R51). Contact loss is judged as R50 says, by
the present window low alone, though the Note of R2 names the high too: the model's reading (log 40). -/
def Obligations.WindowsSummariseAndSettle : Prop :=
  (∀ (dead index : Nat) (phase : Option Phase) (part : Bool) (x : Sample) (xs : List Sample),
    ∃ r, r = (xs.foldl (WindowAcc.add dead) (WindowAcc.begin index x)).close phase part ∧
      r.index = index ∧ r.phase = phase ∧ r.isPartial = part ∧ r.count = xs.length + 1 ∧
      r.sumV = ((x :: xs).map Sample.v).sum ∧ r.sumI = ((x :: xs).map Sample.i).sum ∧
      r.minV ∈ (x :: xs).map Sample.v ∧ r.maxV ∈ (x :: xs).map Sample.v ∧
      (∀ y ∈ x :: xs, r.minV ≤ y.v ∧ y.v ≤ r.maxV) ∧ r.ripple = r.maxV - r.minV ∧
      r.drift = ((x :: xs).getLast (by simp)).v - (x.v : Int) ∧
      r.meanV = (r.sumV + r.count / 2) / r.count ∧
      r.meanI = (if r.sumI < 0 then -1 else 1) * (((r.sumI.natAbs + r.count / 2) / r.count : Nat) : Int) ∧
      (∀ sumT, sumT = ((x :: xs).map Sample.t).sum →
        r.meanT = (if sumT < 0 then -1 else 1) * (((sumT.natAbs + r.count / 2) / r.count : Nat) : Int)) ∧
      r.sat = (x :: xs).any Sample.sat ∧ r.reversals = turns (directions dead ((x :: xs).map Sample.v)) ∧
      r.reversals ≤ xs.length - 1 ∧
      (xs.foldl (WindowAcc.add dead) (WindowAcc.begin index x)).satT = (x :: xs).any Sample.satT) ∧
  (∀ (p : Profile) (phase : Phase) (x y z : WindowRecord) (i j k : Bool) (w : WevBay), phase.isRest = true →
    ∃ w1 w2, w1 = (judgeWindow p phase x i w).2 ∧ w2 = (judgeWindow p phase y j w1).2 ∧
      ((judgeWindow p phase z k w2).1.settled = true ↔
        x.drift.natAbs ≤ p.settleLimit ∧ y.drift.natAbs ≤ p.settleLimit ∧ z.drift.natAbs ≤ p.settleLimit)) ∧
  (∀ (p : Profile) (x y : WindowRecord) (i j : Bool) (w : WevBay),
    ((judgeWindow p .chargeCV y j (judgeWindow p .chargeCV x i w).2).1.endOfCharge = some true ↔
      x.meanI ≤ p.endCurrent ∧ y.meanI ≤ p.endCurrent)) ∧
  (∀ (p : Profile) (r : WindowRecord) (satT : Bool) (w : WevBay), ∃ v, judgeWindow p .check r satT w = (v, w) ∧
    v.record = r ∧ v.quiet = none ∧ v.settled = false ∧ v.firstSettle = false ∧ v.endOfCharge = none ∧ v.noise = none ∧
    v.sag = none ∧ v.anomaly = none ∧ v.contactLost = none ∧ v.overtemp = none ∧ v.sensor = none) ∧
  ∀ (p : Profile) (phase : Phase) (r : WindowRecord) (satT : Bool) (w : WevBay), phase ≠ .check →
    ∃ (v : Verdict) (t : WevBay) (condition : Condition), judgeWindow p phase r satT w = (v, t) ∧ v.record = r ∧
    t = { w with quietRun := t.quietRun, settledOnce := t.settledOnce, eocRun := t.eocRun, history := t.history,
                 watch := t.watch } ∧
    (if phase.isRest then (v.quiet = some (decide (r.drift.natAbs ≤ p.settleLimit)) ∧ v.quietRun = t.quietRun ∧
        t.quietRun = (if r.drift.natAbs ≤ p.settleLimit then min 3 (w.quietRun + 1) else 0) ∧
        (v.settled = true ↔ t.quietRun = 3) ∧ (v.firstSettle = true ↔ v.settled = true ∧ w.settledOnce = false) ∧
        (t.settledOnce = true ↔ w.settledOnce = true ∨ v.settled = true))
      else v.quiet = none ∧ v.settled = false ∧ v.firstSettle = false ∧ t.quietRun = w.quietRun ∧
        t.settledOnce = w.settledOnce) ∧
    (if phase = .chargeCV then t.eocRun = (if r.meanI ≤ p.endCurrent then min 2 (w.eocRun + 1) else 0) ∧
        v.endOfCharge = some (decide (t.eocRun = 2))
      else v.endOfCharge = none ∧ t.eocRun = w.eocRun) ∧
    v.noise = some (decide (p.revHigh ≤ r.reversals ∧ p.rippleLow ≤ r.ripple ∧ r.ripple ≤ p.rippleHigh)) ∧
    v.sag = (if phase = .chargeCC ∨ phase = .chargeCV ∨ (phase.isRest = true ∧ w.settledOnce = true)
      then some (decide (r.reversals ≤ p.revLow ∧ r.drift ≤ -(p.sagDrift : Int))) else none) ∧
    condition = (if v.noise = some true then .noise else if v.sag = some true then .sag else .none) ∧
    (w.history.length ≤ 3 → t.history = (w.history ++ [condition]).drop (w.history.length - 2)) ∧
    (w.watch = false → v.anomaly = none ∧ t.watch = false) ∧
    (w.watch = true → (v.anomaly = some .noise ↔ 2 ≤ t.history.count .noise) ∧
      (v.anomaly = some .sag ↔ t.history.count .noise < 2 ∧ 2 ≤ t.history.count .sag) ∧ v.anomaly ≠ some .none ∧
      (t.watch = true ↔ v.anomaly = none)) ∧
    v.contactLost = some (decide (r.meanV < p.presentLow)) ∧
    (if phase.isCurrent then v.overtemp = some (decide (p.tempHigh < r.meanT)) ∧ v.sensor = some satT
      else v.overtemp = none ∧ v.sensor = none)

/-- A phase entry, a clock start and a phase leave taken by WEV from what BSQ has handed over (R32, R34, R35, R41).
What BSQ has handed over stands in a queue: the model's choice (log 3). -/
def Obligations.WevTakesEntryClockAndLeave : Prop :=
  ∀ (s : State) (b : BayId) (rest : List WevMsg), s.inReset = false → ∃ u : State,
    u = { s with toWev := s.toWev.set b rest } ∧
    (∀ p n, s.toWev.get b = .entry p n :: rest → (s.wevBay b).cal = false → (s.wevBay b).entry = none →
      exec (.phaseEntry b) s = .next (u.updWev b fun w =>
        { w with entry := some { phase := p, number := n, started := false }, window := none, nextIndex := 0,
                 ring := [], quietRun := 0, settledOnce := false, eocRun := 0, history := [] })) ∧
    (∀ e, s.toWev.get b = .clockStart :: rest → (s.wevBay b).entry = some e →
      exec (.clockStart b) s = .next (u.updWev b fun w => { w with entry := some { e with started := true } })) ∧
    (∀ e fin ans, s.toWev.get b = .leave fin ans :: rest → (s.wevBay b).entry = some e →
      ∃ part, part = (s.wevBay b).window.map (·.close (some e.phase) true) ∧
      exec (.phaseLeave b) s = .next ((u.updWev b fun w =>
          { w with entry := none, window := none, lastRecord := part.or w.lastRecord }).tellBsq b (.closing
        { phase := e.phase, entry := e.number, part := part, ringV := ((s.wevBay b).ring.map Prod.fst).sum,
          ringI := ((s.wevBay b).ring.map Prod.snd).sum, ringN := (s.wevBay b).ring.length,
          watch := (s.wevBay b).watch, finished := fin })))

/-! ## Bay messages (spec/04) -/

/-- LOAD in the order of its checks (R56). The last window values, which R56 does not name, stay: the model's choice (log
30). -/
def Obligations.LoadJudgedInOrder : Prop :=
  ∀ (s : State) (t n : Byte) (b : BayId) (k : ProfileId) (tag : Nat), s.ready → tag < 4294967296 →
    ((s.bay b).state ≠ .empty →
      exec (.load t (bayByte b :: beBytes 4 tag ++ [n])) s = .next (s.answered 0x30 t (.refuse .wrongState))) ∧
    ((s.bay b).state = .empty → (tag = 0 ∨ n = 0 ∨ 8 < n.toNat) →
      exec (.load t (bayByte b :: beBytes 4 tag ++ [n])) s = .next (s.answered 0x30 t (.refuse .badValue))) ∧
    ((s.bay b).state = .empty → tag ≠ 0 → s.slot k = none →
      exec (.load t (bayByte b :: beBytes 4 tag ++ [profileByte k])) s =
        .next (s.answered 0x30 t (.refuse .notFound))) ∧
    ∀ p, (s.bay b).state = .empty → tag ≠ 0 → s.slot k = some p →
      (s.holdsTag tag → exec (.load t (bayByte b :: beBytes 4 tag ++ [profileByte k])) s =
        .next (s.answered 0x30 t (.refuse .duplicate))) ∧
      (¬ s.holdsTag tag → s.caa.limit < max p.chargeCurrent (max p.dischargeCurrent p.pulseCurrent) →
        exec (.load t (bayByte b :: beBytes 4 tag ++ [profileByte k])) s =
          .next (s.answered 0x30 t (.refuse .limit))) ∧
      (¬ s.holdsTag tag → max p.chargeCurrent (max p.dischargeCurrent p.pulseCurrent) ≤ s.caa.limit →
        exec (.load t (bayByte b :: beBytes 4 tag ++ [profileByte k])) s = .next ((s.updBay b fun r =>
          { Bay.reset with state := .loaded, tag := some tag, profile := some k, entry := r.entry,
                           lastIndex := r.lastIndex, lastSumV := r.lastSumV }).answered
            0x30 t .ok))

/-- A phase entry: entry number, clock, state, WEV told; an OFF, a request, or the CV write, by the phase; a resume
from STAGE_NO_ANSWER opens with an OFF whatever the phase (R59, R78). A phase that ends by its own condition or by a limit
is left as finished before the next is entered, and its grant is carried over into CHARGE_CV (R59, R70). The queues between
the blocks are the model's choice (log 3), and so is that a leave in answer to a report is marked so (log 4). -/
def Obligations.PhaseEntryFollowsTable : Prop :=
  (∀ (s : State) (b : BayId) (p : Phase), s.nextPhase b p = State.enterPhase { s with
    toWev := s.toWev.set b (s.toWev.get b ++ [.leave true true])
    toCaa := if p = .chargeCV then s.toCaa else s.toCaa ++ [.leave b] } b p) ∧
  ∀ (s : State) (b : BayId) (p : Phase) (n : Nat) (prof : Profile), n = ((s.bay b).entry + 1) % 65536 →
    prof = s.profileOfBay b → ∃ (sub : Substate) (u : State),
      u = { s with
        bays := s.bays.set b { s.bay b with state := .phase p, substate := sub, entry := n, clock := 0, lastIndex := 0,
                                            lastSumV := 0 }
        toWev := s.toWev.set b (s.toWev.get b ++ [.entry p n]) } ∧
      (match p with
      | .check | .rest0 | .rest1 | .restP | .rest2 => sub = .awaitingStage ∧
          s.enterPhase b p = { u with sbc := s.sbc.write b .off 0 n }
      | .chargeCC => sub = .awaitingGrant ∧
          s.enterPhase b p = { u with toCaa := s.toCaa ++ [.request b prof.chargeCurrent n] }
      | .discharge => sub = .awaitingGrant ∧
          s.enterPhase b p = { u with toCaa := s.toCaa ++ [.request b prof.dischargeCurrent n] }
      | .pulse => sub = .awaitingGrant ∧
          s.enterPhase b p = { u with toCaa := s.toCaa ++ [.request b prof.pulseCurrent n] }
      | .chargeCV => sub = .awaitingStage ∧
          s.enterPhase b p =
            { u with sbc := s.sbc.write b .chargeVoltage prof.cvVoltage n }) ∧
      s.enterCleared b p = { u with
        bays := s.bays.set b { s.bay b with state := .phase p, substate := .awaitingStage, entry := n, clock := 0,
                                            lastIndex := 0, lastSumV := 0 }
        sbc := s.sbc.write b .off 0 n }

/-- A suspension: the leave to WEV and CAA, the bay record, the OFF but for EXTERNAL_OFF and BUS_STALL, the notice
(R73). A rejection in a phase: the leave to WEV and CAA, the bay record, the OFF, the REJECTED notice without Ccorr, SOH
or resistance (R72). The queues between the blocks are the model's choice (log 3), and so is that a leave in answer to a
report is marked so (log 4); a bay without a tag, which no run reaches in a phase, gives tag 0 (log 32). -/
def Obligations.SuspensionFollowsRule : Prop :=
  (∀ (s : State) (b : BayId) (c : RejectCause), s.rejectBay b c = { s with
    bays := s.bays.set b { s.bay b with state := .rejected, substate := .none, cause := .reject c }
    toWev := s.toWev.set b (s.toWev.get b ++ [.leave false true])
    toCaa := s.toCaa ++ [.leave b]
    sbc := s.sbc.write b .off 0 (s.bay b).entry
    nqa := s.nqa.push (.rejected ((s.bay b).tag.getD 0) b c none) }) ∧
  ∀ (s : State) (b : BayId) (p : Phase) (c : SuspensionCause) (code : StageCode) (answering : Bool),
    (s.bay b).state = .phase p → s.suspendBay b c code answering =
      { s with
        bays := s.bays.set b { s.bay b with state := .suspended, substate := .none, resume := some p,
                                            cause := .suspension c code }
        toWev := s.toWev.set b (s.toWev.get b ++ [.leave false answering])
        toCaa := s.toCaa ++ [.leave b]
        sbc := if c = .externalOff ∨ c = .busStall then s.sbc
               else s.sbc.write b .off 0 (s.bay b).entry
        nqa := s.nqa.push (.suspended b c code (some p)) }

/-- START, SUSPEND and ABORT of one bay, by its state (R57, R75, R81). The model's readings: the queues between the
blocks (log 3), and no resume phase or cause kept by an ABORTED bay (log 19). -/
def Obligations.StartSuspendAndAbortTaken : Prop :=
  (∀ (s : State) (t : Byte) (b : BayId), s.ready →
    ((s.bay b).state = .loaded → exec (.start t [bayByte b]) s =
      .next (((s.updWev b fun w => { w with watch := true }).enterPhase b .check).answered 0x31 t .ok)) ∧
    ((s.bay b).state ≠ .loaded →
      exec (.start t [bayByte b]) s = .next (s.answered 0x31 t (.refuse .wrongState))) ∧
    ((∃ p, (s.bay b).state = .phase p) → exec (.suspend t [bayByte b]) s =
      .next ((s.suspendBay b .lineRequest .ok false).answered 0x33 t .ok)) ∧
    ((∀ p, (s.bay b).state ≠ .phase p) →
      exec (.suspend t [bayByte b]) s = .next (s.answered 0x33 t (.refuse .wrongState)))) ∧
  ∀ (s : State) (t : Byte) (b : BayId) (r : Bay), s.ready →
    r = { s.bay b with state := .aborted, substate := .none, resume := none, cause := .none } → ∃ sb : StageBus,
    sb = s.sbc.write b .off 0 (s.bay b).entry ∧
    ((∃ p, (s.bay b).state = .phase p) → exec (.abort t [bayByte b]) s = .next (({ s with
      bays := s.bays.set b r, sbc := sb, toWev := s.toWev.set b (s.toWev.get b ++ [WevMsg.leave false false]),
      toCaa := s.toCaa ++ [CaaMsg.leave b] }).answered 0x36 t .ok)) ∧
    (((s.bay b).state = .loaded ∨ (s.bay b).state = .suspended) → exec (.abort t [bayByte b]) s =
      .next (({ s with bays := s.bays.set b r, sbc := sb }).answered 0x36 t .ok)) ∧
    ((s.bay b).state = .parked → exec (.abort t [bayByte b]) s = .next (({ s with
      bays := s.bays.set b { r with grade := none }, sbc := sb,
      pool := { s.pool with park := s.pool.park.filter (· ≠ b) } }).answered 0x36 t .ok)) ∧
    ((s.bay b).state ∈ [.empty, .cal, .done, .rejected, .aborted] →
      exec (.abort t [bayByte b]) s = .next (s.answered 0x36 t (.refuse .wrongState)))

/-- RESUME in the order of its checks; the phase entered, and the record, which is kept but for what R77 clears or sets
and for cause and resume phase (R76 to R78). The model's readings: an abandoned write counts as pending (log 12), a resumed
bay keeps no resume phase or cause (log 19), the watch is set before a leave not yet taken by WEV (log 35), and a BUS_STALL
bay without a grant is BUSY until the recovery broadcast OFF of its own stall has completed (log 37). -/
def Obligations.ResumeJudgedInOrder : Prop :=
  ∀ (s : State) (t w : Byte) (b : BayId) (p : Phase), s.ready →
    (1 < w.toNat → exec (.resume t [bayByte b, w]) s = .next (s.answered 0x34 t (.refuse .badValue))) ∧
    (w.toNat ≤ 1 → (s.bay b).state ≠ .suspended →
      exec (.resume t [bayByte b, w]) s = .next (s.answered 0x34 t (.refuse .wrongState))) ∧
    (w.toNat ≤ 1 → (s.bay b).state = .suspended →
      (s.writeInHand b = true ∨ (s.grantOf b ≠ 0 ∧ ∀ k, (s.bay b).cause ≠ .suspension .stageNoAnswer k) ∨
        (b ∈ s.sbc.recovery ∧ ∃ k, (s.bay b).cause = .suspension .busStall k)) →
      exec (.resume t [bayByte b, w]) s = .next (s.answered 0x34 t (.refuse .busy))) ∧
    (w.toNat ≤ 1 → (s.bay b).state = .suspended → (s.bay b).resume = some p → s.writeInHand b = false →
      ∃ (q : Phase) (r : Bay) (u : State), q = (match p with | .chargeCV => .chargeCC | .pulse => .restP | x => x) ∧
        u = { s with wev := s.wev.set b { s.wevBay b with watch := w == 1 }, bays := s.bays.set b r } ∧
        r = { s.bay b with
          cause := .none, resume := none,
          marks := { (s.bay b).marks with interrupted := (s.bay b).marks.interrupted || p == .discharge },
          restEnding := if p ∈ [.rest0, .rest1, .restP, .rest2, .pulse] then .none else (s.bay b).restEnding,
          obsIndex := if p = .rest2 then 0 else (s.bay b).obsIndex,
          obsFirst := if p = .rest2 then 0 else (s.bay b).obsFirst,
          obsK := if p = .rest2 then 0 else (s.bay b).obsK,
          obsLeft := if p = .rest2 then 0 else (s.bay b).obsLeft,
          obsLast := if p = .rest2 then 0 else (s.bay b).obsLast } ∧
        ((∃ k, (s.bay b).cause = .suspension .stageNoAnswer k) →
          exec (.resume t [bayByte b, w]) s = .next ((u.enterCleared b q).answered 0x34 t .ok)) ∧
        ((∀ k, (s.bay b).cause ≠ .suspension .stageNoAnswer k) → s.grantOf b = 0 →
          (b ∉ s.sbc.recovery ∨ ∀ k, (s.bay b).cause ≠ .suspension .busStall k) →
          exec (.resume t [bayByte b, w]) s = .next ((u.enterPhase b q).answered 0x34 t .ok)))

/-- UNLOAD: BUSY with a write in hand, or with a grant held, when it queues a new OFF; else the bay is EMPTY, its
record cleared, and the watch disarmed (R80). The model's readings: an abandoned write counts as pending (log 12), the
OFF carries the present entry (log 25), the messages handed over for the bay to CAA and to WEV are taken first and the
reports handed over to BSQ go, so that none of these is left (log 24), and what R80 does not name of the record stays (log
30). A GRANT whose grant an OFF has released stands where it was, to be given back at its own taking. -/
def Obligations.UnloadTakenByState : Prop :=
  ∀ (s : State) (t : Byte) (b : BayId), s.ready →
    ((s.bay b).state ∉ [.done, .rejected, .aborted] →
      exec (.unload t [bayByte b]) s = .next (s.answered 0x38 t (.refuse .wrongState))) ∧
    ((s.bay b).state ∈ [.done, .rejected, .aborted] →
      (s.writeInHand b = true →
        exec (.unload t [bayByte b]) s = .next (s.answered 0x38 t (.refuse .busy))) ∧
      (s.writeInHand b = false → s.grantOf b ≠ 0 → exec (.unload t [bayByte b]) s = .next (({ s with
        sbc := s.sbc.write b .off 0 (s.bay b).entry }).answered 0x38 t (.refuse .busy))) ∧
      (s.writeInHand b = false → s.grantOf b = 0 → ∃ u v : State, u = s.caaUnload b ∧
        v = State.wevTakeMany b (u.toWev.get b).length u ∧
        ((∀ m ∈ s.toCaa, m.bay ≠ b) → u = s) ∧ (∀ m ∈ u.toCaa, m.bay ≠ b) ∧ u.bay b = s.bay b ∧
        (u.toWev.get b = [] → v = u) ∧ v.toWev.get b = [] ∧ v.bays = u.bays ∧ v.sbc = u.sbc ∧ v.caa = u.caa ∧
        v.grantsOut = u.grantsOut ∧
        (u.grantOf b ≠ 0 → exec (.unload t [bayByte b]) s = .next (({ u with
          sbc := u.sbc.write b .off 0 (s.bay b).entry }).answered 0x38 t (.refuse .busy))) ∧
        (u.grantOf b = 0 → exec (.unload t [bayByte b]) s = .next (({ v with
          bays := v.bays.set b { Bay.reset with
            state := .empty, substate := .none, tag := none, profile := none, marks := {}, cause := .none, grade := none,
            chargeTime := 0, dischargeTime := 0, q := 0, dCount := 0, dWeight := 0, preV := 0, preI := 0, pulseV := 0,
            pulseI := 0, obsIndex := 0, obsFirst := 0, obsK := 0, obsLeft := 0, obsLast := 0, entry := (s.bay b).entry,
            clock := (s.bay b).clock, resume := (s.bay b).resume, restEnding := (s.bay b).restEnding,
            lastIndex := (s.bay b).lastIndex, lastSumV := (s.bay b).lastSumV }
          wev := v.wev.set b { v.wevBay b with watch := false }
          toBsq := v.toBsq.set b [] }).answered 0x38 t .ok))))

/-- START-GROUP, RESUME-GROUP and ABORT-GROUP serve the bays of the set that would take the single message, one after the
other in ascending number and each exactly as the single message does, leave each other bay record, and answer the set
served (R58). What makes a bay BUSY to a RESUME includes an abandoned write (log 12)
and, for BUS_STALL without a grant, the recovery broadcast OFF of its own stall (log 37): the model's choices. -/
def Obligations.GroupsServeTheirBays : Prop :=
  (∀ (set : List BayId) (b : BayId),
    (baySetBytes set).length = 6 ∧ (inBaySet (baySetBytes set) 0 b = true ↔ b ∈ set)) ∧
  ∀ (s : State) (t : Byte) (set : List Byte), s.ready → set.length = 6 →
    (∃ (u : State) (served : List BayId), exec (.startGroup t set) s = .next (u.answered 0x32 t (.ok (baySetBytes served))) ∧
      ServedInOrder (fun b => .start t [bayByte b]) 0x31 t served s u ∧
      (∀ b, b ∈ served ↔ inBaySet set 0 b = true ∧ (s.bay b).state = .loaded) ∧
      ∀ b, (b ∈ served → (u.bay b).state = .phase .check ∧ (u.wevBay b).watch = true) ∧
        (b ∉ served → u.bay b = s.bay b)) ∧
    (∀ w : Byte, w.toNat ≤ 1 → ∃ (u : State) (served : List BayId),
      exec (.resumeGroup t (set ++ [w])) s = .next (u.answered 0x35 t (.ok (baySetBytes served))) ∧
      ServedInOrder (fun b => .resume t [bayByte b, w]) 0x34 t served s u ∧
      (∀ b, b ∈ served ↔ inBaySet set 0 b = true ∧ (s.bay b).state = .suspended ∧ s.resumeBusy b = false ∧
        (s.bay b).resume.isSome = true) ∧
      ∀ b, (b ∈ served → (∃ p, (s.bay b).resume = some p ∧ (u.bay b).state = .phase p.resumesInto) ∧
          (u.wevBay b).watch = (w == 1)) ∧
        (b ∉ served → u.bay b = s.bay b)) ∧
    (∀ w : Byte, 1 < w.toNat →
      exec (.resumeGroup t (set ++ [w])) s = .next (s.answered 0x35 t (.refuse .badValue))) ∧
    ∃ (u : State) (served : List BayId), exec (.abortGroup t set) s = .next (u.answered 0x37 t (.ok (baySetBytes served))) ∧
      ServedInOrder (fun b => .abort t [bayByte b]) 0x36 t served s u ∧
      (∀ b, b ∈ served ↔ inBaySet set 0 b = true ∧ ((∃ p, (s.bay b).state = .phase p) ∨ (s.bay b).state = .loaded ∨
        (s.bay b).state = .suspended ∨ (s.bay b).state = .parked)) ∧
      ∀ b, (b ∈ served → (u.bay b).state = .aborted ∧ (u.bay b).tag = (s.bay b).tag) ∧
        (b ∉ served → u.bay b = s.bay b)

/-! ## The test (spec/04, spec/06) -/

/-- A sample report of an ended entry, or of a bay in no phase, is discarded. One of the present entry is counted, and
then the first outcome of the order of R63 decides: contact, sensor, overtemperature, over-current, anomaly, then the end
of the phase by its own condition, then its end by a limit with the mark; a report with none leaves the bay in its phase
(R42, R61 to R69). The model's readings: reports wait in a queue (log 3), the end of REST2 is one taking with its leave
and grading (log 5), the rest ending is written for REST2 alone (log 18), and a CHARGE_CC that is at its limit and crosses
the CV voltage ends by crossing, after a RESUME too (log 39). -/
def Obligations.ReportCountedThenJudged : Prop :=
  ∀ (s : State) (b : BayId) (x : SampleReport) (rest : List BsqMsg) (u0 : State),
    s.inReset = false → s.toBsq.get b = .report x :: rest → u0 = { s with toBsq := s.toBsq.set b rest } →
    ((x.entry ≠ (s.bay b).entry ∨ ∀ p, (s.bay b).state ≠ .phase p) → exec (.sampleReport b) s = .next u0) ∧
    ∀ p, (s.bay b).state = .phase p → x.entry = (s.bay b).entry →
      ∃ (put : Bay → State) (u : State) (r : Bay) (prof : Profile) (calm above : Prop),
      put = (fun y => { u0 with bays := s.bays.set b y }) ∧ r = (s.bay b).count p x ∧ u = put r ∧
      prof = s.profileOfBay b ∧
      above = (∃ m, x.magnitude = some m ∧ prof.phaseCurrent p * 105 < m * 100) ∧
      calm = (¬ above ∧ ∀ v, x.verdict = some v → v.contactLost ≠ some true ∧ v.sensor ≠ some true ∧
        v.overtemp ≠ some true ∧ v.anomaly ≠ some .noise ∧ v.anomaly ≠ some .sag) ∧
      (∀ v, x.verdict = some v →
        (v.contactLost = some true → exec (.sampleReport b) s = .next (u.suspendBay b .contactLost .ok true)) ∧
        (v.contactLost ≠ some true → v.sensor = some true →
          exec (.sampleReport b) s = .next (u.suspendBay b .sensor .ok true)) ∧
        (v.contactLost ≠ some true → v.sensor ≠ some true → v.overtemp = some true →
          exec (.sampleReport b) s = .next (u.suspendBay b .overtemp .ok true)) ∧
        (v.contactLost ≠ some true → v.sensor ≠ some true → v.overtemp ≠ some true → above →
          exec (.sampleReport b) s = .next (u.suspendBay b .overcurrent .ok true)) ∧
        (v.contactLost ≠ some true → v.sensor ≠ some true → v.overtemp ≠ some true → ¬ above →
          (v.anomaly = some .noise → exec (.sampleReport b) s = .next (u.suspendBay b .contactNoise .ok true)) ∧
          (v.anomaly = some .sag → exec (.sampleReport b) s = .next (u.rejectBay b .voltageSag)))) ∧
      (x.verdict = none → above → exec (.sampleReport b) s = .next (u.suspendBay b .overcurrent .ok true)) ∧
      (calm →
        (p = .check →
          (x.verdict = none → exec (.sampleReport b) s = .next u) ∧
          ∀ v, x.verdict = some v → exec (.sampleReport b) s = .next (
            if v.record.meanV < prof.presentLow then u.rejectBay b .notPresent
            else if prof.presentHigh < v.record.meanV then u.rejectBay b .overvoltage
            else if v.record.meanV < prof.floor then u.rejectBay b .deepDischarge
            else if v.record.meanT < prof.tempLow ∨ prof.tempHigh < v.record.meanT then u.suspendBay b .tempOut .ok true
            else u.nextPhase b .rest0)) ∧
        (∀ q settled, (p = .rest0 ∧ q = .chargeCC) ∨ (p = .rest1 ∧ q = .discharge) →
          settled = ((∃ v, x.verdict = some v ∧ v.settled = true) ∧ prof.restMin * 10 ≤ r.clock) →
          (settled → exec (.sampleReport b) s = .next (u.nextPhase b q)) ∧
          (¬ settled → prof.restMax * 10 ≤ r.clock → exec (.sampleReport b) s =
            .next ((put { r with marks := { r.marks with unsettled := true } }).nextPhase b q)) ∧
          (¬ settled → r.clock < prof.restMax * 10 → exec (.sampleReport b) s = .next u)) ∧
        (∀ ended, (p = .chargeCC ∧ ended = (x.cvCrossed = true)) ∨
            (p = .chargeCV ∧ ended = ∃ v, x.verdict = some v ∧ v.endOfCharge = some true) →
          (ended → exec (.sampleReport b) s =
            .next (u.nextPhase b (if p = .chargeCC then .chargeCV else .rest1))) ∧
          (¬ ended → prof.chargeLimit * 600 ≤ r.chargeTime → exec (.sampleReport b) s =
            .next ((put { r with marks := { r.marks with chargeTimeout := true } }).nextPhase b .rest1)) ∧
          (¬ ended → r.chargeTime < prof.chargeLimit * 600 → exec (.sampleReport b) s = .next u)) ∧
        (p = .discharge →
          (x.cutoff = true → exec (.sampleReport b) s = .next (u.nextPhase b .restP)) ∧
          (x.cutoff = false → prof.dischargeLimit * 600 ≤ r.dischargeTime → exec (.sampleReport b) s =
            .next ((put { r with marks := { r.marks with dischargeTimeout := true } }).nextPhase b .restP)) ∧
          (x.cutoff = false → r.dischargeTime < prof.dischargeLimit * 600 → exec (.sampleReport b) s = .next u)) ∧
        (p = .restP → exec (.sampleReport b) s =
          .next (if prof.prePulse ≤ r.clock then u.nextPhase b .pulse else u)) ∧
        (p = .pulse → exec (.sampleReport b) s =
          .next (if prof.pulseLen ≤ r.clock then u.nextPhase b .rest2 else u)) ∧
        (p = .rest2 → r.restEnding = .none → ∀ (settled : Prop) (ends : RestEnding → Marks → Bay) (k : Nat),
          settled = ((∃ v, x.verdict = some v ∧ v.settled = true) ∧ prof.restMin * 10 ≤ r.clock) →
          k = (prof.observation * 600 + prof.windowLen - 1) / prof.windowLen →
          ends = (fun how marks => if prof.observation = 0 then { r with restEnding := how, marks := marks }
            else { r with restEnding := how, marks := marks, obsIndex := r.lastIndex, obsFirst := r.lastSumV, obsK := k,
                          obsLeft := k }) →
          (settled → exec (.sampleReport b) s = .next (
            if prof.observation = 0 then (put (ends .settled r.marks)).finishTest b else put (ends .settled r.marks))) ∧
          (∀ marks, marks = { r.marks with unsettled := true } → ¬ settled → prof.restMax * 10 ≤ r.clock →
            exec (.sampleReport b) s = .next (
              if prof.observation = 0 then (put (ends .maximum marks)).finishTest b else put (ends .maximum marks))) ∧
          (¬ settled → r.clock < prof.restMax * 10 → exec (.sampleReport b) s = .next u)) ∧
        (p = .rest2 → r.restEnding ≠ .none →
          (x.verdict = none → exec (.sampleReport b) s = .next u) ∧
          ∀ v, x.verdict = some v →
            (r.obsLeft ≤ 1 → exec (.sampleReport b) s =
              .next ((put { r with obsLeft := 0, obsLast := v.record.sumV }).finishTest b)) ∧
            (1 < r.obsLeft → exec (.sampleReport b) s = .next (put { r with obsLeft := r.obsLeft - 1 }))))

/-- What counting a sample adds, by phase; a verdict also sets the last window values (R54, R62). The phase clock has no
top and the discharge sample count none: the model's choice (log 29). -/
def Obligations.SampleCountedByPhase : Prop :=
  ∀ (r : Bay) (p : Phase) (x : SampleReport), ∃ u : Bay, u = r.count p x ∧ u.clock = r.clock + 1 ∧
    u.chargeTime = (if p = .chargeCC ∨ p = .chargeCV then min 16777215 (r.chargeTime + 1) else r.chargeTime) ∧
    u.dischargeTime = (if p = .discharge then min 16777215 (r.dischargeTime + 1) else r.dischargeTime) ∧
    (p ≠ .discharge → u.q = r.q ∧ u.marks = r.marks ∧ u.dCount = r.dCount ∧ u.dWeight = r.dWeight) ∧
    (p = .discharge →
      (u.q : Int) = max 0 (min 4294967295 ((r.q : Int) - x.i)) ∧
      (u.marks.saturated = true ↔ r.marks.saturated = true ∨ x.satI = true ∨ 4294967295 < (r.q : Int) - x.i) ∧
      (∀ v, x.verdict = some v →
        u.dCount = r.dCount + v.record.count ∧ u.dWeight = r.dWeight + v.record.count * v.record.meanT) ∧
      (x.verdict = none → u.dCount = r.dCount ∧ u.dWeight = r.dWeight)) ∧
    (∀ v, x.verdict = some v → u.lastIndex = v.record.index ∧ u.lastSumV = v.record.sumV) ∧
    (x.verdict = none → u.lastIndex = r.lastIndex ∧ u.lastSumV = r.lastSumV) ∧
    u = { r with clock := u.clock, chargeTime := u.chargeTime, dischargeTime := u.dischargeTime, q := u.q,
                 marks := { r.marks with saturated := u.marks.saturated }, dCount := u.dCount, dWeight := u.dWeight,
                 lastIndex := u.lastIndex, lastSumV := u.lastSumV }

/-- The closing report of an entry: discharge accumulators, pre and pulse sums, WATCH_OFF (R61, R69, R70). The model's
readings: closing reports wait in a queue (log 3), in which an UNLOAD leaves none (log 24). -/
def Obligations.ClosingReportTaken : Prop :=
  ∀ (s : State) (b : BayId) (c : ClosingReport) (rest : List BsqMsg),
    s.inReset = false → s.toBsq.get b = .closing c :: rest → ∃ r : Bay,
    exec (.closingReport b) s = .next { s with toBsq := s.toBsq.set b rest, bays := s.bays.set b r } ∧
    (∀ w, c.phase = .discharge → c.part = some w →
      r.dCount = (s.bay b).dCount + w.count ∧ r.dWeight = (s.bay b).dWeight + w.count * w.meanT) ∧
    ((c.phase ≠ .discharge ∨ c.part = none) → r.dCount = (s.bay b).dCount ∧ r.dWeight = (s.bay b).dWeight) ∧
    (c.phase = .restP → c.finished = true → r.preV = c.ringV ∧ r.preI = c.ringI) ∧
    ((c.phase ≠ .restP ∨ c.finished = false) → r.preV = (s.bay b).preV ∧ r.preI = (s.bay b).preI) ∧
    (c.phase = .pulse → c.finished = true → r.pulseV = c.ringV ∧ r.pulseI = c.ringI) ∧
    ((c.phase ≠ .pulse ∨ c.finished = false) → r.pulseV = (s.bay b).pulseV ∧ r.pulseI = (s.bay b).pulseI) ∧
    (r.marks.watchOff = true ↔ (s.bay b).marks.watchOff = true ∨ (c.finished = true ∧ c.watch = false)) ∧
    r = { s.bay b with dCount := r.dCount, dWeight := r.dWeight, preV := r.preV, preI := r.preI, pulseV := r.pulseV,
                       pulseI := r.pulseI, marks := { (s.bay b).marks with watchOff := r.marks.watchOff } }

/-- A grant moves its bay to AWAITING_STAGE and queues the opening write; a grant whose entry has ended is handed back
(R60, R101). Grants wait in a queue and carry their entry number: the model's choices (logs 3, 15). -/
def Obligations.GrantOpensThePhase : Prop :=
  ∀ (s : State) (m : GrantMsg) (rest : List GrantMsg) (p : Phase),
    s.inReset = false → s.grantsOut = m :: rest → ∃ (u : State) (k : WriteKind), u = { s with grantsOut := rest } ∧
    k = (if p = .chargeCC then .chargeCurrent else .dischargeCurrent) ∧
    ((s.bay m.bay).state = .phase p → (s.bay m.bay).substate = .awaitingGrant → (s.bay m.bay).entry = m.entry →
      exec .grant s = .next ({ u with
        bays := s.bays.set m.bay { s.bay m.bay with substate := .awaitingStage }
        sbc := s.sbc.write m.bay k ((s.profileOfBay m.bay).phaseCurrent p) m.entry })) ∧
    (((s.bay m.bay).substate ≠ .awaitingGrant ∨ (s.bay m.bay).entry ≠ m.entry ∨ ∀ q, (s.bay m.bay).state ≠ .phase q) →
      exec .grant s = .next { u with toCaa := s.toCaa ++ [.giveBack m.bay m.entry] })

/-- Every stage of grading with its rounding, and its clamp or its saturation with the mark; the class before caps by the
first row of R118 that applies, with its reject cause, and the caps of the marks (R108 to R119). -/
def Obligations.GradeRecordFollowsStages : Prop :=
  ∀ (p : Profile) (x : GradeInputs) (g : GradeRecord), g = gradeRecord p x →
    ∃ (craw ccorr di : Nat) (f dv : Int) (r k d : Option Nat) (before : GradeClass) (meets : Nat → Nat → Nat → Prop)
      (capC capB : Prop),
    g.tag = x.tag ∧ g.bay = x.bay ∧ g.profile = x.profile ∧
    craw = (x.q + 18000) / 36000 ∧ g.craw = min 65535 craw ∧
    g.tm = (if x.dWeight < 0 then -1 else 1) * (((x.dWeight.natAbs + x.dCount / 2) / x.dCount : Nat) : Int) ∧
    f = max 9000 (min 11000 (10000 + ((p.tempCoeff : Int) * (250 - g.tm)).tdiv 10)) ∧
    ccorr = (g.craw * f.toNat + 5000) / 10000 ∧ g.ccorr = min 65535 ccorr ∧
    g.soh = min 1200 ((g.ccorr * 1000 + p.nameplate / 2) / p.nameplate) ∧
    dv = (x.preV : Int) - x.pulseV ∧ di = (x.pulseI - x.preI).natAbs ∧
    ((di < 4 * p.minDelta ∨ dv ≤ 0) → r = none ∧ k = none ∧ g.res = none) ∧
    (4 * p.minDelta ≤ di → 0 < dv → ∃ r0 k0, r = some r0 ∧ k = some k0 ∧ r0 = (dv.toNat * 10000 + di / 2) / di ∧
      k0 = (min 65535 r0 * 100 + p.nominalRes / 2) / p.nominalRes ∧ g.res = some (min 65535 r0, min 65535 k0)) ∧
    (x.obs = none → d = none ∧ g.sd = none) ∧
    (∀ first last n, x.obs = some (first, last, n) → ∃ (drop span d0 : Nat), (drop : Int) = max 0 ((first : Int) - last) ∧
      span = n * p.windowLen ∧ d = some d0 ∧ g.sd = some (min 65535 d0) ∧
      d0 = (drop * 864000 + (p.windowLen * span) / 2) / (p.windowLen * span)) ∧
    g.marks = { x.marks with saturated := g.marks.saturated } ∧
    (g.marks.saturated = true ↔ x.marks.saturated = true ∨
      ∃ y, 65535 < y ∧ (y = craw ∨ y = ccorr ∨ r = some y ∨ k = some y ∨ d = some y)) ∧
    meets = (fun soh ratio sd => soh ≤ g.soh ∧ (∃ y z, g.res = some (y, z) ∧ z ≤ ratio) ∧ ∀ y, g.sd = some y → y ≤ sd) ∧
    (g.res = none → before = .x ∧ g.reject = some .noResistance) ∧
    (meets p.sohA p.ratioA p.sdA → before = .a ∧ g.reject = none) ∧
    (¬ meets p.sohA p.ratioA p.sdA → meets p.sohB p.ratioB p.sdB → before = .b ∧ g.reject = none) ∧
    (¬ meets p.sohA p.ratioA p.sdA → ¬ meets p.sohB p.ratioB p.sdB → meets p.sohC p.ratioC p.sdC →
      before = .c ∧ g.reject = none) ∧
    (g.res ≠ none → ¬ meets p.sohA p.ratioA p.sdA → ¬ meets p.sohB p.ratioB p.sdB → ¬ meets p.sohC p.ratioC p.sdC →
      before = .x ∧ g.reject = some .belowClassC) ∧
    capC = (g.marks.chargeTimeout = true ∨ g.marks.saturated = true ∨ g.marks.dischargeTimeout = true) ∧
    capB = (g.marks.unsettled = true ∨ g.marks.interrupted = true ∨ g.marks.watchOff = true) ∧
    (before = .x → g.cls = .x) ∧ (before ≠ .x → capC → g.cls = .c) ∧
    (before ≠ .x → ¬ capC → capB → g.cls = if before = .a then .b else before) ∧
    (¬ capC → ¬ capB → g.cls = before)

/-- The end of REST2 takes the leave and its closing report, hands GRU the inputs of grading, and acts on the grade
record: REJECTED, DONE with its record in the pool, or PARKED (R70, R71, R107, R126, R127). That the leave and its closing
report are of this one taking is the model's reading (log 5). -/
def Obligations.GradeSettlesTheBay : Prop :=
  ∀ (s : State) (b : BayId) (g : GradeRecord),
    (∃ (r : Bay) (w : WevBay) (u : State) (p : Profile) (x : GradeInputs), p = s.profileOfBay b ∧
      r = { s.bay b with marks := { (s.bay b).marks with
        watchOff := (s.bay b).marks.watchOff || !(s.wevBay b).watch } } ∧
      ((s.wevBay b).entry = none → w = s.wevBay b) ∧
      (∀ e, (s.wevBay b).entry = some e → w = { s.wevBay b with
        entry := none
        window := none
        lastRecord := ((s.wevBay b).window.map (·.close (some e.phase) true)).or (s.wevBay b).lastRecord }) ∧
      u = { s with bays := s.bays.set b r, wev := s.wev.set b w, toCaa := s.toCaa ++ [.leave b] } ∧
      x = { q := r.q, dCount := r.dCount, dWeight := r.dWeight, preV := r.preV, preI := r.preI, pulseV := r.pulseV,
            pulseI := r.pulseI, obs := if p.observation = 0 then none else some (r.obsFirst, r.obsLast, r.obsK),
            marks := r.marks, tag := r.tag.getD 0, bay := b, profile := r.profile.getD 0 } ∧
      s.finishTest b = u.settleGrade b (gradeRecord p x)) ∧
    (∀ c, g.reject = some c → s.settleGrade b g = { s with
      bays := s.bays.set b { s.bay b with grade := some g, substate := .none, state := .rejected, cause := .reject c }
      nqa := s.nqa.push (.rejected g.tag b c (some (g.ccorr, g.soh, g.res.map Prod.fst))) }) ∧
    (g.reject = none → s.pool.records.length < 128 → s.settleGrade b g = ({ s with
      bays := s.bays.set b { s.bay b with grade := some g, substate := .none, state := .done }
      pool := s.pool.enter g
      nqa := s.nqa.push (.graded g.tag b g.cls g.ccorr g.soh) }).askPass) ∧
    (g.reject = none → 128 ≤ s.pool.records.length → s.settleGrade b g = { s with
      bays := s.bays.set b { s.bay b with grade := some g, substate := .none, state := .parked }
      pool := { s.pool with park := s.pool.park ++ [b] } })

/-! ## Stage bus (spec/05) -/

/-- A write joins the tail of the queue or takes the place of its bay's pending one; the head of the queue is sent when
the bus is IDLE; a NACKed write and a status read are judged. Either report suspends a bay in a phase with its cause and
code; of a SUSPENDED bay it changes these, with a notice when they stood otherwise, and of any other bay it changes
nothing (R84, R86, R87, R90, R91, R73, R74). That SBC remembers whether a write is newer than the one taken from the queue
is the model's own (log 36). -/
def Obligations.StageTransactionsTaken : Prop :=
  (∀ (x : StageBus) (b : BayId) (k : WriteKind) (value label : Nat),
    x.write b k value label = { x with
      queue := joinWrite b k value label x.queue
      newer := x.newer || (x.inFlight.any (·.isWriteOf b) || x.abandoned.any (·.isWriteOf b)) } ∧
    (x.queue.any (·.isWriteOf b) = false → joinWrite b k value label x.queue = x.queue ++ [.write b k value label]) ∧
    ∀ before e behind, x.queue = before ++ e :: behind → e.isWriteOf b = true →
      (before ++ behind).any (·.isWriteOf b) = false →
      joinWrite b k value label x.queue = before ++ .write b k value label :: behind) ∧
  (∀ (s : State) (b : BayId) (c : SuspensionCause) (code : StageCode),
    ((∃ p, (s.bay b).state = .phase p) → s.stageReport b c code = s.suspendBay b c code false) ∧
    ((s.bay b).state = .suspended → (s.bay b).cause ≠ .suspension c code → s.stageReport b c code = { s with
      bays := s.bays.set b { s.bay b with cause := .suspension c code }
      nqa := s.nqa.push (.suspended b c code (s.bay b).resume) }) ∧
    ((s.bay b).state = .suspended → (s.bay b).cause = .suspension c code → s.stageReport b c code = s) ∧
    ((∀ p, (s.bay b).state ≠ .phase p) → (s.bay b).state ≠ .suspended → s.stageReport b c code = s)) ∧
  ∀ (s : State) (b : BayId) (w : BusEntry) (st ck : Byte) (rest : List BusEntry), s.inReset = false →
    (s.sbc.queue = w :: rest → s.sbc.bus = .idle → s.sbc.inFlight = none → exec .transactionStart s = .next
      { s with sbc := { s.sbc with queue := rest, inFlight := some w, newer := false, bus := .busy } }) ∧
    ((s.sbc.bus ≠ .idle ∨ s.sbc.inFlight ≠ none ∨ s.sbc.queue = []) → exec .transactionStart s = .next s) ∧
    ∃ (u v : State), u = { s with sbc := { s.sbc with inFlight := none, bus := .idle } } ∧
    v = { u with sbc := { u.sbc with queue := s.sbc.queue.filter fun e => !e.isWriteOf b } } ∧
    (∀ k value label, s.sbc.inFlight = some (.write b k value label) →
      ((∃ p, (s.bay b).state = .phase p) → exec .nack s = .next (v.suspendBay b .stageNoAnswer .ok false)) ∧
      ((s.bay b).state = .suspended → (s.bay b).cause ≠ .suspension .stageNoAnswer .ok →
        exec .nack s = .next { v with
          bays := s.bays.set b { s.bay b with cause := .suspension .stageNoAnswer .ok }
          nqa := s.nqa.push (.suspended b .stageNoAnswer .ok (s.bay b).resume) }) ∧
      ((s.bay b).state = .suspended → (s.bay b).cause = .suspension .stageNoAnswer .ok → exec .nack s = .next v) ∧
      ((∀ p, (s.bay b).state ≠ .phase p) → (s.bay b).state ≠ .suspended → exec .nack s = .next v)) ∧
    (s.sbc.inFlight = some (.statusRead b) →
      (st + ck = 0 → st = 0 → exec (.statusReadOutcome st ck) s = .next u) ∧
      (∀ code, st + ck = 0 → st ≠ 0 →
        code = (if st = 1 then .overtemp else if st = 3 then .inputLoss else .outputFault) →
        exec (.statusReadOutcome st ck) s = .next ((u.release b).stageReport b .stageFault code)) ∧
      (st + ck ≠ 0 → exec (.statusReadOutcome st ck) s = .next (v.stageReport b .stageNoAnswer .ok)))

/-- An acknowledged write goes to CAA first, which takes an OFF as a release, and then to BSQ: the clock of the
present entry starts, or the request that follows a clearing OFF is made (R60, R78, R89, R103). The queues between the
blocks are the model's choice (log 3). -/
def Obligations.AcknowledgementReleasesThenStarts : Prop :=
  ∀ (s : State) (b : BayId),
    (∀ k value label, s.inReset = false → s.sbc.inFlight = some (.write b k value label) →
      ∃ u : State, u = { s with sbc := { s.sbc with inFlight := none, bus := .idle } } ∧
      exec .ack s = .next ((if k = .off then u.release b else u).bsqAck b k label)) ∧
    (s.grantOf b = 0 → s.release b = s) ∧
    (s.grantOf b ≠ 0 → s.release b = State.examine { s with
      caa := { s.caa with grants := s.caa.grants.set b { mag := 0, entry := 0 },
                          committed := s.caa.committed - s.grantOf b } }) ∧
    ∀ (p : Phase) (k : WriteKind),
      (∀ label, ((s.bay b).substate ≠ .awaitingStage ∨ (s.bay b).entry ≠ label) → s.bsqAck b k label = s) ∧
      ((s.bay b).state = .phase p → (s.bay b).substate = .awaitingStage →
        (p.isCurrent = true → k = .off → s.bsqAck b k (s.bay b).entry = { s with
          bays := s.bays.set b { s.bay b with substate := .awaitingGrant }
          toCaa := s.toCaa ++ [.request b ((s.profileOfBay b).phaseCurrent p) (s.bay b).entry] }) ∧
        ((p.isCurrent = false ∨ k ≠ .off) → s.bsqAck b k (s.bay b).entry = { s with
          bays := s.bays.set b { s.bay b with substate := .running }
          toWev := s.toWev.set b (s.toWev.get b ++ [.clockStart]) }))

/-- A broadcast OFF that completes releases every grant; a lost arbitration and a foreign start make the part listen;
a foreign transaction is judged at its stop. A foreign broadcast OFF suspends the bays in hand in ascending number, each
with its leaves and its notice, removes their pending writes and releases every grant. The abandoned entry is dropped where
its bay is so suspended or has queued a newer one, else returned behind a pending broadcast OFF (R92, R94, R95). The
model's readings: one examination after all grants are released (log 28), five bytes make a foreign broadcast OFF (log 27),
suspended bays leave the waiting list in the same taking (log 16), what is newer counts from the start of the write (log
36), and with a broadcast that completes no bay awaits a recovery broadcast OFF (log 37). -/
def Obligations.BroadcastAndForeignTransactionsTaken : Prop :=
  ∀ (s : State) (w : BusEntry) (bytes : List Byte), s.inReset = false →
    (s.sbc.inFlight = some .broadcastOff → exec .broadcastComplete s = .next (State.examine { s with
      sbc := { s.sbc with inFlight := none, recovery := [], bus := .idle }
      caa := { s.caa with grants := Vector.replicate 48 { mag := 0, entry := 0 },
                          committed := s.caa.committed - s.caa.sum } })) ∧
    (s.sbc.inFlight = some w → exec .arbitrationLost s = .next
      { s with sbc := { s.sbc with inFlight := none, abandoned := some w, listening := true } }) ∧
    (s.sbc.bus = .idle → exec .foreignStart s = .next
      { s with sbc := { s.sbc with bus := .busy, listening := true } }) ∧
    (s.sbc.listening = true → (bytes.length ≠ 5 ∨ bytes.take 2 ≠ [0x00, 0x10] ∨ byteSum bytes ≠ 0) →
      ∃ q, exec (.foreignTransaction bytes) s = .next
        { s with sbc := { s.sbc with abandoned := none, listening := false, bus := .idle, queue := q } } ∧
      (s.sbc.abandoned = none → q = s.sbc.queue) ∧
      (∀ b k value label, s.sbc.abandoned = some (.write b k value label) →
        ((s.sbc.newer = true ∨ s.sbc.queue.any (·.isWriteOf b) = true) → q = s.sbc.queue) ∧
        (s.sbc.newer = false → s.sbc.queue.any (·.isWriteOf b) = false →
          q = putHead (.write b k value label) s.sbc.queue)) ∧
      (∀ b, s.sbc.abandoned = some (.statusRead b) →
        (s.sbc.queue.any (·.isReadOf b) = true → q = s.sbc.queue) ∧
        (s.sbc.queue.any (·.isReadOf b) = false → q = putHead (.statusRead b) s.sbc.queue)) ∧
      (s.sbc.abandoned = some .broadcastOff → q = joinBroadcast s.sbc.queue)) ∧
    (s.sbc.listening = true → bytes.length = 5 → bytes.take 2 = [0x00, 0x10] → byteSum bytes = 0 →
      ∃ (u v : State) (q : List BusEntry), exec (.foreignTransaction bytes) s = .next u ∧
      v.caa = { s.caa with
        grants := Vector.replicate 48 { mag := 0, entry := 0 }
        committed := s.caa.committed - s.caa.sum
        waiting := s.caa.waiting.filter fun y => !(s.bay y.bay).inHand } ∧
      v.sbc = { s.sbc with queue := s.sbc.queue.filter fun e =>
        (match e with
         | .write b _ _ _ => !(s.bay b).inHand
         | _ => true) } ∧
      HandsSuspended .externalOff s v ∧
      v = { s with bays := v.bays, toWev := v.toWev, toCaa := v.toCaa, nqa := v.nqa, caa := v.caa, sbc := v.sbc } ∧
      u = { v.examine with
        sbc := { v.examine.sbc with abandoned := none, listening := false, bus := .idle, queue := q } } ∧
      (s.sbc.abandoned = none → q = v.examine.sbc.queue) ∧
      (∀ b k value label, s.sbc.abandoned = some (.write b k value label) →
        (((s.bay b).inHand = true ∨ v.examine.sbc.newer = true ∨ v.examine.sbc.queue.any (·.isWriteOf b) = true) →
          q = v.examine.sbc.queue) ∧
        ((s.bay b).inHand = false → v.examine.sbc.newer = false →
          v.examine.sbc.queue.any (·.isWriteOf b) = false →
          q = putHead (.write b k value label) v.examine.sbc.queue)) ∧
      (∀ b, s.sbc.abandoned = some (.statusRead b) →
        (((s.bay b).inHand = true ∨ v.examine.sbc.queue.any (·.isReadOf b) = true) → q = v.examine.sbc.queue) ∧
        ((s.bay b).inHand = false → v.examine.sbc.queue.any (·.isReadOf b) = false →
          q = putHead (.statusRead b) v.examine.sbc.queue)) ∧
      (s.sbc.abandoned = some .broadcastOff → q = joinBroadcast v.examine.sbc.queue))

/-- A stall empties the queue but for one broadcast OFF, keeps the grants, and suspends the bays in a current phase or
awaiting their stage in ascending number, each with its leaves and its notice, which leave the waiting list; the lines
high again make the bus IDLE (R73, R96, R97). The model's readings: a stall drops the abandoned entry (log 13), suspended
bays leave the waiting list in the same taking (log 16), and SBC remembers which bays await the recovery broadcast OFF of
their stall (log 37). -/
def Obligations.StallSuspendsBaysInHand : Prop :=
  ∀ s : State, s.inReset = false →
    (s.sbc.bus ≠ .stalled → ∃ u : State, exec .stall s = .next u ∧
      u.sbc = { s.sbc with queue := [.broadcastOff], inFlight := none, abandoned := none, newer := false,
                           recovery := u.sbc.recovery, bus := .stalled, listening := false, timer := .passed,
                           stallCount := min 255 (s.sbc.stallCount + 1) } ∧
      (∀ b, b ∈ u.sbc.recovery ↔ b ∈ s.sbc.recovery ∨ (s.bay b).inHand = true) ∧
      HandsSuspended .busStall { s with nqa := { s.nqa with stageBus := true } } u ∧
      u.caa = { s.caa with waiting := s.caa.waiting.filter fun w => !(s.bay w.bay).inHand } ∧
      u = { s with bays := u.bays, toWev := u.toWev, toCaa := u.toCaa, nqa := u.nqa, caa := u.caa, sbc := u.sbc }) ∧
    (s.sbc.bus = .stalled → exec .busRecovery s = .next
      { s with sbc := { s.sbc with bus := .idle, timer := .clear } })

/-- STOP-ALL: a broadcast OFF at the head, the pending writes gone, the bays in hand suspended in ascending number, each
with its leaves and its notice and an OFF behind the queue, the reply their set; the FAULT line queues a status read of each
in ascending number, merged with a pending one (R93, R98). The model's readings: suspended bays leave the waiting list in
the same taking (log 16), and SBC remembers whether a write is newer than the one taken from the queue (log 36). -/
def Obligations.StopAllAndFaultLineTaken : Prop :=
  (∀ (s : State) (t : Byte), s.ready → ∃ u : State,
    exec (.stopAll t []) s = .next (u.answered 0x40 t (.ok (baySetBytes s.baysInHand))) ∧
    (∀ b, b ∈ s.baysInHand ↔ (s.bay b).inHand = true) ∧ s.baysInHand.Pairwise (· < ·) ∧
    HandsSuspended .stopAll s u ∧
    u.sbc = { s.sbc with
      queue := (if .broadcastOff ∈ s.sbc.queue then [] else [.broadcastOff]) ++ (s.sbc.queue.filter fun e => !e.isWrite) ++
        s.baysInHand.map fun b => .write b .off 0 (s.bay b).entry
      newer := s.sbc.newer || s.baysInHand.any fun b =>
        s.sbc.inFlight.any (·.isWriteOf b) || s.sbc.abandoned.any (·.isWriteOf b) } ∧
    (QueueTidy s → u.sbc.queue.head? = some .broadcastOff) ∧
    u.caa = { s.caa with waiting := s.caa.waiting.filter fun w => !(s.bay w.bay).inHand } ∧
    u = { s with bays := u.bays, toWev := u.toWev, toCaa := u.toCaa, nqa := u.nqa, caa := u.caa, sbc := u.sbc }) ∧
  ∀ s : State, s.inReset = false →
    (s.sbc.faultLow = false → ∃ read : List BayId, read.Pairwise (· < ·) ∧
      (∀ b, b ∈ read ↔ (s.bay b).inHand = true ∧ s.sbc.queue.any (·.isReadOf b) = false) ∧
      exec .faultAssertion s = .next
        { s with sbc := { s.sbc with faultLow := true, queue := s.sbc.queue ++ read.map .statusRead } }) ∧
    (s.sbc.faultLow = true → exec .faultAssertion s = .next s) ∧
    exec .faultRelease s = .next { s with sbc := { s.sbc with faultLow := false } }

/-! ## Allowance (spec/05) -/

/-- A request, a leave, a grant handed back and SET-LIMIT, each with the examination that follows it (R101, R103,
R104). The queue of messages and the entry number of a grant handed back are the model's choices (logs 3, 15). -/
def Obligations.AllowanceTakingsExamine : Prop :=
  ∀ (s u : State) (b : BayId) (mag entry x : Nat) (t : Byte) (rest : List CaaMsg), u = { s with toCaa := rest } →
    (s.inReset = false → s.toCaa = .request b mag entry :: rest → (∀ w ∈ s.caa.waiting, w.bay ≠ b) →
      exec .request s = .next (State.examine { u with
        caa := { s.caa with waiting := s.caa.waiting ++ [{ bay := b, mag := mag, entry := entry }] } })) ∧
    (s.inReset = false → s.toCaa = .leave b :: rest →
      exec .leave s = .next (State.examine { u with
        caa := { s.caa with waiting := s.caa.waiting.filter fun w => !(w.bay == b) } })) ∧
    (s.inReset = false → s.toCaa = .giveBack b entry :: rest →
      ((s.caa.grants.get b).entry = entry → exec .grantReturn s = .next (u.release b)) ∧
      ((s.caa.grants.get b).entry ≠ entry → exec .grantReturn s = .next u)) ∧
    (s.ready → x < 4294967296 → exec (.setLimit t (beBytes 4 x)) s = .next (State.answered
      (State.examine { s with caa := { s.caa with limit := min 100000 x } }) 0x42 t
      { status := .ok, clamped := decide (100000 < x), body := beBytes 4 (min 100000 x) }))

/-- An examination judges heads in order until the list is empty or the head must wait: of those before it, each within
the limit is granted its request, which is handed to BSQ, and each above it is taken off and its bay suspended with
ALLOWANCE_OVER_LIMIT; no other grant and no other bay changes (R102). The model's readings: grants wait in a queue (log
3), an abandoned broadcast OFF counts as pending (log 12), a grant carries its entry number (log 15), and a request that
is not the bay's present one suspends nothing (log 17). -/
def Obligations.ExaminationServesHeadOfLine : Prop :=
  ∀ s : State, ∃ (k : Nat) (served : List Waiting), k ≤ s.caa.waiting.length ∧ served = s.caa.waiting.take k ∧
    s.examine.caa.waiting = s.caa.waiting.drop k ∧ s.examine.caa.limit = s.caa.limit ∧
    s.examine.grantsOut = s.grantsOut ++ ((served.filter fun w => decide (w.mag ≤ s.caa.limit)).map
      fun w => { bay := w.bay, entry := w.entry }) ∧
    (∀ w, s.examine.caa.waiting.head? = some w → w.mag ≤ s.caa.limit ∧
      (s.broadcastInHand = true ∨ s.caa.limit < s.examine.caa.committed + w.mag)) ∧
    (s.broadcastInHand = true → s.examine.caa.grants = s.caa.grants ∧ s.examine.caa.committed = s.caa.committed) ∧
    (s.caa.committed ≤ s.caa.limit → s.examine.caa.committed ≤ s.caa.limit) ∧
    ((s.caa.waiting.map Waiting.bay).Nodup → ∀ w ∈ served, w.mag ≤ s.caa.limit →
      s.examine.caa.grants.get w.bay = { mag := w.mag, entry := w.entry }) ∧
    (∀ b, (∀ w ∈ served, w.mag ≤ s.caa.limit → w.bay ≠ b) → s.examine.caa.grants.get b = s.caa.grants.get b) ∧
    (∀ w ∈ served, ∀ p, s.caa.limit < w.mag → (s.bay w.bay).state = .phase p →
      (s.bay w.bay).substate = .awaitingGrant → (s.bay w.bay).entry = w.entry → s.examine.bay w.bay =
        { s.bay w.bay with state := .suspended, substate := .none, resume := some p,
                           cause := .suspension .allowanceOverLimit .ok }) ∧
    ∀ b, (∀ w ∈ served, s.caa.limit < w.mag → w.bay ≠ b ∨ (s.bay b).substate ≠ .awaitingGrant ∨
      (s.bay b).entry ≠ w.entry ∨ ∀ p, (s.bay b).state ≠ .phase p) → s.examine.bay b = s.bay b

/-! ## Pool (spec/07) -/

/-- RESTORE-CANDIDATE and WITHDRAW in the order of their checks; a removal serves the head of the park list (R126, R128,
R131, R132, R134); a grade record and a candidate record byte by byte (R188). That a presence or mark bit without a
meaning is BAD_VALUE is the model's reading (log 22). -/
def Obligations.PoolEntryAndWithdrawalTaken : Prop :=
  (∀ g : GradeRecord, g.bytes = beBytes 4 g.tag ++
    [profileByte g.profile, bayByte g.bay, g.cls.code, (match g.reject with | none => 0 | some c => c.code)] ++
    beBytes 2 g.craw ++ sBytes 2 g.tm ++ beBytes 2 g.ccorr ++ beBytes 2 g.soh ++
    (match g.res with | none => [0, 0, 0, 0] | some (r, ratio) => beBytes 2 r ++ beBytes 2 ratio) ++
    (match g.sd with | none => [0, 0] | some d => beBytes 2 d) ++
    [(if g.res.isSome then 1 else 0) + (if g.sd.isSome then 2 else 0), g.marks.byte]) ∧
  (∀ c : Candidate, c.bytes = c.grade.bytes ++ beBytes 4 c.seq ++ beBytes 1 c.lapses ++
    (match c.status with | none => [0, 0, 0] | some id => seatIdBytes id)) ∧
  ∀ (s : State) (t : Byte),
    (∀ y : List Byte, s.ready → y.length = 24 → (recordRefused y ∨ y.getD 4 0 = 0 ∨ 8 < (y.getD 4 0).toNat) →
      exec (.restoreCandidate t y) s = .next (s.answered 0x50 t (.refuse .badValue))) ∧
    (∀ g : GradeRecord, s.ready → g.given → ∃ a, (a = fun st => s.answered 0x50 t (.refuse st)) ∧
      ((g.tag = 0 ∨ g.tm < -400 ∨ 1250 < g.tm ∨ 1200 < g.soh) →
        exec (.restoreCandidate t g.bytes) s = .next (a .badValue)) ∧
      (g.tag ≠ 0 → -400 ≤ g.tm → g.tm ≤ 1250 → g.soh ≤ 1200 →
        (s.slot g.profile = none → exec (.restoreCandidate t g.bytes) s = .next (a .notFound)) ∧
        (s.slot g.profile ≠ none → s.holdsTag g.tag →
          exec (.restoreCandidate t g.bytes) s = .next (a .duplicate)) ∧
        (s.slot g.profile ≠ none → ¬ s.holdsTag g.tag → 128 ≤ s.pool.records.length →
          exec (.restoreCandidate t g.bytes) s = .next (a .full)) ∧
        (s.slot g.profile ≠ none → ¬ s.holdsTag g.tag → s.pool.records.length < 128 → ∃ u : State,
          u = State.askPass { s with pool := s.pool.enter g } ∧
          exec (.restoreCandidate t g.bytes) s =
            .next (u.answered 0x50 t (.ok (beBytes 4 s.pool.nextSeq ++ beBytes 1 (u.pool.index g.tag)))) ∧
          u.pool.records[u.pool.index g.tag]? =
            some { grade := g, seq := s.pool.nextSeq, lapses := 0, status := none } ∧
          u.pool.nextSeq = (s.pool.nextSeq + 1) % 4294967296))) ∧
    (∀ tag, s.ready → 0 < tag → tag < 4294967296 →
      (s.pool.find tag = none → exec (.withdraw t (beBytes 4 tag)) s =
        .next (s.answered 0x51 t (.refuse .notFound))) ∧
      ∀ c, s.pool.find tag = some c →
        (∀ id, c.status = some id → exec (.withdraw t (beBytes 4 tag)) s =
          .next (s.answered 0x51 t (.refuse .reserved (seatIdBytes id)))) ∧
        (c.status = none → exec (.withdraw t (beBytes 4 tag)) s =
          .next ((s.removeRecord tag).answered 0x51 t (.ok c.bytes)) ∧ c.bytes.length = 32)) ∧
    (s.ready → exec (.withdraw t [0, 0, 0, 0]) s = .next (s.answered 0x51 t (.refuse .badValue))) ∧
    ∀ tag, s.pool.find tag ≠ none → ∃ left, left = s.pool.records.filter (fun c => !(c.grade.tag == tag)) ∧
      (s.pool.park = [] → s.removeRecord tag = { s with pool := { s.pool with records := left } }) ∧
      (∀ b rest g, s.pool.park = b :: rest → (s.bay b).grade = some g → s.removeRecord tag = State.askPass { s with
        pool := Pool.enter g { s.pool with records := left, park := rest }
        bays := s.bays.set b { s.bay b with state := .done, substate := .none }
        nqa := s.nqa.push (.graded g.tag b g.cls g.ccorr g.soh) })

/-! ## Bank (spec/08) -/

/-- OPEN-STRING, SET-REFERENCE and RELEASE-STRING in the order of their checks (R150, R151, R153). -/
def Obligations.StringOpenedSetAndReleased : Prop :=
  (∀ (s : State) (t n m kb : Byte) (x : StringId) (k : ProfileId) (cl : GradeClass) (ref st ct imb : Nat), s.ready →
    ref < 16777216 → st < 65536 → ct < 65536 → imb < 65536 → ∃ (tail : List Byte) (a : Status → State) (made : BankString),
    tail = beBytes 3 ref ++ beBytes 2 st ++ beBytes 2 ct ++ beBytes 2 imb ∧
    (a = fun st => s.answered 0x60 t (.refuse st)) ∧
    made = { state := .forming, profile := some k, minClass := some cl, reference := ref, strTol := st, capTol := ct,
             imbalance := imb, resCount := 0,
             positions := List.replicate n.toNat { a := .empty, b := .empty } } ∧
    ((s.string x).state ≠ .unused →
      exec (.openString t ([stringByte x, kb, n, m] ++ tail)) s = .next (a .wrongState)) ∧
    ((s.string x).state = .unused →
      ((kb = 0 ∨ 8 < kb.toNat ∨ n.toNat < 2 ∨ 24 < n.toNat ∨ m = 0 ∨ 3 < m.toNat ∨ ref = 0 ∨ 131070 < ref ∨
          1000 < imb) →
        exec (.openString t ([stringByte x, kb, n, m] ++ tail)) s = .next (a .badValue)) ∧
      (2 ≤ n.toNat → n.toNat ≤ 24 → cl ≠ .x → 1 ≤ ref → ref ≤ 131070 → imb ≤ 1000 →
        (s.slot k = none →
          exec (.openString t ([stringByte x, profileByte k, n, cl.code] ++ tail)) s = .next (a .notFound)) ∧
        (s.slot k ≠ none →
          exec (.openString t ([stringByte x, profileByte k, n, cl.code] ++ tail)) s =
            .next ((State.askPass { s with bank := s.bank.set x made }).answered 0x60 t .ok))))) ∧
  ∀ (s : State) (t : Byte) (x : StringId) (ref st ct imb : Nat), s.ready →
    ref < 16777216 → st < 65536 → ct < 65536 → imb < 65536 → ∃ (body : List Byte) (made : BankString),
    body = stringByte x :: (beBytes 3 ref ++ beBytes 2 st ++ beBytes 2 ct ++ beBytes 2 imb) ∧
    made = { s.string x with reference := ref, strTol := st, capTol := ct, imbalance := imb } ∧
    exec (.setReference t body) s = .next (
      if (s.string x).state = .unused then s.answered 0x61 t (.refuse .wrongState)
      else if ref < 1 ∨ 131070 < ref ∨ 1000 < imb then s.answered 0x61 t (.refuse .badValue)
      else (State.askPass { s with bank := s.bank.set x made }).answered 0x61 t .ok) ∧
    exec (.releaseString t [stringByte x]) s = .next (
      if (s.string x).state = .unused then s.answered 0x63 t (.refuse .wrongState)
      else if 0 < (s.string x).resCount then s.answered 0x63 t (.refuse .inUse)
      else State.answered { s with bank := s.bank.set x .unused } 0x63 t .ok)

/-- DECLARE-VACANCY: the seat is VACANT, with the values given while the other seat is INSTALLED, and without them,
the other seat's override dropped too, while it is vacant; the string is in SERVICE. A string neither SEALED nor in
SERVICE is WRONG_STATE whatever position and seat are named; else a position outside 1 to N is NOT_FOUND, and of a position
within it a seat other than A and B is BAD_VALUE (R138, R152). -/
def Obligations.VacancyDeclared : Prop :=
  (∀ (s : State) (t pb sb : Byte) (x : StringId) (y : List Byte), s.ready → y.length = 4 →
    (s.string x).state ≠ .sealed → (s.string x).state ≠ .service →
    exec (.declareVacancy t ([stringByte x, pb, sb] ++ y)) s = .next (s.answered 0x62 t (.refuse .wrongState))) ∧
  (∀ (s : State) (t pb sb : Byte) (x : StringId) (y : List Byte), s.ready → y.length = 4 →
    ((s.string x).state = .sealed ∨ (s.string x).state = .service) →
    ((pb = 0 ∨ (s.string x).positions.length < pb.toNat) →
      exec (.declareVacancy t ([stringByte x, pb, sb] ++ y)) s = .next (s.answered 0x62 t (.refuse .notFound))) ∧
    (1 ≤ pb.toNat → pb.toNat ≤ (s.string x).positions.length → (sb = 0 ∨ 2 < sb.toNat) →
      exec (.declareVacancy t ([stringByte x, pb, sb] ++ y)) s = .next (s.answered 0x62 t (.refuse .badValue)))) ∧
  ∀ (s : State) (t : Byte) (x : StringId) (pos : Nat) (n : SeatName) (cap res : Nat) (p : Position), s.ready →
    1 ≤ pos → pos ≤ 24 → cap < 65536 → res < 65536 → (s.string x).position pos = some p →
    ∃ (body : List Byte) (made : Position → BankString),
    body = [stringByte x, BitVec.ofNat 8 pos, seatByte n] ++ beBytes 2 cap ++ beBytes 2 res ∧
    (made = fun q => { s.string x with state := .service, positions := (s.string x).positions.set (pos - 1) q }) ∧
    (((s.string x).state = .sealed ∨ (s.string x).state = .service) →
      ((p.get n).isReserved = true → exec (.declareVacancy t body) s =
        .next (s.answered 0x62 t (.refuse .inUse))) ∧
      ((p.get n).isVacant = true → exec (.declareVacancy t body) s =
        .next (s.answered 0x62 t (.refuse .wrongState))) ∧
      ((p.get n).isInstalled = true → ∃ q : Position,
        exec (.declareVacancy t body) s =
          .next ((State.askPass { s with bank := s.bank.set x (made q) }).answered 0x62 t .ok) ∧
        ((p.get (otherSeat n)).isInstalled = true →
          q.get n = .vacant (some { cap := cap, res := res }) ∧ q.get (otherSeat n) = p.get (otherSeat n)) ∧
        (∀ ov, p.get (otherSeat n) = .vacant ov → q.get n = .vacant none ∧ q.get (otherSeat n) = .vacant none) ∧
        (∀ tag d ov, p.get (otherSeat n) = .reserved tag d (.vacancy ov) →
          q.get n = .vacant none ∧ q.get (otherSeat n) = .reserved tag d (.vacancy none))))

/-- RESTORE-SEAT and INSTALL-DIRECT in the order of their checks, and of a request that passes them all; an installation
ends a reservation and seals the string it completes (R146 to R149). That a presence or mark bit without a meaning is
BAD_VALUE is the model's reading (log 22); a VACANT seat of a FORMING string, which no run reaches, is WRONG_STATE to
RESTORE-SEAT as an INSTALLED one is. -/
def Obligations.SeatsFilledAndSealed : Prop :=
  (∀ (s : State) (t pb sb : Byte) (x : StringId) (y : List Byte), s.ready → y.length = 24 →
    ∃ (a : Status → State) (run : Host.Outcome State Fault Refusal),
    (a = fun st => s.answered 0x64 t (.refuse st)) ∧ run = exec (.restoreSeat t ([stringByte x, pb, sb] ++ y)) s ∧
    ((s.string x).state ≠ .forming → run = .next (a .wrongState)) ∧
    ((s.string x).state = .forming →
      ((pb = 0 ∨ (s.string x).positions.length < pb.toNat) → run = .next (a .notFound)) ∧
      (1 ≤ pb.toNat → pb.toNat ≤ (s.string x).positions.length → (sb = 0 ∨ 2 < sb.toNat) → run = .next (a .badValue)) ∧
      ∀ (n : SeatName) (e : Seat), sb = seatByte n → s.seat { str := x, pos := pb.toNat, seat := n } = some e →
        (e.isReserved = true → run = .next (a .inUse)) ∧
        ((e.isInstalled = true ∨ e.isVacant = true) → run = .next (a .wrongState)) ∧
        (e = .empty → (recordRefused y ∨ ∀ k, (s.string x).profile = some k → y.getD 4 0 ≠ profileByte k) →
          run = .next (a .badValue)) ∧
        ∀ g : GradeRecord, e = .empty → y = g.bytes → g.given → g.tag ≠ 0 → -400 ≤ g.tm → g.tm ≤ 1250 → g.soh ≤ 1200 →
          (s.string x).profile = some g.profile → s.holdsTag g.tag → run = .next (a .duplicate))) ∧
  (∀ (s : State) (t xb pb sb : Byte) (tag : Nat), s.ready → tag < 4294967296 →
    ∃ (a : Status → State) (run : Host.Outcome State Fault Refusal),
    (a = fun st => s.answered 0x65 t (.refuse st)) ∧ run = exec (.installDirect t (beBytes 4 tag ++ [xb, pb, sb])) s ∧
    (tag = 0 → run = .next (a .badValue)) ∧
    (0 < tag → (xb = 0 ∨ 16 < xb.toNat) → run = .next (a .notFound)) ∧
    ∀ x : StringId, 0 < tag → xb = stringByte x →
      ((s.string x).state ≠ .forming → (s.string x).state ≠ .service → run = .next (a .wrongState)) ∧
      (((s.string x).state = .forming ∨ (s.string x).state = .service) →
        ((pb = 0 ∨ (s.string x).positions.length < pb.toNat) → run = .next (a .notFound)) ∧
        (1 ≤ pb.toNat → pb.toNat ≤ (s.string x).positions.length → (sb = 0 ∨ 2 < sb.toNat) → run = .next (a .badValue)) ∧
        ∀ (n : SeatName) (e : Seat), sb = seatByte n → s.seat { str := x, pos := pb.toNat, seat := n } = some e →
          (e.isReserved = true → run = .next (a .inUse)) ∧ (e.isInstalled = true → run = .next (a .wrongState)) ∧
          (e.isFree = true → s.pool.find tag = none → run = .next (a .notFound)))) ∧
  ∀ (s : State) (t : Byte) (id : SeatId) (e : Seat) (g : GradeRecord), s.ready → 1 ≤ id.pos → id.pos ≤ 24 →
    s.seat id = some e → ∃ (full : Bool),
    (full = true ↔ ∀ d x, d ≠ id → d.str = id.str → s.seat d = some x → x.isInstalled = true) ∧
    (((s.string id.str).state = .forming ∨ (s.string id.str).state = .service) → (s.install id g).seal id.str =
      (if full then (State.notify { s.install id g with
        bank := (s.install id g).bank.set id.str { (s.install id g).string id.str with state := .sealed } }
          (.stringComplete id.str)) else s.install id g)) ∧
    (s.install id g).seat id = some (.installed g) ∧ (∀ d, d ≠ id → (s.install id g).seat d = s.seat d) ∧
    ((s.install id g).string id.str).resCount =
      (if e.isReserved then (s.string id.str).resCount - 1 else (s.string id.str).resCount) ∧
    (g.given → g.tag ≠ 0 → -400 ≤ g.tm → g.tm ≤ 1250 → g.soh ≤ 1200 → (s.string id.str).state = .forming →
      (s.string id.str).profile = some g.profile → ¬ s.holdsTag g.tag → e = .empty →
      exec (.restoreSeat t (seatIdBytes id ++ g.bytes)) s =
        .next ((((s.install id g).seal id.str).askPass).answered 0x64 t (.ok [if full then 1 else 0]))) ∧
    ∀ (c : Candidate) (tag : Nat), 0 < tag → tag < 4294967296 → s.pool.find tag = some c → e.isFree = true →
      ((s.string id.str).state = .forming ∨ (s.string id.str).state = .service) →
      (∀ held, c.status = some held → exec (.installDirect t (beBytes 4 tag ++ seatIdBytes id)) s =
        .next (s.answered 0x65 t (.refuse .reserved (seatIdBytes held)))) ∧
      (∀ f, c.status = none → judge (s.string id.str) (s.partner id) c = some f →
        exec (.installDirect t (beBytes 4 tag ++ seatIdBytes id)) s =
          .next (s.answered 0x65 t (.refuse .notMatched [f.code]))) ∧
      (c.status = none → judge (s.string id.str) (s.partner id) c = none →
        exec (.installDirect t (beBytes 4 tag ++ seatIdBytes id)) s =
          .next (((((s.removeRecord tag).install id c.grade).seal id.str).askPass).answered 0x65 t
            (.ok [if full then 1 else 0])))

/-- The partner values of a seat, by the other seat of its position; a candidate meets a seat exactly when it passes the
six tests, a failure names the first it fails, and an imbalance is at most 1,000 (R142 to R145). -/
def Obligations.JudgementNamesFirstFailure : Prop :=
  (∀ (s : State) (id : SeatId) (judged other : Seat), s.seat id = some judged →
    s.seat { id with seat := otherSeat id.seat } = some other →
    (∀ g ov, other = .installed g → judged = .vacant (some ov) →
      s.partner id = some { cap := ov.cap, res := ov.res, source := .override }) ∧
    (∀ g r k, other = .installed g → g.res = some (r, k) → (judged = .empty ∨ judged = .vacant none) →
      s.partner id = some { cap := g.ccorr, res := r, source := .installed }) ∧
    (∀ tag d under c r k, other = .reserved tag d under → s.pool.find tag = some c → c.grade.res = some (r, k) →
      (judged = .empty ∨ ∃ ov, judged = .vacant ov) →
      s.partner id = some { cap := c.grade.ccorr, res := r, source := .reserved }) ∧
    ((other = .empty ∨ ∃ ov, other = .vacant ov) → s.partner id = none)) ∧
  (∀ (g : GradeRecord) (r k : Nat), g.res = some (r, k) → g.r = r) ∧
  [GradeClass.a, .b, .c, .x].map GradeClass.rank = [0, 1, 2, 3] ∧
  (∀ r rp : Nat, imbalanceOf r rp ≤ 1000 ∧ (r + rp = 0 → imbalanceOf r rp = 0) ∧ (0 < r → imbalanceOf r 0 = 1000) ∧
    imbalanceOf r rp = imbalanceOf rp r ∧
    (0 < r + rp → imbalanceOf r rp = (((r : Int) - rp).natAbs * 1000 + (r + rp) / 2) / (r + rp))) ∧
  ∀ (x : BankString) (least : GradeClass) (c : Candidate), x.minClass = some least →
    (∀ q : Partner, judge x (some q) c = none ↔
      x.profile = some c.grade.profile ∧ c.grade.cls.rank ≤ least.rank ∧ c.status = none ∧
      Machine.dist c.grade.ccorr q.cap ≤ x.capTol ∧ imbalanceOf c.grade.r q.res ≤ x.imbalance ∧
      Machine.dist (c.grade.ccorr + q.cap) x.reference ≤ x.strTol) ∧
    (judge x none c = none ↔
      x.profile = some c.grade.profile ∧ c.grade.cls.rank ≤ least.rank ∧ c.status = none ∧
      Machine.dist (2 * c.grade.ccorr) x.reference ≤ x.strTol + x.capTol) ∧
    ∀ q : Option Partner,
      (judge x q c = some .profile ↔ x.profile ≠ some c.grade.profile) ∧
      (judge x q c = some .cls ↔ x.profile = some c.grade.profile ∧ least.rank < c.grade.cls.rank) ∧
      (judge x q c = some .reserved ↔
        x.profile = some c.grade.profile ∧ c.grade.cls.rank ≤ least.rank ∧ c.status ≠ none) ∧
      ∃ eligible : Prop,
        eligible = (x.profile = some c.grade.profile ∧ c.grade.cls.rank ≤ least.rank ∧ c.status = none) ∧
        (judge x q c = some .pairCapacity ↔
          eligible ∧ ∃ y, q = some y ∧ x.capTol < Machine.dist c.grade.ccorr y.cap) ∧
        (judge x q c = some .imbalance ↔ eligible ∧ ∃ y, q = some y ∧ Machine.dist c.grade.ccorr y.cap ≤ x.capTol ∧
          x.imbalance < imbalanceOf c.grade.r y.res) ∧
        (judge x q c = some .string ↔ eligible ∧
          ((q = none ∧ x.strTol + x.capTol < Machine.dist (2 * c.grade.ccorr) x.reference) ∨
            ∃ y, q = some y ∧ Machine.dist c.grade.ccorr y.cap ≤ x.capTol ∧
              imbalanceOf c.grade.r y.res ≤ x.imbalance ∧
              x.strTol < Machine.dist (c.grade.ccorr + y.cap) x.reference))

/-! ## Matcher (spec/09) -/

/-- The seat order and the tests of a seat; and a pending pass, which clears the flag and walks the order from its first
seat. Each reservation it makes is of the first seat of the order that may then be served and has a candidate, for its
best candidate, and finds room for its PLACE notice; the seats so reserved, and the records they name, become RESERVED and
no other changes. It ends COMPLETE past the last seat, or NOTICE_ROOM at a seat that may be served while the queue is full,
and leaves no seat before its end that may be served and has a candidate. The number of seats served is that of the seats
before its end that could be served, with room for a notice, at their turn: after the reservations of the seats before
them (R141, R157 to R162). -/
def Obligations.PassReservesWithinNoticeRoom : Prop :=
  (∀ (s : State) (id : SeatId),
    (id ∈ s.seatOrder ↔ 1 ≤ id.pos ∧ id.pos ≤ (s.string id.str).positions.length ∧
      ((s.string id.str).state = .service ∨ (s.string id.str).state = .forming)) ∧
    (s.seatOrder.Pairwise fun x y => keyLt
      [if (s.string x.str).state = .service then 0 else 1, x.str.val, x.pos, if x.seat = .a then 0 else 1]
      [if (s.string y.str).state = .service then 0 else 1, y.str.val, y.pos, if y.seat = .a then 0 else 1] = true) ∧
    (s.mayServe id = true ↔ (∃ e, s.seat id = some e ∧ e.isFree = true) ∧ (s.string id.str).resCount < 4 ∧
      (id.seat = .b → ∃ e, s.seat { id with seat := .a } = some e ∧ e.isFree = false))) ∧
  ∀ s : State, s.inReset = false →
    (s.plm.passPending = false → exec .matchingPass s = .next s) ∧
    (s.plm.passPending = true → ∃ (made : List (Nat × SeatId)) (at_ : Nat → State) (walked rest : List SeatId)
        (result : PassResult) (u : State),
      (∀ n, at_ n = (made.take n).foldl (fun v m => v.reserve m.2 m.1)
        { s with plm := { s.plm with passPending := false } }) ∧
      u = { at_ made.length with plm := { s.plm with passPending := false, lastPass := result } } ∧
      exec .matchingPass s = .next u ∧ s.seatOrder = walked ++ rest ∧
      (∀ n tag id, made[n]? = some (tag, id) → (at_ n).mayServe id = true ∧ (at_ n).nqa.queue.length < 64 ∧
        (∃ c, (at_ n).choose id = some c ∧ c.grade.tag = tag) ∧
        ∃ before behind, s.seatOrder = before ++ id :: behind ∧
          ∀ d ∈ before, (at_ n).mayServe d = true → (at_ n).choose d = none) ∧
      (∀ d ∈ walked, u.mayServe d = true → u.choose d = none) ∧
      (∃ (turn : SeatId → Nat) (served : Nat),
        turn = (fun d => made.countP fun m => decide (m.2 ∈ walked.takeWhile (· ≠ d))) ∧
        served = (walked.countP fun d => (at_ (turn d)).mayServe d) ∧
        (∀ d ∈ walked, (at_ (turn d)).mayServe d = true → (at_ (turn d)).nqa.queue.length < 64) ∧
        ((rest = [] ∧ result = .complete served made.length) ∨
          ∃ id tail, rest = id :: tail ∧ u.mayServe id = true ∧ 64 ≤ u.nqa.queue.length ∧
            result = .noticeRoom served made.length id)) ∧
      u.nqa = { s.nqa with queue := s.nqa.queue ++ made.map fun m => .place m.1 m.2 s.plm.timeout } ∧
      (∀ tag id, (tag, id) ∈ made → ∃ e c, s.seat id = some e ∧ e.isFree = true ∧
        u.seat id = some (.reserved tag (s.plm.timeout * 10) (match e with | .vacant ov => .vacancy ov | _ => .empty)) ∧
        s.pool.find tag = some c ∧ u.pool.find tag = some { c with status := some id }) ∧
      (∀ id, (∀ m ∈ made, m.2 ≠ id) → u.seat id = s.seat id) ∧
      (∀ n : Nat, (u.pool.records[n]?).map (fun c => { c with status := none }) =
        (s.pool.records[n]?).map fun c => { c with status := none }) ∧
      (∀ c ∈ s.pool.records, (∀ m ∈ made, m.1 ≠ c.grade.tag) → c ∈ u.pool.records) ∧
      (∀ x, u.string x = { s.string x with
        positions := (u.string x).positions
        resCount := (s.string x).resCount + made.countP fun m => decide (m.2.str = x) }) ∧
      u = { s with pool := u.pool, bank := u.bank, plm := u.plm, nqa := u.nqa } ∧
      u.pool.nextSeq = s.pool.nextSeq ∧ u.pool.park = s.pool.park)

/-- The candidate chosen for a seat meets it, and no other that does has a smaller key; none is chosen exactly when no
record meets the seat; the keys in the order in which they are compared; and what the reservation changes (R161, R162). -/
def Obligations.ChoiceIsBestCandidate : Prop :=
  ∀ (s : State) (id : SeatId) (x : BankString) (q : Option Partner), x = s.string id.str → q = s.partner id →
    (s.choose id = none ↔ ∀ d ∈ s.pool.records, judge x q d ≠ none) ∧
    (∀ c, s.choose id = some c → c ∈ s.pool.records ∧ judge x q c = none ∧
      ∀ d ∈ s.pool.records, judge x q d = none → keyLt (choiceKey x d q) (choiceKey x c q) = false) ∧
    (∀ c, choiceKey x c q = match q with
      | some y => [((c.grade.ccorr : Int) - y.cap).natAbs, imbalanceOf c.grade.r y.res, c.seq, c.grade.tag]
      | none => [(2 * (c.grade.ccorr : Int) - x.reference).natAbs, c.grade.r, c.seq, c.grade.tag]) ∧
    (∀ (i j : Nat) (l m : List Nat), keyLt (i :: l) (j :: m) = true ↔ i < j ∨ (i = j ∧ keyLt l m = true)) ∧
    ∀ (tag : Nat) (e : Seat), s.seat id = some e → e.isFree = true → 1 ≤ id.pos →
      (s.reserve id tag).seat id =
        some (.reserved tag (s.plm.timeout * 10) (match e with | .vacant ov => .vacancy ov | _ => .empty)) ∧
      ((s.reserve id tag).string id.str).resCount = x.resCount + 1 ∧
      (∀ d, d ≠ id → (s.reserve id tag).seat d = s.seat d) ∧
      (s.reserve id tag).nqa = s.nqa.push (.place tag id s.plm.timeout) ∧
      (s.reserve id tag).pool = { s.pool with
        records := s.pool.records.map fun c => if c.grade.tag = tag then { c with status := some id } else c }

/-- Each step of the time base runs every deadline down by 1; an expiry returns the seat, and the record by its lapse
count is FREE again with a LAPSED notice, or dropped with a DROPPED one queued before its removal (R163, R169). A
deadline of 0 is an expiry not yet taken: the model's choice (log 20). -/
def Obligations.DeadlinesRunDownAndExpire : Prop :=
  ∀ (s : State) (id : SeatId), s.inReset = false →
    (∃ u : State, exec .timeStep s = .next u ∧ u = { s with bank := u.bank } ∧
      (∀ x, u.string x = { s.string x with positions := (s.string x).positions.map fun p =>
        { a := p.a.tick, b := p.b.tick } }) ∧ ∀ d,
      (∀ tag n under, s.seat d = some (.reserved tag n under) → u.seat d = some (.reserved tag (n - 1) under)) ∧
      (∀ e, s.seat d = some e → e.isReserved = false → u.seat d = some e)) ∧
    ∀ (tag : Nat) (under : UnderState) (c : Candidate), 1 ≤ id.pos → s.seat id = some (.reserved tag 0 under) →
      s.pool.find tag = some c → c.grade.tag = tag → ∃ u : State, u = s.returnSeat id under ∧
      u.seat id = some (match under with | .empty => .empty | .vacancy ov => .vacant ov) ∧
      (u.string id.str).resCount = (s.string id.str).resCount - 1 ∧ (∀ d, d ≠ id → u.seat d = s.seat d) ∧
      (c.lapses < 2 → exec (.expiry id) s = .next (State.askPass { u with
        pool := { s.pool with records := s.pool.records.map fun d =>
          if d.grade.tag = tag then { d with status := none, lapses := c.lapses + 1 } else d }
        nqa := s.nqa.push (.lapsed tag id (c.lapses + 1)) })) ∧
      (2 ≤ c.lapses → exec (.expiry id) s = .next
        ((State.removeRecord { u with nqa := s.nqa.push (.dropped tag) } tag).askPass))

/-- PLACED and NOT-PLACED in the order of their checks: tag, reason, string, position, seat; on a reservation; and their
replies where the seat is not RESERVED with the tag (R165 to R168). -/
def Obligations.PlacedAndNotPlacedTaken : Prop :=
  (∀ (s : State) (t xb pb sb w : Byte) (tag : Nat), s.ready → tag < 4294967296 →
    ∃ (a c : Status → State) (put not : Host.Outcome State Fault Refusal),
    (a = fun st => s.answered 0x70 t (.refuse st)) ∧ (c = fun st => s.answered 0x71 t (.refuse st)) ∧
    put = exec (.placed t (beBytes 4 tag ++ [xb, pb, sb])) s ∧
    not = exec (.notPlaced t (beBytes 4 tag ++ [xb, pb, sb, w])) s ∧
    (tag = 0 → put = .next (a .badValue) ∧ not = .next (c .badValue)) ∧
    ((w = 0 ∨ 3 < w.toNat) → not = .next (c .badValue)) ∧
    (0 < tag → (xb = 0 ∨ 16 < xb.toNat ∨ pb = 0 ∨ 24 < pb.toNat) →
      put = .next (a .notFound) ∧ (1 ≤ w.toNat → w.toNat ≤ 3 → not = .next (c .notFound))) ∧
    (0 < tag → 1 ≤ xb.toNat → xb.toNat ≤ 16 → 1 ≤ pb.toNat → pb.toNat ≤ 24 → (sb = 0 ∨ 2 < sb.toNat) →
      put = .next (a .badValue) ∧ (1 ≤ w.toNat → w.toNat ≤ 3 → not = .next (c .badValue)))) ∧
  ∀ (s : State) (t : Byte) (id : SeatId) (tag : Nat), s.ready → 1 ≤ id.pos → id.pos ≤ 24 → 0 < tag →
    tag < 4294967296 → ∃ (body : List Byte), body = beBytes 4 tag ++ seatIdBytes id ∧
    (∀ n under c, s.seat id = some (.reserved tag n under) → s.pool.find tag = some c →
      exec (.placed t body) s = .next (((((s.install id c.grade).removeRecord tag).seal id.str).askPass).answered 0x70 t
        (.ok [if ((s.install id c.grade).string id.str).complete then 1 else 0])) ∧
      exec (.notPlaced t (body ++ [1])) s =
        .next ((((s.returnSeat id under).removeRecord tag).askPass).answered 0x71 t .ok) ∧
      exec (.notPlaced t (body ++ [2])) s =
        .next ((((s.returnSeat id under).removeRecord tag).askPass).answered 0x71 t .ok) ∧
      exec (.notPlaced t (body ++ [3])) s = .next ((State.askPass { s.returnSeat id under with
        pool := { s.pool with records := s.pool.records.map fun d =>
          if d.grade.tag = tag then { d with status := none } else d } }).answered 0x71 t .ok)) ∧
    ((∀ n under, s.seat id ≠ some (.reserved tag n under)) →
      (∀ c held, s.pool.find tag = some c → c.status = some held → held ≠ id →
        exec (.placed t body) s = .next (s.answered 0x70 t (.refuse .mismatch (seatIdBytes held)))) ∧
      ((∀ c, s.pool.find tag = some c → c.status = none) →
        exec (.placed t body) s = .next (s.answered 0x70 t (.refuse .late))) ∧
      ∀ w : Byte, 1 ≤ w.toNat → w.toNat ≤ 3 →
        exec (.notPlaced t (body ++ [w])) s = .next (s.answered 0x71 t (.refuse .notFound))) ∧
    ∀ w : Byte, (w = 0 ∨ 3 < w.toNat) →
      exec (.notPlaced t (body ++ [w])) s = .next (s.answered 0x71 t (.refuse .badValue))

/-- A pass asked for is pending, or is dropped while the matcher is paused; PAUSE-MATCHER, RESUME-MATCHER and
SET-PLACEMENT-TIMEOUT (R157, R164, R172, R173). -/
def Obligations.MatcherPausedResumedAndTimed : Prop :=
  (∀ s : State, (s.plm.paused = false → s.askPass = { s with plm := { s.plm with passPending := true } }) ∧
    (s.plm.paused = true → s.askPass = s)) ∧
  ∀ (s : State) (t : Byte) (x : Nat), s.ready → x < 65536 → ∃ n, n = (if x < 30 then 30 else if 3600 < x then 3600 else x) ∧
    exec (.pauseMatcher t []) s =
      .next (State.answered { s with plm := { s.plm with paused := true, passPending := false } } 0x72 t .ok) ∧
    exec (.resumeMatcher t []) s =
      .next (State.answered { s with plm := { s.plm with paused := false, passPending := true } } 0x73 t .ok) ∧
    exec (.setPlacementTimeout t (beBytes 2 x)) s =
      .next (State.answered { s with plm := { s.plm with timeout := n } } 0x74 t
        { status := .ok, clamped := decide (x < 30 ∨ 3600 < x), body := beBytes 2 n })

/-! ## Notices and alert (spec/11) -/

/-- A notice joins the tail, or is discarded and counted; FETCH-NOTICES returns and removes the oldest and clears the
count, asking for a pass when it removed any; SET-NOTICE-THRESHOLD; a notice byte by byte (R189, R191 to R193). -/
def Obligations.NoticesQueuedAndFetched : Prop :=
  (∀ n : Notice, ∃ fields : List Byte, n.bytes = fields ++ List.replicate (14 - fields.length) 0 ∧ fields = match n with
    | .graded tag b cls ccorr soh => 1 :: beBytes 4 tag ++ [bayByte b, cls.code] ++ beBytes 2 ccorr ++ beBytes 2 soh
    | .rejected tag b c none => 2 :: beBytes 4 tag ++ [bayByte b, c.code, 0, 0, 0, 0, 0, 0, 0]
    | .rejected tag b c (some (ccorr, soh, none)) =>
      2 :: beBytes 4 tag ++ [bayByte b, c.code, 1] ++ beBytes 2 ccorr ++ beBytes 2 soh ++ [0, 0]
    | .rejected tag b c (some (ccorr, soh, some res)) =>
      2 :: beBytes 4 tag ++ [bayByte b, c.code, 3] ++ beBytes 2 ccorr ++ beBytes 2 soh ++ beBytes 2 res
    | .suspended b c code phase => [3, bayByte b, c.code, code.code, phaseByte phase]
    | .place tag id seconds => 4 :: beBytes 4 tag ++ seatIdBytes id ++ beBytes 2 seconds
    | .lapsed tag id lapses => 5 :: beBytes 4 tag ++ seatIdBytes id ++ beBytes 1 lapses
    | .dropped tag => 6 :: beBytes 4 tag
    | .stringComplete x => [7, stringByte x]) ∧
  (∀ (x : Nqa) (n : Notice),
    (x.queue.length < 64 → x.push n = { x with queue := x.queue ++ [n] }) ∧
    (64 ≤ x.queue.length → x.push n = { x with overflow := min 255 (x.overflow + 1), overflowCause := true })) ∧
  ∀ (s : State) (t w : Byte) (n : Nat), s.ready → n = (if w = 0 then 8 else w.toNat) →
    (8 < n → exec (.fetchNotices t [w]) s = .next (s.answered 0x78 t (.refuse .badValue)) ∧
      exec (.setNoticeThreshold t [w]) s = .next (s.answered 0x79 t (.refuse .badValue))) ∧
    (n ≤ 8 → ∃ (u : State) (out : List Notice), out = s.nqa.queue.take n ∧ out.length = min n s.nqa.queue.length ∧
      u = { s with nqa := { s.nqa with queue := s.nqa.queue.drop n, overflow := 0 } } ∧
      exec (.fetchNotices t [w]) s = .next ((if out = [] then u else u.askPass).answered 0x78 t (.ok
        ([BitVec.ofNat 8 s.nqa.overflow, BitVec.ofNat 8 out.length] ++ out.flatMap Notice.bytes))) ∧
      (∀ m ∈ out, m.bytes.length = 14) ∧
      exec (.setNoticeThreshold t [w]) s =
        .next (State.answered { s with nqa := { s.nqa with threshold := n } } 0x79 t (.ok [BitVec.ofNat 8 n])))

/-- The raw causes, level and latched, and their bits in a cause byte; ALERT, GET-ALERT, SET-ALERT-ENABLE and CLEAR-ALERT
(R194 to R196). -/
def Obligations.AlertFollowsCausesAndEnables : Prop :=
  (∀ c : Causes, c.byte.getLsbD 0 = c.notices ∧ c.byte.getLsbD 1 = c.attention ∧ c.byte.getLsbD 2 = c.poolFull ∧
    c.byte.getLsbD 3 = c.linkError ∧ c.byte.getLsbD 4 = c.overflow ∧ c.byte.getLsbD 5 = c.stageBus ∧
    c.byte.getLsbD 6 = false ∧ c.byte.getLsbD 7 = false) ∧
  (∀ s : State,
    (s.rawCauses.notices = true ↔ s.nqa.threshold ≤ s.nqa.queue.length) ∧
    (s.rawCauses.attention = true ↔ ∃ b, (s.bay b).state = .suspended) ∧
    (s.rawCauses.poolFull = true ↔ s.pool.records.length = 128) ∧
    s.rawCauses.linkError = s.nqa.linkError ∧ s.rawCauses.overflow = s.nqa.overflowCause ∧
    s.rawCauses.stageBus = s.nqa.stageBus ∧
    (s.alertLow = true ↔ s.inReset = false ∧ s.rawCauses.byte &&& s.nqa.enables.byte ≠ 0)) ∧
  ∀ (s : State) (t x : Byte), s.ready →
    exec (.getAlert t []) s = .next (s.answered 0x7A t
      (.ok [s.rawCauses.byte, s.nqa.enables.byte, s.rawCauses.byte &&& s.nqa.enables.byte])) ∧
    (64 ≤ x.toNat → exec (.setAlertEnable t [x]) s = .next (s.answered 0x7B t (.refuse .badValue)) ∧
      exec (.clearAlert t [x]) s = .next (s.answered 0x7C t (.refuse .badValue))) ∧
    (x.toNat < 64 → ∃ (c : Causes) (u : State), c.byte = x ∧
      exec (.setAlertEnable t [x]) s =
        .next (State.answered { s with nqa := { s.nqa with enables := c } } 0x7B t (.ok [x])) ∧
      u = { s with nqa := { s.nqa with linkError := s.nqa.linkError && !c.linkError,
                                       overflowCause := s.nqa.overflowCause && !c.overflow,
                                       stageBus := s.nqa.stageBus && !c.stageBus } } ∧
      exec (.clearAlert t [x]) s = .next (u.answered 0x7C t (.ok [u.rawCauses.byte])))

/-! ## Reading -/

/-- The messages that read answer with a body of the size of the catalogue, and change nothing (R31, R40, R82, R99,
R105, R135, R136, R154, R155, R174, R186), every body given byte for byte (R189); GET-ALLOWANCE lists the grants by
ascending bay number; the refusals of GET-CANDIDATE and GET-POSITION. The model's readings: the codes of the string
states are free constants (log 11), an abandoned entry is not counted in GET-STAGE-BUS (log 12), and values that are
absent are sent as 0 (log 33). -/
def Obligations.ReadsAnswerAndChangeNothing : Prop :=
  ∀ (s : State) (t : Byte) (b : BayId) (x : StringId), s.ready →
    (∃ y : List Byte, exec (.getTrim t [bayByte b]) s = .next (s.answered 0x24 t (.ok y)) ∧ y.length = 7 ∧
      y = sBytes 1 (s.trims b).gain ++ [(s.trims b).range.code] ++ sBytes 1 (s.trims b).offset ++
        sBytes 1 (s.trims b).current ++
        (match (s.trims b).pending with
         | none => [0, 0]
         | some (q, value) => q.code :: sBytes 1 value) ++ [if (s.trims b).calFlag then 1 else 0]) ∧
    (∃ y : List Byte, exec (.getWindow t [bayByte b]) s = .next (s.answered 0x25 t (.ok y)) ∧
      y.length = 30 ∧ y = match (s.wevBay b).lastRecord with
        | none => List.replicate 30 0
        | some r => [bayByte b, match r.phase with | none => 0x0A | some p => p.code] ++ beBytes 4 r.index ++
          [BitVec.ofNat 8 r.count] ++ beBytes 3 r.sumV ++ beBytes 2 r.meanV ++ beBytes 2 r.minV ++ beBytes 2 r.maxV ++
          beBytes 2 r.ripple ++ sBytes 3 r.drift ++ [BitVec.ofNat 8 r.reversals] ++ sBytes 3 r.sumI ++ sBytes 2 r.meanI ++
          sBytes 2 r.meanT ++ [(if r.sat then 1 else 0) + (if r.isPartial then 2 else 0)]) ∧
    (∃ (y : List Byte) (r : Bay), exec (.getBay t [bayByte b]) s = .next (s.answered 0x39 t (.ok y)) ∧ y.length = 87 ∧
      r = s.bay b ∧
      y = [r.state.code, r.substate.code, (if r.state = .done then 1 else 0) + (if r.grade.isSome then 2 else 0)] ++
        beBytes 4 (r.tag.getD 0) ++ [match r.profile with | none => 0 | some k => profileByte k] ++ beBytes 2 r.entry ++
        beBytes 3 r.clock ++ [phaseByte r.resume] ++
        (match r.cause with
         | .none => [0, 0]
         | .suspension c code => [c.code, code.code]
         | .reject c => [c.code, 0]) ++
        [r.marks.byte] ++ beBytes 3 r.chargeTime ++ beBytes 3 r.dischargeTime ++ beBytes 4 r.q ++ beBytes 3 r.dCount ++
        sBytes 4 r.dWeight ++ beBytes 3 r.preV ++ sBytes 3 r.preI ++ beBytes 3 r.pulseV ++ sBytes 3 r.pulseI ++
        beBytes 4 r.obsIndex ++ beBytes 3 r.obsFirst ++ beBytes 3 r.obsK ++ beBytes 3 r.obsLeft ++ beBytes 3 r.obsLast ++
        [r.restEnding.code] ++
        (match r.grade with
         | none => List.replicate 24 0
         | some g => g.bytes)) ∧
    (∃ y : List Byte, exec (.getStageBus t []) s = .next (s.answered 0x41 t (.ok y)) ∧ y.length = 7 ∧
      y = [s.sbc.bus.code, BitVec.ofNat 8 s.sbc.queue.length, if .broadcastOff ∈ s.sbc.queue then 1 else 0] ++
        (match s.sbc.inFlight with
         | none => [0, 0]
         | some e => [e.code, e.address]) ++
        [BitVec.ofNat 8 s.sbc.stallCount, if s.sbc.faultLow then 0 else 1]) ∧
    (∃ (y : List Byte) (held : List BayId), exec (.getAllowance t []) s = .next (s.answered 0x43 t (.ok y)) ∧
      (∀ d, d ∈ held ↔ s.grantOf d ≠ 0) ∧ held.Pairwise (· < ·) ∧ y = beBytes 4 s.caa.limit ++ beBytes 4 s.caa.committed ++
        [BitVec.ofNat 8 held.length] ++ (held.flatMap fun d => bayByte d :: beBytes 2 (s.grantOf d)) ++
        [BitVec.ofNat 8 s.caa.waiting.length] ++ (s.caa.waiting.flatMap fun w => bayByte w.bay :: beBytes 2 w.mag) ∧
      y.length = 10 + 3 * (held.length + s.caa.waiting.length)) ∧
    (∀ first n : Byte, first.toNat ≤ 127 → ∃ (y : List Byte) (k : Nat) (out : List Candidate),
      k = (if n = 0 then 8 else min 8 n.toNat) ∧ out = (s.pool.records.drop first.toNat).take k ∧
      exec (.getPool t [first, n]) s = .next (s.answered 0x52 t
        { status := .ok, clamped := decide (8 < n.toNat), body := y }) ∧
      y.length = 7 + s.pool.park.length + 33 * out.length ∧
      y = [BitVec.ofNat 8 s.pool.records.length] ++ beBytes 4 s.pool.nextSeq ++
        [BitVec.ofNat 8 s.pool.park.length] ++ s.pool.park.map bayByte ++ [BitVec.ofNat 8 out.length] ++
        (out.zipIdx first.toNat).flatMap fun e => BitVec.ofNat 8 e.2 :: e.1.bytes) ∧
    (∀ first n : Byte, 127 < first.toNat →
      exec (.getPool t [first, n]) s = .next (s.answered 0x52 t (.refuse .badValue))) ∧
    exec (.getCandidate t [0, 0, 0, 0]) s = .next (s.answered 0x53 t (.refuse .badValue)) ∧
    (∀ tag, 0 < tag → tag < 4294967296 →
      (s.pool.find tag = none →
        exec (.getCandidate t (beBytes 4 tag)) s = .next (s.answered 0x53 t (.refuse .notFound))) ∧
      ∀ c, s.pool.find tag = some c → ∃ y : List Byte, exec (.getCandidate t (beBytes 4 tag)) s =
        .next (s.answered 0x53 t (.ok y)) ∧ y = beBytes 1 (s.pool.index tag) ++ c.bytes ∧ y.length = 33) ∧
    (∃ (y : List Byte) (r : BankString), exec (.getString t [stringByte x]) s = .next (s.answered 0x66 t (.ok y)) ∧
      y.length = 18 ∧ r = s.string x ∧
      y = [Config.stringStateCode r.state, match r.profile with | none => 0 | some k => profileByte k,
          BitVec.ofNat 8 r.positions.length, match r.minClass with | none => 0 | some least => least.code] ++
        beBytes 3 r.reference ++ beBytes 2 r.strTol ++ beBytes 2 r.capTol ++ beBytes 2 r.imbalance ++
        ([r.resCount, r.seats.countP Seat.isEmpty, r.seats.countP Seat.isReserved, r.seats.countP Seat.isInstalled,
          r.seats.countP Seat.isVacant].map (BitVec.ofNat 8))) ∧
    (∀ pb : Byte,
      ((s.string x).state = .unused →
        exec (.getPosition t [stringByte x, pb]) s = .next (s.answered 0x67 t (.refuse .wrongState))) ∧
      ((s.string x).state ≠ .unused → (pb = 0 ∨ (s.string x).positions.length < pb.toNat) →
        exec (.getPosition t [stringByte x, pb]) s = .next (s.answered 0x67 t (.refuse .notFound)))) ∧
    (∀ pos p, 1 ≤ pos → pos ≤ 24 → (s.string x).state ≠ .unused → (s.string x).position pos = some p →
      ∃ (y : List Byte) (record partner : SeatName → List Byte) (kept : Option Override → List Byte),
        exec (.getPosition t [stringByte x, BitVec.ofNat 8 pos]) s = .next (s.answered 0x67 t (.ok y)) ∧
        y.length = 85 ∧ y = Config.stringStateCode (s.string x).state :: (record .a ++ record .b) ∧
        (∀ n, partner n = match s.partner { str := x, pos := pos, seat := n } with
          | none => [0, 0, 0, 0, 0]
          | some q => (match q.source with | .installed => 1 | .reserved => 2 | .override => 3) ::
              (beBytes 2 q.cap ++ beBytes 2 q.res)) ∧
        kept none = [0, 0, 0, 0, 0] ∧ (∀ o, kept (some o) = 1 :: (beBytes 2 o.cap ++ beBytes 2 o.res)) ∧
        ∀ n, (record n).length = 42 ∧ record n = match p.get n with
          | .empty => 0 :: (List.replicate 12 0 ++ partner n ++ List.replicate 24 0)
          | .reserved tag d .empty => 1 :: (beBytes 4 tag ++ beBytes 2 ((d + 9) / 10) ++ List.replicate 35 0)
          | .reserved tag d (.vacancy o) =>
            1 :: (beBytes 4 tag ++ beBytes 2 ((d + 9) / 10) ++ 1 :: kept o ++ List.replicate 29 0)
          | .installed g => 2 :: (beBytes 4 g.tag ++ List.replicate 13 0 ++ g.bytes)
          | .vacant o => 3 :: (List.replicate 7 0 ++ kept o ++ partner n ++ List.replicate 24 0)) ∧
    (∃ y : List Byte, exec (.getMatcher t []) s = .next (s.answered 0x75 t (.ok y)) ∧ y.length = 12 ∧
      y = [if s.plm.paused then 1 else 0, if s.plm.passPending then 1 else 0] ++ beBytes 2 s.plm.timeout ++
        [BitVec.ofNat 8 s.reservations] ++ match s.plm.lastPass with
          | .none => [0, 0, 0, 0, 0, 0, 0]
          | .complete served made => 1 :: (beBytes 2 served ++ [BitVec.ofNat 8 made, 0, 0, 0])
          | .noticeRoom served made id => 2 :: (beBytes 2 served ++ [BitVec.ofNat 8 made] ++ seatIdBytes id))
end

