-- ==== Sys2Proof/Laws/Operands.lean ====
section
/-! SUPPORT. The operand forms read back: numbers in bytes, the numbers of bays, slots and strings, sums of bytes. -/

namespace Sys2Proof.Machine

/-! ### Numbers in bytes -/

@[simp] theorem beBytes_length (w n : Nat) : (beBytes w n).length = w := by
  induction w with
  | zero => rfl
  | succ w ih => simp [beBytes, ih]

@[simp] theorem sBytes_length (w : Nat) (x : Int) : (sBytes w x).length = w := beBytes_length _ _

@[simp] theorem zeros_length (w : Nat) : (zeros w).length = w := by simp [zeros]

/-- The number read back from its bytes, cut to their width. -/
theorem beNat_beBytes (w n : Nat) : beNat (beBytes w n) = n % 256 ^ w := by
  induction w with
  | zero => simp [beBytes, beNat, Nat.mod_one]
  | succ w ih =>
    have h : n % (256 ^ w * 256) = n % 256 ^ w + 256 ^ w * (n / 256 ^ w % 256) := Nat.mod_mul
    simp only [beBytes, beNat, beBytes_length, BitVec.toNat_ofNat, ih, Nat.pow_succ]
    rw [h, Nat.mul_comm (256 ^ w), Nat.add_comm]

theorem beNat_lt (l : List Byte) : beNat l < 256 ^ l.length := by
  induction l with
  | nil => simp [beNat]
  | cons x l ih =>
    have hx : x.toNat < 256 := x.isLt
    simp only [beNat, List.length_cons, Nat.pow_succ]
    nlinarith [Nat.pos_of_ne_zero (pow_ne_zero l.length (by decide : (256 : Nat) ≠ 0))]

theorem beNat_append (l m : List Byte) : beNat (l ++ m) = beNat l * 256 ^ m.length + beNat m := by
  induction l with
  | nil => simp [beNat]
  | cons x l ih => simp only [List.cons_append, beNat, List.length_append, ih, Nat.pow_add]; ring

/-- The bytes written again from the number they spell. -/
theorem beBytes_beNat (l : List Byte) : beBytes l.length (beNat l) = l := by
  induction l with
  | nil => rfl
  | cons x l ih =>
    have hl := beNat_lt l
    have hp : 0 < 256 ^ l.length := Nat.pos_of_ne_zero (pow_ne_zero _ (by decide))
    have key : ∀ w a n, beBytes w (a * 256 ^ w + n) = beBytes w n := by
      intro w
      induction w with
      | zero => intros; rfl
      | succ w ihw =>
        intro a n
        have e : a * 256 ^ (w + 1) = (a * 256) * 256 ^ w := by ring
        have hw : 0 < 256 ^ w := Nat.pos_of_ne_zero (pow_ne_zero _ (by decide))
        simp only [beBytes]
        rw [e, ihw, Nat.add_comm, Nat.add_mul_div_right _ _ hw]
        congr 1
        apply BitVec.eq_of_toNat_eq
        simp
    simp only [List.length_cons, beBytes, beNat]
    rw [key, ih]
    congr 1
    rw [Nat.add_comm, Nat.add_mul_div_right _ _ hp, Nat.div_eq_of_lt hl]
    simp

/-- A signed number read back from its bytes. -/
theorem signedOf_sBytes (w : Nat) (x : Int) (lo : -(256 ^ w : Int) ≤ 2 * x) (hi : 2 * x < (256 ^ w : Int)) :
    signedOf w (beNat (sBytes w x)) = x := by
  have hp : (0 : Int) < 256 ^ w := by positivity
  have hc : ((256 ^ w : Nat) : Int) = 256 ^ w := by push_cast; rfl
  unfold signedOf sBytes
  rw [beNat_beBytes]
  have hm := Int.emod_nonneg x (ne_of_gt hp)
  have hl := Int.emod_lt_of_pos x hp
  have e : ((x % ((256 ^ w : Nat) : Int)).toNat % 256 ^ w : Nat) = (x % (256 ^ w : Int)).toNat := by
    rw [hc]; apply Nat.mod_eq_of_lt; zify; rw [Int.toNat_of_nonneg hm]; exact hl
  rw [e]
  by_cases h0 : 0 ≤ x
  · have : x % 256 ^ w = x := Int.emod_eq_of_lt h0 (by omega)
    rw [this, if_pos (by zify; rw [Int.toNat_of_nonneg h0]; exact hi), Int.toNat_of_nonneg h0]
  · have : x % 256 ^ w = x + 256 ^ w := by
      rw [← Int.add_emod_right]; exact Int.emod_eq_of_lt (by omega) (by omega)
    rw [this, if_neg (by zify; rw [Int.toNat_of_nonneg (by omega)]; omega), Int.toNat_of_nonneg (by omega), hc]
    ring

/-! ### Fields of a body -/

@[simp] theorem uField_zero_one (x : Byte) (l : List Byte) : uField (x :: l) 0 1 = x.toNat := by simp [uField, beNat]

@[simp] theorem uField_cons_succ (x : Byte) (l : List Byte) (n w : Nat) : uField (x :: l) (n + 1) w = uField l n w := rfl

@[simp] theorem uField_beBytes (w n : Nat) (l : List Byte) : uField (beBytes w n ++ l) 0 w = n % 256 ^ w := by
  simp [uField, beNat_beBytes]

@[simp] theorem uField_beBytes_nil (w n : Nat) : uField (beBytes w n) 0 w = n % 256 ^ w := by
  simpa using uField_beBytes w n []

/-- The part of a body that lies behind a field of known width. -/
theorem uField_skip (pre l : List Byte) (off w : Nat) (h : pre.length ≤ off) :
    uField (pre ++ l) off w = uField l (off - pre.length) w := by
  simp [uField, List.drop_append, List.drop_eq_nil_of_le h]

theorem uField_skip_beBytes (k n : Nat) (l : List Byte) (off w : Nat) (h : k ≤ off) :
    uField (beBytes k n ++ l) off w = uField l (off - k) w := by
  simpa using uField_skip (beBytes k n) l off w (by simpa using h)

theorem uField_skip_sBytes (k : Nat) (x : Int) (l : List Byte) (off w : Nat) (h : k ≤ off) :
    uField (sBytes k x ++ l) off w = uField l (off - k) w := uField_skip_beBytes _ _ _ _ _ h

/-- A signed field at the head of a body. -/
theorem sField_sBytes (w : Nat) (x : Int) (l : List Byte) (lo : -(256 ^ w : Int) ≤ 2 * x)
    (hi : 2 * x < (256 ^ w : Int)) : sField (sBytes w x ++ l) 0 w = x := by
  have : uField (sBytes w x ++ l) 0 w = beNat (sBytes w x) := by simp [uField]
  rw [sField, this, signedOf_sBytes w x lo hi]

theorem sField_skip (pre l : List Byte) (off w : Nat) (h : pre.length ≤ off) :
    sField (pre ++ l) off w = sField l (off - pre.length) w := by rw [sField, uField_skip _ _ _ _ h, sField]

@[simp] theorem sField_cons_succ (x : Byte) (l : List Byte) (n w : Nat) : sField (x :: l) (n + 1) w = sField l n w := rfl

/-! ### Numbers of objects -/

@[simp] theorem bayByte_toNat (b : BayId) : (bayByte b).toNat = b.val + 1 := by
  have := b.isLt; simp [bayByte]; omega

@[simp] theorem profileByte_toNat (k : ProfileId) : (profileByte k).toNat = k.val + 1 := by
  have := k.isLt; simp [profileByte]; omega

@[simp] theorem stringByte_toNat (x : StringId) : (stringByte x).toNat = x.val + 1 := by
  have := x.isLt; simp [stringByte]; omega

@[simp] theorem bayOf_succ (b : BayId) : bayOf (b.val + 1) = some b := by
  have := b.isLt; rw [bayOf, dif_pos (by omega)]; rfl

@[simp] theorem profileOf_succ (k : ProfileId) : profileOf (k.val + 1) = some k := by
  have := k.isLt; rw [profileOf, dif_pos (by omega)]; rfl

@[simp] theorem stringOf_succ (x : StringId) : stringOf (x.val + 1) = some x := by
  have := x.isLt; rw [stringOf, dif_pos (by omega)]; rfl

theorem bayOf_none (n : Nat) : bayOf n = none ↔ n = 0 ∨ 48 < n := by unfold bayOf; split <;> simp <;> omega
theorem profileOf_none (n : Nat) : profileOf n = none ↔ n = 0 ∨ 8 < n := by unfold profileOf; split <;> simp <;> omega
theorem stringOf_none (n : Nat) : stringOf n = none ↔ n = 0 ∨ 16 < n := by unfold stringOf; split <;> simp <;> omega

@[simp] theorem seatOf_seatByte (n : SeatName) : seatOf (seatByte n).toNat = some n := by cases n <;> rfl

@[simp] theorem classOf_code (g : GradeClass) (h : g ≠ .x) : classOf g.code.toNat = some g := by
  cases g <;> first | rfl | exact absurd rfl h

@[simp] theorem trimQuantityOf_code (q : TrimQuantity) : trimQuantityOf q.code.toNat = some q := by cases q <;> rfl
@[simp] theorem trimRangeOf_code (g : TrimRange) : trimRangeOf g.code.toNat = some g := by cases g <;> rfl

theorem byte_toNat_eq_zero (x : Byte) : x.toNat = 0 ↔ x = 0 :=
  ⟨fun h => BitVec.eq_of_toNat_eq (by simpa using h), fun h => by simp [h]⟩

/-- The bits set by a fold over bit numbers. -/
theorem foldl_bits (p : Nat → Bool) (j : Nat) (hj : j < 8) (l : List Nat) (hl : ∀ i ∈ l, i < 8) (acc : Byte) :
    (l.foldl (fun (x : Byte) i => if p i then x ||| BitVec.ofNat 8 (2 ^ i) else x) acc).getLsbD j =
      (acc.getLsbD j || (l.contains j && p j)) := by
  induction l generalizing acc with
  | nil => simp
  | cons i l ih =>
    have hi : i < 8 := hl i (by simp)
    have hb : (BitVec.ofNat 8 (2 ^ i)).getLsbD j = decide (i = j) := by
      rw [BitVec.getLsbD_ofNat, Nat.testBit_two_pow]; simp [hj]
    rw [List.foldl_cons, ih (fun k hk => hl k (by simp [hk]))]
    by_cases e : j = i
    · subst e
      have hc : (j :: l).contains j = true := by simp
      rw [hc]
      cases hp : p j
      · simp
      · rw [if_pos rfl, BitVec.getLsbD_or, hb]; simp
    · have e2 : ¬ i = j := fun h => e h.symm
      have hc : (i :: l).contains j = l.contains j := by simp [e]
      rw [hc]
      cases hp : p i
      · simp
      · rw [if_pos rfl, BitVec.getLsbD_or, hb]; simp [e2]

/-- What a bay set holds (R187), for the six bytes of a set of bays. -/
theorem inBaySet_baySetBytes (set : List BayId) (b : BayId) : inBaySet (baySetBytes set) 0 b = true ↔ b ∈ set := by
  have hb := b.isLt
  have hk : b.val / 8 < 6 := by omega
  have e : (baySetBytes set).getD (0 + b.val / 8) 0 =
      (List.range 8).foldl (fun (x : Byte) j =>
        if set.any (fun d => d.val == 8 * (b.val / 8) + j) then x ||| BitVec.ofNat 8 (2 ^ j) else x) 0 := by
    simp [baySetBytes, List.getD, hk]
  unfold inBaySet
  rw [e, foldl_bits (fun j => set.any fun d => d.val == 8 * (b.val / 8) + j) _ (by omega) _ (by simp)]
  have hc : (List.range 8).contains (b.val % 8) = true := by simp; omega
  have hz : BitVec.getLsbD (0 : Byte) (b.val % 8) = false := BitVec.getLsbD_zero
  rw [hc, hz, Bool.true_and, Bool.false_or]
  simp only [List.any_eq_true, beq_iff_eq]
  constructor
  · rintro ⟨d, hd, hv⟩
    have : d = b := Fin.ext (by omega)
    exact this ▸ hd
  · intro hd; exact ⟨b, hd, by omega⟩

@[simp] theorem baySetBytes_length (set : List BayId) : (baySetBytes set).length = 6 := by simp [baySetBytes]

/-! ### Sums of bytes -/

theorem foldl_add_start (l : List Byte) (x : Byte) : l.foldl (· + ·) x = x + byteSum l := by
  induction l generalizing x with
  | nil => simp [byteSum]
  | cons y l ih => simp only [byteSum, List.foldl_cons]; rw [ih, ih (0 + y)]; simp [BitVec.add_assoc]

theorem byteSum_cons (x : Byte) (l : List Byte) : byteSum (x :: l) = x + byteSum l := by
  simp only [byteSum, List.foldl_cons]; rw [foldl_add_start]; simp [byteSum]

theorem byteSum_append (l m : List Byte) : byteSum (l ++ m) = byteSum l + byteSum m := by
  induction l with
  | nil => simp [byteSum]
  | cons x l ih => simp [byteSum_cons, ih, BitVec.add_assoc]

/-- The check byte makes the sum 0. -/
theorem byteSum_withCheck (l : List Byte) : byteSum (withCheck l) = 0 := by
  simp [withCheck, byteSum]

end Sys2Proof.Machine
end

