-- ==== Sys2Proof/Laws/State.lean ====
section
/-! SUPPORT. The small lemmas of State: every field after every update, and the numbered records read back. -/

namespace Sys2Proof.Machine

/-! ### Numbered records -/

@[simp] theorem updAt_get {α : Type} {n : Nat} (v : Vector α n) (i j : Fin n) (f : α → α) :
    (updAt v i f).get j = if i = j then f (v.get i) else v.get j := by
  by_cases h : i = j
  · subst h; simp [updAt, Vector.get_eq_getElem]
  · have h2 : i.val ≠ j.val := fun e => h (Fin.ext e)
    simp [updAt, Vector.get_eq_getElem, h, Vector.getElem_set_ne, h2]

@[simp] theorem replicate_get {α : Type} {n : Nat} (x : α) (i : Fin n) : (Vector.replicate n x).get i = x := by
  simp [Vector.get_eq_getElem]

section
variable (s : State)

/-! ### State.updBay -/

@[simp] theorem State.updBay_inReset (b : BayId) (f : Bay → Bay) : (s.updBay b f).inReset = s.inReset := rfl
@[simp] theorem State.updBay_profiles (b : BayId) (f : Bay → Bay) : (s.updBay b f).profiles = s.profiles := rfl
@[simp] theorem State.updBay_scan (b : BayId) (f : Bay → Bay) : (s.updBay b f).scan = s.scan := rfl
@[simp] theorem State.updBay_wev (b : BayId) (f : Bay → Bay) : (s.updBay b f).wev = s.wev := rfl
@[simp] theorem State.updBay_bays (b : BayId) (f : Bay → Bay) : (s.updBay b f).bays = updAt s.bays b f := rfl
@[simp] theorem State.updBay_sbc (b : BayId) (f : Bay → Bay) : (s.updBay b f).sbc = s.sbc := rfl
@[simp] theorem State.updBay_caa (b : BayId) (f : Bay → Bay) : (s.updBay b f).caa = s.caa := rfl
@[simp] theorem State.updBay_pool (b : BayId) (f : Bay → Bay) : (s.updBay b f).pool = s.pool := rfl
@[simp] theorem State.updBay_bank (b : BayId) (f : Bay → Bay) : (s.updBay b f).bank = s.bank := rfl
@[simp] theorem State.updBay_plm (b : BayId) (f : Bay → Bay) : (s.updBay b f).plm = s.plm := rfl
@[simp] theorem State.updBay_nqa (b : BayId) (f : Bay → Bay) : (s.updBay b f).nqa = s.nqa := rfl
@[simp] theorem State.updBay_link (b : BayId) (f : Bay → Bay) : (s.updBay b f).link = s.link := rfl
@[simp] theorem State.updBay_toWev (b : BayId) (f : Bay → Bay) : (s.updBay b f).toWev = s.toWev := rfl
@[simp] theorem State.updBay_toBsq (b : BayId) (f : Bay → Bay) : (s.updBay b f).toBsq = s.toBsq := rfl
@[simp] theorem State.updBay_toScan (b : BayId) (f : Bay → Bay) : (s.updBay b f).toScan = s.toScan := rfl
@[simp] theorem State.updBay_toCaa (b : BayId) (f : Bay → Bay) : (s.updBay b f).toCaa = s.toCaa := rfl
@[simp] theorem State.updBay_grantsOut (b : BayId) (f : Bay → Bay) : (s.updBay b f).grantsOut = s.grantsOut := rfl
@[simp] theorem State.updBay_pending (b : BayId) (f : Bay → Bay) : (s.updBay b f).pending = s.pending := rfl

/-! ### State.updWev -/

@[simp] theorem State.updWev_inReset (b : BayId) (f : WevBay → WevBay) : (s.updWev b f).inReset = s.inReset := rfl
@[simp] theorem State.updWev_profiles (b : BayId) (f : WevBay → WevBay) : (s.updWev b f).profiles = s.profiles := rfl
@[simp] theorem State.updWev_scan (b : BayId) (f : WevBay → WevBay) : (s.updWev b f).scan = s.scan := rfl
@[simp] theorem State.updWev_wev (b : BayId) (f : WevBay → WevBay) : (s.updWev b f).wev = updAt s.wev b f := rfl
@[simp] theorem State.updWev_bays (b : BayId) (f : WevBay → WevBay) : (s.updWev b f).bays = s.bays := rfl
@[simp] theorem State.updWev_sbc (b : BayId) (f : WevBay → WevBay) : (s.updWev b f).sbc = s.sbc := rfl
@[simp] theorem State.updWev_caa (b : BayId) (f : WevBay → WevBay) : (s.updWev b f).caa = s.caa := rfl
@[simp] theorem State.updWev_pool (b : BayId) (f : WevBay → WevBay) : (s.updWev b f).pool = s.pool := rfl
@[simp] theorem State.updWev_bank (b : BayId) (f : WevBay → WevBay) : (s.updWev b f).bank = s.bank := rfl
@[simp] theorem State.updWev_plm (b : BayId) (f : WevBay → WevBay) : (s.updWev b f).plm = s.plm := rfl
@[simp] theorem State.updWev_nqa (b : BayId) (f : WevBay → WevBay) : (s.updWev b f).nqa = s.nqa := rfl
@[simp] theorem State.updWev_link (b : BayId) (f : WevBay → WevBay) : (s.updWev b f).link = s.link := rfl
@[simp] theorem State.updWev_toWev (b : BayId) (f : WevBay → WevBay) : (s.updWev b f).toWev = s.toWev := rfl
@[simp] theorem State.updWev_toBsq (b : BayId) (f : WevBay → WevBay) : (s.updWev b f).toBsq = s.toBsq := rfl
@[simp] theorem State.updWev_toScan (b : BayId) (f : WevBay → WevBay) : (s.updWev b f).toScan = s.toScan := rfl
@[simp] theorem State.updWev_toCaa (b : BayId) (f : WevBay → WevBay) : (s.updWev b f).toCaa = s.toCaa := rfl
@[simp] theorem State.updWev_grantsOut (b : BayId) (f : WevBay → WevBay) : (s.updWev b f).grantsOut = s.grantsOut := rfl
@[simp] theorem State.updWev_pending (b : BayId) (f : WevBay → WevBay) : (s.updWev b f).pending = s.pending := rfl

/-! ### State.updTrims -/

@[simp] theorem State.updTrims_inReset (b : BayId) (f : TrimSet → TrimSet) : (s.updTrims b f).inReset = s.inReset := rfl
@[simp] theorem State.updTrims_profiles (b : BayId) (f : TrimSet → TrimSet) : (s.updTrims b f).profiles = s.profiles := rfl
@[simp] theorem State.updTrims_scan (b : BayId) (f : TrimSet → TrimSet) : (s.updTrims b f).scan = updAt s.scan b f := rfl
@[simp] theorem State.updTrims_wev (b : BayId) (f : TrimSet → TrimSet) : (s.updTrims b f).wev = s.wev := rfl
@[simp] theorem State.updTrims_bays (b : BayId) (f : TrimSet → TrimSet) : (s.updTrims b f).bays = s.bays := rfl
@[simp] theorem State.updTrims_sbc (b : BayId) (f : TrimSet → TrimSet) : (s.updTrims b f).sbc = s.sbc := rfl
@[simp] theorem State.updTrims_caa (b : BayId) (f : TrimSet → TrimSet) : (s.updTrims b f).caa = s.caa := rfl
@[simp] theorem State.updTrims_pool (b : BayId) (f : TrimSet → TrimSet) : (s.updTrims b f).pool = s.pool := rfl
@[simp] theorem State.updTrims_bank (b : BayId) (f : TrimSet → TrimSet) : (s.updTrims b f).bank = s.bank := rfl
@[simp] theorem State.updTrims_plm (b : BayId) (f : TrimSet → TrimSet) : (s.updTrims b f).plm = s.plm := rfl
@[simp] theorem State.updTrims_nqa (b : BayId) (f : TrimSet → TrimSet) : (s.updTrims b f).nqa = s.nqa := rfl
@[simp] theorem State.updTrims_link (b : BayId) (f : TrimSet → TrimSet) : (s.updTrims b f).link = s.link := rfl
@[simp] theorem State.updTrims_toWev (b : BayId) (f : TrimSet → TrimSet) : (s.updTrims b f).toWev = s.toWev := rfl
@[simp] theorem State.updTrims_toBsq (b : BayId) (f : TrimSet → TrimSet) : (s.updTrims b f).toBsq = s.toBsq := rfl
@[simp] theorem State.updTrims_toScan (b : BayId) (f : TrimSet → TrimSet) : (s.updTrims b f).toScan = s.toScan := rfl
@[simp] theorem State.updTrims_toCaa (b : BayId) (f : TrimSet → TrimSet) : (s.updTrims b f).toCaa = s.toCaa := rfl
@[simp] theorem State.updTrims_grantsOut (b : BayId) (f : TrimSet → TrimSet) : (s.updTrims b f).grantsOut = s.grantsOut := rfl
@[simp] theorem State.updTrims_pending (b : BayId) (f : TrimSet → TrimSet) : (s.updTrims b f).pending = s.pending := rfl

/-! ### State.updString -/

@[simp] theorem State.updString_inReset (x : StringId) (f : BankString → BankString) : (s.updString x f).inReset = s.inReset := rfl
@[simp] theorem State.updString_profiles (x : StringId) (f : BankString → BankString) : (s.updString x f).profiles = s.profiles := rfl
@[simp] theorem State.updString_scan (x : StringId) (f : BankString → BankString) : (s.updString x f).scan = s.scan := rfl
@[simp] theorem State.updString_wev (x : StringId) (f : BankString → BankString) : (s.updString x f).wev = s.wev := rfl
@[simp] theorem State.updString_bays (x : StringId) (f : BankString → BankString) : (s.updString x f).bays = s.bays := rfl
@[simp] theorem State.updString_sbc (x : StringId) (f : BankString → BankString) : (s.updString x f).sbc = s.sbc := rfl
@[simp] theorem State.updString_caa (x : StringId) (f : BankString → BankString) : (s.updString x f).caa = s.caa := rfl
@[simp] theorem State.updString_pool (x : StringId) (f : BankString → BankString) : (s.updString x f).pool = s.pool := rfl
@[simp] theorem State.updString_bank (x : StringId) (f : BankString → BankString) : (s.updString x f).bank = updAt s.bank x f := rfl
@[simp] theorem State.updString_plm (x : StringId) (f : BankString → BankString) : (s.updString x f).plm = s.plm := rfl
@[simp] theorem State.updString_nqa (x : StringId) (f : BankString → BankString) : (s.updString x f).nqa = s.nqa := rfl
@[simp] theorem State.updString_link (x : StringId) (f : BankString → BankString) : (s.updString x f).link = s.link := rfl
@[simp] theorem State.updString_toWev (x : StringId) (f : BankString → BankString) : (s.updString x f).toWev = s.toWev := rfl
@[simp] theorem State.updString_toBsq (x : StringId) (f : BankString → BankString) : (s.updString x f).toBsq = s.toBsq := rfl
@[simp] theorem State.updString_toScan (x : StringId) (f : BankString → BankString) : (s.updString x f).toScan = s.toScan := rfl
@[simp] theorem State.updString_toCaa (x : StringId) (f : BankString → BankString) : (s.updString x f).toCaa = s.toCaa := rfl
@[simp] theorem State.updString_grantsOut (x : StringId) (f : BankString → BankString) : (s.updString x f).grantsOut = s.grantsOut := rfl
@[simp] theorem State.updString_pending (x : StringId) (f : BankString → BankString) : (s.updString x f).pending = s.pending := rfl

/-! ### State.updNqa -/

@[simp] theorem State.updNqa_inReset (f : Nqa → Nqa) : (s.updNqa f).inReset = s.inReset := rfl
@[simp] theorem State.updNqa_profiles (f : Nqa → Nqa) : (s.updNqa f).profiles = s.profiles := rfl
@[simp] theorem State.updNqa_scan (f : Nqa → Nqa) : (s.updNqa f).scan = s.scan := rfl
@[simp] theorem State.updNqa_wev (f : Nqa → Nqa) : (s.updNqa f).wev = s.wev := rfl
@[simp] theorem State.updNqa_bays (f : Nqa → Nqa) : (s.updNqa f).bays = s.bays := rfl
@[simp] theorem State.updNqa_sbc (f : Nqa → Nqa) : (s.updNqa f).sbc = s.sbc := rfl
@[simp] theorem State.updNqa_caa (f : Nqa → Nqa) : (s.updNqa f).caa = s.caa := rfl
@[simp] theorem State.updNqa_pool (f : Nqa → Nqa) : (s.updNqa f).pool = s.pool := rfl
@[simp] theorem State.updNqa_bank (f : Nqa → Nqa) : (s.updNqa f).bank = s.bank := rfl
@[simp] theorem State.updNqa_plm (f : Nqa → Nqa) : (s.updNqa f).plm = s.plm := rfl
@[simp] theorem State.updNqa_nqa (f : Nqa → Nqa) : (s.updNqa f).nqa = f s.nqa := rfl
@[simp] theorem State.updNqa_link (f : Nqa → Nqa) : (s.updNqa f).link = s.link := rfl
@[simp] theorem State.updNqa_toWev (f : Nqa → Nqa) : (s.updNqa f).toWev = s.toWev := rfl
@[simp] theorem State.updNqa_toBsq (f : Nqa → Nqa) : (s.updNqa f).toBsq = s.toBsq := rfl
@[simp] theorem State.updNqa_toScan (f : Nqa → Nqa) : (s.updNqa f).toScan = s.toScan := rfl
@[simp] theorem State.updNqa_toCaa (f : Nqa → Nqa) : (s.updNqa f).toCaa = s.toCaa := rfl
@[simp] theorem State.updNqa_grantsOut (f : Nqa → Nqa) : (s.updNqa f).grantsOut = s.grantsOut := rfl
@[simp] theorem State.updNqa_pending (f : Nqa → Nqa) : (s.updNqa f).pending = s.pending := rfl

/-! ### State.updSbc -/

@[simp] theorem State.updSbc_inReset (f : StageBus → StageBus) : (s.updSbc f).inReset = s.inReset := rfl
@[simp] theorem State.updSbc_profiles (f : StageBus → StageBus) : (s.updSbc f).profiles = s.profiles := rfl
@[simp] theorem State.updSbc_scan (f : StageBus → StageBus) : (s.updSbc f).scan = s.scan := rfl
@[simp] theorem State.updSbc_wev (f : StageBus → StageBus) : (s.updSbc f).wev = s.wev := rfl
@[simp] theorem State.updSbc_bays (f : StageBus → StageBus) : (s.updSbc f).bays = s.bays := rfl
@[simp] theorem State.updSbc_sbc (f : StageBus → StageBus) : (s.updSbc f).sbc = f s.sbc := rfl
@[simp] theorem State.updSbc_caa (f : StageBus → StageBus) : (s.updSbc f).caa = s.caa := rfl
@[simp] theorem State.updSbc_pool (f : StageBus → StageBus) : (s.updSbc f).pool = s.pool := rfl
@[simp] theorem State.updSbc_bank (f : StageBus → StageBus) : (s.updSbc f).bank = s.bank := rfl
@[simp] theorem State.updSbc_plm (f : StageBus → StageBus) : (s.updSbc f).plm = s.plm := rfl
@[simp] theorem State.updSbc_nqa (f : StageBus → StageBus) : (s.updSbc f).nqa = s.nqa := rfl
@[simp] theorem State.updSbc_link (f : StageBus → StageBus) : (s.updSbc f).link = s.link := rfl
@[simp] theorem State.updSbc_toWev (f : StageBus → StageBus) : (s.updSbc f).toWev = s.toWev := rfl
@[simp] theorem State.updSbc_toBsq (f : StageBus → StageBus) : (s.updSbc f).toBsq = s.toBsq := rfl
@[simp] theorem State.updSbc_toScan (f : StageBus → StageBus) : (s.updSbc f).toScan = s.toScan := rfl
@[simp] theorem State.updSbc_toCaa (f : StageBus → StageBus) : (s.updSbc f).toCaa = s.toCaa := rfl
@[simp] theorem State.updSbc_grantsOut (f : StageBus → StageBus) : (s.updSbc f).grantsOut = s.grantsOut := rfl
@[simp] theorem State.updSbc_pending (f : StageBus → StageBus) : (s.updSbc f).pending = s.pending := rfl

/-! ### State.updCaa -/

@[simp] theorem State.updCaa_inReset (f : Allowance → Allowance) : (s.updCaa f).inReset = s.inReset := rfl
@[simp] theorem State.updCaa_profiles (f : Allowance → Allowance) : (s.updCaa f).profiles = s.profiles := rfl
@[simp] theorem State.updCaa_scan (f : Allowance → Allowance) : (s.updCaa f).scan = s.scan := rfl
@[simp] theorem State.updCaa_wev (f : Allowance → Allowance) : (s.updCaa f).wev = s.wev := rfl
@[simp] theorem State.updCaa_bays (f : Allowance → Allowance) : (s.updCaa f).bays = s.bays := rfl
@[simp] theorem State.updCaa_sbc (f : Allowance → Allowance) : (s.updCaa f).sbc = s.sbc := rfl
@[simp] theorem State.updCaa_caa (f : Allowance → Allowance) : (s.updCaa f).caa = f s.caa := rfl
@[simp] theorem State.updCaa_pool (f : Allowance → Allowance) : (s.updCaa f).pool = s.pool := rfl
@[simp] theorem State.updCaa_bank (f : Allowance → Allowance) : (s.updCaa f).bank = s.bank := rfl
@[simp] theorem State.updCaa_plm (f : Allowance → Allowance) : (s.updCaa f).plm = s.plm := rfl
@[simp] theorem State.updCaa_nqa (f : Allowance → Allowance) : (s.updCaa f).nqa = s.nqa := rfl
@[simp] theorem State.updCaa_link (f : Allowance → Allowance) : (s.updCaa f).link = s.link := rfl
@[simp] theorem State.updCaa_toWev (f : Allowance → Allowance) : (s.updCaa f).toWev = s.toWev := rfl
@[simp] theorem State.updCaa_toBsq (f : Allowance → Allowance) : (s.updCaa f).toBsq = s.toBsq := rfl
@[simp] theorem State.updCaa_toScan (f : Allowance → Allowance) : (s.updCaa f).toScan = s.toScan := rfl
@[simp] theorem State.updCaa_toCaa (f : Allowance → Allowance) : (s.updCaa f).toCaa = s.toCaa := rfl
@[simp] theorem State.updCaa_grantsOut (f : Allowance → Allowance) : (s.updCaa f).grantsOut = s.grantsOut := rfl
@[simp] theorem State.updCaa_pending (f : Allowance → Allowance) : (s.updCaa f).pending = s.pending := rfl

/-! ### State.updPool -/

@[simp] theorem State.updPool_inReset (f : Pool → Pool) : (s.updPool f).inReset = s.inReset := rfl
@[simp] theorem State.updPool_profiles (f : Pool → Pool) : (s.updPool f).profiles = s.profiles := rfl
@[simp] theorem State.updPool_scan (f : Pool → Pool) : (s.updPool f).scan = s.scan := rfl
@[simp] theorem State.updPool_wev (f : Pool → Pool) : (s.updPool f).wev = s.wev := rfl
@[simp] theorem State.updPool_bays (f : Pool → Pool) : (s.updPool f).bays = s.bays := rfl
@[simp] theorem State.updPool_sbc (f : Pool → Pool) : (s.updPool f).sbc = s.sbc := rfl
@[simp] theorem State.updPool_caa (f : Pool → Pool) : (s.updPool f).caa = s.caa := rfl
@[simp] theorem State.updPool_pool (f : Pool → Pool) : (s.updPool f).pool = f s.pool := rfl
@[simp] theorem State.updPool_bank (f : Pool → Pool) : (s.updPool f).bank = s.bank := rfl
@[simp] theorem State.updPool_plm (f : Pool → Pool) : (s.updPool f).plm = s.plm := rfl
@[simp] theorem State.updPool_nqa (f : Pool → Pool) : (s.updPool f).nqa = s.nqa := rfl
@[simp] theorem State.updPool_link (f : Pool → Pool) : (s.updPool f).link = s.link := rfl
@[simp] theorem State.updPool_toWev (f : Pool → Pool) : (s.updPool f).toWev = s.toWev := rfl
@[simp] theorem State.updPool_toBsq (f : Pool → Pool) : (s.updPool f).toBsq = s.toBsq := rfl
@[simp] theorem State.updPool_toScan (f : Pool → Pool) : (s.updPool f).toScan = s.toScan := rfl
@[simp] theorem State.updPool_toCaa (f : Pool → Pool) : (s.updPool f).toCaa = s.toCaa := rfl
@[simp] theorem State.updPool_grantsOut (f : Pool → Pool) : (s.updPool f).grantsOut = s.grantsOut := rfl
@[simp] theorem State.updPool_pending (f : Pool → Pool) : (s.updPool f).pending = s.pending := rfl

/-! ### State.updPlm -/

@[simp] theorem State.updPlm_inReset (f : Matcher → Matcher) : (s.updPlm f).inReset = s.inReset := rfl
@[simp] theorem State.updPlm_profiles (f : Matcher → Matcher) : (s.updPlm f).profiles = s.profiles := rfl
@[simp] theorem State.updPlm_scan (f : Matcher → Matcher) : (s.updPlm f).scan = s.scan := rfl
@[simp] theorem State.updPlm_wev (f : Matcher → Matcher) : (s.updPlm f).wev = s.wev := rfl
@[simp] theorem State.updPlm_bays (f : Matcher → Matcher) : (s.updPlm f).bays = s.bays := rfl
@[simp] theorem State.updPlm_sbc (f : Matcher → Matcher) : (s.updPlm f).sbc = s.sbc := rfl
@[simp] theorem State.updPlm_caa (f : Matcher → Matcher) : (s.updPlm f).caa = s.caa := rfl
@[simp] theorem State.updPlm_pool (f : Matcher → Matcher) : (s.updPlm f).pool = s.pool := rfl
@[simp] theorem State.updPlm_bank (f : Matcher → Matcher) : (s.updPlm f).bank = s.bank := rfl
@[simp] theorem State.updPlm_plm (f : Matcher → Matcher) : (s.updPlm f).plm = f s.plm := rfl
@[simp] theorem State.updPlm_nqa (f : Matcher → Matcher) : (s.updPlm f).nqa = s.nqa := rfl
@[simp] theorem State.updPlm_link (f : Matcher → Matcher) : (s.updPlm f).link = s.link := rfl
@[simp] theorem State.updPlm_toWev (f : Matcher → Matcher) : (s.updPlm f).toWev = s.toWev := rfl
@[simp] theorem State.updPlm_toBsq (f : Matcher → Matcher) : (s.updPlm f).toBsq = s.toBsq := rfl
@[simp] theorem State.updPlm_toScan (f : Matcher → Matcher) : (s.updPlm f).toScan = s.toScan := rfl
@[simp] theorem State.updPlm_toCaa (f : Matcher → Matcher) : (s.updPlm f).toCaa = s.toCaa := rfl
@[simp] theorem State.updPlm_grantsOut (f : Matcher → Matcher) : (s.updPlm f).grantsOut = s.grantsOut := rfl
@[simp] theorem State.updPlm_pending (f : Matcher → Matcher) : (s.updPlm f).pending = s.pending := rfl

/-! ### State.updLink -/

@[simp] theorem State.updLink_inReset (f : Link → Link) : (s.updLink f).inReset = s.inReset := rfl
@[simp] theorem State.updLink_profiles (f : Link → Link) : (s.updLink f).profiles = s.profiles := rfl
@[simp] theorem State.updLink_scan (f : Link → Link) : (s.updLink f).scan = s.scan := rfl
@[simp] theorem State.updLink_wev (f : Link → Link) : (s.updLink f).wev = s.wev := rfl
@[simp] theorem State.updLink_bays (f : Link → Link) : (s.updLink f).bays = s.bays := rfl
@[simp] theorem State.updLink_sbc (f : Link → Link) : (s.updLink f).sbc = s.sbc := rfl
@[simp] theorem State.updLink_caa (f : Link → Link) : (s.updLink f).caa = s.caa := rfl
@[simp] theorem State.updLink_pool (f : Link → Link) : (s.updLink f).pool = s.pool := rfl
@[simp] theorem State.updLink_bank (f : Link → Link) : (s.updLink f).bank = s.bank := rfl
@[simp] theorem State.updLink_plm (f : Link → Link) : (s.updLink f).plm = s.plm := rfl
@[simp] theorem State.updLink_nqa (f : Link → Link) : (s.updLink f).nqa = s.nqa := rfl
@[simp] theorem State.updLink_link (f : Link → Link) : (s.updLink f).link = f s.link := rfl
@[simp] theorem State.updLink_toWev (f : Link → Link) : (s.updLink f).toWev = s.toWev := rfl
@[simp] theorem State.updLink_toBsq (f : Link → Link) : (s.updLink f).toBsq = s.toBsq := rfl
@[simp] theorem State.updLink_toScan (f : Link → Link) : (s.updLink f).toScan = s.toScan := rfl
@[simp] theorem State.updLink_toCaa (f : Link → Link) : (s.updLink f).toCaa = s.toCaa := rfl
@[simp] theorem State.updLink_grantsOut (f : Link → Link) : (s.updLink f).grantsOut = s.grantsOut := rfl
@[simp] theorem State.updLink_pending (f : Link → Link) : (s.updLink f).pending = s.pending := rfl

/-! ### State.tellWev -/

@[simp] theorem State.tellWev_inReset (b : BayId) (m : WevMsg) : (s.tellWev b m).inReset = s.inReset := rfl
@[simp] theorem State.tellWev_profiles (b : BayId) (m : WevMsg) : (s.tellWev b m).profiles = s.profiles := rfl
@[simp] theorem State.tellWev_scan (b : BayId) (m : WevMsg) : (s.tellWev b m).scan = s.scan := rfl
@[simp] theorem State.tellWev_wev (b : BayId) (m : WevMsg) : (s.tellWev b m).wev = s.wev := rfl
@[simp] theorem State.tellWev_bays (b : BayId) (m : WevMsg) : (s.tellWev b m).bays = s.bays := rfl
@[simp] theorem State.tellWev_sbc (b : BayId) (m : WevMsg) : (s.tellWev b m).sbc = s.sbc := rfl
@[simp] theorem State.tellWev_caa (b : BayId) (m : WevMsg) : (s.tellWev b m).caa = s.caa := rfl
@[simp] theorem State.tellWev_pool (b : BayId) (m : WevMsg) : (s.tellWev b m).pool = s.pool := rfl
@[simp] theorem State.tellWev_bank (b : BayId) (m : WevMsg) : (s.tellWev b m).bank = s.bank := rfl
@[simp] theorem State.tellWev_plm (b : BayId) (m : WevMsg) : (s.tellWev b m).plm = s.plm := rfl
@[simp] theorem State.tellWev_nqa (b : BayId) (m : WevMsg) : (s.tellWev b m).nqa = s.nqa := rfl
@[simp] theorem State.tellWev_link (b : BayId) (m : WevMsg) : (s.tellWev b m).link = s.link := rfl
@[simp] theorem State.tellWev_toWev (b : BayId) (m : WevMsg) : (s.tellWev b m).toWev = updAt s.toWev b (· ++ [m]) := rfl
@[simp] theorem State.tellWev_toBsq (b : BayId) (m : WevMsg) : (s.tellWev b m).toBsq = s.toBsq := rfl
@[simp] theorem State.tellWev_toScan (b : BayId) (m : WevMsg) : (s.tellWev b m).toScan = s.toScan := rfl
@[simp] theorem State.tellWev_toCaa (b : BayId) (m : WevMsg) : (s.tellWev b m).toCaa = s.toCaa := rfl
@[simp] theorem State.tellWev_grantsOut (b : BayId) (m : WevMsg) : (s.tellWev b m).grantsOut = s.grantsOut := rfl
@[simp] theorem State.tellWev_pending (b : BayId) (m : WevMsg) : (s.tellWev b m).pending = s.pending := rfl

/-! ### State.tellBsq -/

@[simp] theorem State.tellBsq_inReset (b : BayId) (m : BsqMsg) : (s.tellBsq b m).inReset = s.inReset := rfl
@[simp] theorem State.tellBsq_profiles (b : BayId) (m : BsqMsg) : (s.tellBsq b m).profiles = s.profiles := rfl
@[simp] theorem State.tellBsq_scan (b : BayId) (m : BsqMsg) : (s.tellBsq b m).scan = s.scan := rfl
@[simp] theorem State.tellBsq_wev (b : BayId) (m : BsqMsg) : (s.tellBsq b m).wev = s.wev := rfl
@[simp] theorem State.tellBsq_bays (b : BayId) (m : BsqMsg) : (s.tellBsq b m).bays = s.bays := rfl
@[simp] theorem State.tellBsq_sbc (b : BayId) (m : BsqMsg) : (s.tellBsq b m).sbc = s.sbc := rfl
@[simp] theorem State.tellBsq_caa (b : BayId) (m : BsqMsg) : (s.tellBsq b m).caa = s.caa := rfl
@[simp] theorem State.tellBsq_pool (b : BayId) (m : BsqMsg) : (s.tellBsq b m).pool = s.pool := rfl
@[simp] theorem State.tellBsq_bank (b : BayId) (m : BsqMsg) : (s.tellBsq b m).bank = s.bank := rfl
@[simp] theorem State.tellBsq_plm (b : BayId) (m : BsqMsg) : (s.tellBsq b m).plm = s.plm := rfl
@[simp] theorem State.tellBsq_nqa (b : BayId) (m : BsqMsg) : (s.tellBsq b m).nqa = s.nqa := rfl
@[simp] theorem State.tellBsq_link (b : BayId) (m : BsqMsg) : (s.tellBsq b m).link = s.link := rfl
@[simp] theorem State.tellBsq_toWev (b : BayId) (m : BsqMsg) : (s.tellBsq b m).toWev = s.toWev := rfl
@[simp] theorem State.tellBsq_toBsq (b : BayId) (m : BsqMsg) : (s.tellBsq b m).toBsq = updAt s.toBsq b (· ++ [m]) := rfl
@[simp] theorem State.tellBsq_toScan (b : BayId) (m : BsqMsg) : (s.tellBsq b m).toScan = s.toScan := rfl
@[simp] theorem State.tellBsq_toCaa (b : BayId) (m : BsqMsg) : (s.tellBsq b m).toCaa = s.toCaa := rfl
@[simp] theorem State.tellBsq_grantsOut (b : BayId) (m : BsqMsg) : (s.tellBsq b m).grantsOut = s.grantsOut := rfl
@[simp] theorem State.tellBsq_pending (b : BayId) (m : BsqMsg) : (s.tellBsq b m).pending = s.pending := rfl

/-! ### State.tellCaa -/

@[simp] theorem State.tellCaa_inReset (m : CaaMsg) : (s.tellCaa m).inReset = s.inReset := rfl
@[simp] theorem State.tellCaa_profiles (m : CaaMsg) : (s.tellCaa m).profiles = s.profiles := rfl
@[simp] theorem State.tellCaa_scan (m : CaaMsg) : (s.tellCaa m).scan = s.scan := rfl
@[simp] theorem State.tellCaa_wev (m : CaaMsg) : (s.tellCaa m).wev = s.wev := rfl
@[simp] theorem State.tellCaa_bays (m : CaaMsg) : (s.tellCaa m).bays = s.bays := rfl
@[simp] theorem State.tellCaa_sbc (m : CaaMsg) : (s.tellCaa m).sbc = s.sbc := rfl
@[simp] theorem State.tellCaa_caa (m : CaaMsg) : (s.tellCaa m).caa = s.caa := rfl
@[simp] theorem State.tellCaa_pool (m : CaaMsg) : (s.tellCaa m).pool = s.pool := rfl
@[simp] theorem State.tellCaa_bank (m : CaaMsg) : (s.tellCaa m).bank = s.bank := rfl
@[simp] theorem State.tellCaa_plm (m : CaaMsg) : (s.tellCaa m).plm = s.plm := rfl
@[simp] theorem State.tellCaa_nqa (m : CaaMsg) : (s.tellCaa m).nqa = s.nqa := rfl
@[simp] theorem State.tellCaa_link (m : CaaMsg) : (s.tellCaa m).link = s.link := rfl
@[simp] theorem State.tellCaa_toWev (m : CaaMsg) : (s.tellCaa m).toWev = s.toWev := rfl
@[simp] theorem State.tellCaa_toBsq (m : CaaMsg) : (s.tellCaa m).toBsq = s.toBsq := rfl
@[simp] theorem State.tellCaa_toScan (m : CaaMsg) : (s.tellCaa m).toScan = s.toScan := rfl
@[simp] theorem State.tellCaa_toCaa (m : CaaMsg) : (s.tellCaa m).toCaa = s.toCaa ++ [m] := rfl
@[simp] theorem State.tellCaa_grantsOut (m : CaaMsg) : (s.tellCaa m).grantsOut = s.grantsOut := rfl
@[simp] theorem State.tellCaa_pending (m : CaaMsg) : (s.tellCaa m).pending = s.pending := rfl

/-! ### State.handGrant -/

@[simp] theorem State.handGrant_inReset (m : GrantMsg) : (s.handGrant m).inReset = s.inReset := rfl
@[simp] theorem State.handGrant_profiles (m : GrantMsg) : (s.handGrant m).profiles = s.profiles := rfl
@[simp] theorem State.handGrant_scan (m : GrantMsg) : (s.handGrant m).scan = s.scan := rfl
@[simp] theorem State.handGrant_wev (m : GrantMsg) : (s.handGrant m).wev = s.wev := rfl
@[simp] theorem State.handGrant_bays (m : GrantMsg) : (s.handGrant m).bays = s.bays := rfl
@[simp] theorem State.handGrant_sbc (m : GrantMsg) : (s.handGrant m).sbc = s.sbc := rfl
@[simp] theorem State.handGrant_caa (m : GrantMsg) : (s.handGrant m).caa = s.caa := rfl
@[simp] theorem State.handGrant_pool (m : GrantMsg) : (s.handGrant m).pool = s.pool := rfl
@[simp] theorem State.handGrant_bank (m : GrantMsg) : (s.handGrant m).bank = s.bank := rfl
@[simp] theorem State.handGrant_plm (m : GrantMsg) : (s.handGrant m).plm = s.plm := rfl
@[simp] theorem State.handGrant_nqa (m : GrantMsg) : (s.handGrant m).nqa = s.nqa := rfl
@[simp] theorem State.handGrant_link (m : GrantMsg) : (s.handGrant m).link = s.link := rfl
@[simp] theorem State.handGrant_toWev (m : GrantMsg) : (s.handGrant m).toWev = s.toWev := rfl
@[simp] theorem State.handGrant_toBsq (m : GrantMsg) : (s.handGrant m).toBsq = s.toBsq := rfl
@[simp] theorem State.handGrant_toScan (m : GrantMsg) : (s.handGrant m).toScan = s.toScan := rfl
@[simp] theorem State.handGrant_toCaa (m : GrantMsg) : (s.handGrant m).toCaa = s.toCaa := rfl
@[simp] theorem State.handGrant_grantsOut (m : GrantMsg) : (s.handGrant m).grantsOut = s.grantsOut ++ [m] := rfl
@[simp] theorem State.handGrant_pending (m : GrantMsg) : (s.handGrant m).pending = s.pending := rfl

/-! ### A write queued at SBC (R86, R94) -/

@[simp] theorem StageBus.write_queue (x : StageBus) (b : BayId) (k : WriteKind) (v l : Nat) :
    (x.write b k v l).queue = joinWrite b k v l x.queue := rfl
@[simp] theorem StageBus.write_newer (x : StageBus) (b : BayId) (k : WriteKind) (v l : Nat) :
    (x.write b k v l).newer = (x.newer || x.hasTaken b) := rfl
@[simp] theorem StageBus.write_inFlight (x : StageBus) (b : BayId) (k : WriteKind) (v l : Nat) :
    (x.write b k v l).inFlight = x.inFlight := rfl
@[simp] theorem StageBus.write_abandoned (x : StageBus) (b : BayId) (k : WriteKind) (v l : Nat) :
    (x.write b k v l).abandoned = x.abandoned := rfl
@[simp] theorem StageBus.write_recovery (x : StageBus) (b : BayId) (k : WriteKind) (v l : Nat) :
    (x.write b k v l).recovery = x.recovery := rfl
@[simp] theorem StageBus.write_bus (x : StageBus) (b : BayId) (k : WriteKind) (v l : Nat) :
    (x.write b k v l).bus = x.bus := rfl
@[simp] theorem StageBus.write_listening (x : StageBus) (b : BayId) (k : WriteKind) (v l : Nat) :
    (x.write b k v l).listening = x.listening := rfl
@[simp] theorem StageBus.write_timer (x : StageBus) (b : BayId) (k : WriteKind) (v l : Nat) :
    (x.write b k v l).timer = x.timer := rfl
@[simp] theorem StageBus.write_stallCount (x : StageBus) (b : BayId) (k : WriteKind) (v l : Nat) :
    (x.write b k v l).stallCount = x.stallCount := rfl
@[simp] theorem StageBus.write_faultLow (x : StageBus) (b : BayId) (k : WriteKind) (v l : Nat) :
    (x.write b k v l).faultLow = x.faultLow := rfl

/-! ### A stall at SBC (R96, R97) -/

@[simp] theorem StageBus.stall_queue (l : List BayId) (x : StageBus) : (x.stall l).queue = [.broadcastOff] := rfl
@[simp] theorem StageBus.stall_inFlight (l : List BayId) (x : StageBus) : (x.stall l).inFlight = none := rfl
@[simp] theorem StageBus.stall_abandoned (l : List BayId) (x : StageBus) : (x.stall l).abandoned = none := rfl
@[simp] theorem StageBus.stall_newer (l : List BayId) (x : StageBus) : (x.stall l).newer = false := rfl
@[simp] theorem StageBus.stall_recovery (l : List BayId) (x : StageBus) : (x.stall l).recovery = l := rfl
@[simp] theorem StageBus.stall_bus (l : List BayId) (x : StageBus) : (x.stall l).bus = .stalled := rfl
@[simp] theorem StageBus.stall_listening (l : List BayId) (x : StageBus) : (x.stall l).listening = false := rfl
@[simp] theorem StageBus.stall_timer (l : List BayId) (x : StageBus) : (x.stall l).timer = .passed := rfl
@[simp] theorem StageBus.stall_stallCount (l : List BayId) (x : StageBus) :
    (x.stall l).stallCount = satAdd 255 x.stallCount 1 := rfl
@[simp] theorem StageBus.stall_faultLow (l : List BayId) (x : StageBus) : (x.stall l).faultLow = x.faultLow := rfl

/-- Whom a stall leaves awaiting the recovery broadcast (R97). -/
theorem State.mem_awaitRecovery {s : State} {b : BayId} :
    b ∈ s.awaitRecovery ↔ b ∈ s.sbc.recovery ∨ (s.bay b).inHand = true := by
  simp [State.awaitRecovery, allBays]

/-! ### The numbered records after an update of something else -/

@[simp] theorem State.updWev_bay (i : BayId) (b : BayId) (f : WevBay → WevBay) : (s.updWev b f).bay i = s.bay i := rfl
@[simp] theorem State.updTrims_bay (i : BayId) (b : BayId) (f : TrimSet → TrimSet) : (s.updTrims b f).bay i = s.bay i := rfl
@[simp] theorem State.updString_bay (i : BayId) (x : StringId) (f : BankString → BankString) : (s.updString x f).bay i = s.bay i := rfl
@[simp] theorem State.updNqa_bay (i : BayId) (f : Nqa → Nqa) : (s.updNqa f).bay i = s.bay i := rfl
@[simp] theorem State.updSbc_bay (i : BayId) (f : StageBus → StageBus) : (s.updSbc f).bay i = s.bay i := rfl
@[simp] theorem State.updCaa_bay (i : BayId) (f : Allowance → Allowance) : (s.updCaa f).bay i = s.bay i := rfl
@[simp] theorem State.updPool_bay (i : BayId) (f : Pool → Pool) : (s.updPool f).bay i = s.bay i := rfl
@[simp] theorem State.updPlm_bay (i : BayId) (f : Matcher → Matcher) : (s.updPlm f).bay i = s.bay i := rfl
@[simp] theorem State.updLink_bay (i : BayId) (f : Link → Link) : (s.updLink f).bay i = s.bay i := rfl
@[simp] theorem State.tellWev_bay (i : BayId) (b : BayId) (m : WevMsg) : (s.tellWev b m).bay i = s.bay i := rfl
@[simp] theorem State.tellBsq_bay (i : BayId) (b : BayId) (m : BsqMsg) : (s.tellBsq b m).bay i = s.bay i := rfl
@[simp] theorem State.tellCaa_bay (i : BayId) (m : CaaMsg) : (s.tellCaa m).bay i = s.bay i := rfl
@[simp] theorem State.handGrant_bay (i : BayId) (m : GrantMsg) : (s.handGrant m).bay i = s.bay i := rfl

@[simp] theorem State.updBay_wevBay (i : BayId) (b : BayId) (f : Bay → Bay) : (s.updBay b f).wevBay i = s.wevBay i := rfl
@[simp] theorem State.updTrims_wevBay (i : BayId) (b : BayId) (f : TrimSet → TrimSet) : (s.updTrims b f).wevBay i = s.wevBay i := rfl
@[simp] theorem State.updString_wevBay (i : BayId) (x : StringId) (f : BankString → BankString) : (s.updString x f).wevBay i = s.wevBay i := rfl
@[simp] theorem State.updNqa_wevBay (i : BayId) (f : Nqa → Nqa) : (s.updNqa f).wevBay i = s.wevBay i := rfl
@[simp] theorem State.updSbc_wevBay (i : BayId) (f : StageBus → StageBus) : (s.updSbc f).wevBay i = s.wevBay i := rfl
@[simp] theorem State.updCaa_wevBay (i : BayId) (f : Allowance → Allowance) : (s.updCaa f).wevBay i = s.wevBay i := rfl
@[simp] theorem State.updPool_wevBay (i : BayId) (f : Pool → Pool) : (s.updPool f).wevBay i = s.wevBay i := rfl
@[simp] theorem State.updPlm_wevBay (i : BayId) (f : Matcher → Matcher) : (s.updPlm f).wevBay i = s.wevBay i := rfl
@[simp] theorem State.updLink_wevBay (i : BayId) (f : Link → Link) : (s.updLink f).wevBay i = s.wevBay i := rfl
@[simp] theorem State.tellWev_wevBay (i : BayId) (b : BayId) (m : WevMsg) : (s.tellWev b m).wevBay i = s.wevBay i := rfl
@[simp] theorem State.tellBsq_wevBay (i : BayId) (b : BayId) (m : BsqMsg) : (s.tellBsq b m).wevBay i = s.wevBay i := rfl
@[simp] theorem State.tellCaa_wevBay (i : BayId) (m : CaaMsg) : (s.tellCaa m).wevBay i = s.wevBay i := rfl
@[simp] theorem State.handGrant_wevBay (i : BayId) (m : GrantMsg) : (s.handGrant m).wevBay i = s.wevBay i := rfl

@[simp] theorem State.updBay_trims (i : BayId) (b : BayId) (f : Bay → Bay) : (s.updBay b f).trims i = s.trims i := rfl
@[simp] theorem State.updWev_trims (i : BayId) (b : BayId) (f : WevBay → WevBay) : (s.updWev b f).trims i = s.trims i := rfl
@[simp] theorem State.updString_trims (i : BayId) (x : StringId) (f : BankString → BankString) : (s.updString x f).trims i = s.trims i := rfl
@[simp] theorem State.updNqa_trims (i : BayId) (f : Nqa → Nqa) : (s.updNqa f).trims i = s.trims i := rfl
@[simp] theorem State.updSbc_trims (i : BayId) (f : StageBus → StageBus) : (s.updSbc f).trims i = s.trims i := rfl
@[simp] theorem State.updCaa_trims (i : BayId) (f : Allowance → Allowance) : (s.updCaa f).trims i = s.trims i := rfl
@[simp] theorem State.updPool_trims (i : BayId) (f : Pool → Pool) : (s.updPool f).trims i = s.trims i := rfl
@[simp] theorem State.updPlm_trims (i : BayId) (f : Matcher → Matcher) : (s.updPlm f).trims i = s.trims i := rfl
@[simp] theorem State.updLink_trims (i : BayId) (f : Link → Link) : (s.updLink f).trims i = s.trims i := rfl
@[simp] theorem State.tellWev_trims (i : BayId) (b : BayId) (m : WevMsg) : (s.tellWev b m).trims i = s.trims i := rfl
@[simp] theorem State.tellBsq_trims (i : BayId) (b : BayId) (m : BsqMsg) : (s.tellBsq b m).trims i = s.trims i := rfl
@[simp] theorem State.tellCaa_trims (i : BayId) (m : CaaMsg) : (s.tellCaa m).trims i = s.trims i := rfl
@[simp] theorem State.handGrant_trims (i : BayId) (m : GrantMsg) : (s.handGrant m).trims i = s.trims i := rfl

@[simp] theorem State.updBay_string (i : StringId) (b : BayId) (f : Bay → Bay) : (s.updBay b f).string i = s.string i := rfl
@[simp] theorem State.updWev_string (i : StringId) (b : BayId) (f : WevBay → WevBay) : (s.updWev b f).string i = s.string i := rfl
@[simp] theorem State.updTrims_string (i : StringId) (b : BayId) (f : TrimSet → TrimSet) : (s.updTrims b f).string i = s.string i := rfl
@[simp] theorem State.updNqa_string (i : StringId) (f : Nqa → Nqa) : (s.updNqa f).string i = s.string i := rfl
@[simp] theorem State.updSbc_string (i : StringId) (f : StageBus → StageBus) : (s.updSbc f).string i = s.string i := rfl
@[simp] theorem State.updCaa_string (i : StringId) (f : Allowance → Allowance) : (s.updCaa f).string i = s.string i := rfl
@[simp] theorem State.updPool_string (i : StringId) (f : Pool → Pool) : (s.updPool f).string i = s.string i := rfl
@[simp] theorem State.updPlm_string (i : StringId) (f : Matcher → Matcher) : (s.updPlm f).string i = s.string i := rfl
@[simp] theorem State.updLink_string (i : StringId) (f : Link → Link) : (s.updLink f).string i = s.string i := rfl
@[simp] theorem State.tellWev_string (i : StringId) (b : BayId) (m : WevMsg) : (s.tellWev b m).string i = s.string i := rfl
@[simp] theorem State.tellBsq_string (i : StringId) (b : BayId) (m : BsqMsg) : (s.tellBsq b m).string i = s.string i := rfl
@[simp] theorem State.tellCaa_string (i : StringId) (m : CaaMsg) : (s.tellCaa m).string i = s.string i := rfl
@[simp] theorem State.handGrant_string (i : StringId) (m : GrantMsg) : (s.handGrant m).string i = s.string i := rfl

@[simp] theorem State.updBay_grantOf (i : BayId) (b : BayId) (f : Bay → Bay) : (s.updBay b f).grantOf i = s.grantOf i := rfl
@[simp] theorem State.updWev_grantOf (i : BayId) (b : BayId) (f : WevBay → WevBay) : (s.updWev b f).grantOf i = s.grantOf i := rfl
@[simp] theorem State.updTrims_grantOf (i : BayId) (b : BayId) (f : TrimSet → TrimSet) : (s.updTrims b f).grantOf i = s.grantOf i := rfl
@[simp] theorem State.updString_grantOf (i : BayId) (x : StringId) (f : BankString → BankString) : (s.updString x f).grantOf i = s.grantOf i := rfl
@[simp] theorem State.updNqa_grantOf (i : BayId) (f : Nqa → Nqa) : (s.updNqa f).grantOf i = s.grantOf i := rfl
@[simp] theorem State.updSbc_grantOf (i : BayId) (f : StageBus → StageBus) : (s.updSbc f).grantOf i = s.grantOf i := rfl
@[simp] theorem State.updPool_grantOf (i : BayId) (f : Pool → Pool) : (s.updPool f).grantOf i = s.grantOf i := rfl
@[simp] theorem State.updPlm_grantOf (i : BayId) (f : Matcher → Matcher) : (s.updPlm f).grantOf i = s.grantOf i := rfl
@[simp] theorem State.updLink_grantOf (i : BayId) (f : Link → Link) : (s.updLink f).grantOf i = s.grantOf i := rfl
@[simp] theorem State.tellWev_grantOf (i : BayId) (b : BayId) (m : WevMsg) : (s.tellWev b m).grantOf i = s.grantOf i := rfl
@[simp] theorem State.tellBsq_grantOf (i : BayId) (b : BayId) (m : BsqMsg) : (s.tellBsq b m).grantOf i = s.grantOf i := rfl
@[simp] theorem State.tellCaa_grantOf (i : BayId) (m : CaaMsg) : (s.tellCaa m).grantOf i = s.grantOf i := rfl
@[simp] theorem State.handGrant_grantOf (i : BayId) (m : GrantMsg) : (s.handGrant m).grantOf i = s.grantOf i := rfl

@[simp] theorem State.updBay_slot (i : ProfileId) (b : BayId) (f : Bay → Bay) : (s.updBay b f).slot i = s.slot i := rfl
@[simp] theorem State.updWev_slot (i : ProfileId) (b : BayId) (f : WevBay → WevBay) : (s.updWev b f).slot i = s.slot i := rfl
@[simp] theorem State.updTrims_slot (i : ProfileId) (b : BayId) (f : TrimSet → TrimSet) : (s.updTrims b f).slot i = s.slot i := rfl
@[simp] theorem State.updString_slot (i : ProfileId) (x : StringId) (f : BankString → BankString) : (s.updString x f).slot i = s.slot i := rfl
@[simp] theorem State.updNqa_slot (i : ProfileId) (f : Nqa → Nqa) : (s.updNqa f).slot i = s.slot i := rfl
@[simp] theorem State.updSbc_slot (i : ProfileId) (f : StageBus → StageBus) : (s.updSbc f).slot i = s.slot i := rfl
@[simp] theorem State.updCaa_slot (i : ProfileId) (f : Allowance → Allowance) : (s.updCaa f).slot i = s.slot i := rfl
@[simp] theorem State.updPool_slot (i : ProfileId) (f : Pool → Pool) : (s.updPool f).slot i = s.slot i := rfl
@[simp] theorem State.updPlm_slot (i : ProfileId) (f : Matcher → Matcher) : (s.updPlm f).slot i = s.slot i := rfl
@[simp] theorem State.updLink_slot (i : ProfileId) (f : Link → Link) : (s.updLink f).slot i = s.slot i := rfl
@[simp] theorem State.tellWev_slot (i : ProfileId) (b : BayId) (m : WevMsg) : (s.tellWev b m).slot i = s.slot i := rfl
@[simp] theorem State.tellBsq_slot (i : ProfileId) (b : BayId) (m : BsqMsg) : (s.tellBsq b m).slot i = s.slot i := rfl
@[simp] theorem State.tellCaa_slot (i : ProfileId) (m : CaaMsg) : (s.tellCaa m).slot i = s.slot i := rfl
@[simp] theorem State.handGrant_slot (i : ProfileId) (m : GrantMsg) : (s.handGrant m).slot i = s.slot i := rfl

@[simp] theorem State.updBay_seat (i : SeatId) (b : BayId) (f : Bay → Bay) : (s.updBay b f).seat i = s.seat i := rfl
@[simp] theorem State.updWev_seat (i : SeatId) (b : BayId) (f : WevBay → WevBay) : (s.updWev b f).seat i = s.seat i := rfl
@[simp] theorem State.updTrims_seat (i : SeatId) (b : BayId) (f : TrimSet → TrimSet) : (s.updTrims b f).seat i = s.seat i := rfl
@[simp] theorem State.updNqa_seat (i : SeatId) (f : Nqa → Nqa) : (s.updNqa f).seat i = s.seat i := rfl
@[simp] theorem State.updSbc_seat (i : SeatId) (f : StageBus → StageBus) : (s.updSbc f).seat i = s.seat i := rfl
@[simp] theorem State.updCaa_seat (i : SeatId) (f : Allowance → Allowance) : (s.updCaa f).seat i = s.seat i := rfl
@[simp] theorem State.updPool_seat (i : SeatId) (f : Pool → Pool) : (s.updPool f).seat i = s.seat i := rfl
@[simp] theorem State.updPlm_seat (i : SeatId) (f : Matcher → Matcher) : (s.updPlm f).seat i = s.seat i := rfl
@[simp] theorem State.updLink_seat (i : SeatId) (f : Link → Link) : (s.updLink f).seat i = s.seat i := rfl
@[simp] theorem State.tellWev_seat (i : SeatId) (b : BayId) (m : WevMsg) : (s.tellWev b m).seat i = s.seat i := rfl
@[simp] theorem State.tellBsq_seat (i : SeatId) (b : BayId) (m : BsqMsg) : (s.tellBsq b m).seat i = s.seat i := rfl
@[simp] theorem State.tellCaa_seat (i : SeatId) (m : CaaMsg) : (s.tellCaa m).seat i = s.seat i := rfl
@[simp] theorem State.handGrant_seat (i : SeatId) (m : GrantMsg) : (s.handGrant m).seat i = s.seat i := rfl

@[simp] theorem State.updBay_bay (b i : BayId) (f : Bay → Bay) :
    (s.updBay b f).bay i = if b = i then f (s.bay b) else s.bay i := by simp [State.bay]

@[simp] theorem State.updWev_wevBay (b i : BayId) (f : WevBay → WevBay) :
    (s.updWev b f).wevBay i = if b = i then f (s.wevBay b) else s.wevBay i := by simp [State.wevBay]

@[simp] theorem State.updTrims_trims (b i : BayId) (f : TrimSet → TrimSet) :
    (s.updTrims b f).trims i = if b = i then f (s.trims b) else s.trims i := by simp [State.trims]

@[simp] theorem State.updString_string (x i : StringId) (f : BankString → BankString) :
    (s.updString x f).string i = if x = i then f (s.string x) else s.string i := by simp [State.string]

end

end Sys2Proof.Machine
end

