-- ==== Sys2Proof/Laws/Lookups.lean ====
section
/-! SUPPORT. The searches over numbered records as statements about records: slots in use, tags held, seats. -/

namespace Sys2Proof.Machine

theorem any_toList {α : Type} {n : Nat} (v : Vector α n) (p : α → Bool) :
    v.toList.any p = true ↔ ∃ i : Fin n, p (v.get i) = true := by
  simp only [List.any_eq_true, Vector.mem_toList_iff, Vector.mem_iff_getElem, Vector.get_eq_getElem]
  constructor
  · rintro ⟨x, ⟨i, hi, rfl⟩, h⟩; exact ⟨⟨i, hi⟩, h⟩
  · rintro ⟨i, h⟩; exact ⟨_, ⟨i.val, i.isLt, rfl⟩, h⟩

theorem slotInUse_iff (s : State) (k : ProfileId) : s.slotInUse k = true ↔ s.inUse k := by
  have hb : ∀ b, ((s.bays.get b).state.refersToProfile && (s.bays.get b).profile == some k) = true ↔
      (s.bay b).state ≠ .empty ∧ (s.bay b).state ≠ .cal ∧ (s.bay b).profile = some k := by
    intro b
    show ((s.bay b).state.refersToProfile && (s.bay b).profile == some k) = true ↔ _
    cases h : (s.bay b).state <;> simp [BayState.refersToProfile]
  simp only [State.slotInUse, Bool.or_eq_true, or_assoc]
  rw [any_toList, any_toList]
  simp only [hb, State.inUse, List.any_eq_true, Bool.and_eq_true, bne_iff_ne, beq_iff_eq, State.string]

/-! ### Seats -/

theorem position_isSome (x : BankString) (pos : Nat) :
    (x.position pos).isSome = true ↔ 1 ≤ pos ∧ pos ≤ x.positions.length := by
  unfold BankString.position
  split <;> simp <;> omega

theorem mem_seats (x : BankString) (e : Seat) :
    e ∈ x.seats ↔ ∃ pos p, x.position pos = some p ∧ (e = p.a ∨ e = p.b) := by
  simp only [BankString.seats, List.mem_flatMap, List.mem_cons, List.not_mem_nil, or_false]
  constructor
  · rintro ⟨p, hp, h⟩
    obtain ⟨i, hi, rfl⟩ := List.mem_iff_getElem.mp hp
    exact ⟨i + 1, _, by simp [BankString.position, hi], h⟩
  · rintro ⟨pos, p, hp, h⟩
    unfold BankString.position at hp
    split at hp
    · simp at hp
    · exact ⟨p, List.mem_of_getElem? hp, h⟩

/-- A seat of the bank is a seat of its string. -/
theorem seat_mem {s : State} {id : SeatId} {e : Seat} (h : s.seat id = some e) : e ∈ (s.string id.str).seats := by
  unfold State.seat at h
  obtain ⟨p, hp, rfl⟩ := Option.map_eq_some_iff.mp h
  exact (mem_seats _ _).mpr ⟨id.pos, p, hp, by cases id.seat <;> simp [Position.get]⟩

theorem mem_string_seats (s : State) (x : StringId) (e : Seat) :
    e ∈ (s.string x).seats ↔ ∃ pos n, s.seat ⟨x, pos, n⟩ = some e := by
  constructor
  · intro h
    obtain ⟨pos, p, hp, h⟩ := (mem_seats _ _).mp h
    rcases h with rfl | rfl
    · exact ⟨pos, .a, by simp [State.seat, hp, Position.get]⟩
    · exact ⟨pos, .b, by simp [State.seat, hp, Position.get]⟩
  · rintro ⟨pos, n, h⟩; exact seat_mem h

theorem tagHeld_iff (s : State) (tag : Nat) : s.tagHeld tag = true ↔ s.holdsTag tag := by
  have hb : ∀ b, (s.bays.get b).holds tag = true ↔
      (s.bay b).state ≠ .empty ∧ (s.bay b).state ≠ .cal ∧ (s.bay b).state ≠ .done ∧ (s.bay b).tag = some tag := by
    intro b
    show ((s.bay b).state.holdsTag && (s.bay b).tag == some tag) = true ↔ _
    cases h : (s.bay b).state <;> simp [BayState.holdsTag]
  have hs : (∃ x : StringId, (s.bank.get x).seats.any (·.tag == some tag) = true) ↔
      ∃ id e, s.seat id = some e ∧ e.tag = some tag := by
    constructor
    · rintro ⟨x, h⟩
      obtain ⟨e, he, ht⟩ := List.any_eq_true.mp h
      obtain ⟨pos, n, hn⟩ := (mem_string_seats s x e).mp he
      exact ⟨_, e, hn, by simpa using ht⟩
    · rintro ⟨id, e, he, ht⟩
      exact ⟨id.str, List.any_eq_true.mpr ⟨e, seat_mem he, by simpa using ht⟩⟩
  simp only [State.tagHeld, Bool.or_eq_true, or_assoc]
  rw [any_toList, any_toList, hs]
  simp only [hb, State.holdsTag, List.any_eq_true, beq_iff_eq]

/-! ### Profiles read back (R188) -/

@[simp] theorem Profile.bytes_length (p : Profile) : p.bytes.length = 71 := by
  unfold Profile.bytes
  simp only [List.length_append, beBytes_length, sBytes_length, Nat.reduceAdd]

@[simp] theorem GradeRecord.bytes_length (g : GradeRecord) : g.bytes.length = 24 := by
  unfold GradeRecord.bytes
  simp only [List.length_append, beBytes_length, sBytes_length, List.length_cons, List.length_nil, Nat.reduceAdd]

/-- The fields are numbered 1 to 39 in order. -/
theorem Profile.checks_numbers (p : Profile) : p.checks.map Prod.fst = List.range' 1 39 := rfl

/-- A profile read from its own bytes is that profile. -/
theorem Profile.ofBytes_bytes (p : Profile) (n : Byte) (h : p.encodable) : Profile.ofBytes (n :: p.bytes) 1 = p := by
  obtain ⟨h2, h1, hs⟩ := h
  have us : ∀ (x : Int) (l : List Byte), -32768 ≤ x ∧ x ≤ 32767 → sField (sBytes 2 x ++ l) 0 2 = x := fun x l hx =>
    sField_sBytes 2 x l (by norm_num; omega) (by norm_num; omega)
  simp only [List.mem_cons, List.not_mem_nil, or_false, forall_eq_or_imp, forall_eq] at h2 h1 hs
  unfold Profile.ofBytes Profile.bytes
  simp only [List.append_assoc, uField_cons_succ, sField_cons_succ, Nat.reduceAdd, Nat.reduceSub, uField_beBytes,
    uField_beBytes_nil, uField_skip_beBytes, uField_skip_sBytes, sField_skip, beBytes_length, sBytes_length, h1, h2,
    Nat.reduceLeDiff, Nat.reducePow, Nat.mod_eq_of_lt, le_refl, Nat.sub_self]
  rw [us _ _ hs.1, us _ _ hs.2]

/-! ### Marks, causes and grade records read back (R187, R188, R194) -/

theorem marksOf_byte (m : Marks) : marksOf m.byte = m := by
  obtain ⟨a, b, c, d, e, f⟩ := m
  cases a <;> cases b <;> cases c <;> cases d <;> cases e <;> cases f <;> rfl

theorem marks_byte_lt (m : Marks) : m.byte.toNat < 64 := by
  obtain ⟨a, b, c, d, e, f⟩ := m
  cases a <;> cases b <;> cases c <;> cases d <;> cases e <;> cases f <;> decide

theorem causesOf_byte (m : Causes) : causesOf m.byte = m := by
  obtain ⟨a, b, c, d, e, f⟩ := m
  cases a <;> cases b <;> cases c <;> cases d <;> cases e <;> cases f <;> rfl

theorem causes_byte (x : Byte) (h : x.toNat < 64) : (causesOf x).byte = x := by
  have all : ∀ y : Fin 64, (causesOf (BitVec.ofNat 8 y.val)).byte = BitVec.ofNat 8 y.val := by decide
  have := all ⟨x.toNat, h⟩
  simpa using this

/-- A record given on the link, behind other bytes, is read back. -/
theorem gradeOfBytes_bytes (pre : List Byte) (g : GradeRecord) (h : g.given) :
    gradeOfBytes (pre ++ g.bytes) pre.length = some g := by
  obtain ⟨cls, rej, htag, hcraw, hlo, hhi, hcc, hsoh, ⟨r, k, hres, hr, hk⟩, hsd⟩ := h
  have go : ∀ off w, uField (pre ++ g.bytes) (pre.length + off) w = uField g.bytes off w := by
    intro off w; rw [uField_skip _ _ _ _ (by omega)]; congr 1; omega
  have go0 : ∀ w, uField (pre ++ g.bytes) pre.length w = uField g.bytes 0 w := by
    intro w; simpa using go 0 w
  have gs : sField (pre ++ g.bytes) (pre.length + 10) 2 = sField g.bytes 10 2 := by
    rw [sField_skip _ _ _ _ (by omega)]; congr 1; omega
  have gm : (pre ++ g.bytes).getD (pre.length + 23) 0 = g.marks.byte := by
    rw [List.getD_append_right _ _ _ _ (by omega)]
    simp [GradeRecord.bytes, beBytes, sBytes]
  obtain ⟨tag, prof, bay, cl, rj, craw, tm, ccorr, soh, res, sd, marks⟩ := g
  subst rej hres
  simp only at *
  have us : ∀ l, sField (sBytes 2 tm ++ l) 0 2 = tm := fun l =>
    sField_sBytes 2 tm l (by norm_num; omega) (by norm_num; omega)
  unfold gradeOfBytes
  simp only [go, go0, gs, gm]
  have hp : ∀ d : Option Nat, (bitIf (some (r, k)).isSome 0 ||| bitIf d.isSome 1).toNat = if d.isSome then 3 else 1 := by
    intro d
    cases d with
    | none => exact (by decide : (bitIf true 0 ||| bitIf false 1).toNat = 1)
    | some _ => exact (by decide : (bitIf true 0 ||| bitIf true 1).toNat = 3)
  simp only [GradeRecord.bytes, List.append_assoc, List.cons_append, List.nil_append, uField_skip_beBytes,
    uField_beBytes, Nat.reduceLeDiff, Nat.reduceSub, uField_cons_succ, uField_zero_one, profileByte_toNat,
    profileOf_succ, bayByte_toNat, bayOf_succ, sField_skip, beBytes_length, uField_skip_sBytes, sField_cons_succ, us,
    Option.map_none, Option.map_some, Option.getD_none, Option.getD_some, hp, Nat.reducePow, Nat.mod_eq_of_lt, hcraw,
    htag, hcc, hsoh, hr, hk, le_refl, marks_byte_lt, marksOf_byte, classOf_code _ cls]
  cases sd with
  | none => simp
  | some d => have := hsd d rfl; simp [Nat.mod_eq_of_lt this]

end Sys2Proof.Machine
end

