-- ==== Sys2Proof/Laws/Shells.lean ====
section
/-! SUPPORT. The two shells of every command, each outcome once, and what carries over from the meanings inside them. -/

namespace Sys2Proof.Machine

variable {m : MessageKind} {t : Byte} {body : List Byte} {serve : State → State × Answer} {s u : State}
  {f : State → State} {P : State → Prop}

/-! ### Messages (R177, R178) -/

theorem message_next (m : MessageKind) (t : Byte) (body : List Byte) (serve : State → State × Answer) (s : State) :
    ∃ u, message m t body serve s = .next u := ⟨_, rfl⟩

theorem message_inReset (h : s.inReset = true) : message m t body serve s = .next s := by simp [message, h]

theorem message_overrun (h : s.inReset = false) (r : s.link.reply.isSome = true) :
    message m t body serve s = .next s.overrunFrame := by simp [message, h, r]

theorem message_held (h : s.dispatches) (held : s.link.held = true) (no : m.onHeld = false) :
    message m t body serve s = .next (s.answered m.code t (.refuse .linkHeld m.refusedBody)) := by
  simp [message, h.1, h.2, held, no]

theorem message_badLength (h : s.dispatches) (open_ : s.link.held = false ∨ m.onHeld = true)
    (size : m.takes body.length = false) :
    message m t body serve s = .next (s.answered m.code t (.refuse .badLength m.refusedBody)) := by
  rcases open_ with o | o <;> simp [message, h.1, h.2, o, size]

theorem message_served (h : s.dispatches) (open_ : s.link.held = false ∨ m.onHeld = true)
    (size : m.takes body.length = true) :
    message m t body serve s = .next ((serve s).1.answered m.code t (serve s).2) := by
  rcases open_ with o | o <;> simp [message, h.1, h.2, o, size]

theorem message_ready (h : s.ready) (size : m.takes body.length = true) :
    message m t body serve s = .next ((serve s).1.answered m.code t (serve s).2) :=
  message_served h.1 (.inl h.2) size

/-- What a request and the two changes of the receiver keep, its message keeps. -/
theorem message_keeps (onOver : ∀ s, P s → P s.overrunFrame) (ans : ∀ s k t a, P s → P (s.answered k t a))
    (serves : P s → P (serve s).1) (hs : P s) (h : message m t body serve s = .next u) : P u := by
  simp only [message, Host.Outcome.next.injEq] at h
  subst h
  split_ifs
  · exact hs
  · exact onOver _ hs
  · exact ans _ _ _ _ hs
  · exact ans _ _ _ _ (serves hs)
  · exact ans _ _ _ _ hs

/-! ### Events -/

theorem event_next (f : State → State) (s : State) : ∃ u, event f s = .next u := ⟨_, rfl⟩

@[simp] theorem event_inReset (h : s.inReset = true) : event f s = .next s := by simp [event, h]

@[simp] theorem event_runs (h : s.inReset = false) : event f s = .next (f s) := by simp [event, h]

/-- What the effect of an event keeps, the event keeps. -/
theorem event_keeps (runs : P s → P (f s)) (hs : P s) (h : event f s = .next u) : P u := by
  simp only [event, Host.Outcome.next.injEq] at h
  subst h
  split_ifs
  · exact hs
  · exact runs hs

/-! ### Requests that name a bay or a string -/

theorem onBay_some {b : BayId} {g : BayId → State → State × Answer} (h : bayOf (uField body 0 1) = some b) :
    onBay body g s = g b s := by simp [onBay, h]

theorem onBay_none {g : BayId → State → State × Answer} (h : bayOf (uField body 0 1) = none) :
    onBay body g s = (s, .refuse .notFound) := by simp [onBay, h]

theorem onString_some {x : StringId} {off : Nat} {g : StringId → State → State × Answer}
    (h : stringOf (uField body off 1) = some x) : onString body off g s = g x s := by simp [onString, h]

theorem onString_none {off : Nat} {g : StringId → State → State × Answer} (h : stringOf (uField body off 1) = none) :
    onString body off g s = (s, .refuse .notFound) := by simp [onString, h]

theorem onBay_keeps {g : BayId → State → State × Answer} (h : ∀ b, P s → P (g b s).1) (hs : P s) :
    P (onBay body g s).1 := by
  unfold onBay; split
  · exact hs
  · exact h _ hs

theorem onString_keeps {off : Nat} {g : StringId → State → State × Answer} (h : ∀ x, P s → P (g x s).1) (hs : P s) :
    P (onString body off g s).1 := by
  unfold onString; split
  · exact hs
  · exact h _ hs

/-! ### Numbered records written outright -/

/-- A numbered record written and then changed by a function of itself. -/
@[simp] theorem updAt_set {α : Type} {n : Nat} (v : Vector α n) (i : Fin n) (x : α) (f : α → α) :
    updAt (v.set i.val x i.isLt) i f = v.set i.val (f x) i.isLt := by
  simp [updAt, Vector.get_eq_getElem]

@[simp] theorem updAt_updAt {α : Type} {n : Nat} (v : Vector α n) (i : Fin n) (f g : α → α) :
    updAt (updAt v i f) i g = updAt v i (g ∘ f) := by simp [updAt, Vector.get_eq_getElem]

/-- A record replaced is a record written. -/
theorem updAt_eq_set {α : Type} {n : Nat} (v : Vector α n) (i : Fin n) (f : α → α) :
    updAt v i f = v.set i.val (f (v.get i)) i.isLt := rfl

@[simp] theorem set_get_self {α : Type} {n : Nat} (v : Vector α n) (i : Fin n) (x : α) :
    (v.set i.val x i.isLt).get i = x := by simp [Vector.get_eq_getElem]

@[simp] theorem set_own {α : Type} {n : Nat} (v : Vector α n) (i : Fin n) : v.set i.val (v.get i) i.isLt = v := by
  apply Vector.ext
  intro j hj
  by_cases h : i.val = j
  · subst h; simp [Vector.get_eq_getElem]
  · simp [Vector.getElem_set_ne, h]

theorem set_get_ne {α : Type} {n : Nat} (v : Vector α n) (i j : Fin n) (x : α) (h : i ≠ j) :
    (v.set i.val x i.isLt).get j = v.get j := by
  have h2 : i.val ≠ j.val := fun e => h (Fin.ext e)
  simp [Vector.get_eq_getElem, Vector.getElem_set_ne, h2]

end Sys2Proof.Machine
end

