-- ==== Sys2Proof/Laws/Bank.lean ====
section
/-! SUPPORT. The seats of a string: reading one after another is written, and what each operation of the bank and of the
matcher keeps of the consistency of a string (R138 to R141, R146, R147, R152, R163). -/

namespace Sys2Proof.Machine

/-! ### Positions -/

@[simp] theorem Position.get_upd (n m : SeatName) (f : Seat → Seat) (p : Position) :
    (p.upd n f).get m = if n = m then f (p.get n) else p.get m := by cases n <;> cases m <;> rfl

@[simp] theorem BankString.updPosition_state (pos : Nat) (f : Position → Position) (x : BankString) :
    (x.updPosition pos f).state = x.state := by unfold BankString.updPosition; split <;> rfl

@[simp] theorem BankString.updPosition_resCount (pos : Nat) (f : Position → Position) (x : BankString) :
    (x.updPosition pos f).resCount = x.resCount := by unfold BankString.updPosition; split <;> rfl

@[simp] theorem BankString.updPosition_length (pos : Nat) (f : Position → Position) (x : BankString) :
    (x.updPosition pos f).positions.length = x.positions.length := by
  unfold BankString.updPosition; split <;> simp

@[simp] theorem BankString.updPosition_position (pos k : Nat) (f : Position → Position) (x : BankString) :
    (x.updPosition pos f).position k = if pos = k then (x.position k).map f else x.position k := by
  unfold BankString.updPosition BankString.position
  by_cases h0 : pos = 0
  · subst h0
    by_cases hk : k = 0
    · simp [hk]
    · simp [hk, Ne.symm hk]
  · by_cases hk : k = 0
    · subst hk; simp [h0]
    · simp only [h0, hk, if_false, List.getElem?_modify]
      by_cases e : pos = k
      · subst e; simp
      · have : pos - 1 ≠ k - 1 := by omega
        simp [e, this]

/-- A position that is not there leaves the string as it is. -/
theorem BankString.updPosition_absent {x : BankString} {pos : Nat} (f : Position → Position)
    (h : x.position pos = none) : x.updPosition pos f = x := by
  unfold BankString.updPosition
  split
  · rfl
  · rename_i h0
    have : x.positions.length ≤ pos - 1 := by simpa [BankString.position, h0] using h
    rw [List.modify_eq_self this]

/-- One seat of a string among all its seats, and the seats after it is written. -/
theorem seats_split {x : BankString} {pos : Nat} {n : SeatName} {e : Seat}
    (h : (x.position pos).map (·.get n) = some e) :
    ∃ l1 l2, x.seats = l1 ++ e :: l2 ∧ ∀ f, (x.updPosition pos (Position.upd n f)).seats = l1 ++ f e :: l2 := by
  obtain ⟨p, hp, rfl⟩ := Option.map_eq_some_iff.mp h
  unfold BankString.position at hp
  split at hp
  · simp at hp
  · rename_i h0
    obtain ⟨hi, hp⟩ := List.getElem?_eq_some_iff.mp hp
    have cut : x.positions = x.positions.take (pos - 1) ++ p :: x.positions.drop (pos - 1 + 1) := by
      rw [← hp]; simp
    have upd : ∀ f, (x.updPosition pos f).positions =
        x.positions.take (pos - 1) ++ f p :: x.positions.drop (pos - 1 + 1) := by
      intro f
      simp only [BankString.updPosition, if_neg h0]
      rw [List.modify_eq_take_cons_drop hi, hp]
    cases n
    · refine ⟨(x.positions.take (pos - 1)).flatMap (fun p => [p.a, p.b]),
        p.b :: (x.positions.drop (pos - 1 + 1)).flatMap (fun p => [p.a, p.b]), ?_, fun f => ?_⟩
      · unfold BankString.seats
        conv_lhs => rw [cut]
        simp [Position.get]
      · unfold BankString.seats
        rw [upd]
        simp [Position.upd, Position.get]
    · refine ⟨(x.positions.take (pos - 1)).flatMap (fun p => [p.a, p.b]) ++ [p.a],
        (x.positions.drop (pos - 1 + 1)).flatMap (fun p => [p.a, p.b]), ?_, fun f => ?_⟩
      · unfold BankString.seats
        conv_lhs => rw [cut]
        simp [Position.get]
      · unfold BankString.seats
        rw [upd]
        simp [Position.upd, Position.get]

/-! ### Seats of the state -/

/-- A seat read after one is written. -/
theorem State.updSeat_seat (s : State) (id d : SeatId) (f : Seat → Seat) :
    (s.updSeat id f).seat d = if id = d then (s.seat d).map f else s.seat d := by
  obtain ⟨x, p, n⟩ := id
  obtain ⟨y, q, m⟩ := d
  simp only [State.seat, State.updSeat, State.updString_string]
  by_cases hx : x = y
  · subst hx
    simp only [if_true, BankString.updPosition_position]
    by_cases hp : p = q
    · subst hp
      cases hq : (s.string x).position p with
      | none => simp
      | some z => by_cases hn : n = m <;> simp [hn]
    · simp [hp]
  · simp [hx]

/-- A seat read after a string is changed outside its positions. -/
theorem State.updString_seat (s : State) (x : StringId) (f : BankString → BankString) (d : SeatId)
    (h : ∀ r, (f r).positions = r.positions) : (s.updString x f).seat d = s.seat d := by
  simp only [State.seat, State.updString_string]
  split_ifs with hx
  · subst hx; simp [BankString.position, h]
  · rfl

theorem updString_updString (s : State) (x : StringId) (f g : BankString → BankString) :
    (s.updString x f).updString x g = s.updString x (g ∘ f) := by
  simp [State.updString, updAt, Vector.get_eq_getElem]

/-! ### Consistency of a string -/

/-- What the consistency of a string says of its seats, by its state. -/
theorem consistent_iff (x : BankString) : x.consistent ↔
    x.resCount = x.seats.countP Seat.isReserved ∧ x.resCount ≤ 4 ∧
    ((x.state = .unused ∧ x = .unused) ∨
     (x.state = .forming ∧ 2 ≤ x.positions.length ∧ x.positions.length ≤ 24 ∧ (∀ e ∈ x.seats, e.stoodVacant = false) ∧
        ∃ e ∈ x.seats, e.isInstalled = false) ∨
     (x.state = .sealed ∧ 2 ≤ x.positions.length ∧ x.positions.length ≤ 24 ∧ ∀ e ∈ x.seats, e.isInstalled = true) ∨
     (x.state = .service ∧ 2 ≤ x.positions.length ∧ x.positions.length ≤ 24 ∧ (∀ e ∈ x.seats, e.stoodEmpty = false) ∧
        ∃ e ∈ x.seats, e.stoodVacant = true)) := by
  unfold BankString.consistent
  have e1 : ∀ p : Seat → Bool, (x.seats.all fun e => !p e) = true ↔ ∀ e ∈ x.seats, p e = false := by
    intro p; simp [List.all_eq_true]
  have e2 : x.seats.all Seat.isInstalled = false ↔ ∃ e ∈ x.seats, e.isInstalled = false := by
    simp [List.all_eq_false]
  rw [e1, e1, e2, List.all_eq_true, List.any_eq_true]
  cases h : x.state <;> simp [Config.maxReservations]

/-- The seats of an unused string are none. -/
theorem unused_seats : BankString.unused.seats = [] := rfl

theorem countP_mid (p : Seat → Bool) (l1 l2 : List Seat) (e : Seat) :
    (l1 ++ e :: l2).countP p = l1.countP p + l2.countP p + if p e then 1 else 0 := by
  rw [List.countP_append, List.countP_cons]; omega

/-- A reservation made over a free seat (R141, R162). -/
theorem reserve_consistent {x : BankString} {pos : Nat} {n : SeatName} {e : Seat} (tag d : Nat)
    (hs : (x.position pos).map (·.get n) = some e) (free : e.isFree = true) (room : x.resCount < 4)
    (h : x.consistent) :
    ({ x.updPosition pos (Position.upd n (Seat.reserve tag d)) with resCount := x.resCount + 1 } : BankString).consistent := by
  obtain ⟨l1, l2, h1, h2⟩ := seats_split hs
  have h2 := h2 (Seat.reserve tag d)
  rw [consistent_iff] at h ⊢
  obtain ⟨hc, -, hst⟩ := h
  have hseats : ∀ k : Nat, ({ x.updPosition pos (Position.upd n (Seat.reserve tag d)) with resCount := k } : BankString).seats
      = l1 ++ (Seat.reserve tag d e) :: l2 := fun _ => h2
  refine ⟨?_, by show x.resCount + 1 ≤ 4; omega, ?_⟩
  · rw [hseats]
    show x.resCount + 1 = _
    rw [hc, h1]
    have : e.isReserved = false := by cases e <;> simp_all [Seat.isFree, Seat.isEmpty, Seat.isVacant, Seat.isReserved]
    have h3 : (Seat.reserve tag d e).isReserved = true := rfl
    rw [countP_mid, countP_mid, this, h3]
    simp
  · rw [hseats]
    simp only [BankString.updPosition_state, BankString.updPosition_length]
    rcases hst with ⟨h3, h4⟩ | ⟨h3, h4, h5, h6, h7⟩ | ⟨h3, h4, h5, h6⟩ | ⟨h3, h4, h5, h6, h7⟩
    · exfalso; rw [h4, unused_seats] at h1; simp at h1
    · refine .inr (.inl ⟨h3, h4, h5, ?_, Seat.reserve tag d e, by simp, rfl⟩)
      rw [h1] at h6
      have he := h6 e (by simp)
      intro g hg
      rcases List.mem_append.mp hg with hg | hg
      · exact h6 g (by simp [hg])
      · rcases List.mem_cons.mp hg with rfl | hg
        · cases e <;> simp_all [Seat.reserve, Seat.under, Seat.stoodVacant]
        · exact h6 g (by simp [hg])
    · exfalso
      have := h6 e (by simp [h1])
      cases e <;> simp_all [Seat.isFree, Seat.isEmpty, Seat.isVacant, Seat.isInstalled]
    · refine .inr (.inr (.inr ⟨h3, h4, h5, ?_, Seat.reserve tag d e, by simp, ?_⟩))
      · rw [h1] at h6
        have he := h6 e (by simp)
        intro g hg
        rcases List.mem_append.mp hg with hg | hg
        · exact h6 g (by simp [hg])
        · rcases List.mem_cons.mp hg with rfl | hg
          · cases e <;> simp_all [Seat.reserve, Seat.under, Seat.stoodEmpty, Seat.isFree, Seat.isEmpty, Seat.isVacant]
          · exact h6 g (by simp [hg])
      · have he := h6 e (by simp [h1])
        cases e <;> simp_all [Seat.reserve, Seat.under, Seat.stoodVacant, Seat.stoodEmpty, Seat.isFree, Seat.isEmpty, Seat.isVacant]

/-- A seat neither installed nor over an EMPTY one is vacant in the sense of R139. -/
theorem stoodVacant_of {e : Seat} (h : e.stoodEmpty = false) (no : e.isInstalled = false) : e.stoodVacant = true := by
  revert h no
  rcases e with _ | ⟨_, _, _ | _⟩ | _ | _ <;> simp [Seat.stoodEmpty, Seat.isInstalled, Seat.stoodVacant]

theorem under_forming {tag d : Nat} {under : UnderState} (h : (Seat.reserved tag d under).stoodVacant = false) :
    under.seat = .empty := by
  cases under
  · rfl
  · exact absurd h (by simp [Seat.stoodVacant])

theorem under_service {tag d : Nat} {under : UnderState} (h : (Seat.reserved tag d under).stoodEmpty = false) :
    ∃ ov, under.seat = .vacant ov := by
  cases under with
  | empty => exact absurd h (by simp [Seat.stoodEmpty])
  | vacancy ov => exact ⟨ov, rfl⟩

/-- A reservation that ends otherwise than by installation (R141). -/
theorem return_consistent {x : BankString} {pos : Nat} {n : SeatName} {tag d : Nat} {under : UnderState}
    (hs : (x.position pos).map (·.get n) = some (.reserved tag d under)) (h : x.consistent) :
    ({ x.updPosition pos (Position.upd n fun _ => under.seat) with resCount := x.resCount - 1 } : BankString).consistent := by
  obtain ⟨l1, l2, h1, h2⟩ := seats_split hs
  have h2 := h2 fun _ => under.seat
  rw [consistent_iff] at h ⊢
  obtain ⟨hc, hle, hst⟩ := h
  have hseats : ∀ k : Nat, ({ x.updPosition pos (Position.upd n fun _ => under.seat) with resCount := k } : BankString).seats
      = l1 ++ under.seat :: l2 := fun _ => h2
  have hr : under.seat.isReserved = false := by cases under <;> rfl
  have hm : Seat.reserved tag d under ∈ x.seats := by rw [h1]; simp
  refine ⟨?_, by show x.resCount - 1 ≤ 4; omega, ?_⟩
  · rw [hseats]
    show x.resCount - 1 = _
    rw [hc, h1]
    have h3 : (Seat.reserved tag d under).isReserved = true := rfl
    rw [countP_mid, countP_mid, hr, h3]
    simp
  · rw [hseats]
    simp only [BankString.updPosition_state, BankString.updPosition_length]
    have keep : ∀ (p : Seat → Prop), (∀ g ∈ x.seats, p g) → p under.seat → ∀ g ∈ l1 ++ under.seat :: l2, p g := by
      intro p hp hu g hg
      rw [h1] at hp
      rcases List.mem_append.mp hg with hg | hg
      · exact hp g (by simp [hg])
      · rcases List.mem_cons.mp hg with rfl | hg
        · exact hu
        · exact hp g (by simp [hg])
    rcases hst with ⟨h3, h4⟩ | ⟨h3, h4, h5, h6, h7⟩ | ⟨h3, h4, h5, h6⟩ | ⟨h3, h4, h5, h6, h7⟩
    · exfalso; rw [h4, unused_seats] at h1; simp at h1
    · have he := h6 _ hm
      exact .inr (.inl ⟨h3, h4, h5, keep _ h6 (by rw [under_forming he]; rfl), under.seat, by simp,
        by rw [under_forming he]; rfl⟩)
    · have := h6 _ hm
      simp [Seat.isInstalled] at this
    · have he := h6 _ hm
      obtain ⟨ov, hov⟩ := under_service he
      exact .inr (.inr (.inr ⟨h3, h4, h5, keep _ h6 (by rw [hov]; rfl), under.seat, by simp, by rw [hov]; rfl⟩))

/-- The string after the sealing check (R147). -/
def BankString.sealedIf (x : BankString) : BankString := if x.complete then { x with state := .sealed } else x

/-- A module put into a seat that holds none, and the sealing check (R146, R147). -/
theorem install_consistent {x : BankString} {pos : Nat} {n : SeatName} {e : Seat} (g : GradeRecord)
    (hs : (x.position pos).map (·.get n) = some e) (no : e.isInstalled = false) (h : x.consistent) :
    ({ x.updPosition pos (Position.upd n fun _ => .installed g) with
        resCount := if e.isReserved then x.resCount - 1 else x.resCount } : BankString).sealedIf.consistent := by
  obtain ⟨l1, l2, h1, h2⟩ := seats_split hs
  have h2 := h2 fun _ => .installed g
  rw [consistent_iff] at h
  obtain ⟨hc, hle, hst⟩ := h
  set y : BankString := { x.updPosition pos (Position.upd n fun _ => .installed g) with
        resCount := if e.isReserved then x.resCount - 1 else x.resCount } with hy
  have hseats : y.seats = l1 ++ Seat.installed g :: l2 := h2
  have hstate : y.state = x.state := by simp [hy]
  have hlen : y.positions.length = x.positions.length := by simp [hy]
  have hcount : y.resCount = y.seats.countP Seat.isReserved := by
    rw [hseats]
    show (if e.isReserved then x.resCount - 1 else x.resCount) = _
    rw [hc, h1]
    have h3 : (Seat.installed g).isReserved = false := rfl
    rw [countP_mid, countP_mid, h3]
    cases hr : e.isReserved <;> simp
  have hle2 : y.resCount ≤ 4 := by
    show (if e.isReserved then x.resCount - 1 else x.resCount) ≤ 4
    split_ifs <;> omega
  have keep : ∀ (p : Seat → Prop), (∀ d ∈ x.seats, p d) → p (.installed g) → ∀ d ∈ y.seats, p d := by
    intro p hp hu d hd
    rw [h1] at hp
    rw [hseats] at hd
    rcases List.mem_append.mp hd with hd | hd
    · exact hp d (by simp [hd])
    · rcases List.mem_cons.mp hd with rfl | hd
      · exact hu
      · exact hp d (by simp [hd])
  have full : y.complete = true ↔ (x.state = .forming ∨ x.state = .service) ∧ ∀ d ∈ y.seats, d.isInstalled = true := by
    simp [BankString.complete, hstate, List.all_eq_true]
  unfold BankString.sealedIf
  have hne : x.state ≠ .unused ∧ x.state ≠ .sealed := by
    rcases hst with ⟨h3, h4⟩ | ⟨h3, h4, h5, h6, h7⟩ | ⟨h3, h4, h5, h6⟩ | ⟨h3, h4, h5, h6, h7⟩
    · exfalso; rw [h4, unused_seats] at h1; simp at h1
    · simp [h3]
    · have := h6 _ (show e ∈ x.seats by rw [h1]; simp)
      rw [no] at this; simp at this
    · simp [h3]
  have hb : 2 ≤ x.positions.length ∧ x.positions.length ≤ 24 := by
    rcases hst with ⟨h3, h4⟩ | ⟨h3, h4, h5, h6, h7⟩ | ⟨h3, h4, h5, h6⟩ | ⟨h3, h4, h5, h6, h7⟩
    · exact absurd h3 hne.1
    all_goals exact ⟨h4, h5⟩
  split_ifs with hf
  · rw [consistent_iff]
    exact ⟨hcount, hle2, .inr (.inr (.inl ⟨rfl, hlen ▸ hb.1, hlen ▸ hb.2, (full.mp hf).2⟩))⟩
  · rw [consistent_iff]
    refine ⟨hcount, hle2, ?_⟩
    have hopen : ∃ d ∈ y.seats, d.isInstalled = false := by
      by_contra hn
      refine hf (full.mpr ⟨?_, fun d hd => ?_⟩)
      · cases hx : x.state
        · exact absurd hx hne.1
        · exact .inl rfl
        · exact absurd hx hne.2
        · exact .inr rfl
      · by_contra hd2; exact hn ⟨d, hd, by simpa using hd2⟩
    rw [hstate, hlen]
    rcases hst with ⟨h3, h4⟩ | ⟨h3, h4, h5, h6, h7⟩ | ⟨h3, h4, h5, h6⟩ | ⟨h3, h4, h5, h6, h7⟩
    · exact absurd h3 hne.1
    · exact .inr (.inl ⟨h3, h4, h5, keep _ h6 rfl, hopen⟩)
    · exact absurd h3 hne.2
    · have hk := keep _ h6 (rfl : (Seat.installed g).stoodEmpty = false)
      obtain ⟨d, hd, hd2⟩ := hopen
      refine .inr (.inr (.inr ⟨h3, h4, h5, hk, d, hd, ?_⟩))
      exact stoodVacant_of (hk d hd) hd2

/-- A module taken out of a seat (R152). -/
theorem vacate_consistent {x : BankString} {pos : Nat} {p : Position} {n : SeatName} (ov : Option Override) (drop : Bool)
    (hp : x.position pos = some p) (inst : (p.get n).isInstalled = true)
    (st : x.state = .sealed ∨ x.state = .service) (h : x.consistent) :
    ({ (if drop then (x.updPosition pos (Position.upd n fun _ => .vacant ov)).updPosition pos
          (Position.upd (otherSeat n) Seat.dropOverride)
        else x.updPosition pos (Position.upd n fun _ => .vacant ov)) with state := .service } : BankString).consistent := by
  have one : ∀ (f : Seat → Seat) (m : SeatName) (z : BankString) (q : Position), z.position pos = some q →
      (f (q.get m)).isReserved = (q.get m).isReserved → (f (q.get m)).stoodEmpty = false →
      ((q.get m).stoodVacant = true → (f (q.get m)).stoodVacant = true) →
      (z.resCount = z.seats.countP Seat.isReserved ∧ ∀ e ∈ z.seats, e.stoodEmpty = false) →
      ((z.updPosition pos (Position.upd m f)).resCount = (z.updPosition pos (Position.upd m f)).seats.countP Seat.isReserved ∧
        ∀ e ∈ (z.updPosition pos (Position.upd m f)).seats, e.stoodEmpty = false) ∧
      ((∃ e ∈ z.seats, e.stoodVacant = true) → ∃ e ∈ (z.updPosition pos (Position.upd m f)).seats, e.stoodVacant = true) ∧
      f (q.get m) ∈ (z.updPosition pos (Position.upd m f)).seats := by
    intro f m z q hq hr he hv ⟨hc, ha⟩
    obtain ⟨l1, l2, h1, h2⟩ := seats_split (x := z) (pos := pos) (n := m) (e := q.get m) (by rw [hq]; rfl)
    have h2 := h2 f
    refine ⟨⟨?_, ?_⟩, ?_, by rw [h2]; simp⟩
    · rw [BankString.updPosition_resCount, h2, hc, h1]
      rw [countP_mid, countP_mid, hr]
    · rw [h2]
      rw [h1] at ha
      intro e hm
      rcases List.mem_append.mp hm with hm | hm
      · exact ha e (by simp [hm])
      · rcases List.mem_cons.mp hm with rfl | hm
        · exact he
        · exact ha e (by simp [hm])
    · rw [h2, h1]
      rintro ⟨e, hm, hs⟩
      rcases List.mem_append.mp hm with hm | hm
      · exact ⟨e, by simp [hm], hs⟩
      · rcases List.mem_cons.mp hm with rfl | hm
        · exact ⟨_, by simp, hv hs⟩
        · exact ⟨e, by simp [hm], hs⟩
  rw [consistent_iff] at h
  obtain ⟨hc, hle, hst⟩ := h
  have hb : 2 ≤ x.positions.length ∧ x.positions.length ≤ 24 ∧ ∀ e ∈ x.seats, e.stoodEmpty = false := by
    rcases hst with ⟨h3, h4⟩ | ⟨h3, h4, h5, h6, h7⟩ | ⟨h3, h4, h5, h6⟩ | ⟨h3, h4, h5, h6, h7⟩
    · rw [h3] at st; simp at st
    · rw [h3] at st; simp at st
    · refine ⟨h4, h5, fun e he => ?_⟩
      have := h6 e he
      cases e <;> simp_all [Seat.isInstalled, Seat.stoodEmpty]
    · exact ⟨h4, h5, h6⟩
  obtain ⟨hlo, hhi, hne⟩ := hb
  have hinst : ∃ g, p.get n = .installed g := by
    cases hg : p.get n <;> simp_all [Seat.isInstalled]
  obtain ⟨g, hg⟩ := hinst
  obtain ⟨c1, -, m1⟩ := one (fun _ => .vacant ov) n x p hp (by rw [hg]; rfl) rfl (by rw [hg]; simp [Seat.stoodVacant]) ⟨hc, hne⟩
  have v1 : ∃ e ∈ (x.updPosition pos (Position.upd n fun _ => .vacant ov)).seats, e.stoodVacant = true := ⟨_, m1, rfl⟩
  cases drop
  · rw [consistent_iff]
    exact ⟨c1.1, by show (x.updPosition _ _).resCount ≤ 4; simpa using hle,
      .inr (.inr (.inr ⟨rfl, by simpa using hlo, by simpa using hhi, c1.2, v1⟩))⟩
  · have hp2 : (x.updPosition pos (Position.upd n fun _ => .vacant ov)).position pos =
        some (p.upd n fun _ => .vacant ov) := by simp [hp]
    have hmate : (p.get (otherSeat n)).stoodEmpty = false :=
      hne _ ((mem_seats _ _).mpr ⟨pos, p, hp, by cases n <;> simp [otherSeat, Position.get]⟩)
    have hget : (p.upd n fun _ => Seat.vacant ov).get (otherSeat n) = p.get (otherSeat n) := by cases n <;> rfl
    obtain ⟨c2, v2, -⟩ := one Seat.dropOverride (otherSeat n) _ _ hp2
      (by rw [hget]; rcases p.get (otherSeat n) with _ | ⟨_, _, _ | _⟩ | _ | _ <;> rfl)
      (by rw [hget]; revert hmate; rcases p.get (otherSeat n) with _ | ⟨_, _, _ | _⟩ | _ | _ <;> simp [Seat.dropOverride, Seat.stoodEmpty])
      (by rw [hget]; rcases p.get (otherSeat n) with _ | ⟨_, _, _ | _⟩ | _ | _ <;> simp [Seat.dropOverride, Seat.stoodVacant]) c1
    rw [consistent_iff]
    exact ⟨c2.1, by show ((x.updPosition _ _).updPosition _ _).resCount ≤ 4; simpa using hle,
      .inr (.inr (.inr ⟨rfl, by simpa using hlo, by simpa using hhi, c2.2, v2 v1⟩))⟩

/-- Every deadline run down by one step (R163). -/
theorem tick_consistent {x : BankString} (h : x.consistent) : x.tick.consistent := by
  have hs : x.tick.seats = x.seats.map Seat.tick := by
    simp [BankString.tick, BankString.seats, Position.tick, List.flatMap_map, List.map_flatMap]
  have k1 : ∀ e : Seat, e.tick.isReserved = e.isReserved := by intro e; cases e <;> rfl
  have k2 : ∀ e : Seat, e.tick.isInstalled = e.isInstalled := by intro e; cases e <;> rfl
  have k3 : ∀ e : Seat, e.tick.stoodVacant = e.stoodVacant := by intro e; rcases e with _ | ⟨_, _, _ | _⟩ | _ | _ <;> rfl
  have k4 : ∀ e : Seat, e.tick.stoodEmpty = e.stoodEmpty := by intro e; rcases e with _ | ⟨_, _, _ | _⟩ | _ | _ <;> rfl
  rw [consistent_iff] at h ⊢
  rw [hs]
  have e1 : x.tick.resCount = x.resCount := rfl
  have e2 : x.tick.state = x.state := rfl
  have e3 : x.tick.positions.length = x.positions.length := by simp [BankString.tick]
  have e4 : x = .unused → x.tick = .unused := by rintro rfl; rfl
  have e5 : (x.seats.map Seat.tick).countP Seat.isReserved = x.seats.countP Seat.isReserved := by
    rw [List.countP_map]; congr 1; funext e; exact k1 e
  rw [e1, e2, e3, e5]
  simp only [List.mem_map, forall_exists_index, and_imp, forall_apply_eq_imp_iff₂, exists_exists_and_eq_and, k2, k3, k4]
  obtain ⟨h1, h2, h3⟩ := h
  exact ⟨h1, h2, h3.imp_left fun h => ⟨h.1, e4 h.2⟩⟩

theorem opened_consistent (k : ProfileId) (n : Nat) (least : GradeClass) (ref st ct imb : Nat) (h2 : 2 ≤ n) (h24 : n ≤ 24) :
    (openedString k n least ref st ct imb).consistent := by
  have hs : ∀ e ∈ (openedString k n least ref st ct imb).seats, e = .empty := by
    intro e he
    simp only [BankString.seats, openedString, List.mem_flatMap, List.mem_replicate] at he
    obtain ⟨p, ⟨-, rfl⟩, he⟩ := he
    simpa using he
  have hm : Seat.empty ∈ (openedString k n least ref st ct imb).seats := by
    simp only [BankString.seats, openedString, List.mem_flatMap, List.mem_replicate]
    exact ⟨_, ⟨by omega, rfl⟩, by simp⟩
  rw [consistent_iff]
  refine ⟨?_, by simp [openedString], .inr (.inl ⟨rfl, by simpa [openedString] using h2, by simpa [openedString] using h24,
    fun e he => by rw [hs e he]; rfl, _, hm, rfl⟩)⟩
  symm
  show List.countP _ _ = 0
  rw [List.countP_eq_zero]
  intro e he
  rw [hs e he]; simp [Seat.isReserved]

/-! ### Deadlines (R156, R163) -/

/-- A string with the same positions has the same deadlines. -/
theorem due_congr {x y : BankString} (e : y.positions = x.positions) (h : x.due) : y.due := by
  unfold BankString.due BankString.seats at *
  rwa [e]

/-- A position written keeps every deadline within its top where what is written in the seat does. -/
theorem due_updPosition {x : BankString} (pos : Nat) (n : SeatName) (f : Seat → Seat)
    (keeps : ∀ e, (∀ tag k under, e = Seat.reserved tag k under → k ≤ Config.maxDeadline) →
      ∀ tag k under, f e = .reserved tag k under → k ≤ Config.maxDeadline) (h : x.due) :
    (x.updPosition pos (Position.upd n f)).due := by
  cases hp : x.position pos with
  | none => rwa [BankString.updPosition_absent _ hp]
  | some p =>
    obtain ⟨l1, l2, h1, h2⟩ := seats_split (x := x) (pos := pos) (n := n) (e := p.get n) (by rw [hp]; rfl)
    unfold BankString.due at *
    rw [h1] at h
    rw [h2 f]
    intro tag k under hm
    rcases List.mem_append.mp hm with hm | hm
    · exact h tag k under (by simp [hm])
    · rcases List.mem_cons.mp hm with hm | hm
      · exact keeps _ (fun tag k under e => h tag k under (by simp [← e])) _ _ _ hm.symm
      · exact h tag k under (by simp [hm])

theorem tick_due {x : BankString} (h : x.due) : x.tick.due := by
  have hs : x.tick.seats = x.seats.map Seat.tick := by
    simp [BankString.tick, BankString.seats, Position.tick, List.flatMap_map, List.map_flatMap]
  unfold BankString.due at *
  rw [hs]
  intro tag k under hm
  obtain ⟨e, he, h2⟩ := List.mem_map.mp hm
  cases e with
  | reserved t d u =>
    simp only [Seat.tick, Seat.reserved.injEq] at h2
    have := h t d u he
    omega
  | empty => simp [Seat.tick] at h2
  | installed g => simp [Seat.tick] at h2
  | vacant ov => simp [Seat.tick] at h2

theorem opened_due (k : ProfileId) (n : Nat) (least : GradeClass) (ref st ct imb : Nat) :
    (openedString k n least ref st ct imb).due := by
  intro tag d under he
  simp only [BankString.seats, openedString, List.mem_flatMap, List.mem_replicate] at he
  obtain ⟨p, ⟨-, rfl⟩, he⟩ := he
  simp at he

theorem unused_due : BankString.unused.due := by intro tag d under he; simp [BankString.unused, BankString.seats] at he

theorem unused_consistent : BankString.unused.consistent := by rw [consistent_iff]; simp [BankString.unused, BankString.seats]

end Sys2Proof.Machine
end

