-- ==== Sys2Proof/Laws/Blocks.lean ====
section
/-! SUPPORT. Block by block: what the operations on the stage queue, the allowance, the pool, the bank, the notice queue
and the records of a bay keep of the invariants of Safety. -/

namespace Sys2Proof.Machine

/-! ### Trims -/

/-- A trim set within the ranges of its quantities (section 2.5). -/
def TrimSet.inRange (k : TrimSet) : Prop :=
  ∀ q, q.holds (k.applied q) ∧ ∀ x, k.pending = some (q, x) → q.holds x

theorem trimsInRange_iff (s : State) : TrimsInRange s ↔ ∀ b, (s.trims b).inRange := Iff.rfl

theorem TrimSet.applyPending_inRange {k : TrimSet} (h : k.inRange) : k.applyPending.inRange := by
  unfold TrimSet.applyPending
  split
  · exact h
  · rename_i q x hp
    intro q2
    refine ⟨?_, by simp⟩
    have hx := (h q).2 x hp
    have h1 := (h .gain).1
    have h2 := (h .offset).1
    have h3 := (h .current).1
    cases q <;> cases q2 <;> simpa [TrimSet.set, TrimSet.applied] using by assumption

theorem clampTo_mem (lo hi x : Int) (h : lo ≤ hi) : lo ≤ clampTo lo hi x ∧ clampTo lo hi x ≤ hi := by
  unfold clampTo; omega

theorem TrimSet.target_holds (k : TrimSet) (q : TrimQuantity) (n : Int) : q.holds (k.target q n) := by
  cases q <;> exact clampTo_mem _ _ _ (by decide)

/-! ### The stage queue (R85, R86) -/

/-- The form of the stage queue. -/
def tidy (q : List BusEntry) : Prop :=
  q.Pairwise (fun e f => ¬ e.clashes f) ∧ ∀ e ∈ q.tail, e ≠ .broadcastOff

theorem queueTidy_iff (s : State) : QueueTidy s ↔ tidy s.sbc.queue := Iff.rfl

theorem tidy_filter {q : List BusEntry} (p : BusEntry → Bool) (h : tidy q) : tidy (q.filter p) := by
  refine ⟨h.1.filter p, fun e he => ?_⟩
  cases q with
  | nil => simp at he
  | cons x q =>
    have ht : ∀ e ∈ q, e ≠ .broadcastOff := h.2
    rw [List.filter_cons] at he
    split at he
    · exact ht e (List.mem_of_mem_filter he)
    · exact ht e (List.mem_of_mem_filter (List.mem_of_mem_tail he))

theorem tidy_snoc {q : List BusEntry} {e : BusEntry} (h : tidy q) (he : e ≠ .broadcastOff)
    (no : ∀ f ∈ q, ¬ f.clashes e) : tidy (q ++ [e]) := by
  refine ⟨List.pairwise_append.mpr ⟨h.1, by simp, fun f hf g hg => by simp at hg; subst hg; exact no f hf⟩, ?_⟩
  intro g hg
  cases q with
  | nil => simp at hg
  | cons x q =>
    have ht : ∀ e ∈ q, e ≠ .broadcastOff := h.2
    simp only [List.cons_append, List.tail_cons, List.mem_append, List.mem_cons, List.not_mem_nil, or_false] at hg
    rcases hg with hg | rfl
    · exact ht g hg
    · exact he

theorem tidy_joinWrite {q : List BusEntry} (b : BayId) (k : WriteKind) (v l : Nat) (h : tidy q) :
    tidy (joinWrite b k v l q) := by
  unfold joinWrite
  split_ifs with hw
  · have hl : ∀ e g : BusEntry, (if e.isWriteOf b then BusEntry.write b k v l else e).clashes g → e.clashes g := by
      intro e g
      split_ifs with he
      · rcases e with ⟨b1, _, _, _⟩ | _ | _
        · obtain rfl : b1 = b := by simpa [BusEntry.isWriteOf] using he
          cases g <;> exact id
        · exact absurd he (by simp [BusEntry.isWriteOf])
        · exact absurd he (by simp [BusEntry.isWriteOf])
      · exact id
    have hr : ∀ e g : BusEntry, g.clashes (if e.isWriteOf b then BusEntry.write b k v l else e) → g.clashes e := by
      intro e g
      split_ifs with he
      · rcases e with ⟨b1, _, _, _⟩ | _ | _
        · obtain rfl : b1 = b := by simpa [BusEntry.isWriteOf] using he
          cases g <;> exact id
        · exact absurd he (by simp [BusEntry.isWriteOf])
        · exact absurd he (by simp [BusEntry.isWriteOf])
      · exact id
    refine ⟨List.pairwise_map.mpr (h.1.imp fun hn hcl => hn (hl _ _ (hr _ _ hcl))), fun e he => ?_⟩
    rw [← List.map_tail] at he
    obtain ⟨f, hf, rfl⟩ := List.mem_map.mp he
    have := h.2 f hf
    split_ifs
    · simp
    · exact this
  · refine tidy_snoc h (by simp) fun f hf => ?_
    have : f.isWriteOf b = false := by simpa using (by simpa using hw : ∀ x ∈ q, x.isWriteOf b = false) f hf
    cases f <;> simp_all [BusEntry.clashes, BusEntry.isWriteOf]

theorem tidy_joinRead {q : List BusEntry} (b : BayId) (h : tidy q) : tidy (joinRead b q) := by
  unfold joinRead
  split_ifs with hw
  · exact h
  · refine tidy_snoc h (by simp) fun f hf => ?_
    have : f.isReadOf b = false := by simpa using (by simpa using hw : ∀ x ∈ q, x.isReadOf b = false) f hf
    cases f <;> simp_all [BusEntry.clashes, BusEntry.isReadOf]

theorem not_broadcast {q : List BusEntry} (h : q.any (·.isBroadcast) = false) : ∀ e ∈ q, e ≠ .broadcastOff := by
  intro e he hb
  subst hb
  have := (by simpa using h : ∀ x ∈ q, x.isBroadcast = false) _ he
  simp [BusEntry.isBroadcast] at this

theorem tidy_joinBroadcast {q : List BusEntry} (h : tidy q) : tidy (joinBroadcast q) := by
  unfold joinBroadcast
  split_ifs with hb
  · exact h
  · have no := not_broadcast (by simpa using hb)
    refine ⟨List.pairwise_cons.mpr ⟨fun e he => ?_, h.1⟩, no⟩
    have := no e he
    cases e <;> simp_all [BusEntry.clashes]

theorem tidy_putHead {q : List BusEntry} {e : BusEntry} (h : tidy q) (he : e ≠ .broadcastOff)
    (no : ∀ f ∈ q, ¬ e.clashes f) : tidy (putHead e q) := by
  unfold putHead
  split
  · rename_i q
    obtain ⟨h1, h2⟩ := List.pairwise_cons.mp h.1
    have ht : ∀ e ∈ q, e ≠ .broadcastOff := h.2
    refine ⟨List.pairwise_cons.mpr ⟨fun f hf => ?_, List.pairwise_cons.mpr ⟨fun f hf => no f (by simp [hf]), h2⟩⟩, ?_⟩
    · rcases List.mem_cons.mp hf with rfl | hf
      · cases f <;> simp_all [BusEntry.clashes]
      · exact h1 f hf
    · intro f hf
      rcases List.mem_cons.mp hf with rfl | hf
      · exact he
      · exact ht f hf
  · rename_i hq
    refine ⟨List.pairwise_cons.mpr ⟨no, h.1⟩, fun f hf => ?_⟩
    have hf2 : f ∈ q := hf
    clear hf
    cases q with
    | nil => simp at hf2
    | cons x q =>
      rcases List.mem_cons.mp hf2 with rfl | hf
      · rintro rfl; exact hq _ rfl
      · exact h.2 f hf

theorem tidy_returnEntry {q : List BusEntry} (newer : Bool) (e : BusEntry) (h : tidy q) :
    tidy (returnEntry newer e q) := by
  cases e with
  | write b k v l =>
    simp only [returnEntry]
    split_ifs with hw
    · exact h
    · refine tidy_putHead h (by simp) fun f hf => ?_
      have : f.isWriteOf b = false := by simpa using (by simpa using hw : _ ∧ ∀ x ∈ q, x.isWriteOf b = false).2 f hf
      cases f <;> simp only [BusEntry.clashes, not_false_eq_true]
      rintro rfl; simp [BusEntry.isWriteOf] at this
  | statusRead b =>
    simp only [returnEntry]
    split_ifs with hw
    · exact h
    · refine tidy_putHead h (by simp) fun f hf => ?_
      have : f.isReadOf b = false := by simpa using (by simpa using hw : ∀ x ∈ q, x.isReadOf b = false) f hf
      cases f <;> simp only [BusEntry.clashes, not_false_eq_true]
      rintro rfl; simp [BusEntry.isReadOf] at this
  | broadcastOff => exact tidy_joinBroadcast h

theorem tidy_tail {e : BusEntry} {q : List BusEntry} (h : tidy (e :: q)) : tidy q :=
  ⟨(List.pairwise_cons.mp h.1).2, fun f hf => h.2 f (List.mem_of_mem_tail hf)⟩

/-! ### Notices (R191) -/

theorem Nqa.push_bounded {x : Nqa} (n : Notice) (h : x.bounded) : (x.push n).bounded := by
  obtain ⟨h1, h2, h3, h4⟩ := h
  unfold Nqa.push
  split_ifs with hl
  · exact ⟨by simpa using hl, h2, h3, h4⟩
  · exact ⟨h1, by simp [satAdd], h3, h4⟩

/-! ### Windows -/

theorem ringAdd_length (r : List (Nat × Int)) (x : Sample) (h : r.length ≤ 4) : (ringAdd r x).length ≤ 4 := by
  unfold ringAdd; split_ifs <;> simp <;> omega

theorem historyAdd_length (r : List Condition) (c : Condition) (h : r.length ≤ 3) : (historyAdd r c).length ≤ 3 := by
  unfold historyAdd; split_ifs <;> simp <;> omega

theorem runCount_le (top n : Nat) (g : Bool) : runCount top n g ≤ top := by unfold runCount; split_ifs <;> omega

theorem judgeWindow_bounded (p : Profile) (ph : Phase) (r : WindowRecord) (st : Bool) {w : WevBay} (h : w.bounded) :
    (judgeWindow p ph r st w).2.bounded := by
  obtain ⟨h1, h2, h3, h4⟩ := h
  by_cases hc : ph = .check
  · simp only [judgeWindow, if_pos hc]; exact ⟨h1, h2, h3, h4⟩
  · simp only [judgeWindow, if_neg hc]
    refine ⟨?_, ?_, h3, historyAdd_length _ _ h4⟩
    · show (if _ then _ else _) ≤ 3
      split_ifs
      · exact runCount_le _ _ _
      · exact h1
    · show (if _ then _ else _) ≤ 2
      split_ifs
      · exact runCount_le _ _ _
      · exact h2

theorem foldPhase_bounded (p : Profile) (e : PhaseEntry) (x : Sample) {w : WevBay} (h : w.bounded) :
    (foldPhase p e x w).1.bounded := by
  have h1 : ({ w with ring := ringAdd w.ring x } : WevBay).bounded := ⟨h.1, h.2.1, ringAdd_length _ _ h.2.2.1, h.2.2.2⟩
  unfold foldPhase
  dsimp only
  split_ifs
  · exact judgeWindow_bounded _ _ _ _ h1
  · exact h1

theorem foldCal_bounded (x : Sample) {w : WevBay} (h : w.bounded) : (foldCal x w).1.bounded := by
  unfold foldCal
  dsimp only
  split_ifs <;> exact h

/-! ### Bay records (R54) -/

theorem Bay.count_bounded (p : Phase) (x : SampleReport) {r : Bay} (h : r.bounded) : (r.count p x).bounded := by
  obtain ⟨h1, h2, h3, h4⟩ := h
  have m : ∀ a b c : Nat, satAdd a b c ≤ a := fun a b c => by simp [satAdd]
  have mq : ∀ q i, (qAdd q i).1 ≤ Config.max32 := fun q i => by simp [qAdd]
  unfold Bay.count Bay.addDischarge
  cases x.verdict <;> cases p <;>
    simp only [reduceCtorEq, or_false, or_true, if_true, if_false] <;>
    first
    | exact ⟨h1, h2, h3, h4⟩
    | exact ⟨h1, m _ _ _, h3, h4⟩
    | exact ⟨h1, h2, m _ _ _, mq _ _⟩

theorem Bay.enter_bounded (p : Phase) (k : Substate) {r : Bay} (h : r.bounded) : (r.enter p k).bounded :=
  ⟨by simp only [Bay.enter]; omega, h.2⟩

theorem Bay.takeClosing_bounded (c : ClosingReport) {r : Bay} (h : r.bounded) : (r.takeClosing c).bounded := by
  unfold Bay.takeClosing Bay.addDischarge
  cases c.phase <;> cases c.part <;> split_ifs <;> exact h

theorem Bay.resumed_bounded (p : Phase) {r : Bay} (h : r.bounded) : (r.resumed p).bounded := by cases p <;> exact h

theorem Bay.unloaded_bounded {r : Bay} (h : r.bounded) : r.unloaded.bounded :=
  ⟨h.1, by simp [Bay.unloaded, Bay.reset], by simp [Bay.unloaded, Bay.reset], by simp [Bay.unloaded, Bay.reset]⟩

/-! ### The allowance (R100 to R103) -/

/-- The form of the allowance. -/
def Allowance.balanced (a : Allowance) : Prop :=
  a.committed = a.sum ∧ a.committed ≤ Config.maxLimit ∧ a.limit ≤ Config.maxLimit ∧ (a.waiting.map Waiting.bay).Nodup

theorem allowanceBalanced_iff (s : State) : AllowanceBalanced s ↔ s.caa.balanced := Iff.rfl

theorem sum_set (l : List Grant) (i : Nat) (h : i < l.length) (g : Grant) :
    ((l.set i g).map Grant.mag).sum + (l[i]).mag = (l.map Grant.mag).sum + g.mag := by
  induction l generalizing i with
  | nil => simp at h
  | cons x l ih =>
    cases i with
    | zero => simp; omega
    | succ i =>
      have := ih i (by simpa using h)
      simp only [List.set_cons_succ, List.map_cons, List.sum_cons, List.getElem_cons_succ]
      omega

/-- The sum of the grants after one of them is written. -/
theorem Allowance.sum_updAt (a : Allowance) (b : BayId) (g : Grant) (c : Nat) (w : List Waiting) :
    ({ a with grants := updAt a.grants b fun _ => g, committed := c, waiting := w } : Allowance).sum +
      (a.grants.get b).mag = a.sum + g.mag := by
  have := sum_set a.grants.toList b.val (by simp) g
  simpa [Allowance.sum, updAt, Vector.toList_set, Vector.get_eq_getElem] using this

theorem Allowance.drop_balanced {a : Allowance} (b : BayId) (h : a.balanced) : (a.drop b).balanced := by
  obtain ⟨h1, h2, h3, h4⟩ := h
  have := a.sum_updAt b { mag := 0, entry := 0 } (a.committed - (a.grants.get b).mag) a.waiting
  refine ⟨?_, ?_, h3, h4⟩
  · show a.committed - (a.grants.get b).mag = (a.drop b).sum
    have e : (a.drop b).sum + (a.grants.get b).mag = a.sum + 0 := this
    omega
  · show a.committed - _ ≤ _
    omega

theorem Allowance.give_balanced {a : Allowance} {w : Waiting} {rest : List Waiting} (hw : a.waiting = w :: rest)
    (fits : a.committed + w.mag ≤ a.limit) (h : a.balanced) : (a.give w rest).balanced := by
  obtain ⟨h1, h2, h3, h4⟩ := h
  have e : (a.give w rest).sum + (a.grants.get w.bay).mag = a.sum + w.mag :=
    a.sum_updAt w.bay { mag := w.mag, entry := w.entry } _ rest
  rw [hw, List.map_cons, List.nodup_cons] at h4
  refine ⟨?_, ?_, h3, h4.2⟩
  · show a.committed - (a.grants.get w.bay).mag + w.mag = (a.give w rest).sum
    have : (a.grants.get w.bay).mag ≤ a.sum := by
      unfold Allowance.sum
      refine List.le_sum_of_mem (List.mem_map.mpr ⟨a.grants.get w.bay, ?_, rfl⟩)
      simp [Vector.get_eq_getElem]
    omega
  · show a.committed - _ + w.mag ≤ _
    omega

theorem Allowance.fewer_balanced {a : Allowance} {l : List Waiting} (hl : l.Sublist a.waiting) (h : a.balanced) :
    ({ a with waiting := l } : Allowance).balanced := ⟨h.1, h.2.1, h.2.2.1, h.2.2.2.sublist (hl.map _)⟩

/-! ### The pool (R123 to R126, R130, R131) -/

/-- The form of the pool. -/
def Pool.ordered (p : Pool) : Prop :=
  (p.records.length ≤ Config.poolRoom ∧ p.records.Pairwise (fun c d => keyLt d.key c.key = false) ∧
    ∀ c ∈ p.records, c.lapses ≤ 2)

theorem poolOrdered_iff (s : State) : PoolOrdered s ↔ s.pool.ordered := Iff.rfl

/-- Keys of one length are compared as a strict total order. -/
theorem keyLt_cons (x y : Nat) (xs ys : List Nat) :
    keyLt (x :: xs) (y :: ys) = true ↔ x < y ∨ x = y ∧ keyLt xs ys = true := by simp [keyLt]

theorem keyLt_asymm {x y : List Nat} (h : keyLt x y = true) : keyLt y x = false := by
  induction x generalizing y with
  | nil => simp [keyLt] at h
  | cons a x ih =>
    cases y with
    | nil => simp [keyLt] at h
    | cons b y =>
      by_contra hn
      rw [keyLt_cons] at h
      have hn2 := (keyLt_cons b a y x).mp (by simpa using hn)
      rcases h with h | ⟨h, h2⟩ <;> rcases hn2 with g | ⟨g, g2⟩
      · omega
      · omega
      · omega
      · rw [ih h2] at g2; simp at g2

/-- Not smaller, and not smaller again, is not smaller. -/
theorem keyLt_trans_false {x y z : List Nat} (l1 : x.length = y.length) (l2 : y.length = z.length)
    (h1 : keyLt y x = false) (h2 : keyLt z y = false) : keyLt z x = false := by
  induction x generalizing y z with
  | nil =>
    cases z <;> rfl
  | cons a x ih =>
    cases y with
    | nil => simp at l1
    | cons b y =>
      cases z with
      | nil => simp at l2
      | cons c z =>
        by_contra hn
        have hn2 := (keyLt_cons c a z x).mp (by simpa using hn)
        have g1 : ¬ (b < a ∨ b = a ∧ keyLt y x = true) := by rw [← keyLt_cons]; simp [h1]
        have g2 : ¬ (c < b ∨ c = b ∧ keyLt z y = true) := by rw [← keyLt_cons]; simp [h2]
        simp only [not_or, not_and] at g1 g2
        rcases hn2 with g | ⟨g, g3⟩
        · omega
        · have e1 : b = a := by omega
          have e2 : c = b := by omega
          rw [ih (by simpa using l1) (by simpa using l2) (by simpa using g1.2 e1) (by simpa using g2.2 e2)] at g3
          simp at g3

theorem insertCandidate_length (c : Candidate) (l : List Candidate) : (insertCandidate c l).length = l.length + 1 := by
  induction l with
  | nil => rfl
  | cons d l ih => unfold insertCandidate; split_ifs <;> simp [ih]

theorem mem_insertCandidate (c : Candidate) (l : List Candidate) (e : Candidate) :
    e ∈ insertCandidate c l ↔ e = c ∨ e ∈ l := by
  induction l with
  | nil => simp [insertCandidate]
  | cons d l ih => unfold insertCandidate; split_ifs <;> simp [ih]; tauto

theorem insertCandidate_sorted (c : Candidate) {l : List Candidate}
    (h : l.Pairwise (fun c d => keyLt d.key c.key = false)) :
    (insertCandidate c l).Pairwise (fun c d => keyLt d.key c.key = false) := by
  have len : ∀ c : Candidate, c.key.length = 3 := fun _ => rfl
  induction l with
  | nil => simp [insertCandidate]
  | cons d l ih =>
    obtain ⟨h1, h2⟩ := List.pairwise_cons.mp h
    unfold insertCandidate
    split_ifs with hc
    · refine List.pairwise_cons.mpr ⟨fun e he => ?_, h⟩
      have hd : keyLt d.key c.key = false := keyLt_asymm hc
      rcases List.mem_cons.mp he with rfl | he
      · exact hd
      · exact keyLt_trans_false (by rw [len, len]) (by rw [len, len]) hd (h1 e he)
    · refine List.pairwise_cons.mpr ⟨fun e he => ?_, ih h2⟩
      rcases (mem_insertCandidate c l e).mp he with rfl | he
      · simpa using hc
      · exact h1 e he

theorem Pool.enter_ordered {p : Pool} (g : GradeRecord) (room : p.records.length < Config.poolRoom) (h : p.ordered) :
    (p.enter g).ordered := by
  refine ⟨?_, insertCandidate_sorted _ h.2.1, fun c hc => ?_⟩
  · show (insertCandidate _ _).length ≤ _
    rw [insertCandidate_length]; omega
  · rcases (mem_insertCandidate _ _ c).mp hc with rfl | hc
    · exact Nat.zero_le _
    · exact h.2.2 c hc

/-- A change of the record of a tag that leaves its key and keeps its lapse count at most 2. -/
theorem Pool.update_ordered {p : Pool} (tag : Nat) {f : Candidate → Candidate} (key : ∀ c, (f c).key = c.key)
    (lap : ∀ c, c.lapses ≤ 2 → (f c).lapses ≤ 2) (h : p.ordered) : (p.update tag f).ordered := by
  refine ⟨by simpa [Pool.update] using h.1, List.pairwise_map.mpr (h.2.1.imp fun {c d} hcd => ?_), fun c hc => ?_⟩
  · have hk : ∀ c : Candidate, (if c.grade.tag == tag then f c else c).key = c.key := by
      intro c; split_ifs
      · exact key c
      · rfl
    rw [hk, hk]; exact hcd
  · obtain ⟨d, hd, rfl⟩ := List.mem_map.mp hc
    have := h.2.2 d hd
    split_ifs
    · exact lap d this
    · exact this

theorem Pool.filter_ordered {p : Pool} (f : Candidate → Bool) (h : p.ordered) (park : List BayId) :
    ({ p with records := p.records.filter f, park := park } : Pool).ordered :=
  ⟨(List.length_filter_le _ _).trans h.1, h.2.1.filter _, fun c hc => h.2.2 c (List.mem_of_mem_filter hc)⟩

/-- A removal makes room. -/
theorem Pool.removed_length {p : Pool} {tag : Nat} (h : (p.find tag).isSome = true) :
    (p.records.filter fun c => !(c.grade.tag == tag)).length < p.records.length := by
  obtain ⟨c, hc⟩ := Option.isSome_iff_exists.mp h
  have hm := List.mem_of_find?_eq_some hc
  have hp := List.find?_some hc
  exact List.length_filter_lt_length_iff_exists.mpr ⟨c, hm, by simpa using hp⟩

/-! ### Link errors (R180) -/

/-- The link after one more error. -/
def Link.erred (e : LinkLog) (l : Link) : Link :=
  { l with log := if l.errorCount = 0 then some e else l.log, errorCount := satAdd 255 l.errorCount 1 }

theorem linkError_eq (s : State) (e : LinkLog) :
    s.linkError e = (s.updLink (Link.erred e)).updNqa fun x => { x with linkError := true } := rfl

theorem Link.erred_counted {l : Link} (e : LinkLog) (h : l.counted) : (l.erred e).counted := by
  obtain ⟨h1, h2⟩ := h
  refine ⟨by simp [Link.erred, satAdd], ?_⟩
  by_cases h0 : l.errorCount = 0
  · simp [Link.erred, satAdd, h0]
  · have : l.log.isSome = true := h2.mpr (by omega)
    simp [Link.erred, satAdd, h0, this]

end Sys2Proof.Machine
end

