-- ==== Sys2Proof/Laws/Closure.lean ====
section
/-! SUPPORT. What every command keeps: a property of the state that each block's own changes keep (`Closed`) is kept by
every operation and every command. A block's change is one that keeps what Safety says of that block. -/

namespace Sys2Proof.Machine

/-! ### The park list served (R134) -/

theorem servePark_nil {s : State} (h : s.pool.park = []) : s.servePark = s := by simp [State.servePark, h]

theorem servePark_empty {s : State} {b : BayId} {rest : List BayId} (h : s.pool.park = b :: rest)
    (g : (s.bay b).grade = none) : s.servePark = s.updPool fun p => { p with park := rest } := by
  simp [State.servePark, h, g]

theorem servePark_grade {s : State} {b : BayId} {rest : List BayId} {r : GradeRecord} (h : s.pool.park = b :: rest)
    (g : (s.bay b).grade = some r) :
    s.servePark = (s.updPool fun p => { p with park := rest }).enterFromBay b r := by simp [State.servePark, h, g]

/-- The pool without the record of a tag. -/
def Pool.without (tag : Nat) (p : Pool) : Pool := { p with records := p.records.filter fun c => !(c.grade.tag == tag) }

theorem removeRecord_found {s : State} {tag : Nat} (h : (s.pool.find tag).isSome = true) :
    s.removeRecord tag = (s.updPool (Pool.without tag)).servePark := by simp [State.removeRecord, h]; rfl

theorem removeRecord_absent {s : State} {tag : Nat} (h : (s.pool.find tag).isSome = false) : s.removeRecord tag = s := by
  simp [State.removeRecord, h]

/-- The removal of a record of the pool, seen apart from a string. -/
theorem removeRecord_updString (s : State) (tag : Nat) (x : StringId) (f : BankString → BankString) :
    (s.updString x f).removeRecord tag = (s.removeRecord tag).updString x f := by
  cases hf : (s.pool.find tag).isSome with
  | false => rw [removeRecord_absent hf, removeRecord_absent (s := s.updString x f) hf]
  | true =>
    rw [removeRecord_found hf, removeRecord_found (s := s.updString x f) hf]
    cases hp : s.pool.park with
    | nil => rw [servePark_nil (s := s.updPool (Pool.without tag)) hp,
        servePark_nil (s := (s.updString x f).updPool (Pool.without tag)) hp]; rfl
    | cons b rest =>
      cases hg : (s.bay b).grade with
      | none =>
        rw [servePark_empty (s := s.updPool (Pool.without tag)) hp hg,
          servePark_empty (s := (s.updString x f).updPool (Pool.without tag)) hp hg]
        rfl
      | some r =>
        rw [servePark_grade (s := s.updPool (Pool.without tag)) hp hg,
          servePark_grade (s := (s.updString x f).updPool (Pool.without tag)) hp hg]
        rfl

@[simp] theorem removeRecord_bank (s : State) (tag : Nat) : (s.removeRecord tag).bank = s.bank := by
  cases hf : (s.pool.find tag).isSome with
  | false => rw [removeRecord_absent hf]
  | true =>
    rw [removeRecord_found hf]
    cases hp : s.pool.park with
    | nil => rw [servePark_nil (s := s.updPool (Pool.without tag)) hp]; rfl
    | cons b rest =>
      cases hg : (s.bay b).grade with
      | none => rw [servePark_empty (s := s.updPool (Pool.without tag)) hp hg]; rfl
      | some r => rw [servePark_grade (s := s.updPool (Pool.without tag)) hp hg]; rfl

@[simp] theorem removeRecord_string (s : State) (tag : Nat) (x : StringId) :
    (s.removeRecord tag).string x = s.string x := by simp [State.string]

@[simp] theorem removeRecord_seat (s : State) (tag : Nat) (id : SeatId) : (s.removeRecord tag).seat id = s.seat id := by
  simp [State.seat]

/-- What an installation makes of its string (R146). -/
def BankString.installed (pos : Nat) (n : SeatName) (g : GradeRecord) (ended : Bool) (x : BankString) : BankString :=
  { x.updPosition pos (Position.upd n fun _ => .installed g) with
    resCount := if ended then x.resCount - 1 else x.resCount }

theorem install_eq (s : State) (id : SeatId) (g : GradeRecord) :
    s.install id g = s.updString id.str (BankString.installed id.pos id.seat g ((s.seat id).any Seat.isReserved)) := by
  unfold State.install State.updSeat
  rw [updString_updString]
  congr 1
  funext x
  simp [BankString.installed]

theorem returnSeat_eq (s : State) (id : SeatId) (under : UnderState) :
    s.returnSeat id under = s.updString id.str fun x =>
      { x.updPosition id.pos (Position.upd id.seat fun _ => under.seat) with resCount := x.resCount - 1 } := by
  unfold State.returnSeat State.updSeat
  rw [updString_updString]
  congr 1
  funext x
  simp

/-! ### Groups of bays (R58) -/

/-- What each act of a group keeps, the group keeps. -/
theorem groupAct_keeps {P : State → Prop} {act : State → BayId → Option State}
    (keeps : ∀ s b t, act s b = some t → P s → P t) (set : List BayId) {s : State} (h : P s) : P (groupAct act set s).1 := by
  have key : ∀ (set : List BayId) (x : State × List BayId), P x.1 → P (set.foldl (fun x b =>
      match act x.1 b with
      | some s1 => (s1, x.2 ++ [b])
      | none => x) x).1 := by
    intro set
    induction set with
    | nil => exact fun x hx => hx
    | cons b set ih =>
      intro x hx
      refine ih _ ?_
      cases ha : act x.1 b with
      | none => simpa [ha] using hx
      | some t => simpa [ha] using keeps _ _ _ ha hx
  exact key set (s, []) h

theorem oneBay_keeps {P : State → Prop} {act : State → BayId → Option State}
    (keeps : ∀ s b t, act s b = some t → P s → P t) (b : BayId) {s : State} (h : P s) : P (oneBay act b s).1 := by
  unfold Machine.oneBay
  split
  · exact keeps _ _ _ ‹_› h
  · exact h

/-- A property kept by every change of one block that keeps the form of that block, by the hand-overs between blocks, by
reset and by the queue of commands. -/
structure Closed (P : State → Prop) : Prop where
  bay : ∀ s b f, (∀ r : Bay, r.bounded → (f r).bounded) → P s → P (s.updBay b f)
  wev : ∀ s b f, ((s.wevBay b).bounded → (f (s.wevBay b)).bounded) → P s → P (s.updWev b f)
  trims : ∀ s b f, ((s.trims b).inRange → (f (s.trims b)).inRange) → P s → P (s.updTrims b f)
  sbc : ∀ s f, (tidy s.sbc.queue → tidy (f s.sbc).queue) → (s.sbc.stallCount ≤ 255 → (f s.sbc).stallCount ≤ 255) →
    P s → P (s.updSbc f)
  caa : ∀ s f, (s.caa.balanced → (f s.caa).balanced) → P s → P (s.updCaa f)
  pool : ∀ s f, (s.pool.ordered → (f s.pool).ordered) →
    (s.pool.nextSeq ≤ Config.max32 → (f s.pool).nextSeq ≤ Config.max32) → P s → P (s.updPool f)
  bank : ∀ s x f, ((s.string x).consistent → (f (s.string x)).consistent) →
    (s.plm.timeout ≤ 3600 → (s.string x).due → (f (s.string x)).due) → P s → P (s.updString x f)
  tick : ∀ s, P s → P { s with bank := s.bank.map BankString.tick }
  plm : ∀ s f, (s.plm.bounded → (f s.plm).bounded) → P s → P (s.updPlm f)
  nqa : ∀ s f, (s.nqa.bounded → (f s.nqa).bounded) → P s → P (s.updNqa f)
  link : ∀ s f, (s.link.counted → (f s.link).counted) → P s → P (s.updLink f)
  profiles : ∀ s k v, (∀ p, v = some p → Profile.firstBad p = none) → P s →
    P { s with profiles := updAt s.profiles k fun _ => v }
  handOver : ∀ s t : State, t = { s with toWev := t.toWev, toBsq := t.toBsq, toScan := t.toScan, toCaa := t.toCaa,
                                         grantsOut := t.grantsOut } → P s → P t
  flag : ∀ s r, P s → P { s with inReset := r }
  reset : ∀ q, P { State.reset with inReset := true, pending := q }
  pop : ∀ s q, P s → P { s with pending := q }

namespace Closed

variable {P : State → Prop} (c : Closed P) {s : State}
include c

/-! ### Primitive operations -/

theorem tellWev (b : BayId) (m : WevMsg) (h : P s) : P (s.tellWev b m) := c.handOver s _ rfl h
theorem tellBsq (b : BayId) (m : BsqMsg) (h : P s) : P (s.tellBsq b m) := c.handOver s _ rfl h
theorem tellCaa (m : CaaMsg) (h : P s) : P (s.tellCaa m) := c.handOver s _ rfl h
theorem handGrant (m : GrantMsg) (h : P s) : P (s.handGrant m) := c.handOver s _ rfl h

theorem plainBay (b : BayId) (f : Bay → Bay) (h : P s)
    (same : ∀ r, (f r).entry = r.entry ∧ (f r).chargeTime = r.chargeTime ∧ (f r).dischargeTime = r.dischargeTime ∧
      (f r).q = r.q) : P (s.updBay b f) :=
  c.bay s b f (fun r hr => by
    obtain ⟨h1, h2, h3, h4⟩ := same r
    unfold Bay.bounded; rw [h1, h2, h3, h4]; exact hr) h

theorem queueWrite (b : BayId) (k : WriteKind) (v l : Nat) (h : P s) : P (s.queueWrite b k v l) :=
  c.sbc s _ (fun t => tidy_joinWrite b k v l t) id h

theorem offWrite (b : BayId) (h : P s) : P (s.offWrite b) := c.queueWrite _ _ _ _ h

theorem notify (n : Notice) (h : P s) : P (s.notify n) := c.nqa s _ (fun b => Nqa.push_bounded n b) h

theorem askPass (h : P s) : P s.askPass := by
  refine c.plm s _ (fun b => ?_) h
  obtain ⟨h1, h2, h3⟩ := b
  split_ifs with hp
  · exact ⟨h1, h2, h3⟩
  · exact ⟨h1, h2, fun hh => absurd hh hp⟩

theorem overrunFrame (h : P s) : P s.overrunFrame := c.link s _ id h
theorem answered (k t : Byte) (a : Answer) (h : P s) : P (s.answered k t a) := c.link s _ id h

theorem linkError (e : LinkLog) (h : P s) : P (s.linkError e) := by
  rw [linkError_eq]
  exact c.nqa _ _ id (c.link s _ (fun l => Link.erred_counted e l) h)

theorem setWatch (b : BayId) (on : Bool) (h : P s) : P (s.setWatch b on) := c.wev s b _ id h

/-! ### The two shells -/

theorem msg {m : MessageKind} {t : Byte} {body : List Byte} {serve : State → State × Answer} {u : State}
    (e : message m t body serve s = .next u) (h : P s) (serves : P s → P (serve s).1) : P u :=
  message_keeps (fun _ h => c.overrunFrame h) (fun _ _ _ _ h => c.answered _ _ _ h) serves h e

/-! ### Phases, suspension, rejection -/

theorem leavePhase (b : BayId) (x y z : Bool) (h : P s) : P (s.leavePhase b x y z) := by
  unfold State.leavePhase
  dsimp only
  split_ifs
  · exact c.tellWev _ _ h
  · exact c.tellCaa _ (c.tellWev _ _ h)

theorem beginPhase (b : BayId) (p : Phase) (k : Substate) (h : P s) : P (s.beginPhase b p k) :=
  c.tellWev _ _ (c.bay s b _ (fun _ hr => Bay.enter_bounded p k hr) h)

theorem askCurrent (b : BayId) (p : Phase) (h : P s) : P (s.askCurrent b p) := c.tellCaa _ h

theorem enterPhase (b : BayId) (p : Phase) (h : P s) : P (s.enterPhase b p) := by
  cases p <;> first
  | exact c.offWrite _ (c.beginPhase _ _ _ h)
  | exact c.askCurrent _ _ (c.beginPhase _ _ _ h)
  | exact c.queueWrite _ _ _ _ (c.beginPhase _ _ _ h)

theorem enterCleared (b : BayId) (p : Phase) (h : P s) : P (s.enterCleared b p) := c.offWrite _ (c.beginPhase _ _ _ h)

theorem nextPhase (b : BayId) (p : Phase) (h : P s) : P (s.nextPhase b p) := c.enterPhase _ _ (c.leavePhase _ _ _ _ h)

theorem suspendBay (b : BayId) (k : SuspensionCause) (code : StageCode) (a : Bool) (h : P s) :
    P (s.suspendBay b k code a) := by
  unfold State.suspendBay
  split
  · rename_i p _
    have h1 := c.plainBay b (fun r => { r with state := .suspended, substate := .none, resume := some p,
                                               cause := .suspension k code })
      (c.leavePhase b false a false h) (fun _ => ⟨rfl, rfl, rfl, rfl⟩)
    refine c.notify _ ?_
    split_ifs
    · exact c.offWrite _ h1
    · exact h1
  · exact h

theorem changeCause (b : BayId) (k : SuspensionCause) (code : StageCode) (h : P s) : P (s.changeCause b k code) := by
  unfold State.changeCause
  split_ifs
  · exact c.notify _ (c.plainBay _ _ h fun _ => ⟨rfl, rfl, rfl, rfl⟩)
  · exact h

theorem stageReport (b : BayId) (k : SuspensionCause) (code : StageCode) (h : P s) : P (s.stageReport b k code) := by
  unfold State.stageReport
  split
  · exact c.suspendBay _ _ _ _ h
  · exact c.changeCause _ _ _ h

theorem rejectBay (b : BayId) (k : RejectCause) (h : P s) : P (s.rejectBay b k) :=
  c.notify _ (c.offWrite _ (c.plainBay _ _ (c.leavePhase _ _ _ _ h) fun _ => ⟨rfl, rfl, rfl, rfl⟩))

theorem suspendMany (set : List BayId) (k : SuspensionCause) (h : P s) : P (s.suspendMany set k) := by
  unfold State.suspendMany
  induction set generalizing s with
  | nil => exact h
  | cons b set ih => exact ih (c.suspendBay _ _ _ _ h)

/-! ### Pool -/

theorem enterFromBay (b : BayId) (g : GradeRecord) (room : s.pool.records.length < Config.poolRoom) (h : P s) :
    P (s.enterFromBay b g) := by
  refine c.askPass (c.notify _ (c.plainBay b _ ?_ fun _ => ⟨rfl, rfl, rfl, rfl⟩))
  exact c.pool s _ (fun o => Pool.enter_ordered g room o) (fun _ => by simp [Pool.enter, Config.max32]; omega) h

theorem removeRecord (tag : Nat) (h : P s) : P (s.removeRecord tag) := by
  cases hf : (s.pool.find tag).isSome with
  | false => rw [removeRecord_absent hf]; exact h
  | true =>
    rw [removeRecord_found hf]
    have less : ∀ park, s.pool.ordered →
        ({ s.pool with records := s.pool.records.filter fun c => !(c.grade.tag == tag), park := park } : Pool).ordered :=
      fun park o => Pool.filter_ordered _ o park
    cases hp : s.pool.park with
    | nil =>
      rw [servePark_nil (s := s.updPool (Pool.without tag)) hp]
      exact c.pool s _ (fun o => less _ o) (fun n => n) h
    | cons b rest =>
      cases hg : (s.bay b).grade with
      | none =>
        rw [servePark_empty (s := s.updPool (Pool.without tag)) hp hg]
        exact c.pool s (fun p => { p.without tag with park := rest }) (fun o => less _ o) (fun n => n) h
      | some r =>
        rw [servePark_grade (s := s.updPool (Pool.without tag)) hp hg]
        refine c.askPass (c.notify _ (c.plainBay b _ ?_ fun _ => ⟨rfl, rfl, rfl, rfl⟩))
        exact c.pool s (fun p => Pool.enter r { p.without tag with park := rest })
          (fun o => Pool.enter_ordered r (lt_of_lt_of_le (Pool.removed_length hf) o.1) (less _ o))
          (fun _ => by simp [Pool.enter, Config.max32]; omega) h

/-! ### The test -/

theorem settleGrade (b : BayId) (g : GradeRecord) (h : P s) : P (s.settleGrade b g) := by
  unfold State.settleGrade
  have h1 := c.plainBay b (fun r => { r with grade := some g, substate := .none }) h fun _ => ⟨rfl, rfl, rfl, rfl⟩
  dsimp only
  split
  · exact c.notify _ (c.plainBay _ _ h1 fun _ => ⟨rfl, rfl, rfl, rfl⟩)
  · split_ifs with hl
    · exact c.enterFromBay _ _ hl h1
    · exact c.pool _ _ id id (c.plainBay _ _ h1 fun _ => ⟨rfl, rfl, rfl, rfl⟩)

theorem finishTest (b : BayId) (h : P s) : P (s.finishTest b) := by
  unfold State.finishTest
  refine c.settleGrade _ _ (c.plainBay _ _ (c.tellCaa _ ?_) fun _ => ⟨rfl, rfl, rfl, rfl⟩)
  split
  · exact h
  · exact c.wev s b _ (fun w => w) h

theorem mark (b : BayId) (f : Marks → Marks) (h : P s) : P (s.mark b f) := c.plainBay _ _ h fun _ => ⟨rfl, rfl, rfl, rfl⟩

theorem restPartEnded (b : BayId) (p : Profile) (how : RestEnding) (i v : Nat) (h : P s) :
    P (s.restPartEnded b p how i v) := by
  unfold State.restPartEnded
  have h1 := c.plainBay b (fun r => { r with restEnding := how }) h fun _ => ⟨rfl, rfl, rfl, rfl⟩
  dsimp only
  split_ifs
  · exact c.finishTest _ h1
  · exact c.plainBay _ _ h1 fun _ => ⟨rfl, rfl, rfl, rfl⟩

theorem judgeCheck (b : BayId) (p : Profile) (r : WindowRecord) (h : P s) : P (s.judgeCheck b p r) := by
  unfold State.judgeCheck
  split_ifs
  · exact c.rejectBay _ _ h
  · exact c.rejectBay _ _ h
  · exact c.rejectBay _ _ h
  · exact c.suspendBay _ _ _ _ h
  · exact c.nextPhase _ _ h

theorem phaseOutcome (b : BayId) (p : Profile) (ph : Phase) (x : SampleReport) (h : P s) :
    P (s.phaseOutcome b p ph x) := by
  unfold State.phaseOutcome
  dsimp only
  split
  · split
    · exact h
    · exact c.judgeCheck _ _ _ h
  · split_ifs
    all_goals first
    | exact c.nextPhase _ _ h
    | exact c.nextPhase _ _ (c.mark _ _ h)
    | exact h
  · split_ifs
    all_goals first
    | exact c.nextPhase _ _ h
    | exact c.nextPhase _ _ (c.mark _ _ h)
    | exact h
  · split_ifs
    · exact c.nextPhase _ _ h
    · exact c.nextPhase _ _ (c.mark _ _ h)
    · exact h
  · split_ifs
    · exact c.nextPhase _ _ h
    · exact c.nextPhase _ _ (c.mark _ _ h)
    · exact h
  · split_ifs
    · exact c.nextPhase _ _ h
    · exact c.nextPhase _ _ (c.mark _ _ h)
    · exact h
  · split_ifs
    · exact c.nextPhase _ _ h
    · exact h
  · split_ifs
    · exact c.nextPhase _ _ h
    · exact h
  · split
    · split_ifs
      · exact c.restPartEnded _ _ _ _ _ h
      · exact c.restPartEnded _ _ _ _ _ (c.mark _ _ h)
      · exact h
    · split
      · exact h
      · split_ifs
        · exact c.finishTest _ (c.plainBay _ _ h fun _ => ⟨rfl, rfl, rfl, rfl⟩)
        · exact c.plainBay _ _ h fun _ => ⟨rfl, rfl, rfl, rfl⟩

theorem takeReport (b : BayId) (x : SampleReport) (h : P s) : P (s.takeReport b x) := by
  unfold State.takeReport
  split
  · split_ifs
    · dsimp only
      have h1 := c.bay s b (Bay.count ‹Phase› x) (fun r hr => Bay.count_bounded _ _ hr) h
      split
      · exact c.suspendBay _ _ _ _ h1
      · exact c.rejectBay _ _ h1
      · exact c.phaseOutcome _ _ _ _ h1
    · exact h
  · exact h

theorem bsqTakeHead (b : BayId) (h : P s) : P (s.bsqTakeHead b) := by
  unfold State.bsqTakeHead
  split
  · exact h
  · rename_i m rest _
    have h1 : P { s with toBsq := updAt s.toBsq b fun _ => rest } := c.handOver s _ rfl h
    cases m with
    | report x => exact c.takeReport _ _ h1
    | closing x => exact c.bay _ _ _ (fun r hr => Bay.takeClosing_bounded x hr) h1

theorem bsqTakeIf (b : BayId) (k : BsqMsg → Bool) (h : P s) : P (s.bsqTakeIf b k) := by
  unfold State.bsqTakeIf
  split
  · split_ifs
    · exact c.bsqTakeHead _ h
    · exact h
  · exact h

theorem answerReports (b : BayId) (n : Nat) (h : P s) : P (State.answerReports b n s) := by
  induction n generalizing s with
  | zero => exact h
  | succ n ih =>
    unfold State.answerReports
    split_ifs
    · exact ih (c.bsqTakeHead _ h)
    · exact h

/-! ### WEV -/

theorem wevLeave (b : BayId) (f : Bool) (h : P s) : P (s.wevLeave b f) := by
  unfold State.wevLeave
  split
  · exact h
  · exact c.tellBsq _ _ (c.wev s b _ (fun w => w) h)

theorem wevTake (b : BayId) (m : WevMsg) (h : P s) : P (s.wevTake b m) := by
  cases m with
  | entry p n =>
    show P (s.wevEnter b p n)
    unfold State.wevEnter
    split_ifs
    · exact h
    · exact c.wev _ b _ (fun w => ⟨by simp, by simp, by simp, by simp⟩) (c.wevLeave _ _ h)
  | clockStart => exact c.wev s b _ (fun w => w) h
  | leave f a => exact c.wevLeave _ _ h

theorem wevTakeHead (b : BayId) (h : P s) : P (s.wevTakeHead b) := by
  unfold State.wevTakeHead
  split
  · exact h
  · exact c.wevTake _ _ (c.handOver s _ rfl h)

theorem wevTakeIf (b : BayId) (k : WevMsg → Bool) (h : P s) : P (s.wevTakeIf b k) := by
  unfold State.wevTakeIf
  split
  · split_ifs
    · exact c.wevTakeHead _ h
    · exact h
  · exact h

theorem wevTakeMany (b : BayId) (n : Nat) (h : P s) : P (State.wevTakeMany b n s) := by
  induction n generalizing s with
  | zero => exact h
  | succ n ih => exact ih (c.wevTakeHead _ h)

theorem takeAnswers (b : BayId) (n : Nat) (h : P s) : P (State.takeAnswers b n s) := by
  induction n generalizing s with
  | zero => exact h
  | succ n ih =>
    unfold State.takeAnswers
    split_ifs
    · exact ih (c.wevTakeHead _ h)
    · exact h

theorem settleBay (b : BayId) (h : P s) : P (s.settleBay b) := c.takeAnswers _ _ (c.answerReports _ _ h)

theorem foldSample (b : BayId) (x : Sample) (h : P s) : P (s.foldSample b x) := by
  unfold State.foldSample
  dsimp only
  split
  · split_ifs
    · exact c.tellBsq _ _ (c.wev s b _ (fun w => foldPhase_bounded _ _ _ w) h)
    · exact h
  · split_ifs
    · exact c.handOver (s.updWev b fun _ => (foldCal x (s.wevBay b)).1) _ rfl
        (c.wev s b (fun _ => (foldCal x (s.wevBay b)).1) (fun w => foldCal_bounded x w) h)
    · exact c.handOver (s.updWev b fun _ => (foldCal x (s.wevBay b)).1) _ rfl
        (c.wev s b (fun _ => (foldCal x (s.wevBay b)).1) (fun w => foldCal_bounded x w) h)
    · exact h

/-! ### Allowance and stage bus -/

theorem overLimit (w : Waiting) (h : P s) : P (s.overLimit w) := by
  unfold State.overLimit
  split_ifs
  · exact c.suspendBay _ _ _ _ h
  · exact h

theorem examineMany (n : Nat) (h : P s) : P (s.examineMany n) := by
  induction n generalizing s with
  | zero => exact h
  | succ n ih =>
    unfold State.examineMany
    split
    · exact h
    · rename_i w rest hw
      have sub : rest.Sublist s.caa.waiting := by rw [hw]; exact List.sublist_cons_self w rest
      split_ifs with h1 h2 h3
      · exact ih (c.overLimit _ (c.caa s _ (fun a => Allowance.fewer_balanced sub a) h))
      · exact h
      · exact ih (c.handGrant _ (c.caa s _ (fun a => Allowance.give_balanced hw h3 a) h))
      · exact h

theorem examine (h : P s) : P s.examine := c.examineMany _ h

theorem release (b : BayId) (h : P s) : P (s.release b) := by
  unfold State.release
  split_ifs
  · exact h
  · exact c.examine (c.caa s _ (fun a => Allowance.drop_balanced b a) h)

theorem releaseAll (h : P s) : P s.releaseAll := by
  refine c.examine (c.caa s _ (fun a => ?_) h)
  obtain ⟨h1, h2, h3, h4⟩ := a
  refine ⟨?_, by show s.caa.committed - _ ≤ _; omega, h3, h4⟩
  show s.caa.committed - s.caa.sum = _
  rw [h1]; simp [Allowance.sum]

theorem takeRequest (b : BayId) (mag entry : Nat) (h : P s) : P (s.takeRequest b mag entry) := by
  unfold State.takeRequest
  refine c.examine ?_
  split_ifs with hw
  · exact h
  · refine c.caa s _ (fun a => ⟨a.1, a.2.1, a.2.2.1, ?_⟩) h
    have a4 := a.2.2.2
    show ((s.caa.waiting ++ [_]).map Waiting.bay).Nodup
    rw [List.map_append, List.nodup_append]
    refine ⟨a4, by simp, ?_⟩
    intro x hx y hy hxy
    simp only [List.map_cons, List.map_nil, List.mem_singleton] at hy
    subst hy; subst hxy
    obtain ⟨v, hv, he⟩ := List.mem_map.mp hx
    exact hw (List.any_eq_true.mpr ⟨v, hv, by simp [he]⟩)

theorem takeLeave (b : BayId) (h : P s) : P (s.takeLeave b) :=
  c.examine (c.caa s _ (fun a => Allowance.fewer_balanced List.filter_sublist a) h)

theorem takeReturn (b : BayId) (entry : Nat) (h : P s) : P (s.takeReturn b entry) := by
  unfold State.takeReturn
  split
  · exact c.release _ h
  · exact h

theorem caaTake (m : CaaMsg) (h : P s) : P (s.caaTake m) := by
  cases m with
  | request b mag entry => exact c.takeRequest _ _ _ h
  | leave b => exact c.takeLeave _ h
  | giveBack b entry => exact c.takeReturn _ _ h

theorem caaTakeHead (h : P s) : P s.caaTakeHead := by
  unfold State.caaTakeHead
  split
  · exact h
  · exact c.caaTake _ (c.handOver s _ rfl h)

theorem caaTakeFor (b : BayId) (n : Nat) (h : P s) : P (State.caaTakeFor b n s) := by
  induction n generalizing s with
  | zero => exact h
  | succ n ih =>
    unfold State.caaTakeFor
    split
    · exact ih (c.caaTakeHead h)
    · exact h

theorem unwaitMany (set : List BayId) (h : P s) : P (s.unwaitMany set) :=
  c.caa s _ (fun a => Allowance.fewer_balanced List.filter_sublist a) h

theorem bsqAck (b : BayId) (k : WriteKind) (l : Nat) (h : P s) : P (s.bsqAck b k l) := by
  unfold State.bsqAck
  split
  · split_ifs
    · exact c.askCurrent _ _ (c.plainBay _ _ h fun _ => ⟨rfl, rfl, rfl, rfl⟩)
    · exact c.tellWev _ _ (c.plainBay _ _ h fun _ => ⟨rfl, rfl, rfl, rfl⟩)
    · exact h
  · exact h

theorem finish (h : P s) : P (s.updSbc StageBus.finish) := c.sbc s _ id id h

theorem noAnswer (b : BayId) (h : P s) : P (s.noAnswer b) :=
  c.stageReport _ _ _ (c.sbc s _ (fun t => tidy_filter _ t) id h)

theorem takeGrant (m : GrantMsg) (h : P s) : P (s.takeGrant m) := by
  unfold State.takeGrant
  split
  · split_ifs
    · exact c.queueWrite _ _ _ _ (c.plainBay _ _ h fun _ => ⟨rfl, rfl, rfl, rfl⟩)
    · exact c.tellCaa _ h
  · exact c.tellCaa _ h

theorem foreignOff (set : List BayId) (h : P s) : P (s.foreignOff set) := by
  refine c.releaseAll (c.sbc _ _ (fun t => ?_) id (c.unwaitMany _ (c.suspendMany _ _ h)))
  generalize (((s.suspendMany set .externalOff).unwaitMany set).sbc.queue) = q at t
  show tidy (set.foldl (fun q b => dropWrite b q) q)
  induction set generalizing q with
  | nil => exact t
  | cons b set ih => exact ih _ (tidy_filter _ t)

/-! ### Groups of bays -/

theorem startBay (b : BayId) (t : State) (e : s.startBay b = some t) (h : P s) : P t := by
  unfold State.startBay at e
  split_ifs at e
  obtain rfl := Option.some.inj e
  exact c.enterPhase _ _ (c.setWatch _ _ h)

theorem lineSuspend (b : BayId) (t : State) (e : s.lineSuspend b = some t) (h : P s) : P t := by
  unfold State.lineSuspend at e
  split at e
  · obtain rfl := Option.some.inj e
    exact c.suspendBay _ _ _ _ h
  · exact absurd e (by simp)

theorem doResume (b : BayId) (on : Bool) (p : Phase) (h : P s) : P (s.doResume b on p) := by
  unfold State.doResume
  have h1 := c.bay _ b (Bay.resumed p) (fun r hr => Bay.resumed_bounded p hr) (c.setWatch b on h)
  dsimp only
  split_ifs
  · exact c.enterCleared _ _ h1
  · exact c.enterPhase _ _ h1

theorem resumeBay (on : Bool) (b : BayId) (t : State) (e : State.resumeBay on s b = some t) (h : P s) : P t := by
  unfold State.resumeBay at e
  split_ifs at e
  obtain ⟨p, -, rfl⟩ := Option.map_eq_some_iff.mp e
  exact c.doResume _ _ _ h

theorem abortBay (b : BayId) (t : State) (e : s.abortBay b = some t) (h : P s) : P t := by
  have done : ∀ u : State, P u → P ((u.updBay b fun r =>
      { r with state := .aborted, substate := .none, resume := none, cause := .none }).offWrite b) := fun u hu =>
    c.offWrite _ (c.plainBay _ _ hu fun _ => ⟨rfl, rfl, rfl, rfl⟩)
  unfold State.abortBay at e
  dsimp only at e
  split at e
  · obtain rfl := Option.some.inj e
    exact done _ (c.leavePhase _ _ _ _ h)
  · obtain rfl := Option.some.inj e
    exact done _ h
  · obtain rfl := Option.some.inj e
    exact done _ h
  · obtain rfl := Option.some.inj e
    exact done _ (c.plainBay _ _ (c.pool s _ id id h) fun _ => ⟨rfl, rfl, rfl, rfl⟩)
  · exact absurd e (by simp)

/-! ### Bank and matcher -/

/-- An installation into a seat that holds no module, and the sealing check. -/
theorem installSeal {id : SeatId} {e : Seat} (g : GradeRecord) (hs : s.seat id = some e) (no : e.isInstalled = false)
    (h : P s) : P ((s.updString id.str (BankString.installed id.pos id.seat g e.isReserved)).seal id.str) := by
  have key := install_consistent (x := s.string id.str) g hs no
  have due (k : (s.string id.str).due) : ((s.string id.str).updPosition id.pos (Position.upd id.seat fun _ => .installed g)).due :=
    due_updPosition _ _ _ (fun _ _ _ _ _ e => nomatch e) k
  unfold State.seal
  have e1 : (s.updString id.str (BankString.installed id.pos id.seat g e.isReserved)).string id.str =
      (s.string id.str).installed id.pos id.seat g e.isReserved := by simp
  rw [e1]
  split_ifs with hf
  · refine c.notify _ ?_
    rw [updString_updString]
    refine c.bank s _ _ (fun k => ?_) (fun _ => due) h
    have := key k
    unfold BankString.sealedIf at this
    rwa [if_pos (by exact hf)] at this
  · refine c.bank s _ _ (fun k => ?_) (fun _ => due) h
    have := key k
    unfold BankString.sealedIf at this
    rwa [if_neg (by exact hf)] at this

theorem returnSeat {id : SeatId} {tag d : Nat} {under : UnderState} (hs : s.seat id = some (.reserved tag d under))
    (h : P s) : P (s.returnSeat id under) := by
  rw [returnSeat_eq]
  exact c.bank s _ _ (fun k => return_consistent hs k)
    (fun _ k => due_updPosition id.pos id.seat _ (fun _ _ _ _ _ e => by cases under <;> exact nomatch e) k) h

theorem reserve {id : SeatId} {e : Seat} (tag : Nat) (hs : s.seat id = some e) (free : e.isFree = true)
    (room : (s.string id.str).resCount < 4) (h : P s) : P (s.reserve id tag) := by
  unfold State.reserve
  refine c.notify _ ?_
  have h1 := c.pool s (Pool.update tag fun c => { c with status := some id })
    (fun o => Pool.update_ordered tag (fun _ => rfl) (fun _ hl => hl) o) (fun n => n) h
  unfold State.updSeat
  rw [updString_updString]
  refine c.bank _ _ _ (fun k => ?_) (fun t k => ?_) h1
  · have := reserve_consistent tag (s.plm.timeout * 10) hs free room k
    simpa using this
  · refine due_updPosition (x := s.string id.str) id.pos id.seat _ (fun e _ tag k under he => ?_) k
    have t : s.plm.timeout ≤ 3600 := t
    simp only [Seat.reserve, Seat.reserved.injEq] at he
    unfold Config.maxDeadline
    omega

theorem passWalk (l : List SeatId) (n m : Nat) (h : P s) : P (passWalk l n m s).1 := by
  induction l generalizing s n m with
  | nil => exact h
  | cons id l ih =>
    unfold Machine.passWalk
    split_ifs with h1 h2
    · exact ih _ _ h
    · exact h
    · split
      · exact ih _ _ h
      · refine ih _ _ ?_
        have hm : s.mayServe id = true := by simpa using h1
        simp only [State.mayServe, Bool.and_eq_true, decide_eq_true_eq, Option.any_eq_true] at hm
        obtain ⟨⟨⟨e, he, hf⟩, hr⟩, -⟩ := hm
        exact c.reserve _ he hf hr h

theorem lapse {id : SeatId} {x : Candidate} (h : P s) : P (s.lapse id x) := by
  unfold State.lapse
  dsimp only
  split_ifs with hl
  · refine c.notify _ (c.pool s _ (fun o => Pool.update_ordered _ (fun _ => rfl) (fun _ _ => ?_) o) (fun n => n) h)
    show x.lapses + 1 ≤ 2
    omega
  · exact c.removeRecord _ (c.notify _ h)

omit c in
/-- What holds of the outcome of either branch holds of the outcome. -/
theorem keeps_if (q : Prop) [Decidable q] {x y : State × Answer} (hx : q → P x.1) (hy : ¬q → P y.1) :
    P (if q then x else y).1 := by
  split
  · exact hx ‹_›
  · exact hy ‹_›

/-- A message that only reads. -/
theorem reads {m : MessageKind} {t : Byte} {body : List Byte} {serve : State → State × Answer} {u : State}
    (e : message m t body serve s = .next u) (h : P s) (same : ∀ s, (serve s).1 = s) : P u :=
  c.msg e h fun h => by rw [same]; exact h

theorem readsBay {m : MessageKind} {t : Byte} {body : List Byte} {f : BayId → State → State × Answer} {u : State}
    (e : message m t body (onBay body f) s = .next u) (h : P s) (same : ∀ b s, (f b s).1 = s) : P u :=
  c.msg e h fun h => onBay_keeps (fun b h => by rw [same]; exact h) h

theorem serveWriteProfile (body : List Byte) (h : P s) : P (serveWriteProfile body s).1 := by
  unfold Machine.serveWriteProfile
  split
  · exact h
  · split_ifs
    · exact h
    · try dsimp only
      split
      · exact h
      · rename_i hf
        exact c.profiles s _ _ (fun p hp => by obtain rfl := Option.some.inj hp; exact hf) h

theorem serveEraseProfile (body : List Byte) (h : P s) : P (serveEraseProfile body s).1 := by
  unfold Machine.serveEraseProfile
  split
  · exact h
  · split
    · exact h
    · split_ifs
      · exact h
      · exact c.profiles s _ _ (fun p hp => by simp at hp) h

theorem serveEnterCal (body : List Byte) (h : P s) : P (serveEnterCal body s).1 := by
  refine onBay_keeps (fun b h => ?_) h
  try dsimp only
  split_ifs
  · exact c.wev _ b _ (fun w => w) (c.trims _ b _ (fun k => k) (c.plainBay _ _ h fun _ => ⟨rfl, rfl, rfl, rfl⟩))
  · exact h

theorem serveTrim (body : List Byte) (h : P s) : P (serveTrim body s).1 := by
  refine onBay_keeps (fun b h => ?_) h
  try dsimp only
  split
  · exact h
  · rename_i q _
    split_ifs
    · exact h
    · exact h
    · refine c.trims s b _ (fun k q2 => ⟨(k q2).1, fun x hx => ?_⟩) h
      obtain ⟨rfl, rfl⟩ : q = q2 ∧ _ = x := by simpa using hx
      exact TrimSet.target_holds _ _ _

theorem serveSetTrimRange (body : List Byte) (h : P s) : P (serveSetTrimRange body s).1 := by
  refine onBay_keeps (fun b h => ?_) h
  try dsimp only
  split
  · exact h
  · split_ifs
    · exact c.trims s b _ (fun k => k) h
    · exact h

theorem serveExitCal (body : List Byte) (h : P s) : P (serveExitCal body s).1 := by
  refine onBay_keeps (fun b h => ?_) h
  try dsimp only
  split_ifs
  · refine c.handOver (((s.updTrims b fun k => { k.applyPending with calFlag := false, flagMoved := true }).updWev b fun w =>
      { w with cal := false, window := none, nextIndex := 0 }).updBay b fun r => { r with state := .empty }) _ rfl ?_
    exact c.plainBay _ _ (c.wev _ b _ (fun w => w) (c.trims s b _ (fun k => TrimSet.applyPending_inRange k) h))
      fun _ => ⟨rfl, rfl, rfl, rfl⟩
  · exact h

theorem serveLoad (body : List Byte) (h : P s) : P (serveLoad body s).1 := by
  refine onBay_keeps (fun b h => ?_) h
  refine keeps_if _ (fun _ => h) fun _ => keeps_if _ (fun _ => h) fun _ => ?_
  split
  · exact h
  · split
    · exact h
    · refine keeps_if _ (fun _ => h) fun _ => keeps_if _ (fun _ => ?_) fun _ => h
      refine c.bay s b _ (fun r hr => ⟨hr.1, ?_, ?_, ?_⟩) h <;> simp [Bay.reset]

theorem serveResume (body : List Byte) (h : P s) : P (serveResume body s).1 := by
  refine onBay_keeps (fun b h => ?_) h
  try dsimp only
  split
  · exact h
  · split_ifs
    · exact h
    · exact h
    · exact oneBay_keeps (fun s b t e h => c.resumeBay _ b t e h) _ h

omit c in
theorem serveGroup {act : State → BayId → Option State} (keeps : ∀ s b t, act s b = some t → P s → P t)
    (body : List Byte) (h : P s) : P (serveGroup act body s).1 := groupAct_keeps keeps _ h

theorem serveResumeGroup (body : List Byte) (h : P s) : P (serveResumeGroup body s).1 := by
  unfold Machine.serveResumeGroup
  split
  · exact h
  · exact Closed.serveGroup (fun s b t e h => c.resumeBay _ b t e h) _ h

theorem serveUnload (body : List Byte) (h : P s) : P (serveUnload body s).1 := by
  refine onBay_keeps (fun b h => keeps_if _ (fun _ => keeps_if _ (fun _ => h) fun _ => ?_) fun _ => h) h
  have h1 : P (if s.grantOf b = 0 then s.caaUnload b else s) := by
    split
    · exact c.caaTakeFor _ _ h
    · exact h
  refine keeps_if _ (fun _ => c.offWrite _ h1) fun _ => ?_
  exact c.bay _ b _ (fun r hr => Bay.unloaded_bounded hr)
    (c.handOver _ _ rfl (c.setWatch _ _ (c.wevTakeMany _ _ h1)))

theorem serveStopAll (h : P s) : P (serveStopAll s).1 :=
  c.unwaitMany _ (c.suspendMany _ _ (c.sbc s _ (fun t => tidy_joinBroadcast (tidy_filter _ t)) id h))

theorem serveSetLimit (body : List Byte) (h : P s) : P (serveSetLimit body s).1 :=
  c.examine (c.caa s _ (fun a => ⟨a.1, a.2.1, Nat.min_le_left _ _, a.2.2.2⟩) h)

theorem serveRestoreCandidate (body : List Byte) (h : P s) : P (serveRestoreCandidate body s).1 := by
  unfold Machine.serveRestoreCandidate
  refine keeps_if _ (fun _ => h) fun _ => ?_
  split
  · exact h
  · refine keeps_if _ (fun _ => h) fun _ => keeps_if _ (fun _ => h) fun _ => keeps_if _ (fun _ => h) fun _ =>
      keeps_if _ (fun _ => h) fun room => ?_
    exact c.askPass (c.pool s _ (fun o => Pool.enter_ordered _ (by omega) o)
      (fun _ => by simp [Pool.enter, Config.max32]; omega) h)

theorem serveWithdraw (body : List Byte) (h : P s) : P (serveWithdraw body s).1 := by
  unfold Machine.serveWithdraw
  try dsimp only
  split_ifs
  · exact h
  · split
    · exact h
    · split
      · exact h
      · exact c.removeRecord _ h

theorem serveOpenString (body : List Byte) (h : P s) : P (serveOpenString body s).1 := by
  refine onString_keeps (fun x h => ?_) h
  refine keeps_if _ (fun _ => h) fun _ => ?_
  split
  · exact h
  · refine keeps_if _ (fun _ => h) fun hn => ?_
    split
    · exact h
    · refine keeps_if _ (fun _ => h) fun _ => keeps_if _ (fun _ => h) fun _ => keeps_if _ (fun _ => h) fun _ => ?_
      exact c.askPass (c.bank s x _ (fun _ => opened_consistent _ _ _ _ _ _ _ (by omega) (by omega))
        (fun _ _ => opened_due _ _ _ _ _ _ _) h)

theorem serveSetReference (body : List Byte) (h : P s) : P (serveSetReference body s).1 := by
  refine onString_keeps (fun x h => ?_) h
  try dsimp only
  split_ifs with h1
  · exact h
  · exact h
  · exact h
  · refine c.askPass (c.bank s x _ (fun k => ?_) (fun _ k => k) h)
    obtain ⟨k1, k2, k3⟩ := k
    refine ⟨k1, k2, ?_⟩
    show match (s.string x).state with
      | .unused => _
      | .forming => _
      | .sealed => _
      | .service => _
    revert k3
    cases hs : (s.string x).state with
    | unused => exact absurd hs h1
    | forming => exact fun k => k
    | sealed => exact fun k => k
    | service => exact fun k => k

theorem serveReleaseString (body : List Byte) (h : P s) : P (serveReleaseString body s).1 := by
  refine onString_keeps (fun x h => ?_) h
  try dsimp only
  split_ifs
  · exact h
  · exact h
  · exact c.bank s x _ (fun _ => unused_consistent) (fun _ _ => unused_due) h

/-- An installation into a named seat that is not RESERVED, the sealing check, and the pass asked for. -/
theorem installNamed {id : SeatId} {e : Seat} (g : GradeRecord) (hs : s.seat id = some e) (no : e.isInstalled = false)
    (h : P s) : P ((s.install id g).seal id.str).askPass := by
  rw [install_eq, hs]
  exact c.askPass (c.installSeal g hs no h)

omit c in
theorem nameSeat_seat {x : StringId} {pos seat : Nat} {id : SeatId} {e : Seat}
    (hn : nameSeat x (s.string x) pos seat = .ok (id, e)) :
    s.seat id = some e ∧ id.str = x ∧ ∃ p, (s.string x).position id.pos = some p ∧ p.get id.seat = e := by
  unfold nameSeat at hn
  split at hn
  · simp at hn
  · split at hn
    · simp at hn
    · rename_i p hp _ n _
      simp only [Except.ok.injEq, Prod.mk.injEq] at hn
      obtain ⟨rfl, rfl⟩ := hn
      exact ⟨by simp [State.seat, hp], rfl, p, hp, rfl⟩

theorem vacate {id : SeatId} {e : Seat} {p : Position} (ov : Override) (hp : (s.string id.str).position id.pos = some p)
    (he : p.get id.seat = e) (inst : e.isInstalled = true)
    (st : (s.string id.str).state = .sealed ∨ (s.string id.str).state = .service) (h : P s) : P (s.vacate id ov) := by
  subst he
  have vacant (ov : Option Override) (k : (s.string id.str).due) :
      ((s.string id.str).updPosition id.pos (Position.upd id.seat fun _ => .vacant ov)).due :=
    due_updPosition _ _ _ (fun _ _ _ _ _ e => nomatch e) k
  unfold State.vacate State.updSeat
  dsimp only
  split_ifs
  · rw [updString_updString]
    refine c.bank s _ _ (fun k => ?_) (fun _ k => vacant _ k) h
    have := vacate_consistent (n := id.seat) (some ov) false hp inst st k
    simpa using this
  · show P (((s.updString id.str (BankString.updPosition id.pos (Position.upd id.seat fun _ => .vacant none))).updString
      id.str (BankString.updPosition id.pos (Position.upd (otherSeat id.seat) Seat.dropOverride))).updString id.str _)
    rw [updString_updString, updString_updString]
    refine c.bank s _ _ (fun k => ?_) (fun _ k => due_updPosition _ _ _ (fun e he tag n under h => ?_) (vacant _ k)) h
    rotate_left
    · rcases e with _ | ⟨_, _, _ | _⟩ | _ | _ <;> simp_all [Seat.dropOverride]
    have := vacate_consistent (n := id.seat) none true hp inst st k
    simpa using this

theorem serveDeclareVacancy (body : List Byte) (h : P s) : P (serveDeclareVacancy body s).1 := by
  refine onString_keeps (fun x h => ?_) h
  refine keeps_if _ (fun _ => h) fun hst => ?_
  split
  · exact h
  · rename_i id e hn
    obtain ⟨-, rfl, p, hp, he⟩ := nameSeat_seat hn
    refine keeps_if _ (fun _ => h) fun _ => keeps_if _ (fun hi => ?_) fun _ => h
    exact c.askPass (c.vacate _ hp he hi (by by_contra hc; exact hst (not_or.mp hc)) h)

omit c in
theorem open_seat {e : Seat} (h : e.isEmpty = true) : e.isInstalled = false := by cases e <;> simp_all [Seat.isEmpty, Seat.isInstalled]

theorem serveRestoreSeat (body : List Byte) (h : P s) : P (serveRestoreSeat body s).1 := by
  refine onString_keeps (fun x h => ?_) h
  refine keeps_if _ (fun _ => h) fun _ => ?_
  split
  · exact h
  · rename_i id e hn
    obtain ⟨hs, rfl, -⟩ := nameSeat_seat hn
    refine keeps_if _ (fun _ => h) fun _ => keeps_if _ (fun _ => h) fun he => ?_
    split
    · exact h
    · exact keeps_if _ (fun _ => h) fun _ => c.installNamed _ hs (open_seat (by simpa using he)) h

theorem serveInstallDirect (body : List Byte) (h : P s) : P (serveInstallDirect body s).1 := by
  unfold Machine.serveInstallDirect
  refine keeps_if _ (fun _ => h) fun _ => ?_
  refine onString_keeps (fun x h => ?_) h
  refine keeps_if _ (fun _ => h) fun _ => ?_
  split
  · exact h
  · rename_i id e hn
    obtain ⟨hs, rfl, -⟩ := nameSeat_seat hn
    refine keeps_if _ (fun _ => h) fun _ => keeps_if _ (fun _ => h) fun he => ?_
    cases hf : s.pool.find (uField body 0 4) with
    | none => exact h
    | some d =>
      dsimp only
      split
      · exact h
      · exact h
      · refine c.installNamed (s := s.removeRecord (uField body 0 4)) d.grade ?_ (by simpa using he) (c.removeRecord _ h)
        rw [removeRecord_seat]
        exact hs

omit c in
theorem reservation_seat {id : SeatId} {tag : Nat} {under : UnderState} (hr : s.reservation id tag = some under) :
    ∃ d, s.seat id = some (.reserved tag d under) := by
  unfold State.reservation at hr
  split at hr
  · split_ifs at hr with ht
    obtain rfl := Option.some.inj hr
    subst ht
    exact ⟨_, ‹_›⟩
  · exact absurd hr (by simp)

theorem place {id : SeatId} {tag : Nat} {under : UnderState} (g : GradeRecord) (hr : s.reservation id tag = some under)
    (h : P s) : P (s.place id tag g) := by
  obtain ⟨d, hs⟩ := reservation_seat hr
  unfold State.place
  have hs2 : (s.removeRecord tag).seat id = some (.reserved tag d under) := by rw [removeRecord_seat]; exact hs
  have key := c.installSeal g hs2 rfl (c.removeRecord tag h)
  rw [install_eq, hs, removeRecord_updString]
  exact c.askPass key

theorem servePlaced (body : List Byte) (h : P s) : P (servePlaced body s).1 := by
  unfold Machine.servePlaced
  refine keeps_if _ (fun _ => h) fun _ => ?_
  split
  · exact h
  · split
    · exact c.place _ ‹_› h
    · exact h

theorem dealWith (tag : Nat) (why : NotPlacedReason) (h : P s) : P (s.dealWith tag why) := by
  cases why
  · exact c.removeRecord _ h
  · exact c.removeRecord _ h
  · exact c.pool s _ (fun o => Pool.update_ordered tag (fun _ => rfl) (fun _ hl => hl) o) (fun n => n) h

theorem serveNotPlaced (body : List Byte) (h : P s) : P (serveNotPlaced body s).1 := by
  unfold Machine.serveNotPlaced
  refine keeps_if _ (fun _ => h) fun _ => ?_
  split
  · exact h
  · split
    · exact h
    · split
      · exact h
      · rename_i hr
        obtain ⟨d, hs⟩ := reservation_seat hr
        exact c.askPass (c.dealWith _ _ (c.returnSeat hs h))

/-! ### Matcher, notices, link -/

theorem servePauseMatcher (h : P s) : P (servePauseMatcher s).1 := by
  refine c.plm s (fun m => { m with paused := true, passPending := false }) (fun b => ?_) h
  exact ⟨b.1, b.2.1, fun _ => rfl⟩

theorem serveResumeMatcher (h : P s) : P (serveResumeMatcher s).1 :=
  c.askPass (c.plm s _ (fun b => ⟨b.1, b.2.1, fun hh => absurd hh (by simp)⟩) h)

theorem serveSetPlacementTimeout (body : List Byte) (h : P s) : P (serveSetPlacementTimeout body s).1 := by
  refine c.plm s (fun m => { m with timeout := min 3600 (max 30 (uField body 0 2)) }) (fun b => ?_) h
  exact ⟨by show 30 ≤ min 3600 (max 30 _); omega, Nat.min_le_left _ _, b.2.2⟩

theorem serveFetchNotices (body : List Byte) (h : P s) : P (serveFetchNotices body s).1 := by
  unfold Machine.serveFetchNotices
  refine keeps_if _ (fun _ => h) fun _ => ?_
  have h1 : P (s.updNqa (Nqa.fetch (countOf (uField body 0 1)))) :=
    c.nqa s _ (fun b => ⟨by show (s.nqa.queue.drop _).length ≤ _; have := b.1; simp; omega, Nat.zero_le _, b.2.2⟩) h
  show P (if s.nqa.queue.isEmpty then _ else _)
  split
  · exact h1
  · exact c.askPass h1

theorem serveSetNoticeThreshold (body : List Byte) (h : P s) : P (serveSetNoticeThreshold body s).1 := by
  unfold Machine.serveSetNoticeThreshold
  refine keeps_if _ (fun _ => h) fun hn => ?_
  refine c.nqa s (fun x => { x with threshold := countOf (uField body 0 1) }) (fun b => ?_) h
  refine ⟨b.1, b.2.1, ?_, by show countOf _ ≤ 8; omega⟩
  show 1 ≤ countOf _
  unfold countOf
  split_ifs <;> omega

theorem serveSetAlertEnable (body : List Byte) (h : P s) : P (serveSetAlertEnable body s).1 := by
  unfold Machine.serveSetAlertEnable
  split
  · exact h
  · rename_i k _
    exact c.nqa s (fun x => { x with enables := k }) (fun b => b) h

theorem serveClearAlert (body : List Byte) (h : P s) : P (serveClearAlert body s).1 := by
  unfold Machine.serveClearAlert
  split
  · exact h
  · exact c.nqa s (Nqa.clear _) (fun b => b) h

theorem serveClearLinkError (h : P s) : P (serveClearLinkError s).1 := by
  refine c.nqa (s.updLink fun l => { l with log := none, errorCount := 0 }) (fun x => { x with linkError := false })
    (fun b => b) (c.link s _ (fun _ => ?_) h)
  exact ⟨Nat.zero_le _, by simp⟩

theorem serveSetLinkMode (body : List Byte) (h : P s) : P (serveSetLinkMode body s).1 := by
  unfold Machine.serveSetLinkMode
  split
  · exact h
  · rename_i m _
    exact c.link s (fun l => { l with mode := m }) (fun l => l) h

theorem cutFrame (e : LinkLog) (h : P s) : P (s.cutFrame e) := by
  unfold State.cutFrame
  refine c.linkError _ ?_
  split
  · exact c.overrunFrame h
  · exact h

theorem enterReset (s : State) : P s.enterReset := c.reset _

theorem afterReply (a : ReplyAct) (h : P s) : P (s.afterReply a) := by
  cases a with
  | none => exact h
  | setRate r => exact c.link s (fun l => { l with rate := r, rx := .hunt }) (fun l => l) h
  | reset => exact c.enterReset s

/-! ### Events -/

omit c in
theorem ev {f : State → State} {u : State} (e : event f s = .next u) (h : P s) (runs : P s → P (f s)) : P u :=
  event_keeps runs h e

theorem runPass (h : P s) : P s.runPass :=
  c.plm (Machine.passWalk s.seatOrder 0 0 s).1 (fun m => { m with lastPass := (Machine.passWalk s.seatOrder 0 0 s).2 })
    (fun b => b) (c.passWalk _ _ _ h)

theorem begin (h : P s) : P (s.updSbc StageBus.begin) := by
  refine c.sbc s _ (fun t => ?_) (fun t => ?_) h
  · unfold StageBus.begin
    split
    · rename_i hq
      split_ifs
      · rw [hq] at t; exact tidy_tail t
      · exact t
    · exact t
  · unfold StageBus.begin
    split
    · split_ifs <;> exact t
    · exact t

theorem acknowledged (b : BayId) (k : WriteKind) (l : Nat) (h : P s) : P (s.acknowledged b k l) := by
  unfold State.acknowledged
  refine c.bsqAck _ _ _ ?_
  split
  · exact c.release _ h
  · exact h

theorem statusRead (b : BayId) (o : Option StageCode) (h : P s) : P (s.statusRead b o) := by
  unfold State.statusRead
  split
  · exact c.noAnswer _ h
  · exact h
  · exact c.stageReport _ _ _ (c.release _ h)

theorem foreignEnd (set : List BayId) (h : P s) :
    P (s.updSbc fun x => { x.settleAbandoned set with listening := false, bus := .idle }) := by
  refine c.sbc s _ (fun t => ?_) (fun t => ?_) h
  · show tidy (s.sbc.settleAbandoned set).queue
    unfold StageBus.settleAbandoned
    split
    · exact t
    · split_ifs
      · exact t
      · exact tidy_returnEntry _ _ t
  · show (s.sbc.settleAbandoned set).stallCount ≤ 255
    unfold StageBus.settleAbandoned
    split <;> exact t

theorem faultReads (set : List BayId) (h : P s) :
    P (s.updSbc fun x => { x with faultLow := true, queue := set.foldl (fun q b => joinRead b q) x.queue }) := by
  refine c.sbc s _ (fun t => ?_) id h
  show tidy (set.foldl (fun q b => joinRead b q) s.sbc.queue)
  generalize s.sbc.queue = q at t ⊢
  induction set generalizing q with
  | nil => exact t
  | cons b set ih => exact ih _ (tidy_joinRead b t)

theorem stalled (awaiting set : List BayId) (h : P s) :
    P ((((s.updSbc (StageBus.stall awaiting)).updNqa fun x => { x with stageBus := true }).suspendMany set
      .busStall).unwaitMany set) :=
  c.unwaitMany _ (c.suspendMany _ _ (c.nqa _ _ (fun b => b)
    (c.sbc s _ (fun _ => ⟨by simp, by simp⟩) (fun _ => Nat.min_le_left _ _) h)))

/-- What every block's own changes keep, every command keeps. -/
theorem exec {i : Instr} {u : State} (e : exec i s = .next u) (h : P s) : P u := by
  cases i with
  | echo t body => exact c.msg e h id
  | getIdentity t body => exact c.msg e h id
  | reset t body => exact c.msg e h id
  | resetInput => cases e; exact c.enterReset s
  | getLinkLog t body => exact c.msg e h id
  | clearLinkError t body => exact c.msg e h c.serveClearLinkError
  | setLinkMode t body => exact c.msg e h (c.serveSetLinkMode body)
  | setLinkRate t body => exact c.reads e h fun s => by unfold Machine.serveSetLinkRate; split <;> rfl
  | writeProfile t body => exact c.msg e h (c.serveWriteProfile body)
  | readProfile t body =>
    refine c.reads e h fun s => ?_
    unfold Machine.serveReadProfile
    repeat' split
    all_goals rfl
  | eraseProfile t body => exact c.msg e h (c.serveEraseProfile body)
  | enterCal t body => exact c.msg e h (c.serveEnterCal body)
  | trim t body => exact c.msg e h (c.serveTrim body)
  | setTrimRange t body => exact c.msg e h (c.serveSetTrimRange body)
  | exitCal t body => exact c.msg e h (c.serveExitCal body)
  | getTrim t body => exact c.readsBay e h fun _ _ => rfl
  | getWindow t body => exact c.readsBay e h fun _ _ => rfl
  | load t body => exact c.msg e h (c.serveLoad body)
  | start t body =>
    exact c.msg e h (onBay_keeps fun b h => oneBay_keeps (fun _ _ _ e h => c.startBay _ _ e h) b h)
  | startGroup t body => exact c.msg e h (serveGroup (fun _ _ _ e h => c.startBay _ _ e h) body)
  | suspend t body =>
    exact c.msg e h (onBay_keeps fun b h => oneBay_keeps (fun _ _ _ e h => c.lineSuspend _ _ e h) b h)
  | resume t body => exact c.msg e h (c.serveResume body)
  | resumeGroup t body => exact c.msg e h (c.serveResumeGroup body)
  | abort t body =>
    exact c.msg e h (onBay_keeps fun b h => oneBay_keeps (fun _ _ _ e h => c.abortBay _ _ e h) b h)
  | abortGroup t body => exact c.msg e h (serveGroup (fun _ _ _ e h => c.abortBay _ _ e h) body)
  | unload t body => exact c.msg e h (c.serveUnload body)
  | getBay t body => exact c.readsBay e h fun _ _ => rfl
  | stopAll t body => exact c.msg e h c.serveStopAll
  | getStageBus t body => exact c.msg e h id
  | setLimit t body => exact c.msg e h (c.serveSetLimit body)
  | getAllowance t body => exact c.msg e h id
  | restoreCandidate t body => exact c.msg e h (c.serveRestoreCandidate body)
  | withdraw t body => exact c.msg e h (c.serveWithdraw body)
  | getPool t body =>
    refine c.reads e h fun s => ?_
    unfold Machine.serveGetPool
    dsimp only
    repeat' split
    all_goals rfl
  | getCandidate t body =>
    refine c.reads e h fun s => ?_
    unfold Machine.serveGetCandidate
    dsimp only
    repeat' split
    all_goals rfl
  | openString t body => exact c.msg e h (c.serveOpenString body)
  | setReference t body => exact c.msg e h (c.serveSetReference body)
  | declareVacancy t body => exact c.msg e h (c.serveDeclareVacancy body)
  | releaseString t body => exact c.msg e h (c.serveReleaseString body)
  | restoreSeat t body => exact c.msg e h (c.serveRestoreSeat body)
  | installDirect t body => exact c.msg e h (c.serveInstallDirect body)
  | getString t body => exact c.msg e h (onString_keeps fun _ h => h)
  | getPosition t body =>
    refine c.msg e h (onString_keeps fun x h => ?_)
    repeat' split
    all_goals exact h
  | placed t body => exact c.msg e h (c.servePlaced body)
  | notPlaced t body => exact c.msg e h (c.serveNotPlaced body)
  | pauseMatcher t body => exact c.msg e h c.servePauseMatcher
  | resumeMatcher t body => exact c.msg e h c.serveResumeMatcher
  | setPlacementTimeout t body => exact c.msg e h (c.serveSetPlacementTimeout body)
  | getMatcher t body => exact c.msg e h id
  | fetchNotices t body => exact c.msg e h (c.serveFetchNotices body)
  | setNoticeThreshold t body => exact c.msg e h (c.serveSetNoticeThreshold body)
  | getAlert t body => exact c.msg e h id
  | setAlertEnable t body => exact c.msg e h (c.serveSetAlertEnable body)
  | clearAlert t body => exact c.msg e h (c.serveClearAlert body)
  | badKind k t body =>
    unfold Machine.exec Machine.execBadKind at e
    refine ev e h fun h => ?_
    try dsimp only
    split_ifs
    exacts [h, c.overrunFrame h, c.answered _ _ _ h]
  | checkError k t body check =>
    unfold Machine.exec Machine.execCheckError at e
    refine ev e h fun h => ?_
    try dsimp only
    split_ifs
    exacts [h, c.overrunFrame h, c.linkError _ h]
  | lengthError hi lo =>
    unfold Machine.exec Machine.execLengthError at e
    refine ev e h fun h => ?_
    try dsimp only
    split_ifs
    exacts [c.cutFrame _ h, h]
  | gapError held =>
    unfold Machine.exec Machine.execGapError at e
    refine ev e h fun h => ?_
    try dsimp only
    split_ifs
    exacts [c.cutFrame _ h, h]
  | overrunFrame ending =>
    unfold Machine.exec Machine.execOverrunFrame at e
    refine ev e h fun h => ?_
    try dsimp only
    split_ifs
    · cases ending
      exacts [c.overrunFrame h, c.linkError _ (c.overrunFrame h), c.linkError _ (c.overrunFrame h)]
    · exact h
  | replyStart =>
    unfold Machine.exec Machine.execReplyStart at e
    refine ev e h fun h => c.link s _ (fun l => ?_) h
    unfold Link.startReply
    split <;> exact l
  | replyEnd =>
    unfold Machine.exec Machine.execReplyEnd at e
    refine ev e h fun h => ?_
    try dsimp only
    split
    · exact h
    · exact c.afterReply _ (c.link s _ (fun l => l) h)
  | sample b vin iin tin inCal =>
    unfold Machine.exec Machine.execSample at e
    exact ev e h fun h => c.foldSample _ _ (c.trims _ b _ (fun k => k) (c.settleBay _ h))
  | calWindowCompletion b =>
    unfold Machine.exec Machine.execCalWindowCompletion at e
    refine ev e h fun h => ?_
    try dsimp only
    split_ifs
    · exact h
    · exact c.trims _ _ _ (fun k => TrimSet.applyPending_inRange k) (c.handOver s _ rfl h)
  | phaseEntry b =>
    unfold Machine.exec Machine.execPhaseEntry at e
    exact ev e h (c.wevTakeIf _ _)
  | clockStart b =>
    unfold Machine.exec Machine.execClockStart at e
    exact ev e h (c.wevTakeIf _ _)
  | phaseLeave b =>
    unfold Machine.exec Machine.execPhaseLeave at e
    exact ev e h (c.wevTakeIf _ _)
  | sampleReport b =>
    unfold Machine.exec Machine.execSampleReport at e
    exact ev e h (c.bsqTakeIf _ _)
  | closingReport b =>
    unfold Machine.exec Machine.execClosingReport at e
    exact ev e h (c.bsqTakeIf _ _)
  | request =>
    unfold Machine.exec Machine.execRequest at e
    refine ev e h fun h => ?_
    try dsimp only
    split
    exacts [c.takeRequest _ _ _ (c.handOver s _ rfl h), h]
  | leave =>
    unfold Machine.exec Machine.execLeave at e
    refine ev e h fun h => ?_
    try dsimp only
    split
    exacts [c.takeLeave _ (c.handOver s _ rfl h), h]
  | grant =>
    unfold Machine.exec Machine.execGrant at e
    refine ev e h fun h => ?_
    try dsimp only
    split
    exacts [h, c.takeGrant _ (c.handOver s _ rfl h)]
  | grantReturn =>
    unfold Machine.exec Machine.execGrantReturn at e
    refine ev e h fun h => ?_
    try dsimp only
    split
    exacts [c.takeReturn _ _ (c.handOver s _ rfl h), h]
  | transactionStart =>
    unfold Machine.exec Machine.execTransactionStart at e
    exact ev e h c.begin
  | ack =>
    unfold Machine.exec Machine.execAck at e
    refine ev e h fun h => ?_
    try dsimp only
    split
    exacts [c.acknowledged _ _ _ (c.finish h), h]
  | nack =>
    unfold Machine.exec Machine.execNack at e
    refine ev e h fun h => ?_
    try dsimp only
    split
    exacts [c.noAnswer _ (c.finish h), h]
  | statusReadOutcome status check =>
    unfold Machine.exec Machine.execStatusReadOutcome at e
    refine ev e h fun h => ?_
    try dsimp only
    split
    exacts [c.statusRead _ _ (c.finish h), h]
  | broadcastComplete =>
    unfold Machine.exec Machine.execBroadcastComplete at e
    refine ev e h fun h => ?_
    try dsimp only
    split
    exacts [c.releaseAll (c.sbc s _ id id h), h]
  | arbitrationLost =>
    unfold Machine.exec Machine.execArbitrationLost at e
    refine ev e h fun h => ?_
    try dsimp only
    split
    exacts [c.sbc s _ id id h, h]
  | foreignStart =>
    unfold Machine.exec Machine.execForeignStart at e
    refine ev e h fun h => ?_
    try dsimp only
    split
    exacts [c.sbc s _ id id h, h]
  | foreignTransaction bytes =>
    unfold Machine.exec Machine.execForeignTransaction at e
    refine ev e h fun h => ?_
    try dsimp only
    split_ifs
    exacts [c.foreignEnd _ (c.foreignOff _ h), c.foreignEnd _ h, h]
  | stall =>
    unfold Machine.exec Machine.execStall at e
    refine ev e h fun h => ?_
    try dsimp only
    split
    exacts [h, c.stalled _ _ h]
  | busRecovery =>
    unfold Machine.exec Machine.execBusRecovery at e
    refine ev e h fun h => ?_
    try dsimp only
    split
    exacts [c.sbc s _ id id h, h]
  | faultAssertion =>
    unfold Machine.exec Machine.execFaultAssertion at e
    refine ev e h fun h => ?_
    try dsimp only
    split
    exacts [h, c.faultReads _ h]
  | faultRelease =>
    unfold Machine.exec Machine.execFaultRelease at e
    exact ev e h (c.sbc s _ id id)
  | matchingPass =>
    unfold Machine.exec Machine.execMatchingPass at e
    refine ev e h fun h => ?_
    try dsimp only
    split
    exacts [c.runPass (c.plm s _ (fun b => ⟨b.1, b.2.1, fun _ => rfl⟩) h), h]
  | timeStep =>
    unfold Machine.exec Machine.execTimeStep at e
    exact ev e h (c.tick s)
  | expiry seat =>
    unfold Machine.exec Machine.execExpiry at e
    refine ev e h fun h => ?_
    try dsimp only
    split
    · rename_i hs
      split
      · exact c.askPass (c.lapse (c.returnSeat hs h))
      · exact c.askPass (c.returnSeat hs h)
    · exact h
  | resetRelease sda scl fault =>
    cases e
    split
    · exact c.sbc _ (StageBus.release sda scl fault) (by unfold StageBus.release; split <;> exact id)
        (by unfold StageBus.release; split <;> exact id) (c.flag s false h)
    · exact h

end Closed

end Sys2Proof.Machine
end

