-- ==== Sys2Proof/Laws/Groups.lean ====
section
/-! SUPPORT. Acts on several bays: once each, what a suspension of many bays does (R73) and how a group message stands
to the single one (R58). -/

namespace Sys2Proof.Machine

/-! ### A set of bays in ascending number -/

theorem allBays_ascending : allBays.Pairwise (· < ·) := by decide

theorem mem_allBays (b : BayId) : b ∈ allBays := List.mem_finRange b

theorem baysInHand_ascending (s : State) : s.baysInHand.Pairwise (· < ·) := allBays_ascending.filter _

theorem mem_baysInHand (s : State) (b : BayId) : b ∈ s.baysInHand ↔ (s.bay b).inHand = true := by
  simp [State.baysInHand, mem_allBays]

theorem inHand_iff (r : Bay) : r.inHand = true ↔ ∃ p, r.state = .phase p ∧
    (p ∈ [Phase.chargeCC, .chargeCV, .discharge, .pulse] ∨ r.substate = .awaitingStage) := by
  unfold Bay.inHand
  cases h : r.state <;> simp
  rename_i p
  cases p <;> simp [Phase.isCurrent]

theorem ascending_nodup {l : List BayId} (h : l.Pairwise (· < ·)) : l.Nodup :=
  h.imp fun {a b} lt e => by subst e; exact absurd lt (lt_irrefl a)

/-! ### A suspension of many bays (R73) -/

/-- The phase of a bay in one, which a suspension notice carries. -/
def Bay.phase? (r : Bay) : Option Phase :=
  match r.state with
  | .phase p => some p
  | _ => none

/-- One bay suspended, whatever the cause. -/
theorem suspendBay_eq {s : State} {b : BayId} {p : Phase} (h : (s.bay b).state = .phase p) (c : SuspensionCause)
    (k : StageCode) (a : Bool) : s.suspendBay b c k a = { s with
      bays := updAt s.bays b fun r =>
        { r with state := .suspended, substate := .none, resume := some p, cause := .suspension c k }
      toWev := updAt s.toWev b (· ++ [.leave false a])
      toCaa := s.toCaa ++ [.leave b]
      sbc := if c.queuesOff then s.sbc.write b .off 0 (s.bay b).entry else s.sbc
      nqa := s.nqa.push (.suspended b c k (some p)) } := by
  simp only [State.suspendBay, h]
  cases c <;> simp [SuspensionCause.queuesOff, State.leavePhase, State.tellWev, State.tellCaa, State.updBay,
    State.offWrite, State.queueWrite, State.updSbc, State.notify, State.updNqa, State.bay, updAt]

/-- Many bays suspended for one cause: each bay record, the leaves, the stage queue, the notices, and the rest. -/
theorem suspendMany_spec (c : SuspensionCause) (set : List BayId) (s : State) (nd : set.Nodup)
    (ph : ∀ b ∈ set, ∃ p, (s.bay b).state = .phase p) :
    (∀ b, (b ∈ set → ∀ p, (s.bay b).state = .phase p → (s.suspendMany set c).bay b = { s.bay b with
        state := .suspended, substate := .none, resume := some p, cause := .suspension c .ok }) ∧
      (b ∉ set → (s.suspendMany set c).bay b = s.bay b)) ∧
    (∀ b, (s.suspendMany set c).toWev.get b = s.toWev.get b ++ if b ∈ set then [.leave false false] else []) ∧
    (s.suspendMany set c).toCaa = s.toCaa ++ set.map .leave ∧
    (s.suspendMany set c).sbc =
      (if c.queuesOff then set.foldl (fun x b => x.write b .off 0 (s.bay b).entry) s.sbc else s.sbc) ∧
    (s.suspendMany set c).nqa = set.foldl (fun x b => x.push (.suspended b c .ok (s.bay b).phase?)) s.nqa ∧
    s.suspendMany set c = { s with
      bays := (s.suspendMany set c).bays, toWev := (s.suspendMany set c).toWev, toCaa := (s.suspendMany set c).toCaa,
      sbc := (s.suspendMany set c).sbc, nqa := (s.suspendMany set c).nqa } := by
  induction set generalizing s with
  | nil => simp [State.suspendMany]
  | cons b rest ih =>
    obtain ⟨p, hp⟩ := ph b (by simp)
    obtain ⟨nb, nd⟩ := List.nodup_cons.mp nd
    have e := suspendBay_eq hp c .ok false
    have esbc : (s.suspendBay b c .ok false).sbc =
        if c.queuesOff then s.sbc.write b .off 0 (s.bay b).entry else s.sbc := by rw [e]
    have enqa : (s.suspendBay b c .ok false).nqa = s.nqa.push (.suspended b c .ok (s.bay b).phase?) := by
      rw [e]; simp [Bay.phase?, hp]
    have own : (s.suspendBay b c .ok false).bay b = { s.bay b with
        state := .suspended, substate := .none, resume := some p, cause := .suspension c .ok } := by
      rw [e]; simp [State.bay]
    have other : ∀ d, d ≠ b → (s.suspendBay b c .ok false).bay d = s.bay d := fun d hd => by
      rw [e]; exact set_get_ne _ _ _ _ hd.symm
    have apart : ∀ d ∈ rest, d ≠ b := fun d hd e => nb (e ▸ hd)
    have step : s.suspendMany (b :: rest) c = (s.suspendBay b c .ok false).suspendMany rest c := rfl
    obtain ⟨h1, h2, h3, h4, h5, h6⟩ := ih (s.suspendBay b c .ok false) nd
      (fun d hd => by rw [other d (apart d hd)]; exact ph d (by simp [hd]))
    rw [step]
    refine ⟨fun d => ⟨fun hd q hq => ?_, fun hd => ?_⟩, fun d => ?_, ?_, ?_, ?_, ?_⟩
    · by_cases hb : d = b
      · subst hb
        rw [(h1 d).2 nb, own]
        rw [hp] at hq; cases hq; rfl
      · rw [(h1 d).1 (by simpa [hb] using hd) q (by rw [other d hb]; exact hq), other d hb]
    · rw [(h1 d).2 (by simp at hd; exact hd.2), other d (by simp at hd; exact hd.1)]
    · rw [h2 d, e]
      by_cases hb : d = b
      · subst hb; simp [nb, updAt]
      · have := set_get_ne s.toWev b d ((s.toWev.get b) ++ [.leave false false]) (Ne.symm hb)
        simp only [updAt, this, List.mem_cons, hb, false_or]
    · rw [h3, e]; simp
    · rw [h4, esbc]
      split
      · exact List.foldl_ext _ _ _ fun x d hd => by rw [other d (apart d hd)]
      · rfl
    · rw [h5, enqa]
      exact List.foldl_ext _ _ _ fun x d hd => by rw [other d (apart d hd)]
    · rw [h6, e]

/-! ### A group message (R58) -/

/-- A fold that only adds to the list it collects, from a list already there. -/
theorem foldl_collect {σ α : Type} {f : σ × List α → α → σ × List α}
    (one : ∀ x k b, f (x, k) b = ((f (x, []) b).1, k ++ (f (x, []) b).2)) (l : List α) (x : σ) (k : List α) :
    l.foldl f (x, k) = ((l.foldl f (x, [])).1, k ++ (l.foldl f (x, [])).2) := by
  induction l generalizing x k with
  | nil => simp
  | cons b l ih =>
    have tail := ih (f (x, []) b).1 (f (x, []) b).2
    rw [Prod.mk.eta] at tail
    rw [List.foldl_cons, List.foldl_cons, one, ih, tail, List.append_assoc]

theorem groupAct_cons (act : State → BayId → Option State) (b : BayId) (rest : List BayId) (s : State) :
    groupAct act (b :: rest) s =
      match act s b with
      | some u => ((groupAct act rest u).1, b :: (groupAct act rest u).2)
      | none => groupAct act rest s := by
  have h : groupAct act (b :: rest) s = rest.foldl (fun x b =>
      match act x.1 b with
      | some u => (u, x.2 ++ [b])
      | none => x) (match act s b with
        | some u => (u, [b])
        | none => (s, [])) := rfl
  rw [h]
  cases act s b with
  | none => rfl
  | some u => exact foldl_collect (fun x k d => by cases act x d <;> simp) rest u [b]

/-- The bays served come from the set, in its order, and the state passes from one to the next by the act on each. -/
theorem groupAct_spec (act : State → BayId → Option State) (set : List BayId) (s : State) :
    (groupAct act set s).2.Sublist set ∧ ∃ at_ : Nat → State, at_ 0 = s ∧
      at_ (groupAct act set s).2.length = (groupAct act set s).1 ∧
      ∀ n b, (groupAct act set s).2[n]? = some b → act (at_ n) b = some (at_ (n + 1)) := by
  induction set generalizing s with
  | nil => exact ⟨.slnil, fun _ => s, rfl, rfl, fun n b h => by simp [groupAct] at h⟩
  | cons d rest ih =>
    rw [groupAct_cons]
    cases h : act s d with
    | none => obtain ⟨sub, walk⟩ := ih s; exact ⟨sub.cons _, walk⟩
    | some u =>
      obtain ⟨sub, at_, zero, last, each⟩ := ih u
      refine ⟨sub.cons_cons d, fun n => if n = 0 then s else at_ (n - 1), rfl, by simpa using last, fun n b hb => ?_⟩
      cases n with
      | zero => simp at hb; subst hb; simpa [zero] using h
      | succ m => simpa using each m b (by simpa using hb)

end Sys2Proof.Machine
end

