-- ==== Sys2Proof/Laws/PerInstr.lean ====
section
/-! SUPPORT. For every command: a well-formed request, read from the KIND, TAG and body of its frame, is that command
again, and its body fits a frame (R175 to R177, R186). The events stand for no frame. -/

namespace Sys2Proof.Laws.FrameRoundTrip

open Sys2Proof

/-- What is said of each command. -/
def Statement (i : Instr) : Prop :=
  ∀ k t body, i.wf = true → i.frameOf = some (k, t, body) → decodeRequest k t body = i ∧ body.length ≤ Config.maxBody

/-- A request of the catalogue. -/
theorem of_request {i : Instr} {k t : Byte} {body : List Byte} (fr : i.frameOf = some (k, t, body))
    (dec : decodeRequest k t body = i) (fits : i.wf = bodyFits body) : Statement i := by
  intro k2 t2 body2 w h
  rw [fr] at h
  obtain ⟨rfl, rfl, rfl⟩ : k = k2 ∧ t = t2 ∧ body = body2 := by simpa using h
  exact ⟨dec, by simpa [fits, bodyFits] using w⟩

/-- An event. -/
theorem of_event {i : Instr} (h : i.frameOf = none) : Statement i := by
  intro k t body _ e
  rw [h] at e
  exact absurd e (by simp)

/-- Whether a KIND is known does not depend on the TAG and the body. -/
theorem decode_unknown (k t : Byte) (body : List Byte) (h : knownKind k = false) :
    decodeRequest k t body = .badKind k t body := by
  unfold knownKind decodeRequest at h
  unfold decodeRequest
  split <;> first
    | rfl
    | (rename_i e; rw [e] at h; exact Bool.noConfusion (show true = false from h))

theorem echo : ∀ x0 x1, Statement (.echo x0 x1) := fun _ _ => of_request rfl rfl rfl
theorem getIdentity : ∀ x0 x1, Statement (.getIdentity x0 x1) := fun _ _ => of_request rfl rfl rfl
theorem reset : ∀ x0 x1, Statement (.reset x0 x1) := fun _ _ => of_request rfl rfl rfl
theorem resetInput : Statement (.resetInput) := of_event rfl
theorem getLinkLog : ∀ x0 x1, Statement (.getLinkLog x0 x1) := fun _ _ => of_request rfl rfl rfl
theorem clearLinkError : ∀ x0 x1, Statement (.clearLinkError x0 x1) := fun _ _ => of_request rfl rfl rfl
theorem setLinkMode : ∀ x0 x1, Statement (.setLinkMode x0 x1) := fun _ _ => of_request rfl rfl rfl
theorem setLinkRate : ∀ x0 x1, Statement (.setLinkRate x0 x1) := fun _ _ => of_request rfl rfl rfl
theorem writeProfile : ∀ x0 x1, Statement (.writeProfile x0 x1) := fun _ _ => of_request rfl rfl rfl
theorem readProfile : ∀ x0 x1, Statement (.readProfile x0 x1) := fun _ _ => of_request rfl rfl rfl
theorem eraseProfile : ∀ x0 x1, Statement (.eraseProfile x0 x1) := fun _ _ => of_request rfl rfl rfl
theorem enterCal : ∀ x0 x1, Statement (.enterCal x0 x1) := fun _ _ => of_request rfl rfl rfl
theorem trim : ∀ x0 x1, Statement (.trim x0 x1) := fun _ _ => of_request rfl rfl rfl
theorem setTrimRange : ∀ x0 x1, Statement (.setTrimRange x0 x1) := fun _ _ => of_request rfl rfl rfl
theorem exitCal : ∀ x0 x1, Statement (.exitCal x0 x1) := fun _ _ => of_request rfl rfl rfl
theorem getTrim : ∀ x0 x1, Statement (.getTrim x0 x1) := fun _ _ => of_request rfl rfl rfl
theorem getWindow : ∀ x0 x1, Statement (.getWindow x0 x1) := fun _ _ => of_request rfl rfl rfl
theorem load : ∀ x0 x1, Statement (.load x0 x1) := fun _ _ => of_request rfl rfl rfl
theorem start : ∀ x0 x1, Statement (.start x0 x1) := fun _ _ => of_request rfl rfl rfl
theorem startGroup : ∀ x0 x1, Statement (.startGroup x0 x1) := fun _ _ => of_request rfl rfl rfl
theorem suspend : ∀ x0 x1, Statement (.suspend x0 x1) := fun _ _ => of_request rfl rfl rfl
theorem resume : ∀ x0 x1, Statement (.resume x0 x1) := fun _ _ => of_request rfl rfl rfl
theorem resumeGroup : ∀ x0 x1, Statement (.resumeGroup x0 x1) := fun _ _ => of_request rfl rfl rfl
theorem abort : ∀ x0 x1, Statement (.abort x0 x1) := fun _ _ => of_request rfl rfl rfl
theorem abortGroup : ∀ x0 x1, Statement (.abortGroup x0 x1) := fun _ _ => of_request rfl rfl rfl
theorem unload : ∀ x0 x1, Statement (.unload x0 x1) := fun _ _ => of_request rfl rfl rfl
theorem getBay : ∀ x0 x1, Statement (.getBay x0 x1) := fun _ _ => of_request rfl rfl rfl
theorem stopAll : ∀ x0 x1, Statement (.stopAll x0 x1) := fun _ _ => of_request rfl rfl rfl
theorem getStageBus : ∀ x0 x1, Statement (.getStageBus x0 x1) := fun _ _ => of_request rfl rfl rfl
theorem setLimit : ∀ x0 x1, Statement (.setLimit x0 x1) := fun _ _ => of_request rfl rfl rfl
theorem getAllowance : ∀ x0 x1, Statement (.getAllowance x0 x1) := fun _ _ => of_request rfl rfl rfl
theorem restoreCandidate : ∀ x0 x1, Statement (.restoreCandidate x0 x1) := fun _ _ => of_request rfl rfl rfl
theorem withdraw : ∀ x0 x1, Statement (.withdraw x0 x1) := fun _ _ => of_request rfl rfl rfl
theorem getPool : ∀ x0 x1, Statement (.getPool x0 x1) := fun _ _ => of_request rfl rfl rfl
theorem getCandidate : ∀ x0 x1, Statement (.getCandidate x0 x1) := fun _ _ => of_request rfl rfl rfl
theorem openString : ∀ x0 x1, Statement (.openString x0 x1) := fun _ _ => of_request rfl rfl rfl
theorem setReference : ∀ x0 x1, Statement (.setReference x0 x1) := fun _ _ => of_request rfl rfl rfl
theorem declareVacancy : ∀ x0 x1, Statement (.declareVacancy x0 x1) := fun _ _ => of_request rfl rfl rfl
theorem releaseString : ∀ x0 x1, Statement (.releaseString x0 x1) := fun _ _ => of_request rfl rfl rfl
theorem restoreSeat : ∀ x0 x1, Statement (.restoreSeat x0 x1) := fun _ _ => of_request rfl rfl rfl
theorem installDirect : ∀ x0 x1, Statement (.installDirect x0 x1) := fun _ _ => of_request rfl rfl rfl
theorem getString : ∀ x0 x1, Statement (.getString x0 x1) := fun _ _ => of_request rfl rfl rfl
theorem getPosition : ∀ x0 x1, Statement (.getPosition x0 x1) := fun _ _ => of_request rfl rfl rfl
theorem placed : ∀ x0 x1, Statement (.placed x0 x1) := fun _ _ => of_request rfl rfl rfl
theorem notPlaced : ∀ x0 x1, Statement (.notPlaced x0 x1) := fun _ _ => of_request rfl rfl rfl
theorem pauseMatcher : ∀ x0 x1, Statement (.pauseMatcher x0 x1) := fun _ _ => of_request rfl rfl rfl
theorem resumeMatcher : ∀ x0 x1, Statement (.resumeMatcher x0 x1) := fun _ _ => of_request rfl rfl rfl
theorem setPlacementTimeout : ∀ x0 x1, Statement (.setPlacementTimeout x0 x1) := fun _ _ => of_request rfl rfl rfl
theorem getMatcher : ∀ x0 x1, Statement (.getMatcher x0 x1) := fun _ _ => of_request rfl rfl rfl
theorem fetchNotices : ∀ x0 x1, Statement (.fetchNotices x0 x1) := fun _ _ => of_request rfl rfl rfl
theorem setNoticeThreshold : ∀ x0 x1, Statement (.setNoticeThreshold x0 x1) := fun _ _ => of_request rfl rfl rfl
theorem getAlert : ∀ x0 x1, Statement (.getAlert x0 x1) := fun _ _ => of_request rfl rfl rfl
theorem setAlertEnable : ∀ x0 x1, Statement (.setAlertEnable x0 x1) := fun _ _ => of_request rfl rfl rfl
theorem clearAlert : ∀ x0 x1, Statement (.clearAlert x0 x1) := fun _ _ => of_request rfl rfl rfl
theorem badKind : ∀ x0 x1 x2, Statement (.badKind x0 x1 x2) := by
  intro k t body k2 t2 body2 w h
  obtain ⟨rfl, rfl, rfl⟩ : k = k2 ∧ t = t2 ∧ body = body2 := by simpa [Instr.frameOf] using h
  obtain ⟨fits, unknown⟩ : body.length ≤ Config.maxBody ∧ knownKind k = false := by simpa [Instr.wf, bodyFits] using w
  exact ⟨decode_unknown k t body unknown, fits⟩

theorem checkError : ∀ x0 x1 x2 x3, Statement (.checkError x0 x1 x2 x3) := fun _ _ _ _ => of_event rfl
theorem lengthError : ∀ x0 x1, Statement (.lengthError x0 x1) := fun _ _ => of_event rfl
theorem gapError : ∀ x0, Statement (.gapError x0) := fun _ => of_event rfl
theorem overrunFrame : ∀ x0, Statement (.overrunFrame x0) := fun _ => of_event rfl
theorem replyStart : Statement (.replyStart) := of_event rfl
theorem replyEnd : Statement (.replyEnd) := of_event rfl
theorem sample : ∀ x0 x1 x2 x3 x4, Statement (.sample x0 x1 x2 x3 x4) := fun _ _ _ _ _ => of_event rfl
theorem calWindowCompletion : ∀ x0, Statement (.calWindowCompletion x0) := fun _ => of_event rfl
theorem phaseEntry : ∀ x0, Statement (.phaseEntry x0) := fun _ => of_event rfl
theorem clockStart : ∀ x0, Statement (.clockStart x0) := fun _ => of_event rfl
theorem phaseLeave : ∀ x0, Statement (.phaseLeave x0) := fun _ => of_event rfl
theorem sampleReport : ∀ x0, Statement (.sampleReport x0) := fun _ => of_event rfl
theorem closingReport : ∀ x0, Statement (.closingReport x0) := fun _ => of_event rfl
theorem request : Statement (.request) := of_event rfl
theorem leave : Statement (.leave) := of_event rfl
theorem grant : Statement (.grant) := of_event rfl
theorem grantReturn : Statement (.grantReturn) := of_event rfl
theorem transactionStart : Statement (.transactionStart) := of_event rfl
theorem ack : Statement (.ack) := of_event rfl
theorem nack : Statement (.nack) := of_event rfl
theorem statusReadOutcome : ∀ x0 x1, Statement (.statusReadOutcome x0 x1) := fun _ _ => of_event rfl
theorem broadcastComplete : Statement (.broadcastComplete) := of_event rfl
theorem arbitrationLost : Statement (.arbitrationLost) := of_event rfl
theorem foreignStart : Statement (.foreignStart) := of_event rfl
theorem foreignTransaction : ∀ x0, Statement (.foreignTransaction x0) := fun _ => of_event rfl
theorem stall : Statement (.stall) := of_event rfl
theorem busRecovery : Statement (.busRecovery) := of_event rfl
theorem faultAssertion : Statement (.faultAssertion) := of_event rfl
theorem faultRelease : Statement (.faultRelease) := of_event rfl
theorem matchingPass : Statement (.matchingPass) := of_event rfl
theorem timeStep : Statement (.timeStep) := of_event rfl
theorem expiry : ∀ x0, Statement (.expiry x0) := fun _ => of_event rfl
theorem resetRelease : ∀ x0 x1 x2, Statement (.resetRelease x0 x1 x2) := fun _ _ _ => of_event rfl

end Sys2Proof.Laws.FrameRoundTrip
end

