-- ==== Sys2Proof/Tests/Slice0.lean ====
section
/-! SUPPORT. Tests: the checks of well-formedness, frames and single steps against the worked examples of the spec, and a
witness for every statement that has hypotheses. Expected results are the spec's own, or worked by hand from its rules. -/

namespace Sys2Proof.Tests

open Sys2Proof Sys2Proof.Machine

set_option Elab.async false

/-! ## Small states -/

/-- The state that a command leaves. -/
def after (c : Instr) (s : State) : State :=
  match exec c s with
  | .next t => t
  | _ => s

/-- Status, CLAMPED and body of the reply to a command. -/
def reply (c : Instr) (s : State) : Option (Status × Bool × List Byte) :=
  (after c s).link.reply.map fun r => (r.status, r.clamped, r.body)

/-- The profile of section 1.7.1. -/
def prof : Profile :=
  { nameplate := 6400, nominalRes := 1000, presentLow := 40000, presentHigh := 60000, floor := 42000, tempLow := 50,
    tempHigh := 450, windowLen := 50, deadBand := 2, settleLimit := 5, restMin := 600, restMax := 7200,
    chargeCurrent := 3200, cvVoltage := 58400, endCurrent := 320, chargeLimit := 300, dischargeCurrent := 3200,
    cutoff := 44800, dischargeLimit := 180, pulseCurrent := 6400, pulseLen := 20, prePulse := 300, minDelta := 3000,
    observation := 120, revHigh := 30, revLow := 4, rippleLow := 20, rippleHigh := 400, sagDrift := 150,
    tempCoeff := 40, sohA := 900, sohB := 800, sohC := 700, ratioA := 130, ratioB := 160, ratioC := 200, sdA := 20,
    sdB := 40, sdC := 80 }

/-- Profile 1 stored, and a limit of 20,000. -/
def line : State :=
  { State.reset with profiles := State.reset.profiles.set 0 (some prof), caa := { State.reset.caa with limit := 20000 } }

/-- A bay record under entry 3 with tag 70,114 and profile 1. -/
def module (st : BayState) (sub : Substate) : Bay :=
  { Bay.reset with state := st, substate := sub, tag := some 70114, profile := some 0, entry := 3 }

/-- Bay 5 with a module. -/
def bay5 (st : BayState) (sub : Substate := .none) (s : State := line) : State := s.updBay 4 fun _ => module st sub

/-- Bay 5 with a module and a grant of 3,200 under its entry. -/
def granted (s : State) : State :=
  s.updCaa fun a => { a with grants := a.grants.set 4 { mag := 3200, entry := 3 }, committed := 3200 }

/-- A grade record of profile 1, as the worked examples of chapters 7 to 9 give them. -/
def graded (tag : Nat) (cls : GradeClass) (cap res : Nat) : GradeRecord :=
  { tag := tag, profile := 0, bay := 4, cls := cls, reject := none, craw := 6080, tm := 186, ccorr := cap, soh := 900,
    res := some (res, 120), sd := none, marks := {} }

def candidate (tag : Nat) (cls : GradeClass) (cap res seq : Nat) (st : Option SeatId := none) : Candidate :=
  { grade := graded tag cls cap res, seq := seq, lapses := 0, status := st }

def seat (x : StringId) (pos : Nat) (n : SeatName) : SeatId := { str := x, pos := pos, seat := n }

/-- String 3 of section 9.8 in a state, with these seats. -/
def string3 (st : StringState) (count : Nat) (seats : List Position) (s : State := line) : State :=
  s.updString 2 fun _ =>
    { state := st, profile := some 0, minClass := some .c, reference := 12400, strTol := 150, capTol := 60,
      imbalance := 80, resCount := count, positions := seats }

def pooled (l : List Candidate) (s : State := line) : State := s.updPool fun p => { p with records := l, nextSeq := 423 }

def withPending (c : Instr) (s : State := line) : State := { s with pending := [c] }

/-- A transaction of the part in flight. -/
def sending (e : BusEntry) (s : State := line) : State :=
  s.updSbc fun x => { x with queue := [], inFlight := some e, bus := .busy }

/-- No write is left pending at SBC. -/
def quiet (s : State) : State := s.updSbc fun x => { x with queue := [] }

/-- Bay 5 waits for a grant above what the limit leaves. -/
def waiting5 : State :=
  (bay5 (.phase .discharge) .awaitingGrant).updCaa fun a =>
    { a with limit := 3000, waiting := [{ bay := 4, mag := 3200, entry := 3 }] }

/-- Bay 5 aborted while it waits: its leave stands at CAA. -/
def leaving : State := quiet (after (.abort 1 [5]) waiting5) |>.updLink fun l => { l with reply := none }

/-- Bay 5 aborted, its request and its leave still standing at CAA. -/
def asking : State :=
  { quiet (bay5 .aborted) with toCaa := [.request 4 3200 3, .leave 4] }

/-- Bay 5, awaiting its stage, suspended by a stall: its recovery broadcast is still to complete. -/
def stalledBus : State := after .stall (bay5 (.phase .rest1) .awaitingStage)

/-! ## Well-formedness: each check refuses an ill-formed command -/

theorem test_badKind_of_a_known_kind_refused : (Instr.badKind 0x30 0 []).wf = false := by decide
theorem test_badKind_with_a_long_body_refused : (Instr.badKind 0xFF 0 (List.replicate 251 0)).wf = false := by decide +kernel
theorem test_checkError_with_the_right_check_refused :
    (Instr.checkError 0x30 0x12 [0x05, 0x00, 0x01, 0x11, 0xE2, 0x01] 0xBE).wf = false := by decide
theorem test_checkError_with_a_long_body_refused :
    (Instr.checkError 0x01 0 (List.replicate 251 0) 0).wf = false := by decide +kernel
theorem test_lengthError_of_250_refused : (Instr.lengthError 0x00 0xFA).wf = false := by decide
theorem test_gapError_of_a_whole_frame_refused : (Instr.gapError [0, 0, 0x02, 0x01, 0xFD]).wf = false := by decide
theorem test_overrun_by_length_of_250_refused : (Instr.overrunFrame (.length 0x00 0xFA)).wf = false := by decide
theorem test_overrun_by_gap_of_a_whole_frame_refused :
    (Instr.overrunFrame (.gap [0, 0, 0x02, 0x01, 0xFD])).wf = false := by decide
theorem test_expiry_at_position_0_refused : (Instr.expiry (seat 0 0 .a)).wf = false := by decide
theorem test_expiry_at_position_25_refused : (Instr.expiry (seat 0 25 .a)).wf = false := by decide
theorem test_message_with_a_long_body_refused : (Instr.echo 0 (List.replicate 251 0)).wf = false := by decide +kernel
theorem test_boundary_commands_accepted :
    (Instr.echo 0 (List.replicate 250 0)).wf = true ∧ (Instr.lengthError 0x00 0xFB).wf = true ∧
      (Instr.gapError [0, 0, 0x02, 0x01]).wf = true ∧ (Instr.expiry (seat 15 24 .b)).wf = true := by decide +kernel

/-! ## Frames (section 10.2.1, section 5.2.1) -/

theorem test_load_frame : requestFrame 0x30 0x12 [0x05, 0x00, 0x01, 0x11, 0xE2, 0x01] =
    [0xA7, 0x00, 0x06, 0x30, 0x12, 0x05, 0x00, 0x01, 0x11, 0xE2, 0x01, 0xBE] := by decide

theorem test_duplicate_reply_frame : (Answer.reply (.refuse .duplicate) 0x30 0x12).frame =
    [0xA7, 0x00, 0x00, 0xB0, 0x12, 0x07, 0x00, 0x37] := by decide

theorem test_load_received :
    (line.receive [0xA7, 0x00, 0x06, 0x30, 0x12, 0x05, 0x00, 0x01, 0x11, 0xE2, 0x01, 0xBE]).pending =
      [.load 0x12 [0x05, 0x00, 0x01, 0x11, 0xE2, 0x01]] := by decide +kernel

theorem test_load_with_a_wrong_check_received :
    (line.receive [0xA7, 0x00, 0x06, 0x30, 0x12, 0x05, 0x00, 0x01, 0x11, 0xE2, 0x01, 0xBF]).pending =
      [.checkError 0x30 0x12 [0x05, 0x00, 0x01, 0x11, 0xE2, 0x01] 0xBF] := by decide +kernel

theorem test_byte_with_a_low_stop_bit_is_no_byte : line.receiveLine 0xA7 false = line := rfl
theorem test_gap_within_a_frame : ((line.receive [0xA7, 0x00, 0x06, 0x30]).gapExpiry).pending = [.gapError [0x00, 0x06, 0x30]] := by
  decide +kernel

/-- R178: a frame begun while a reply is pending, cut after its KIND. -/
theorem test_gap_within_an_overrun_frame : (((after (.echo 1 []) line).receive [0xA7, 0x00, 0x06, 0x30]).gapExpiry).pending =
    [.overrunFrame (.gap [0x00, 0x06, 0x30])] := by decide +kernel

theorem test_charge_current_bytes : (BusEntry.write 4 .chargeCurrent 3200 3).bytes = [0x05, 0x21, 0x0C, 0x80, 0x4E] := by decide
theorem test_broadcast_bytes : BusEntry.broadcastOff.bytes = [0x00, 0x10, 0x00, 0x00, 0xF0] := by decide

/-! ## Link (spec/10) -/

theorem test_echo : reply (.echo 9 [1, 2, 3]) line = some (.ok, false, [1, 2, 3]) := by decide +kernel
theorem test_identity : reply (.getIdentity 9 []) line = some (.ok, false, [0x2C, 0x41, 0x00, 0x48, 0x01]) := by decide +kernel
theorem test_reset_message_resets_at_the_end_of_its_reply :
    after .replyEnd (after .replyStart (after (.reset 1 []) line)) = { State.reset with inReset := true } := by decide +kernel
theorem test_check_error_holds_the_link : (after (.checkError 0x70 1 [0, 1, 0x13, 0xFB, 3, 1, 2] 0) line).link.held = true := by
  decide +kernel
theorem test_held_link_refuses : reply (.getStageBus 1 []) (after (.lengthError 0xFF 0xFF) line) = some (.linkHeld, false, []) := by
  decide +kernel
theorem test_clear_link_error_frees_the_link :
    (after (.clearLinkError 1 []) (after (.gapError []) line)).link.held = false := by decide +kernel
theorem test_link_log_after_a_length_error : reply (.getLinkLog 1 []) (after (.lengthError 0xFF 0xFF) line) =
    some (.ok, false, [0, 0, 1, 2, 0, 0, 0xFF, 0xFF, 0, 0]) := by decide +kernel
theorem test_rate_changes_with_the_reply_sent :
    (after .replyEnd (after .replyStart (after (.setLinkRate 1 [2]) line))).link.rate = .r921 := by decide +kernel
theorem test_rate_3_refused : reply (.setLinkRate 1 [3]) line = some (.badValue, false, []) := by decide +kernel
theorem test_link_mode_2_refused : reply (.setLinkMode 1 [2]) line = some (.badValue, false, []) := by decide +kernel
theorem test_unknown_kind : reply (.badKind 0x80 1 []) line = some (.badKind, false, []) := by decide +kernel
theorem test_overrun_marks_the_next_reply :
    (after .replyStart (after (.overrunFrame .complete) (after (.echo 1 []) line))).link.sending.map Reply.flags = some 2 := by
  decide +kernel
theorem test_release_with_scl_low_is_busy :
    (after (.resetRelease true false true) (after .resetInput line)).sbc.bus = .busy := by decide +kernel

/-! ## Profiles (section 1.7.2) -/

theorem test_write_names_field_18 : reply (.writeProfile 1 (3 :: { prof with cutoff := 41500, revLow := 30, sohB := 920 }.bytes)) line =
    some (.badValue, false, [18]) := by decide +kernel
theorem test_write_taken : reply (.writeProfile 1 (3 :: prof.bytes)) line = some (.ok, false, [0xFF]) := by decide +kernel
theorem test_read_profile : reply (.readProfile 1 [1]) line = some (.ok, false, prof.bytes) := by decide +kernel
theorem test_erase_in_use : reply (.eraseProfile 1 [1]) (bay5 .aborted) = some (.inUse, false, []) := by decide +kernel

/-! ## Calibration (section 2.9) and conversion (section 2.5) -/

/-- Bay 12 in CAL with these trims, COARSE. -/
def cal12 (g o c : Int) (p : Option (TrimQuantity × Int)) : State :=
  ((line.updBay 11 fun r => { r with state := .cal }).updTrims 11 fun _ =>
    { gain := g, range := .coarse, offset := o, current := c, pending := p, calFlag := true, flagMoved := false }).updWev 11
      fun w => { w with cal := true }

theorem test_enter_cal : ((after (.enterCal 1 [12]) line).bay 11).state = .cal := by decide +kernel
theorem test_trim_pending : ((after (.trim 1 [12, 1, 2]) (cal12 0 0 0 none)).trims 11).pending = some (.gain, 2) := by decide +kernel
theorem test_trim_busy : reply (.trim 1 [12, 2, 0xFC]) (cal12 0 0 0 (some (.gain, 2))) = some (.busy, false, []) := by decide +kernel
theorem test_trim_range_kept_with_a_gain : reply (.setTrimRange 1 [12, 0]) (cal12 2 0 0 none) = some (.wrongState, false, []) := by
  decide +kernel
theorem test_exit_cal_applies_the_pending_trim :
    (after (.exitCal 1 [12]) (cal12 2 (-4) 0 (some (.current, -3)))).trims 11 =
      { gain := 2, range := .coarse, offset := -4, current := -3, pending := none, calFlag := false, flagMoved := true } := by
  decide +kernel
theorem test_get_trim : reply (.getTrim 1 [12]) (cal12 2 0 0 (some (.offset, -4))) =
    some (.ok, false, [2, 1, 0, 0, 2, 0xFC, 1]) := by decide +kernel
theorem test_cal_window_applies_the_trim :
    ((after (.calWindowCompletion 11) { cal12 2 0 0 (some (.offset, -4)) with
      toScan := State.reset.toScan.set 11 1 }).trims 11).offset = -4 := by decide +kernel
theorem test_conversion_fine : (convert { TrimSet.reset with gain := 12, offset := -7 } 48000 0 250 false).v = 48051 := by decide
theorem test_conversion_coarse :
    (convert { TrimSet.reset with gain := 12, range := .coarse, offset := -7 } 48000 0 250 false).v = 48281 := by decide
theorem test_conversion_after_calibration :
    (convert ((cal12 2 (-4) (-3) none).trims 11) 49954 (-3197) 250 false).i = -3200 := by decide +kernel

/-- R23: a bay whose flag has stood clear since its last sample trims, whatever the operand says. -/
theorem test_sample_follows_the_flag :
    (((line.trims 4).flagTaken true), ((cal12 0 0 0 none).trims 11).flagTaken false,
      ((after (.enterCal 1 [12]) line).trims 11).flagTaken false) = (false, true, false) := by decide +kernel

/-! ## Windows (sections 3.5 and 3.7) -/

def sampleOf (v : Nat) (i t : Int) : Sample := { v := v, i := i, t := t, satV := false, satI := false, satT := false, untrimmed := false }

/-- The ten samples of section 3.5. -/
def window35 : WindowAcc :=
  [sampleOf 50004 (-3201) 186, sampleOf 50005 (-3199) 187, sampleOf 50001 (-3200) 186, sampleOf 49998 (-3202) 186,
   sampleOf 50003 (-3200) 187, sampleOf 50003 (-3199) 187, sampleOf 50001 (-3200) 186, sampleOf 49997 (-3201) 186,
   sampleOf 50000 (-3203) 186].foldl (WindowAcc.add 2) (.begin 0 (sampleOf 50000 (-3200) 186))

theorem test_window_reversals : (window35.close (some .discharge) false).reversals = 4 := by decide
theorem test_window_sums : ((window35.close (some .discharge) false).sumV, (window35.close (some .discharge) false).ripple,
    (window35.close (some .discharge) false).drift) = (500012, 8, 0) := by decide

/-- R41: V at the cutoff voltage. -/
theorem test_cutoff_at_its_voltage : (foldPhase prof { phase := .discharge, number := 3, started := true }
    (sampleOf 44800 (-3200) 186) WevBay.reset).2.cutoff = true := by decide

/-- R53: the 50th sample completes a CAL window, the 49th does not. -/
theorem test_cal_window_of_50_samples : ((foldCal (sampleOf 0 0 0) { WevBay.reset with window := some { window35 with n := 48 } }).2,
    (foldCal (sampleOf 0 0 0) { WevBay.reset with window := some { window35 with n := 49 } }).2) = (false, true) := by decide

/-! ## Bays (section 4.12) -/

theorem test_load_taken : ((after (.load 1 [5, 0, 1, 0x11, 0xE2, 1]) line).bay 4).state = .loaded := by decide +kernel
theorem test_load_duplicate : reply (.load 1 [6, 0, 1, 0x11, 0xE2, 1]) (bay5 .loaded) = some (.duplicate, false, []) := by decide +kernel
theorem test_start_enters_check : ((after (.start 1 [5]) (bay5 .loaded)).bay 4).state = .phase .check := by decide +kernel
theorem test_start_queues_its_off :
    (after (.start 1 [5]) (bay5 .loaded)).sbc.queue = [.broadcastOff, .write 4 .off 0 4] := by decide +kernel
theorem test_group_start_serves_the_loaded_bays : reply (.startGroup 1 [0xFF, 0, 0, 0, 0, 0]) (bay5 .loaded) =
    some (.ok, false, [0x10, 0, 0, 0, 0, 0]) := by decide +kernel
theorem test_grant_queues_the_charge_current :
    (after .grant { bay5 (.phase .chargeCC) .awaitingGrant with grantsOut := [{ bay := 4, entry := 3 }] }).sbc.queue =
      [.broadcastOff, .write 4 .chargeCurrent 3200 3] := by decide +kernel
theorem test_suspend_keeps_the_phase : ((after (.suspend 1 [5]) (bay5 (.phase .discharge) .running)).bay 4).resume = some .discharge := by
  decide +kernel
theorem test_resume_busy_while_a_grant_is_held : reply (.resume 1 [5, 1]) (granted ((bay5 .suspended).updBay 4 fun r =>
    { r with resume := some .discharge })) = some (.busy, false, []) := by decide +kernel
theorem test_resume_of_discharge_marks_interrupted : ((after (.resume 1 [5, 1]) ((bay5 .suspended).updBay 4 fun r =>
    { r with resume := some .discharge })).bay 4).marks.interrupted = true := by decide +kernel
/-- R26, R80: a bay aborted while it waits is off the waiting list once it is EMPTY, its leave taken or not. -/
theorem test_unload_takes_the_leave_first :
    ((after (.unload 1 [5]) leaving).bay 4).state = .empty ∧ (after (.unload 1 [5]) leaving).caa.waiting = [] ∧
      (after (.unload 1 [5]) leaving).toCaa = [] := by decide +kernel
/-- R76: a bay suspended by a stall is BUSY until the recovery broadcast has completed, and then is resumed. -/
theorem test_resume_waits_for_the_recovery_broadcast : reply (.resume 1 [5, 1]) stalledBus = some (.busy, false, []) ∧
    reply (.resume 1 [5, 1]) (after .broadcastComplete (after .transactionStart (after .busRecovery stalledBus))) =
      some (.ok, false, []) := by decide +kernel
/-- R76, R97: bay 6 is taken into the stall; bay 5, whose own recovery broadcast has completed, takes RESUME meanwhile. -/
def stalledTwice : State :=
  after .stall ((after .broadcastComplete (after .transactionStart (after .busRecovery stalledBus))).updBay 5 fun _ =>
    { module (.phase .rest1) .awaitingStage with tag := some 70115 })
theorem test_resume_of_an_earlier_stall_within_a_later : reply (.resume 1 [5, 1]) stalledTwice = some (.ok, false, []) ∧
    reply (.resume 1 [6, 1]) stalledTwice = some (.busy, false, []) := by decide +kernel
theorem test_unload_with_a_grant_queues_an_off :
    (after (.unload 1 [5]) (granted (bay5 .aborted))).sbc.queue = [.broadcastOff, .write 4 .off 0 3] := by decide +kernel
theorem test_abort_of_an_empty_bay : reply (.abort 1 [5]) line = some (.wrongState, false, []) := by decide +kernel

/-! ## Stage bus and allowance (sections 5.9 and 5.11) -/

theorem test_stall_suspends_a_bay_in_a_current_phase :
    ((after .stall (bay5 (.phase .chargeCC) .running)).bay 4).cause = .suspension .busStall .ok := by decide +kernel
theorem test_stall_leaves_one_broadcast : (after .stall (after (.start 1 [5]) (bay5 .loaded))).sbc.queue = [.broadcastOff] := by
  decide +kernel
theorem test_ack_of_off_releases_the_grant :
    (after .ack (sending (.write 4 .off 0 3) (granted (bay5 (.phase .rest1) .awaitingStage)))).caa.committed = 0 := by decide +kernel
theorem test_ack_starts_the_clock :
    ((after .ack (sending (.write 4 .off 0 3) (bay5 (.phase .rest1) .awaitingStage))).bay 4).substate = .running := by decide +kernel
theorem test_request_within_the_limit_granted :
    (after .request ({ line with toCaa := [.request 4 3200 3] }.updSbc fun x => { x with queue := [] })).grantOf 4 = 3200 := by
  decide +kernel
theorem test_set_limit_clamped : reply (.setLimit 1 [0, 1, 0x86, 0xA1]) line = some (.ok, true, [0, 1, 0x86, 0xA0]) := by
  decide +kernel
theorem test_foreign_broadcast_off_suspends :
    ((after (.foreignTransaction [0x00, 0x10, 0x00, 0x00, 0xF0]) ((bay5 (.phase .chargeCC) .running).updSbc fun x =>
      { x with bus := .busy, listening := true })).bay 4).cause = .suspension .externalOff .ok := by decide +kernel

/-- R94: CHARGE_CURRENT is sent, SUSPEND queues an OFF, STOP-ALL removes it, and then arbitration is lost. -/
def overtaken : State :=
  after .arbitrationLost (after (.stopAll 1 []) ((after (.suspend 1 [5])
    (sending (.write 4 .chargeCurrent 3200 3) (bay5 (.phase .chargeCC) .awaitingStage))).updLink fun l => { l with reply := none }))
theorem test_abandoned_write_dropped_where_a_newer_one_was_queued :
    (after (.foreignTransaction [0x05, 0x10, 0x00, 0x00, 0xEB]) overtaken).sbc.queue = [.broadcastOff] ∧
    overtaken.sbc.abandoned = some (.write 4 .chargeCurrent 3200 3) := by decide +kernel

/-! ## Grading (sections 6.8 and 6.10) -/

/-- The inputs of section 6.8. -/
def inputs68 : GradeInputs :=
  { q := 218880000, dCount := 68400, dWeight := 12712000, preV := 204816, preI := 0, pulseV := 201744, pulseI := -25600,
    obs := some (2537400, 2537250, 1440), marks := { interrupted := true }, tag := 70114, bay := 4, profile := 0 }

theorem test_worked_case_graded_b : gradeRecord prof inputs68 =
    { tag := 70114, profile := 0, bay := 4, cls := .b, reject := none, craw := 6080, tm := 186, ccorr := 6236, soh := 974,
      res := some (1200, 120), sd := some 36, marks := { interrupted := true } } := by decide +kernel

/-- The inputs of section 6.10. -/
def inputs610 : GradeInputs :=
  { q := 194400000, dCount := 60750, dWeight := -729000, preV := 200100, preI := 8, pulseV := 197600, pulseI := -11600,
    obs := some (2500000, 2500100, 1440), marks := {}, tag := 70114, bay := 4, profile := 0 }

theorem test_cold_case_has_no_resistance : gradeRecord prof inputs610 =
    { tag := 70114, profile := 0, bay := 4, cls := .x, reject := some .noResistance, craw := 5400, tm := -12, ccorr := 5940,
      soh := 928, res := none, sd := some 0, marks := {} } := by decide +kernel

/-! ## Pool (section 7.8) -/

theorem test_pool_order_within_equal_capacity :
    ((State.reset.pool.enter (graded 70340 .a 6236 1200)).enter (graded 70415 .a 6236 1200)).records.map (·.grade.tag) =
      [70340, 70415] := by decide
theorem test_withdraw_reserved :
    reply (.withdraw 1 [0, 1, 0x11, 0xE2]) (pooled [candidate 70114 .b 6236 1200 405 (some (seat 2 1 .a))]) =
      some (.reserved, false, [3, 1, 1]) := by decide +kernel
theorem test_get_candidate_not_found : reply (.getCandidate 1 [0, 1, 0x11, 0xE2]) line = some (.notFound, false, []) := by decide +kernel

/-! ## Bank (section 8.8) and matcher (section 9.8) -/

theorem test_imbalances : (imbalanceOf 1310 1200, imbalanceOf 1020 1200, imbalanceOf 1330 1380) = (44, 81, 18) := by decide

/-- String 6 of section 8.8 in SERVICE, at its step 6. -/
def string6 : BankString :=
  { state := .service, profile := some 0, minClass := some .b, reference := 12400, strTol := 150, capTol := 60,
    imbalance := 80, resCount := 0,
    positions := [{ a := .installed (graded 61001 .b 6210 1190), b := .installed (graded 61002 .b 6195 1230) },
                  { a := .installed (graded 61003 .b 6180 1250), b := .vacant (some { cap := 6010, res := 1380 }) }] }

def service6 : State := pooled [candidate 70802 .a 6050 1330 2, candidate 70801 .b 6236 1200 1] (line.updString 5 fun _ => string6)

theorem test_install_fails_pair_capacity :
    reply (.installDirect 1 (beBytes 4 70801 ++ [6, 2, 2])) service6 = some (.notMatched, false, [4]) := by decide +kernel
theorem test_install_fails_string :
    reply (.installDirect 1 (beBytes 4 70802 ++ [6, 2, 2])) service6 = some (.notMatched, false, [6]) := by decide +kernel
theorem test_install_seals_after_the_reference_is_set :
    reply (.installDirect 1 (beBytes 4 70802 ++ [6, 2, 2])) (service6.updString 5 fun x => { x with reference := 12100 }) =
      some (.ok, false, [1]) := by decide +kernel
theorem test_vacancy_keeps_the_override_beside_an_installed_seat :
    (after (.declareVacancy 1 ([6, 1, 1] ++ beBytes 2 6150 ++ beBytes 2 1260)) service6).seat (seat 5 1 .a) =
      some (.vacant (some { cap := 6150, res := 1260 })) := by decide +kernel
theorem test_vacancy_beside_a_vacancy_drops_the_overrides :
    ((after (.declareVacancy 1 ([6, 2, 1] ++ beBytes 2 6100 ++ beBytes 2 1300)) service6).string 5).positions.getLast? =
      some { a := .vacant none, b := .vacant none } := by decide +kernel

/-- String 3 of section 9.8 at its step 8: seats 1A and 1B installed, 2A reserved for 70,652 to second 600. -/
def step8 : State :=
  string3 .forming 1 [{ a := .installed (graded 70114 .b 6236 1200), b := .installed (graded 70651 .b 6190 1310) },
    { a := .reserved 70652 1750 .empty, b := .empty }] (pooled [candidate 70652 .a 6260 1020 422 (some (seat 2 2 .a))])

theorem test_pass_reserves_the_first_seat :
    (after .matchingPass ((string3 .forming 0 [{ a := .empty, b := .empty }, { a := .empty, b := .empty }]
      (pooled [candidate 70114 .b 6236 1200 405])).updPlm fun m => { m with passPending := true })).plm.lastPass =
      .complete 3 1 := by decide +kernel
theorem test_pass_of_step_4 :
    (after .matchingPass ((string3 .forming 1 [{ a := .reserved 70114 1800 .empty, b := .empty }, { a := .empty, b := .empty }]
      (pooled [candidate 70650 .c 6150 1350 420, candidate 70651 .b 6190 1310 421,
        candidate 70114 .b 6236 1200 405 (some (seat 2 1 .a)), candidate 70652 .a 6260 1020 422])).updPlm fun m =>
        { m with passPending := true })).string 2 =
      { state := .forming, profile := some 0, minClass := some .c, reference := 12400, strTol := 150, capTol := 60,
        imbalance := 80, resCount := 3,
        positions := [{ a := .reserved 70114 1800 .empty, b := .reserved 70651 3000 .empty },
                      { a := .reserved 70650 3000 .empty, b := .empty }] } := by decide +kernel
theorem test_placed_installs_and_counts_down :
    ((after (.placed 1 (beBytes 4 70652 ++ [3, 2, 1])) step8).string 2).resCount = 0 := by decide +kernel
theorem test_placed_late : reply (.placed 1 (beBytes 4 70650 ++ [3, 2, 1])) step8 = some (.late, false, []) := by decide +kernel
theorem test_placed_mismatch : reply (.placed 1 (beBytes 4 70652 ++ [3, 2, 2])) step8 = some (.mismatch, false, [3, 2, 1]) := by
  decide +kernel
theorem test_not_placed_not_found : reply (.notPlaced 1 (beBytes 4 70652 ++ [3, 2, 2, 3])) step8 = some (.notFound, false, []) := by
  decide +kernel
theorem test_time_step : (after .timeStep step8).seat (seat 2 2 .a) = some (.reserved 70652 1749 .empty) := by decide +kernel
theorem test_expiry_frees_the_record :
    (after (.expiry (seat 2 2 .a)) (after .timeStep (step8.updSeat (seat 2 2 .a) fun _ => .reserved 70652 1 .empty))).pool.records =
      [{ grade := graded 70652 .a 6260 1020, seq := 422, lapses := 1, status := none }] := by decide +kernel
theorem test_timeout_clamped : reply (.setPlacementTimeout 1 [0, 29]) line = some (.ok, true, [0, 30]) := by decide +kernel
theorem test_pause_drops_the_pending_pass :
    (after (.pauseMatcher 1 []) (line.updPlm fun m => { m with passPending := true })).plm.passPending = false := by decide +kernel

/-! ## Notices and alert (section 11.6) -/

/-- The queue with this many notices. -/
def notices (n count : Nat) (s : State := line) : State :=
  s.updNqa fun x => { x with queue := List.replicate n (.dropped 1), overflow := count, threshold := 8 }

theorem test_notice_discarded_and_counted : (after (.suspend 1 [5]) (notices 64 0 (bay5 (.phase .discharge) .running))).nqa.overflow = 1 := by
  decide +kernel
theorem test_fetch_leaves_the_rest :
    ((after (.fetchNotices 1 [8]) (notices 64 2)).nqa.queue.length, (after (.fetchNotices 1 [8]) (notices 64 2)).nqa.overflow) = (56, 0) := by
  decide +kernel
theorem test_threshold_0_is_8 : (after (.setNoticeThreshold 1 [0]) line).nqa.threshold = 8 := by decide +kernel
theorem test_level_cause_stays_raised : reply (.clearAlert 1 [0x11]) ((notices 56 0).updNqa fun x => { x with overflowCause := true }) =
    some (.ok, false, [0x01]) := by decide +kernel
theorem test_alert_of_an_enabled_cause : (notices 60 0).alertLow = true := by decide +kernel
theorem test_set_alert_enable_bit_6_refused : reply (.setAlertEnable 1 [0x40]) line = some (.badValue, false, []) := by decide +kernel

/-! ## Witnesses: states and operands that meet the hypotheses of the statements, clause by clause -/

/-! ### The machine as a whole -/

theorem witness_StepTakesFrontCommand : State.reset.pending = [] := rfl

/-- Bay 5 PARKED with tag 80,000 beside string 3 at its step 8. -/
def parkedBay : Bay :=
  { module .parked .none with tag := some 80000, grade := some (graded 80000 .b 6236 1200) }

def kept : State := (step8.updBay 4 fun _ => parkedBay).updPool fun p => { p with park := [4] }

theorem bay_kept (b : BayId) : (b ≠ 4 ∧ kept.bay b = Bay.reset) ∨ (b = 4 ∧ kept.bay b = parkedBay) := by
  revert b; decide +kernel

theorem baysWhole_kept (q : List Instr) : BaysWhole { kept with pending := q } := by
  refine ⟨by show ([4] : List BayId).Nodup; decide, fun b => ?_⟩
  show (b ∈ ([4] : List BayId) ↔ (kept.bay b).state = .parked) ∧ ((kept.bay b).state ≠ .empty → (kept.bay b).state ≠ .cal →
    (kept.bay b).tag.isSome = true ∧ (kept.bay b).profile.isSome = true) ∧ ((kept.bay b).state = .parked →
    ∃ g, (kept.bay b).grade = some g ∧ (kept.bay b).tag = some g.tag ∧ (kept.bay b).profile = some g.profile)
  rcases bay_kept b with ⟨n, e⟩ | ⟨rfl, e⟩
  · rw [e]
    exact ⟨⟨fun h => absurd (List.mem_singleton.mp h) n, nofun⟩, fun h => absurd rfl h, nofun⟩
  · rw [e]
    exact ⟨by decide, fun _ _ => ⟨rfl, rfl⟩, fun _ => ⟨graded 80000 .b 6236 1200, rfl, rfl, rfl⟩⟩

theorem slotsKept_kept (q : List Instr) : SlotsKept { kept with pending := q } := fun k h => by
  have h1 : kept.slotInUse k = true := (slotInUse_iff _ k).mpr h
  clear h
  show kept.slot k ≠ none
  revert k; decide +kernel

theorem seat_kept {id : SeatId} {x : Seat} (h : kept.seat id = some x) :
    (id = seat 2 1 .a ∧ x = .installed (graded 70114 .b 6236 1200)) ∨
    (id = seat 2 1 .b ∧ x = .installed (graded 70651 .b 6190 1310)) ∨
    (id = seat 2 2 .a ∧ x = .reserved 70652 1750 .empty) ∨ (id = seat 2 2 .b ∧ x = .empty) := by
  obtain ⟨y, pos, n⟩ := id
  have hy : y = 2 ∨ (kept.string y).positions = [] := by clear h; revert y; decide +kernel
  rcases hy with rfl | hy
  · have hp : (kept.string 2).positions =
        [{ a := .installed (graded 70114 .b 6236 1200), b := .installed (graded 70651 .b 6190 1310) },
          { a := .reserved 70652 1750 .empty, b := .empty }] := by decide +kernel
    simp only [State.seat, BankString.position, hp] at h
    rcases pos with _ | _ | _ | pos <;> cases n <;> simp [Position.get, seat] at h ⊢ <;> exact h.symm
  · simp only [State.seat, BankString.position, hy] at h
    split at h <;> simp at h

theorem tagsHeldOnce_kept (q : List Instr) : TagsHeldOnce { kept with pending := q } := by
  have holds : ∀ b tag, (kept.bay b).holds tag = true → b = 4 ∧ tag = 80000 := by
    intro b tag h
    rcases bay_kept b with ⟨n, e⟩ | ⟨rfl, e⟩ <;> rw [e] at h
    · exact absurd h (by simp [Bay.holds, Bay.reset, BayState.holdsTag])
    · simp only [Bay.holds, parkedBay, module, Bay.reset, BayState.holdsTag, Bool.true_and, beq_iff_eq, Option.some.injEq] at h
      exact ⟨rfl, h.symm⟩
  have records : kept.pool.records = [candidate 70652 .a 6260 1020 422 (some (seat 2 2 .a))] := rfl
  have seats : ∀ id x, kept.seat id = some x → x.tag = some 70114 ∧ id = seat 2 1 .a ∨
      x.tag = some 70651 ∧ id = seat 2 1 .b ∨ x.tag = some 70652 ∧ id = seat 2 2 .a ∨ x.tag = none := by
    intro id x h
    rcases seat_kept h with ⟨rfl, rfl⟩ | ⟨rfl, rfl⟩ | ⟨rfl, rfl⟩ | ⟨rfl, rfl⟩ <;> simp [Seat.tag, graded]
  refine ⟨fun b c tag h k => ?_, ?_, fun id d x y tag h k i j => ?_, fun b tag h => ⟨?_, fun id x k => ?_⟩, ?_, ?_, ?_⟩
  · rw [(holds b tag h).1, (holds c tag k).1]
  · show (kept.pool.records.map fun c => c.grade.tag).Nodup
    rw [records]; simp
  · rcases seats id x h with ⟨e, rfl⟩ | ⟨e, rfl⟩ | ⟨e, rfl⟩ | e <;> rcases seats d y k with ⟨f, rfl⟩ | ⟨f, rfl⟩ | ⟨f, rfl⟩ | f <;>
      first | rfl | (rw [e] at i; rw [f] at j; simp at i j <;> omega)
  · show ∀ c ∈ kept.pool.records, c.grade.tag ≠ tag
    rw [records, (holds b tag h).2]; simp [candidate, graded]
  · rw [(holds b tag h).2]
    rcases seats id x k with ⟨e, -⟩ | ⟨e, -⟩ | ⟨e, -⟩ | e <;> rw [e] <;> simp
  · show ∀ c ∈ kept.pool.records, ∀ id g, kept.seat id = some (.installed g) → g.tag ≠ c.grade.tag
    rw [records]
    intro c hc id g h
    rw [List.mem_singleton.mp hc]
    rcases seat_kept h with ⟨-, e⟩ | ⟨-, e⟩ | ⟨-, e⟩ | ⟨-, e⟩ <;> simp at e <;> rw [e] <;> simp [candidate, graded]
  · show ∀ c ∈ kept.pool.records, ∀ id, c.status = some id → ∃ n under, kept.seat id = some (.reserved c.grade.tag n under)
    rw [records]
    intro c hc id h
    rw [List.mem_singleton.mp hc] at h ⊢
    obtain rfl := Option.some.inj h
    exact ⟨1750, .empty, by decide +kernel⟩
  · intro id tag n under h
    show ∃ c ∈ kept.pool.records, c.grade.tag = tag ∧ c.status = some id
    rw [records]
    rcases seat_kept h with ⟨-, e⟩ | ⟨-, e⟩ | ⟨rfl, e⟩ | ⟨-, e⟩ <;> simp at e
    exact ⟨_, List.mem_singleton.mpr rfl, e.1.symm, rfl⟩

theorem slot_line (k : ProfileId) : line.slot k = none ∨ line.slot k = some prof := by
  revert k; decide +kernel

theorem witness_StepKeepsProfilesValid :
    ProfilesValid (withPending (.eraseProfile 1 [1])) ∧ (∃ t, step (withPending (.eraseProfile 1 [1])) = .next t) ∧
    (∀ q, BaysWhole { kept with pending := q } ∧ SlotsKept { kept with pending := q }) ∧ kept.inUse 0 ∧
    (∃ t, step { kept with pending := [.eraseProfile 1 [1]] } = .next t ∧ t.inReset = false) := by
  refine ⟨fun k p h => ?_, ⟨_, rfl⟩, fun q => ⟨baysWhole_kept q, slotsKept_kept q⟩, .inl ⟨4, by decide +kernel⟩, _, rfl,
    by decide +kernel⟩
  rcases slot_line k with e | e
  · exact absurd (e.symm.trans h) (by simp)
  · obtain rfl := Option.some.inj (e.symm.trans h)
    decide +kernel

theorem witness_StepKeepsTrimsInRange :
    TrimsInRange (withPending (.exitCal 1 [12]) (cal12 63 (-32) (-50) (some (.current, 50)))) ∧
      ∃ t, step (withPending (.exitCal 1 [12]) (cal12 63 (-32) (-50) (some (.current, 50)))) = .next t := by
  refine ⟨fun b q => ?_, _, rfl⟩
  have h : (cal12 63 (-32) (-50) (some (.current, 50))).trims b = .reset ∨
      (cal12 63 (-32) (-50) (some (.current, 50))).trims b =
        { gain := 63, range := .coarse, offset := -32, current := -50, pending := some (.current, 50), calFlag := true,
          flagMoved := false } := by
    revert b; decide +kernel
  show q.holds (((cal12 63 (-32) (-50) (some (.current, 50))).trims b).applied q) ∧ _
  rcases h with h | h
  · refine ⟨by rw [h]; unfold TrimQuantity.holds; cases q <;> decide, fun x hx => ?_⟩
    have : ((cal12 63 (-32) (-50) (some (.current, 50))).trims b).pending = some (q, x) := hx
    rw [h] at this
    cases this
  · refine ⟨by rw [h]; unfold TrimQuantity.holds; cases q <;> decide, fun x hx => ?_⟩
    have : ((cal12 63 (-32) (-50) (some (.current, 50))).trims b).pending = some (q, x) := hx
    rw [h] at this
    cases this
    unfold TrimQuantity.holds
    decide

/-- A queue with the broadcast OFF at its head and two entries of one bay. -/
def queued : State := line.updSbc fun x => { x with queue := [.broadcastOff, .write 4 .off 0 3, .statusRead 4] }

theorem witness_StepKeepsStageQueueTidy :
    QueueTidy { queued with pending := [.transactionStart] } ∧ ∃ t, step { queued with pending := [.transactionStart] } = .next t := by
  refine ⟨⟨?_, ?_⟩, _, rfl⟩
  · show List.Pairwise _ [BusEntry.broadcastOff, .write 4 .off 0 3, .statusRead 4]
    simp [BusEntry.clashes]
  · show ∀ e ∈ [BusEntry.write 4 .off 0 3, .statusRead 4], e ≠ .broadcastOff
    simp

/-- Bay 5 holds a grant of 3,200, and two bays wait. -/
def waiting : State := (granted line).updCaa fun a =>
  { a with waiting := [{ bay := 6, mag := 20000, entry := 1 }, { bay := 7, mag := 400, entry := 1 }] }

theorem witness_StepKeepsAllowanceBalanced :
    AllowanceBalanced { waiting with pending := [.setLimit 1 [0, 1, 0x86, 0xA0]] } ∧
      ∃ t, step { waiting with pending := [.setLimit 1 [0, 1, 0x86, 0xA0]] } = .next t := by
  refine ⟨?_, _, rfl⟩
  unfold AllowanceBalanced
  decide +kernel

theorem witness_StepKeepsPoolOrdered :
    PoolOrdered { service6 with pending := [.timeStep] } ∧ ∃ t, step { service6 with pending := [.timeStep] } = .next t := by
  refine ⟨?_, _, rfl⟩
  unfold PoolOrdered
  decide +kernel

theorem witness_StepKeepsBankConsistent :
    ∃ s : State, s = { kept with pending := [.placed 1 (beBytes 4 70652 ++ [3, 2, 1])] } ∧ BankConsistent s ∧ BaysWhole s ∧
      TagsHeldOnce s ∧ (∃ t, step s = .next t) ∧ (after (.placed 1 (beBytes 4 70652 ++ [3, 2, 1])) kept).pool.park = [] := by
  refine ⟨_, rfl, fun x => ?_, baysWhole_kept _, tagsHeldOnce_kept _, ⟨_, rfl⟩, by decide +kernel⟩
  have h : step8.string x = .unused ∨ step8.string x =
      { state := .forming, profile := some 0, minClass := some .c, reference := 12400, strTol := 150, capTol := 60,
        imbalance := 80, resCount := 1,
        positions := [{ a := .installed (graded 70114 .b 6236 1200), b := .installed (graded 70651 .b 6190 1310) },
          { a := .reserved 70652 1750 .empty, b := .empty }] } := by
    revert x; decide +kernel
  show (step8.string x).consistent
  rcases h with h | h
  · rw [h]; exact unused_consistent
  · rw [h]
    refine ⟨by decide, by decide, ?_⟩
    show 2 ≤ _ ∧ _ ≤ 24 ∧ _ ∧ _
    decide

/-- Counters at their tops. -/
def atTops : State := string3 .forming 1 [{ a := .reserved 1 36000 .empty, b := .empty }, { a := .empty, b := .empty }]
  ((bay5 (.phase .discharge) .running).updBay 4 fun r =>
    { r with chargeTime := 16777215, dischargeTime := 16777215, q := 4294967295, entry := 65535 })

theorem witness_StepKeepsCountersBounded :
    CountersBounded { atTops with pending := [.checkError 1 0 [] 0] } ∧
      ∃ t, step { atTops with pending := [.checkError 1 0 [] 0] } = .next t := by
  refine ⟨⟨?_, ?_, ?_, ?_, ?_, ?_, ?_, fun x tag n under h => ?_⟩, _, rfl⟩
  · show ∀ b, (atTops.bay b).bounded
    unfold Bay.bounded
    decide +kernel
  · show ∀ b, (atTops.wevBay b).bounded
    unfold WevBay.bounded
    decide +kernel
  · unfold Nqa.bounded
    decide +kernel
  · unfold Link.counted
    decide +kernel
  · unfold Matcher.bounded
    decide +kernel
  · decide +kernel
  · decide +kernel
  · have e : (atTops.string x).seats = [.reserved 1 36000 .empty, .empty, .empty, .empty] ∨ (atTops.string x).seats = [] := by
      clear h; revert x; decide +kernel
    have h : Seat.reserved tag n under ∈ (atTops.string x).seats := h
    rcases e with e | e <;> rw [e] at h <;> simp at h
    rw [h.2.1]; decide

/-! ### Frames and link -/

theorem witness_RequestFrameBecomesItsCommand :
    (Instr.load 0x12 [5, 0, 1, 0x11, 0xE2, 1]).wf = true ∧
      (Instr.load 0x12 [5, 0, 1, 0x11, 0xE2, 1]).frameOf = some (0x30, 0x12, [5, 0, 1, 0x11, 0xE2, 1]) ∧
    (Instr.echo 0 (List.replicate 250 0)).wf = true ∧
      (Instr.echo 0 (List.replicate 250 0)).frameOf = some (0x01, 0, List.replicate 250 0) ∧
    (Instr.badKind 0xFF 0 []).wf = true ∧ (Instr.badKind 0xFF 0 []).frameOf = some (0xFF, 0, []) ∧
    line.inReset = false ∧ line.link.rx = .hunt ∧ line.link.reply = none := by decide +kernel

/-- A reply pending. -/
def replying : State := after (.echo 1 []) line

theorem witness_FramesJudgedAndSummed :
    line.inReset = false ∧ line.link.rx = .hunt ∧ line.link.reply = none ∧ (List.replicate 250 (0 : Byte)).length ≤ 250 ∧
    frameSum 1 0 (List.replicate 250 0) 0 ≠ 0 ∧ 250 < lenOf 0x00 0xFB ∧
    replying.inReset = false ∧ replying.link.rx = .hunt ∧ replying.link.reply.isSome = true ∧ (0xA6 : Byte) ≠ 0xA7 ∧
    frameUnfinished [] = true ∧ frameUnfinished [0x00, 0x01, 0x30, 0x12, 0x05] = true := by
  decide +kernel

/-- The link held by an error. -/
def held : State := after (.lengthError 0xFF 0xFF) line

theorem witness_DispatchFollowsItsOrder :
    (Instr.load 1 []).wf = true ∧ (Instr.load 1 []).frameOf = some (0x30, 1, []) ∧ replying.inReset = false ∧
    replying.link.reply.isSome = true ∧
    (Instr.badKind 0x08 1 []).wf = true ∧ (Instr.badKind 0x08 1 []).frameOf = some (0x08, 1, []) ∧ line.inReset = false ∧
    line.link.reply = none ∧ (∀ e ∈ catalogue, e.1 ≠ (0x08 : Byte).toNat) ∧
    held.inReset = false ∧ held.link.reply = none ∧ held.link.held = true ∧ ((0x30 : Byte).toNat, 6, 6) ∈ catalogue ∧
    ([] : List Byte).length < 6 ∧ line.link.held = false ∧
    (Instr.load 1 (List.replicate 7 0)).frameOf = some (0x30, 1, List.replicate 7 0) ∧ 6 < (List.replicate 7 (0 : Byte)).length := by
  decide +kernel

theorem witness_EchoAndIdentityAnswered : held.dispatches ∧ (List.replicate 250 (0 : Byte)).length ≤ 250 ∧ line.ready :=
  ⟨⟨by decide +kernel, by decide +kernel⟩, by decide +kernel, ⟨rfl, rfl⟩, rfl⟩

theorem witness_LinkLogReadAndCleared : held.dispatches ∧ line.ready :=
  ⟨⟨by decide +kernel, by decide +kernel⟩, ⟨rfl, rfl⟩, rfl⟩

theorem witness_LinkErrorsLogged :
    line.inReset = false ∧ line.link.reply = none ∧ ([] : List Byte).length ≤ 250 ∧ frameSum 1 0 [] 0 ≠ 0 ∧
    250 < lenOf 0x00 0xFB ∧ frameUnfinished [] = true ∧ frameUnfinished [0x00, 0xFA, 0x01] = true := by decide +kernel

/-- A reply being sent, with each act. -/
def replySent (a : ReplyAct) : State :=
  line.updLink fun l => { l with sending := some { (Answer.reply .ok 0x07 1) with act := a } }

theorem witness_RateAndResetComeWithTheReply :
    line.ready ∧ replying.inReset = false ∧ replying.link.sending = none ∧
    replying.link.reply = some ((Answer.ok []).reply 0x01 1) ∧
    (∀ a ∈ [ReplyAct.none, .setRate .r921, .reset], (replySent a).inReset = false ∧
      (replySent a).link.sending = some { (Answer.reply .ok 0x07 1) with act := a }) :=
  ⟨⟨⟨rfl, rfl⟩, rfl⟩, by decide +kernel⟩

theorem witness_ResetEnteredAndReleased :
    (after .resetInput line).inReset = true ∧ Instr.timeStep ≠ .resetInput ∧ ∀ x y z, Instr.timeStep ≠ .resetRelease x y z :=
  ⟨by decide +kernel, nofun, nofun⟩

theorem witness_NumberOutsideRangeIsNotFound :
    line.ready ∧
    (∀ n : Byte, (Instr.getBay 1 [n]).wf = true ∧ (Instr.getBay 1 [n]).frameOf = some (0x39, 1, [n]) ∧
      (Instr.getString 1 [n]).wf = true ∧ (Instr.getString 1 [n]).frameOf = some (0x66, 1, [n])) ∧
    ((0x39 : Byte).toNat, 1, 1) ∈ catalogue ∧ ((0x66 : Byte).toNat, 1, 1) ∈ catalogue ∧
    48 < (49 : Byte).toNat ∧ 16 < (17 : Byte).toNat :=
  ⟨⟨⟨rfl, rfl⟩, rfl⟩, fun _ => ⟨rfl, rfl, rfl, rfl⟩, by decide, by decide, by decide, by decide⟩

/-! ### Profiles and calibration -/

theorem prof_encodable : prof.encodable := by unfold Profile.encodable; decide +kernel

theorem inUse_bay5 : (bay5 .loaded).inUse 0 := .inl ⟨4, by decide +kernel⟩

theorem not_inUse_line (k : ProfileId) : ¬ line.inUse k := by
  rw [← slotInUse_iff]; revert k; decide +kernel

theorem witness_WriteProfileJudgedInOrder :
    line.ready ∧ prof.encodable ∧ ((0 : Byte) = 0 ∨ 8 < (9 : Byte).toNat) ∧
    (bay5 .loaded).ready ∧ ((bay5 .loaded).slot 0).isSome = true ∧ (bay5 .loaded).inUse 0 ∧
    line.slot 7 = none ∧ ¬ line.inUse 0 ∧ prof.firstBad = none ∧
    { prof with nameplate := 99 }.firstBad = some 1 ∧ { prof with sdC := 39 }.firstBad = some 39 :=
  ⟨⟨⟨rfl, rfl⟩, rfl⟩, prof_encodable, by decide, ⟨⟨rfl, rfl⟩, rfl⟩, by decide +kernel, inUse_bay5, by decide +kernel,
    not_inUse_line 0, by decide +kernel, by decide +kernel, by decide +kernel⟩

theorem witness_ProfileReadAndErased :
    line.ready ∧ ((0 : Byte) = 0 ∨ 8 < (9 : Byte).toNat) ∧ line.slot 7 = none ∧ line.slot 0 = some prof ∧ ¬ line.inUse 0 ∧
    (bay5 .loaded).ready ∧ (bay5 .loaded).slot 0 = some prof ∧ (bay5 .loaded).inUse 0 :=
  ⟨⟨⟨rfl, rfl⟩, rfl⟩, by decide, by decide +kernel, by decide +kernel, not_inUse_line 0, ⟨⟨rfl, rfl⟩, rfl⟩,
    by decide +kernel, inUse_bay5⟩

theorem witness_TrimMakesPendingTrim : (cal12 63 0 0 none).ready ∧ (-128 : Int) ≤ -128 ∧ (127 : Int) ≤ 127 ∧
    ((cal12 63 0 0 none).bay 11).state = .cal ∧ ((cal12 63 0 0 none).trims 11).pending = none ∧ 3 < (4 : Byte).toNat :=
  ⟨⟨⟨rfl, rfl⟩, rfl⟩, by decide +kernel⟩

/-- A completion reported and not yet taken. -/
def completed (p : Option (TrimQuantity × Int)) : State :=
  { cal12 0 0 0 p with toScan := State.reset.toScan.set 11 1 }

theorem witness_CalibrationEnteredAndLeft :
    line.ready ∧ 1 < (2 : Byte).toNat ∧ (line.bay 11).state = .empty ∧ (cal12 0 0 0 none).ready ∧
    ((cal12 0 0 0 none).bay 11).state = .cal ∧ ∀ p ∈ [none, some (TrimQuantity.gain, 63), some (.offset, -32), some (.current, 50)],
      (completed p).inReset = false ∧ (completed p).toScan.get 11 ≠ 0 ∧ ((completed p).trims 11).pending = p :=
  ⟨⟨⟨rfl, rfl⟩, rfl⟩, by decide, by decide +kernel, ⟨⟨rfl, rfl⟩, rfl⟩, by decide +kernel⟩

/-! ### Samples and windows -/

theorem witness_SampleConvertedByTrims :
    -64 ≤ ((cal12 (-64) 0 0 none).trims 11).gain ∧ ((cal12 63 0 0 none).trims 11).gain ≤ 63 := by decide +kernel

/-- Bay 5 at WEV in DISCHARGE under entry 3. -/
def atWev (started : Bool) : State :=
  (bay5 (.phase .discharge) .running).updWev 4 fun w =>
    { w with entry := some { phase := .discharge, number := 3, started := started } }

/-- A bay at WEV whose window holds n samples. -/
def inWindow (n : Nat) : WevBay :=
  { WevBay.reset with window := some { window35 with n := n }, ring := List.replicate 4 (50000, -3200) }

theorem witness_SampleFoldedOrDiscarded :
    WevBay.reset.window = none ∧ WevBay.reset.ring.length ≤ 4 ∧ (inWindow 48).window = some { window35 with n := 48 } ∧
    (inWindow 48).ring.length ≤ 4 ∧ ({ window35 with n := 48 }.add 2 (sampleOf 0 0 0)).n < prof.windowLen ∧
    prof.windowLen ≤ ({ window35 with n := 49 }.add 2 (sampleOf 0 0 0)).n ∧
    (List.replicate 48 (sampleOf 0 0 0)).length + 2 ≤ prof.windowLen ∧
    ({ window35 with n := 48 }.add 0 (sampleOf 0 0 0)).n < 50 ∧ 50 ≤ ({ window35 with n := 49 }.add 0 (sampleOf 0 0 0)).n ∧
    (∀ m ∈ (atWev true).toBsq.get 4, m.isReport = false) ∧ (∀ m ∈ (atWev true).toWev.get 4, m.isAnswer = false) ∧
    (atWev true).inReset = false ∧
    ((atWev true).wevBay 4).entry = some { phase := .discharge, number := 3, started := true } ∧
    ((atWev false).wevBay 4).entry = some { phase := .discharge, number := 3, started := false } ∧
    (line.wevBay 4).entry = none ∧ (line.wevBay 4).cal = false ∧
    ((cal12 0 0 0 none).wevBay 11).entry = none ∧ ((cal12 0 0 0 none).wevBay 11).cal = true ∧
    ((after (.enterCal 1 [12]) line).trims 11).flagMoved = true ∧
    (∀ inCal, (convert ((cal12 0 0 0 none).trims 11) 0 0 0
      (if ((cal12 0 0 0 none).trims 11).flagMoved then inCal else ((cal12 0 0 0 none).trims 11).calFlag)).untrimmed = true) ∧
    ∀ inCal, (convert (line.trims 11) 0 0 0
      (if (line.trims 11).flagMoved then inCal else (line.trims 11).calFlag)).untrimmed = false := by decide +kernel

theorem witness_WindowsSummariseAndSettle :
    Phase.rest1.isRest = true ∧ Phase.restP ≠ .check ∧ Phase.chargeCV ≠ .check ∧ WevBay.reset.history.length ≤ 3 ∧
    ({ WevBay.reset with history := [.noise, .sag, .none] } : WevBay).history.length ≤ 3 ∧ WevBay.reset.watch = false ∧
    ({ WevBay.reset with watch := true } : WevBay).watch = true := by decide

/-- One message of BSQ waits at WEV. -/
def toldWev (m : WevMsg) (s : State := line) : State := { s with toWev := s.toWev.set 4 [m] }

theorem witness_WevTakesEntryClockAndLeave :
    (toldWev (.entry .check 1)).inReset = false ∧ (toldWev (.entry .check 1)).toWev.get 4 = .entry .check 1 :: [] ∧
    ((toldWev (.entry .check 1)).wevBay 4).cal = false ∧ ((toldWev (.entry .check 1)).wevBay 4).entry = none ∧
    (toldWev .clockStart (atWev false)).toWev.get 4 = .clockStart :: [] ∧
    ((toldWev .clockStart (atWev false)).wevBay 4).entry = some { phase := .discharge, number := 3, started := false } ∧
    (toldWev (.leave true true) (atWev true)).toWev.get 4 = .leave true true :: [] ∧
    ((toldWev (.leave true true) (atWev true)).wevBay 4).entry = some { phase := .discharge, number := 3, started := true } := by
  decide +kernel

/-! ### Bay messages -/

theorem holds_bay5 : (bay5 .loaded).holdsTag 70114 := .inl ⟨4, by decide +kernel⟩

theorem not_holds_line (tag : Nat) : ¬ line.holdsTag tag := by
  have h : ∀ b, line.bay b = Bay.reset := by decide +kernel
  have g : ∀ x, (line.string x).positions = [] := by decide +kernel
  rintro (⟨b, h1, -⟩ | ⟨c, hc, -⟩ | ⟨id, x, hx, -⟩)
  · rw [h b] at h1; exact h1 rfl
  · exact absurd hc (List.not_mem_nil)
  · have hm := seat_mem hx
    simp [BankString.seats, g] at hm

theorem witness_LoadJudgedInOrder :
    (bay5 .loaded).ready ∧ (70114 : Nat) < 4294967296 ∧ ((bay5 .loaded).bay 4).state ≠ .empty ∧
    line.ready ∧ (line.bay 4).state = .empty ∧ ((0 : Nat) = 0 ∨ (0 : Byte) = 0 ∨ 8 < (9 : Byte).toNat) ∧
    line.slot 7 = none ∧ line.slot 0 = some prof ∧ ((bay5 .loaded).bay 5).state = .empty ∧
    (bay5 .loaded).slot 0 = some prof ∧ (bay5 .loaded).holdsTag 70114 ∧ ¬ line.holdsTag 4294967295 ∧
    max prof.chargeCurrent (max prof.dischargeCurrent prof.pulseCurrent) ≤ line.caa.limit ∧
    ({ line with caa := { line.caa with limit := 6399 } } : State).caa.limit <
      max prof.chargeCurrent (max prof.dischargeCurrent prof.pulseCurrent) :=
  ⟨⟨⟨rfl, rfl⟩, rfl⟩, by decide, by decide +kernel, ⟨⟨rfl, rfl⟩, rfl⟩, by decide +kernel, by decide, by decide +kernel,
    by decide +kernel, by decide +kernel, by decide +kernel, holds_bay5, not_holds_line _, by decide +kernel, by decide +kernel⟩

theorem witness_PhaseEntryFollowsTable : (0 : Nat) = ((atTops.bay 4).entry + 1) % 65536 ∧ prof = atTops.profileOfBay 4 := by
  decide +kernel

theorem witness_SuspensionFollowsRule : ((bay5 (.phase .discharge) .running).bay 4).state = .phase .discharge := by decide +kernel

theorem witness_StartSuspendAndAbortTaken :
    (bay5 .loaded).ready ∧ ((bay5 .loaded).bay 4).state = .loaded ∧ (∀ p, ((bay5 .loaded).bay 4).state ≠ .phase p) ∧
    (bay5 (.phase .pulse) .running).ready ∧ (∃ p, ((bay5 (.phase .pulse) .running).bay 4).state = .phase p) ∧
    ((bay5 (.phase .pulse) .running).bay 4).state ≠ .loaded ∧
    (bay5 .suspended).ready ∧ ((bay5 .suspended).bay 4).state = .suspended ∧
    (bay5 .parked).ready ∧ ((bay5 .parked).bay 4).state = .parked ∧
    (bay5 .done).ready ∧ ((bay5 .done).bay 4).state ∈ [BayState.empty, .cal, .done, .rejected, .aborted] := by
  have e : ((bay5 .loaded).bay 4).state = .loaded := by decide +kernel
  exact ⟨⟨⟨rfl, rfl⟩, rfl⟩, e, fun p h => BayState.noConfusion (e.symm.trans h), ⟨⟨rfl, rfl⟩, rfl⟩, ⟨.pulse, by decide +kernel⟩,
    by decide +kernel, ⟨⟨rfl, rfl⟩, rfl⟩, by decide +kernel, ⟨⟨rfl, rfl⟩, rfl⟩, by decide +kernel, ⟨⟨rfl, rfl⟩, rfl⟩,
    by decide +kernel⟩

/-- Bay 5 SUSPENDED out of DISCHARGE for a cause. -/
def suspended (c : SuspensionCause) : State :=
  (bay5 .suspended).updBay 4 fun r => { r with resume := some .discharge, cause := .suspension c .ok }

theorem witness_ResumeJudgedInOrder :
    (suspended .lineRequest).ready ∧ 1 < (2 : Byte).toNat ∧ (1 : Byte).toNat ≤ 1 ∧
    (bay5 .done).ready ∧ ((bay5 .done).bay 4).state ≠ .suspended ∧
    ((suspended .lineRequest).bay 4).state = .suspended ∧
    (granted (suspended .lineRequest)).ready ∧ (granted (suspended .lineRequest)).grantOf 4 ≠ 0 ∧
    (∀ k, ((granted (suspended .lineRequest)).bay 4).cause ≠ .suspension .stageNoAnswer k) ∧
    ((suspended .lineRequest).offWrite 4).writeInHand 4 = true ∧
    stalledBus.ready ∧ (stalledBus.bay 4).state = .suspended ∧ 4 ∈ stalledBus.sbc.recovery ∧
    (∃ k, (stalledBus.bay 4).cause = .suspension .busStall k) ∧ stalledBus.writeInHand 4 = false ∧ stalledBus.grantOf 4 = 0 ∧
    4 ∉ (suspended .lineRequest).sbc.recovery ∧
    ((suspended .lineRequest).bay 4).resume = some .discharge ∧ (suspended .lineRequest).writeInHand 4 = false ∧
    (suspended .lineRequest).grantOf 4 = 0 ∧
    (∃ k, ((suspended .stageNoAnswer).bay 4).cause = .suspension .stageNoAnswer k) := by
  have e : ((granted (suspended .lineRequest)).bay 4).cause = .suspension .lineRequest .ok := by decide +kernel
  refine ⟨⟨⟨rfl, rfl⟩, rfl⟩, by decide, by decide, ⟨⟨rfl, rfl⟩, rfl⟩, by decide +kernel, by decide +kernel, ⟨⟨rfl, rfl⟩, rfl⟩,
    by decide +kernel, fun k h => ?_, by decide +kernel, ⟨⟨rfl, rfl⟩, rfl⟩, by decide +kernel, by decide +kernel,
    ⟨.ok, by decide +kernel⟩, by decide +kernel, by decide +kernel, by decide +kernel, by decide +kernel, by decide +kernel,
    by decide +kernel, .ok, by decide +kernel⟩
  rw [e] at h
  simp at h

theorem witness_UnloadTakenByState :
    (bay5 .loaded).ready ∧ ((bay5 .loaded).bay 4).state ∉ [BayState.done, .rejected, .aborted] ∧
    ((bay5 .aborted).offWrite 4).ready ∧ ((bay5 .aborted).bay 4).state ∈ [BayState.done, .rejected, .aborted] ∧
    ((bay5 .aborted).offWrite 4).writeInHand 4 = true ∧ (granted (bay5 .aborted)).ready ∧
    (granted (bay5 .aborted)).grantOf 4 ≠ 0 ∧ (granted (bay5 .aborted)).writeInHand 4 = false ∧
    (bay5 .aborted).ready ∧ (bay5 .aborted).writeInHand 4 = false ∧ (bay5 .aborted).grantOf 4 = 0 ∧
    (∀ m ∈ (bay5 .aborted).toCaa, m.bay ≠ 4) ∧ ((bay5 .aborted).caaUnload 4).toWev.get 4 = [] ∧
    ((bay5 .aborted).caaUnload 4).grantOf 4 = 0 ∧
    leaving.ready ∧ (leaving.bay 4).state = .aborted ∧ leaving.writeInHand 4 = false ∧ leaving.grantOf 4 = 0 ∧
    leaving.toCaa = [.leave 4] ∧ (leaving.caaUnload 4).grantOf 4 = 0 ∧
    asking.ready ∧ (asking.bay 4).state = .aborted ∧ asking.writeInHand 4 = false ∧ asking.grantOf 4 = 0 ∧
    (asking.caaUnload 4).grantOf 4 ≠ 0 :=
  ⟨⟨⟨rfl, rfl⟩, rfl⟩, by decide +kernel, ⟨⟨rfl, rfl⟩, rfl⟩, by decide +kernel, by decide +kernel, ⟨⟨rfl, rfl⟩, rfl⟩,
    by decide +kernel, by decide +kernel, ⟨⟨rfl, rfl⟩, rfl⟩, by decide +kernel, by decide +kernel, by decide +kernel,
    by decide +kernel, by decide +kernel, ⟨⟨rfl, rfl⟩, rfl⟩, by decide +kernel, by decide +kernel, by decide +kernel,
    by decide +kernel, by decide +kernel, ⟨⟨rfl, rfl⟩, rfl⟩, by decide +kernel⟩

theorem witness_GroupsServeTheirBays :
    (bay5 .loaded).ready ∧ ([0x10, 0, 0, 0, 0, 0] : List Byte).length = 6 ∧ (1 : Byte).toNat ≤ 1 ∧ 1 < (2 : Byte).toNat ∧
    inBaySet [0x10, 0, 0, 0, 0, 0] 0 4 = true :=
  ⟨⟨⟨rfl, rfl⟩, rfl⟩, by decide⟩

/-! ### The test -/

def record : WindowRecord := window35.close (some .discharge) false

def verdict : Verdict :=
  { record := record, quiet := none, quietRun := 0, settled := false, firstSettle := false, endOfCharge := none,
    noise := none, sag := none, anomaly := none, contactLost := none, overtemp := none, sensor := none }

/-- A sample report of bay 5's present entry. -/
def report (p : Phase) (i : Int) (m : Nat) (v : Option Verdict) : SampleReport :=
  { phase := p, entry := 3, v := 50000, i := i, satI := false, cvCrossed := p == .chargeCC, cutoff := false,
    magnitude := some m, verdict := v }

/-- A report waits at BSQ. -/
def reported (p : Phase) (x : SampleReport) : State :=
  { bay5 (.phase p) .running with toBsq := State.reset.toBsq.set 4 [.report x] }

/-- Bay 5 in a phase with this clock, this charge and discharge time, this way its rest ended, and a report waiting. -/
def reportedAt (p : Phase) (n : Nat) (how : RestEnding) (left : Nat) (x : SampleReport) : State :=
  { (bay5 (.phase p) .running).updBay 4 fun r =>
      { r with clock := n, chargeTime := n, dischargeTime := n, restEnding := how, obsLeft := left } with
    toBsq := State.reset.toBsq.set 4 [.report x] }

theorem witness_ReportCountedThenJudged :
    (∀ p ∈ [Phase.check, .rest0, .chargeCC, .chargeCV, .rest1, .discharge, .restP, .pulse, .rest2], ∀ n ∈ [0, 108000], ∀ k ∈ [1, 2],
      ∀ how ∈ [RestEnding.none, .settled], ∀ v ∈ [none, some verdict, some { verdict with settled := true, endOfCharge := some true }],
      ∀ x ∈ [report p 0 0 v], (reportedAt p n how k x).inReset = false ∧ (reportedAt p n how k x).toBsq.get 4 = .report x :: [] ∧
        ((reportedAt p n how k x).bay 4).state = .phase p ∧ x.entry = ((reportedAt p n how k x).bay 4).entry ∧
        (reportedAt p n how k x).profileOfBay 4 = prof ∧ ¬ prof.phaseCurrent p * 105 < 0 * 100) ∧
    (∀ x ∈ [report .discharge (-3361) 3361 none, report .discharge (-3361) 3361 (some { verdict with anomaly := some .noise }),
        report .discharge (-3360) 3360 (some { verdict with anomaly := some .sag }),
        report .discharge (-3360) 3360 (some { verdict with anomaly := some .noise }),
        report .discharge (-3200) 3200 (some { verdict with overtemp := some true }),
        report .discharge (-3200) 3200 (some { verdict with sensor := some true }),
        report .discharge (-3200) 3200 (some { verdict with contactLost := some true }),
        { report .discharge (-3200) 3200 none with cutoff := true }],
      (reported .discharge x).inReset = false ∧ (reported .discharge x).toBsq.get 4 = .report x :: [] ∧
      ((reported .discharge x).bay 4).state = .phase .discharge ∧ x.entry = ((reported .discharge x).bay 4).entry) ∧
    3360 * 100 ≤ prof.phaseCurrent .discharge * 105 ∧ prof.phaseCurrent .discharge * 105 < 3361 * 100 ∧
    prof.restMax * 10 ≤ 108000 ∧ prof.chargeLimit * 600 ≤ 180000 ∧ prof.dischargeLimit * 600 ≤ 108000 ∧
    prof.prePulse ≤ 108000 ∧ prof.pulseLen ≤ 108000 ∧ 0 < prof.restMax ∧ 1 < prof.chargeLimit * 600 ∧ prof.observation ≠ 0 ∧
    (report .chargeCC 3200 3200 none).cvCrossed = true ∧ { report .chargeCC 3200 3200 none with cvCrossed := false }.cvCrossed = false ∧
    { report .discharge 0 0 none with entry := 2 }.entry ≠ ((bay5 (.phase .discharge) .running).bay 4).entry := by
  decide +kernel

theorem witness_SampleCountedByPhase : Phase.chargeCC ≠ .discharge ∧ (report .discharge (-3200) 3200 (some verdict)).verdict = some verdict :=
  ⟨nofun, rfl⟩

/-- A closing report of entry `n`. -/
def closing (p : Phase) (n : Nat) (fin : Bool) : ClosingReport :=
  { phase := p, entry := n, part := some record, ringV := 204816, ringI := 0, ringN := 4, watch := false, finished := fin }

def closed (c : ClosingReport) : State :=
  { bay5 (.phase .rest2) .running with toBsq := State.reset.toBsq.set 4 [.closing c] }

theorem witness_ClosingReportTaken :
    ∀ c ∈ [closing .discharge 3 true, closing .restP 1 true, closing .pulse 3 true, closing .pulse 3 false, closing .pulse 0 true,
        { closing .discharge 3 false with part := none }],
      (closed c).inReset = false ∧ (closed c).toBsq.get 4 = .closing c :: [] := by decide +kernel

def grantedAt (n : Nat) : State :=
  { bay5 (.phase .discharge) .awaitingGrant with grantsOut := [{ bay := 4, entry := n }] }

theorem witness_GrantOpensThePhase :
    (grantedAt 3).inReset = false ∧ (grantedAt 3).grantsOut = { bay := 4, entry := 3 } :: [] ∧
    ((grantedAt 3).bay 4).state = .phase .discharge ∧ ((grantedAt 3).bay 4).substate = .awaitingGrant ∧
    ((grantedAt 3).bay 4).entry = 3 ∧ (grantedAt 2).grantsOut = { bay := 4, entry := 2 } :: [] ∧ ((grantedAt 2).bay 4).entry ≠ 2 := by
  decide +kernel

theorem witness_GradeRecordFollowsStages :
    4 * prof.minDelta ≤ (inputs68.pulseI - inputs68.preI).natAbs ∧ 0 < (inputs68.preV : Int) - inputs68.pulseV ∧
    (inputs610.pulseI - inputs610.preI).natAbs < 4 * prof.minDelta ∧
    inputs68.obs = some (2537400, 2537250, 1440) ∧ { inputs68 with obs := none }.obs = none ∧
    (gradeRecord prof inputs610).res = none ∧ (gradeRecord prof inputs68).res = some (1200, 120) ∧
    (∀ m ∈ [({} : Marks), { interrupted := true }, { chargeTimeout := true }],
      prof.sohA ≤ (gradeRecord prof { inputs68 with marks := m, obs := none }).soh ∧
      (gradeRecord prof { inputs68 with marks := m, obs := none }).marks = m) ∧
    prof.sdA < 36 ∧ prof.ratioB < (gradeRecord prof { inputs68 with pulseV := 200464 }).res.elim 0 Prod.snd ∧
    (gradeRecord prof { inputs68 with pulseV := 200464 }).cls = .c ∧
    (gradeRecord prof { inputs68 with q := 0 }).reject = some .belowClassC := by decide +kernel

theorem witness_GradeSettlesTheBay :
    (line.wevBay 4).entry = none ∧
    ((atWev true).wevBay 4).entry = some { phase := .discharge, number := 3, started := true } ∧
    { graded 1 .x 0 0 with reject := some .belowClassC }.reject = some .belowClassC ∧ (graded 1 .a 0 0).reject = none ∧
    (pooled (List.replicate 127 (candidate 2 .a 0 0 0))).pool.records.length < 128 ∧
    128 ≤ (pooled (List.replicate 128 (candidate 2 .a 0 0 0))).pool.records.length := by decide +kernel

/-! ### Stage bus -/

theorem witness_StageTransactionsTaken :
    ((bay5 (.phase .pulse) .running).bay 4).state = .phase .pulse ∧ ((suspended .overtemp).bay 4).state = .suspended ∧
    ((suspended .overtemp).bay 4).cause ≠ .suspension .stageFault .inputLoss ∧ ((bay5 .done).bay 4).state ≠ .suspended ∧
    line.sbc.queue.any (·.isWriteOf 4) = false ∧
    queued.sbc.queue = [BusEntry.broadcastOff] ++ .write 4 .off 0 3 :: [BusEntry.statusRead 4] ∧ (BusEntry.write 4 .off 0 3).isWriteOf 4 = true ∧
    ([BusEntry.broadcastOff] ++ [BusEntry.statusRead 4]).any (·.isWriteOf 4) = false ∧
    queued.inReset = false ∧ queued.sbc.queue = .broadcastOff :: [.write 4 .off 0 3, .statusRead 4] ∧ queued.sbc.bus = .idle ∧
    queued.sbc.inFlight = none ∧ (sending .broadcastOff).sbc.bus ≠ .idle ∧
    (sending (.write 4 .off 0 3) (bay5 (.phase .pulse))).sbc.inFlight = some (.write 4 .off 0 3) ∧
    ((sending (.write 4 .off 0 3) (bay5 (.phase .pulse))).bay 4).state = .phase .pulse ∧
    ((sending (.write 4 .off 0 3) (suspended .overtemp)).bay 4).state = .suspended ∧
    ((sending (.write 4 .off 0 3) (suspended .overtemp)).bay 4).cause ≠ .suspension .stageNoAnswer .ok ∧
    ((sending (.write 4 .off 0 3) (suspended .stageNoAnswer)).bay 4).cause = .suspension .stageNoAnswer .ok ∧
    ((sending (.write 4 .off 0 3) (bay5 .done)).bay 4).state = .done ∧
    (sending (.statusRead 4)).sbc.inFlight = some (.statusRead 4) ∧
    (0x00 : Byte) + 0x00 = 0 ∧ (0x04 : Byte) + 0xFC = 0 ∧ (0xFF : Byte) + 0xFF ≠ 0 := by decide +kernel

theorem witness_AcknowledgementReleasesThenStarts :
    (sending (.write 4 .off 0 3) (bay5 (.phase .discharge) .awaitingStage)).inReset = false ∧
    (sending (.write 4 .off 0 3) (bay5 (.phase .discharge) .awaitingStage)).sbc.inFlight = some (.write 4 .off 0 3) ∧
    line.grantOf 4 = 0 ∧ (granted line).grantOf 4 ≠ 0 ∧
    ((bay5 (.phase .discharge) .awaitingStage).bay 4).state = .phase .discharge ∧
    ((bay5 (.phase .discharge) .awaitingStage).bay 4).substate = .awaitingStage ∧ Phase.discharge.isCurrent = true ∧
    Phase.rest1.isCurrent = false ∧ ((bay5 (.phase .discharge) .running).bay 4).substate ≠ .awaitingStage := by decide +kernel

/-- The part listens to another master, with an entry of its own abandoned or none. -/
def listening (e : Option BusEntry) (s : State := line) : State :=
  s.updSbc fun x => { x with bus := .busy, listening := true, abandoned := e }

theorem witness_BroadcastAndForeignTransactionsTaken :
    (sending .broadcastOff).inReset = false ∧ (sending .broadcastOff).sbc.inFlight = some .broadcastOff ∧
    line.sbc.bus = .idle ∧ (listening none).inReset = false ∧ (listening none).sbc.listening = true ∧
    ([0x00, 0x10, 0x00, 0x00] : List Byte).length ≠ 5 ∧ byteSum [0x00, 0x10, 0x00, 0x00, 0xF1] ≠ 0 ∧
    ([0x05, 0x10, 0x00, 0x00, 0xEB] : List Byte).take 2 ≠ [0x00, 0x10] ∧ (listening none).sbc.abandoned = none ∧
    (∀ e ∈ [BusEntry.write 4 .off 0 3, .statusRead 4, .broadcastOff], (listening (some e)).sbc.abandoned = some e ∧
      (listening (some e) queued).sbc.abandoned = some e) ∧
    (listening none).sbc.queue.any (·.isWriteOf 4) = false ∧ (listening none queued).sbc.queue.any (·.isWriteOf 4) = true ∧
    (listening none).sbc.queue.any (·.isReadOf 4) = false ∧ (listening none queued).sbc.queue.any (·.isReadOf 4) = true ∧
    ([0x00, 0x10, 0x00, 0x00, 0xF0] : List Byte).length = 5 ∧ ([0x00, 0x10, 0x00, 0x00, 0xF0] : List Byte).take 2 = [0x00, 0x10] ∧
    byteSum [0x00, 0x10, 0x00, 0x00, 0xF0] = 0 ∧
    (∀ e ∈ [BusEntry.write 4 .off 0 3, .statusRead 4, .broadcastOff], ∀ p ∈ [Phase.pulse, .rest1],
      (listening (some e) (bay5 (.phase p) .running)).sbc.abandoned = some e ∧
      ((listening (some e) (bay5 (.phase p) .running)).bay 4).inHand = (p == .pulse)) ∧
    ((listening none).updSbc fun x => { x with newer := true }).sbc.newer = true ∧ (listening none).sbc.newer = false ∧
    ((listening none (bay5 (.phase .pulse) .running)).bay 4).inHand = true ∧
    ((listening none (bay5 .done)).bay 4).inHand = false ∧ ((listening none (bay5 .done)).bay 4).substate ≠ .awaitingGrant := by
  decide +kernel

theorem witness_StallSuspendsBaysInHand :
    (bay5 (.phase .rest1) .awaitingStage).inReset = false ∧ (bay5 (.phase .rest1) .awaitingStage).sbc.bus ≠ .stalled ∧
    ((bay5 (.phase .rest1) .awaitingStage).bay 4).inHand = true ∧ ((bay5 (.phase .rest1) .running).bay 4).inHand = false ∧
    (after .stall line).sbc.bus = .stalled ∧ (after .stall line).inReset = false := by decide +kernel

theorem queued_tidy : QueueTidy queued := by
  refine ⟨?_, ?_⟩
  · show List.Pairwise _ [BusEntry.broadcastOff, .write 4 .off 0 3, .statusRead 4]
    simp [BusEntry.clashes]
  · show ∀ e ∈ [BusEntry.write 4 .off 0 3, .statusRead 4], e ≠ .broadcastOff
    simp

theorem witness_StopAllAndFaultLineTaken :
    queued.ready ∧ QueueTidy queued ∧ (bay5 (.phase .pulse) .awaitingGrant).ready ∧
    ((bay5 (.phase .pulse) .awaitingGrant).bay 4).inHand = true ∧ (queued.bay 4).inHand = false ∧
    queued.inReset = false ∧ queued.sbc.faultLow = false ∧ (after .faultAssertion queued).sbc.faultLow = true :=
  ⟨⟨⟨rfl, rfl⟩, rfl⟩, queued_tidy, ⟨⟨rfl, rfl⟩, rfl⟩, by decide +kernel⟩

theorem witness_AllowanceTakingsExamine :
    ({ line with toCaa := [.request 4 32767 3] } : State).toCaa = .request 4 32767 3 :: [] ∧
    (∀ w ∈ line.caa.waiting, w.bay ≠ 4) ∧ ({ waiting with toCaa := [.leave 6] } : State).toCaa = .leave 6 :: [] ∧
    ({ granted line with toCaa := [.giveBack 4 3] } : State).toCaa = .giveBack 4 3 :: [] ∧
    ((granted line).caa.grants.get 4).entry = 3 ∧ ((granted line).caa.grants.get 4).entry ≠ 2 ∧ line.inReset = false ∧
    line.ready ∧ (4294967295 : Nat) < 4294967296 :=
  ⟨by decide +kernel, by decide +kernel, by decide +kernel, by decide +kernel, by decide +kernel, by decide +kernel,
    by decide +kernel, ⟨⟨rfl, rfl⟩, rfl⟩, by decide⟩

/-- Bay 5 awaits a grant above the limit, in front of a bay within it; no broadcast is in hand. -/
def aboveLimit : State :=
  (bay5 (.phase .discharge) .awaitingGrant (quiet line)).updCaa fun a =>
    { a with limit := 3000, waiting := [{ bay := 4, mag := 3200, entry := 3 }, { bay := 7, mag := 400, entry := 1 }] }

theorem witness_ExaminationServesHeadOfLine :
    aboveLimit.examine.caa.waiting = aboveLimit.caa.waiting.drop 2 ∧ (aboveLimit.caa.waiting.map Waiting.bay).Nodup ∧
    aboveLimit.caa.limit < 3200 ∧ 400 ≤ aboveLimit.caa.limit ∧ (aboveLimit.bay 4).state = .phase .discharge ∧
    (aboveLimit.bay 4).substate = .awaitingGrant ∧ (aboveLimit.bay 4).entry = 3 ∧ aboveLimit.broadcastInHand = false ∧
    (aboveLimit.examine.bay 4).cause = .suspension .allowanceOverLimit .ok ∧
    waiting.examine.caa.waiting.head? = some { bay := 6, mag := 20000, entry := 1 } ∧ waiting.broadcastInHand = true ∧
    waiting.caa.committed ≤ waiting.caa.limit := by decide +kernel

/-! ### Pool and bank -/

theorem given_graded (tag : Nat) (h : tag < 4294967296) : (graded tag .b 6236 1200).given :=
  ⟨by simp [graded], rfl, h, by simp [graded], by simp [graded], by simp [graded], by simp [graded], by simp [graded],
    ⟨1200, 120, rfl, by decide, by decide⟩, by simp [graded]⟩

/-- Bay 14 PARKED at the head of the park list of a full pool. -/
def parked : State :=
  (pooled (List.replicate 128 (candidate 70340 .a 6236 1200 409))).updPool fun p => { p with park := [13] }

theorem witness_PoolEntryAndWithdrawalTaken :
    line.ready ∧ (graded 0 .b 6236 1200).given ∧ (graded 0 .b 6236 1200).tag = 0 ∧ (graded 4294967295 .b 6236 1200).given ∧
    (graded 4294967295 .b 6236 1200).tag ≠ 0 ∧ ({ graded 1 .b 6236 1200 with soh := 1200 } : GradeRecord).soh ≤ 1200 ∧
    State.reset.ready ∧ State.reset.slot 0 = none ∧ line.slot 0 ≠ none ∧ (bay5 .loaded).ready ∧
    (bay5 .loaded).slot 0 ≠ none ∧ (bay5 .loaded).holdsTag 70114 ∧ ¬ line.holdsTag 70114 ∧
    line.pool.records.length < 128 ∧ parked.ready ∧ 128 ≤ parked.pool.records.length ∧ parked.slot 0 ≠ none ∧
    line.pool.find 1 = none ∧ step8.ready ∧
    step8.pool.find 70652 = some (candidate 70652 .a 6260 1020 422 (some (seat 2 2 .a))) ∧
    service6.ready ∧ service6.pool.find 70801 = some (candidate 70801 .b 6236 1200 1) ∧
    service6.pool.find 70801 ≠ none ∧ service6.pool.park = [] ∧ parked.pool.park = 13 :: [] ∧ parked.pool.find 70340 ≠ none ∧
    ((parked.updBay 13 fun r => { r with grade := some (graded 70500 .b 6610 1200) }).bay 13).grade =
      some (graded 70500 .b 6610 1200) :=
  ⟨⟨⟨rfl, rfl⟩, rfl⟩, given_graded _ (by decide), rfl, given_graded _ (by decide), by decide, by decide, ⟨⟨rfl, rfl⟩, rfl⟩,
    by decide +kernel, by decide +kernel, ⟨⟨rfl, rfl⟩, rfl⟩, by decide +kernel, holds_bay5, not_holds_line _, by decide +kernel,
    ⟨⟨rfl, rfl⟩, rfl⟩, by decide +kernel, by decide +kernel, by decide +kernel, ⟨⟨rfl, rfl⟩, rfl⟩, by decide +kernel,
    ⟨⟨rfl, rfl⟩, rfl⟩, by decide +kernel⟩

theorem witness_StringOpenedSetAndReleased :
    line.ready ∧ (131070 : Nat) < 16777216 ∧ (65535 : Nat) < 65536 ∧ (1000 : Nat) < 65536 ∧ (line.string 2).state = .unused ∧
    step8.ready ∧ (step8.string 2).state ≠ .unused ∧ 0 < (step8.string 2).resCount ∧ service6.ready ∧
    (service6.string 5).resCount = 0 ∧
    ((0 : Byte) = 0 ∨ 8 < (9 : Byte).toNat) ∧ (1 : Byte).toNat < 2 ∧ 24 < (25 : Byte).toNat ∧ 3 < (4 : Byte).toNat ∧
    131070 < 131071 ∧ 2 ≤ (2 : Byte).toNat ∧ (24 : Byte).toNat ≤ 24 ∧ GradeClass.c ≠ .x ∧ line.slot 7 = none ∧ line.slot 0 ≠ none :=
  ⟨⟨⟨rfl, rfl⟩, rfl⟩, by decide, by decide, by decide, by decide +kernel, ⟨⟨rfl, rfl⟩, rfl⟩, by decide +kernel, by decide +kernel,
    ⟨⟨rfl, rfl⟩, rfl⟩, by decide +kernel⟩

theorem witness_VacancyDeclared :
    service6.ready ∧ (65535 : Nat) < 65536 ∧
    (service6.string 5).position 2 = some { a := .installed (graded 61003 .b 6180 1250), b := .vacant (some { cap := 6010, res := 1380 }) } ∧
    (service6.string 5).state = .service ∧ (Seat.vacant (some { cap := 6010, res := 1380 })).isVacant = true ∧
    (Seat.installed (graded 61003 .b 6180 1250)).isInstalled = true ∧
    (service6.string 5).position 1 = some { a := .installed (graded 61001 .b 6210 1190), b := .installed (graded 61002 .b 6195 1230) } ∧
    step8.ready ∧ (step8.string 2).position 2 = some { a := .reserved 70652 1750 .empty, b := .empty } ∧
    (step8.string 2).state ≠ .sealed ∧ (step8.string 2).state ≠ .service ∧
    (Seat.reserved 1 0 (.vacancy none)).isReserved = true ∧ (service6.string 5).positions.length < (3 : Byte).toNat ∧
    (2 : Byte).toNat ≤ (service6.string 5).positions.length ∧ 2 < (3 : Byte).toNat ∧
    (beBytes 2 6100 ++ beBytes 2 1300).length = 4 ∧
    (service6.string 3).state ≠ .sealed ∧ (service6.string 3).state ≠ .service ∧ (service6.string 3).positions = [] :=
  ⟨⟨⟨rfl, rfl⟩, rfl⟩, by decide, by decide +kernel, by decide +kernel, by decide, by decide, by decide +kernel,
    ⟨⟨rfl, rfl⟩, rfl⟩, by decide +kernel⟩

/-- String 3 FORMING, empty. -/
def forming : State := string3 .forming 0 [{ a := .empty, b := .empty }, { a := .empty, b := .empty }]

theorem not_holds_forming : ¬ forming.holdsTag 61001 := by
  rw [← tagHeld_iff]; decide +kernel

theorem witness_SeatsFilledAndSealed :
    forming.ready ∧ forming.seat (seat 2 1 .a) = some .empty ∧ forming.seat (seat 2 2 .b) = some .empty ∧
    (graded 61001 .b 6210 1190).given ∧ (graded 61001 .b 6210 1190).tag ≠ 0 ∧ -400 ≤ (graded 61001 .b 6210 1190).tm ∧
    (graded 61001 .b 6210 1190).tm ≤ 1250 ∧ (graded 61001 .b 6210 1190).soh ≤ 1200 ∧ (forming.string 2).state = .forming ∧
    (forming.string 2).profile = some (graded 61001 .b 6210 1190).profile ∧ ¬ forming.holdsTag 61001 ∧
    service6.ready ∧ service6.seat (seat 5 2 .b) = some (.vacant (some { cap := 6010, res := 1380 })) ∧
    (service6.string 5).state = .service ∧ service6.pool.find 70801 = some (candidate 70801 .b 6236 1200 1) ∧
    judge (service6.string 5) (service6.partner (seat 5 2 .b)) (candidate 70801 .b 6236 1200 1) = some .pairCapacity ∧
    judge { service6.string 5 with reference := 12100 } (service6.partner (seat 5 2 .b)) (candidate 70802 .a 6050 1330 2) = none ∧
    (step8.pool.find 70652).bind Candidate.status = some (seat 2 2 .a) :=
  ⟨⟨⟨rfl, rfl⟩, rfl⟩, by decide +kernel, by decide +kernel,
    ⟨by decide, rfl, by decide, by decide, by decide, by decide, by decide, by decide, ⟨1190, 120, rfl, by decide, by decide⟩, by simp [graded]⟩,
    by decide, by decide, by decide, by decide, by decide +kernel, by decide +kernel, not_holds_forming,
    ⟨⟨rfl, rfl⟩, rfl⟩, by decide +kernel⟩

/-- The bytes of a record with one of them replaced. -/
def recordWith (i : Nat) (x : Byte) : List Byte := (graded 1 .b 6236 1200).bytes.set i x

/-- One byte out of place for each check of R128 and R148 that a record fails whatever its profile. -/
theorem witness_recordRefused :
    ∀ x ∈ [((3, 0) : Nat × Byte), (5, 0), (5, 49), (6, 0), (6, 4), (7, 1), (22, 0), (22, 5), (23, 64), (10, 0xFD), (10, 5), (14, 5)],
      recordRefused (recordWith x.1 x.2) ∧ (recordWith x.1 x.2).length = 24 ∧
      reply (.restoreCandidate 1 (recordWith x.1 x.2)) line = some (.badValue, false, []) := by
  simp only [recordRefused]
  decide +kernel

theorem witness_profile_byte_refused : (recordWith 4 9).length = 24 ∧ 8 < ((recordWith 4 9).getD 4 0).toNat ∧
    (recordWith 4 2).getD 4 0 ≠ profileByte 0 := by decide

/-- String 3 FORMING with a seat of each kind, and a tag held by a bay. -/
def formed : State :=
  string3 .forming 1 [{ a := .reserved 70652 1750 .empty, b := .installed (graded 70114 .b 6236 1200) }, { a := .empty, b := .empty }]
    (bay5 .loaded)

theorem holds_formed : formed.holdsTag 70114 := (tagHeld_iff _ _).mp (by decide +kernel)

theorem witness_SeatsFilledAndSealed_refusals :
    formed.ready ∧ formed.holdsTag (graded 70114 .b 6236 1200).tag ∧ (graded 70114 .b 6236 1200).given ∧
    (formed.string 2).state = .forming ∧ (formed.string 2).profile = some 0 ∧
    (formed.string 2).positions.length < (3 : Byte).toNat ∧ (2 : Byte).toNat ≤ (formed.string 2).positions.length ∧
    2 < (3 : Byte).toNat ∧ (1 : Byte) = seatByte .a ∧ (2 : Byte) = seatByte .b ∧
    formed.seat (seat 2 1 .a) = some (.reserved 70652 1750 .empty) ∧ (Seat.reserved 70652 1750 .empty).isReserved = true ∧
    formed.seat (seat 2 1 .b) = some (.installed (graded 70114 .b 6236 1200)) ∧ formed.seat (seat 2 2 .a) = some .empty ∧
    formed.pool.find 70115 = none ∧ (70115 : Nat) < 4294967296 ∧ 16 < (17 : Byte).toNat ∧
    (line.string 2).state ≠ .forming ∧ (line.string 2).state ≠ .service :=
  ⟨⟨⟨rfl, rfl⟩, rfl⟩, holds_formed, given_graded _ (by decide), by decide +kernel⟩

theorem witness_JudgementNamesFirstFailure :
    string6.minClass = some .b ∧ (0 : Nat) + 0 = 0 ∧ 0 < 1 ∧ 0 < 0 + 1 ∧
    service6.seat (seat 5 2 .b) = some (.vacant (some { cap := 6010, res := 1380 })) ∧
    service6.seat (seat 5 2 .a) = some (.installed (graded 61003 .b 6180 1250)) ∧
    (graded 61003 .b 6180 1250).res = some (1250, 120) ∧
    (service6.updSeat (seat 5 2 .b) fun _ => .vacant none).seat (seat 5 2 .b) = some (.vacant none) ∧
    step8.seat (seat 2 2 .b) = some .empty ∧ step8.seat (seat 2 2 .a) = some (.reserved 70652 1750 .empty) ∧
    step8.pool.find 70652 = some (candidate 70652 .a 6260 1020 422 (some (seat 2 2 .a))) ∧
    forming.seat (seat 2 1 .a) = some .empty ∧ forming.seat (seat 2 1 .b) = some .empty := by decide +kernel

/-! ### Matcher, notices, alert, reading -/

theorem witness_PassReservesWithinNoticeRoom :
    (∃ u : State, u = (pooled [candidate 70114 .b 6236 1200 405] forming).updPlm (fun m => { m with passPending := true }) ∧
      u.inReset = false ∧ u.plm.passPending = true ∧ (after .matchingPass u).plm.lastPass = .complete 3 1 ∧
      u.seatOrder = [seat 2 1 .a, seat 2 1 .b, seat 2 2 .a, seat 2 2 .b]) ∧
    line.inReset = false ∧ line.plm.passPending = false ∧
    ((notices 64 0).updPlm fun m => { m with passPending := true }).plm.passPending = true ∧
    ((notices 64 0).updPlm fun m => { m with passPending := true }).inReset = false ∧ (notices 64 0).nqa.queue.length ≤ 64 ∧
    (after .matchingPass ((notices 63 0 (pooled [candidate 70114 .b 6236 1200 405] forming)).updPlm fun m =>
      { m with passPending := true })).plm.lastPass = .noticeRoom 1 1 (seat 2 1 .b) :=
  ⟨⟨_, rfl, by decide +kernel⟩, by decide +kernel⟩

theorem witness_ChoiceIsBestCandidate :
    (pooled [candidate 70114 .b 6236 1200 405] forming).choose (seat 2 1 .a) = some (candidate 70114 .b 6236 1200 405) ∧
    forming.choose (seat 2 1 .a) = none ∧ forming.seat (seat 2 1 .a) = some .empty ∧ Seat.empty.isFree = true ∧ 1 ≤ (seat 2 1 .a).pos ∧
    service6.seat (seat 5 2 .b) = some (.vacant (some { cap := 6010, res := 1380 })) ∧
    (Seat.vacant (some { cap := 6010, res := 1380 })).isFree = true := by decide +kernel

/-- The deadline of seat 2A of string 3 has run down. -/
def expired (lapses : Nat) : State :=
  (pooled [{ candidate 70652 .a 6260 1020 422 (some (seat 2 2 .a)) with lapses := lapses }] step8).updSeat (seat 2 2 .a) fun _ =>
    .reserved 70652 0 .empty

theorem witness_DeadlinesRunDownAndExpire :
    step8.inReset = false ∧ step8.seat (seat 2 2 .a) = some (.reserved 70652 1750 .empty) ∧ step8.seat (seat 2 2 .b) = some .empty ∧
    (∀ n ∈ [0, 1, 2], (expired n).inReset = false ∧ (expired n).seat (seat 2 2 .a) = some (.reserved 70652 0 .empty) ∧
      (expired n).pool.find 70652 = some { candidate 70652 .a 6260 1020 422 (some (seat 2 2 .a)) with lapses := n }) := by
  decide +kernel

theorem witness_PlacedAndNotPlacedTaken :
    step8.ready ∧ 0 < 70652 ∧ step8.seat (seat 2 2 .a) = some (.reserved 70652 1750 .empty) ∧
    step8.pool.find 70652 = some (candidate 70652 .a 6260 1020 422 (some (seat 2 2 .a))) ∧
    step8.seat (seat 2 2 .b) = some .empty ∧ seat 2 2 .a ≠ seat 2 2 .b ∧ step8.pool.find 70650 = none ∧
    step8.seat (seat 15 24 .b) = none ∧ 1 ≤ (1 : Byte).toNat ∧ (3 : Byte).toNat ≤ 3 ∧ 3 < (4 : Byte).toNat ∧
    (16 : Byte).toNat ≤ 16 ∧ 16 < (17 : Byte).toNat ∧ (24 : Byte).toNat ≤ 24 ∧ 24 < (25 : Byte).toNat ∧ 2 < (3 : Byte).toNat :=
  ⟨⟨⟨rfl, rfl⟩, rfl⟩, by decide, by decide +kernel⟩

theorem witness_MatcherPausedResumedAndTimed : line.ready ∧ (65535 : Nat) < 65536 ∧ line.plm.paused = false ∧
    (after (.pauseMatcher 1 []) line).plm.paused = true := ⟨⟨⟨rfl, rfl⟩, rfl⟩, by decide, by decide +kernel⟩

theorem witness_NoticesQueuedAndFetched :
    (notices 63 0).nqa.queue.length < 64 ∧ 64 ≤ (notices 64 0).nqa.queue.length ∧ (notices 64 0).ready ∧ 8 < (9 : Byte).toNat ∧
    (8 : Byte).toNat ≤ 8 :=
  ⟨by decide +kernel, by decide +kernel, ⟨⟨rfl, rfl⟩, rfl⟩, by decide, by decide⟩

theorem witness_AlertFollowsCausesAndEnables : line.ready ∧ 64 ≤ (0x40 : Byte).toNat ∧ (0x3F : Byte).toNat < 64 :=
  ⟨⟨⟨rfl, rfl⟩, rfl⟩, by decide, by decide⟩

theorem witness_ReadsAnswerAndChangeNothing :
    step8.ready ∧ (127 : Byte).toNat ≤ 127 ∧ 127 < (128 : Byte).toNat ∧ step8.pool.find 1 = none ∧
    step8.pool.find 70652 = some (candidate 70652 .a 6260 1020 422 (some (seat 2 2 .a))) ∧ (step8.string 2).state ≠ .unused ∧
    (step8.string 2).position 2 = some { a := .reserved 70652 1750 .empty, b := .empty } ∧
    (line.string 2).state = .unused ∧ (step8.string 2).positions.length < (3 : Byte).toNat ∧
    (granted line).grantOf 4 ≠ 0 :=
  ⟨⟨⟨rfl, rfl⟩, rfl⟩, by decide, by decide, by decide +kernel⟩

end Sys2Proof.Tests
end

section
/-! The profile slots: what a state refers to stays FILLED (R13, R14). `RefsFilled` says of a table of profiles that it
is the state's own and that every reference of the state is to a FILLED slot of it; each operation that leaves the table
alone keeps it, and with it the slots in use. -/

namespace Sys2Proof.Machine

/-- A slot of a table of profiles is FILLED (R1). -/
def FilledIn (v : Vector (Option Profile) 8) (k : ProfileId) : Prop := v.get k ≠ none

/-- The states from which a test runs or goes on, where a bay must have a profile (R54). -/
def BayState.inTest : BayState → Bool
  | .loaded | .suspended | .phase _ => true
  | _ => false

theorem BayState.inTest_refers {x : BayState} (h : x.inTest = true) : x.refersToProfile = true := by
  cases x <;> first | rfl | exact absurd h (by decide)

theorem BayState.refersToProfile_iff (x : BayState) : x.refersToProfile = true ↔ x ≠ .empty ∧ x ≠ .cal := by
  cases x <;> simp [BayState.refersToProfile]

/-- A profile that a bay record names is FILLED. -/
def Bay.namesFilled (v : Vector (Option Profile) 8) (r : Bay) : Prop := ∀ k, r.profile = some k → FilledIn v k

/-- A bay record names a FILLED profile. -/
def Bay.hasFilled (v : Vector (Option Profile) 8) (r : Bay) : Prop := ∃ k, r.profile = some k ∧ FilledIn v k

theorem Bay.hasFilled.names {v : Vector (Option Profile) 8} {r : Bay} (h : r.hasFilled v) : r.namesFilled v := by
  obtain ⟨k, hk, filled⟩ := h
  intro j hj
  obtain rfl : k = j := Option.some.inj (hk.symm.trans hj)
  exact filled

/-- What a state refers to is FILLED in `v`, which is its table of profiles. A parked bay counts whatever its state, and
so does its grade record, since the park service makes a record of the pool from them (R134). -/
structure RefsFilled (v : Vector (Option Profile) 8) (s : State) : Prop where
  profiles : s.profiles = v
  bays : ∀ b, (s.bay b).state.refersToProfile = true ∨ b ∈ s.pool.park → (s.bay b).namesFilled v
  tested : ∀ b, (s.bay b).state.inTest = true → (s.bay b).profile.isSome = true
  graded : ∀ b ∈ s.pool.park, ∀ g, (s.bay b).grade = some g → FilledIn v g.profile
  records : ∀ c ∈ s.pool.records, FilledIn v c.grade.profile
  strings : ∀ x, (s.string x).state ≠ .unused → ∀ k, (s.string x).profile = some k → FilledIn v k

/-- What of a state its references stand in. -/
def State.refs (s : State) : Vector (Option Profile) 8 × Vector Bay 48 × Pool × Vector BankString 16 :=
  (s.profiles, s.bays, s.pool, s.bank)

theorem State.bay_of_refs {s t : State} (e : t.refs = s.refs) (b : BayId) : t.bay b = s.bay b :=
  congrArg (fun r => r.2.1.get b) e

/-- A profile number in use is one that `RefsFilled` speaks of. -/
theorem RefsFilled.filled_of_inUse {v : Vector (Option Profile) 8} {s : State} (h : RefsFilled v s) {k : ProfileId}
    (use : s.inUse k) : s.slot k ≠ none := by
  show s.profiles.get k ≠ none
  rw [h.profiles]
  rcases use with ⟨b, ne, nc, hk⟩ | ⟨c, hc, rfl⟩ | ⟨x, nu, hk⟩
  · exact h.bays b (.inl ((BayState.refersToProfile_iff _).mpr ⟨ne, nc⟩)) k hk
  · exact h.records c hc
  · exact h.strings x nu k hk

/-- Where the slots referred to are FILLED and the bays are whole, every reference is to a FILLED slot. -/
theorem refsFilled_of_whole {s : State} (whole : BaysWhole s) (kept : SlotsKept s) : RefsFilled s.profiles s := by
  obtain ⟨-, whole⟩ := whole
  have bay : ∀ b, (s.bay b).state.refersToProfile = true → (s.bay b).namesFilled s.profiles := by
    intro b hb k hk
    obtain ⟨ne, nc⟩ := (BayState.refersToProfile_iff _).mp hb
    exact kept k (.inl ⟨b, ne, nc, hk⟩)
  have parked : ∀ b ∈ s.pool.park, (s.bay b).state = .parked := fun b hb => (whole b).1.mp hb
  refine ⟨rfl, fun b hb => bay b (hb.elim id fun hp => by rw [parked b hp]; rfl), fun b hb => ?_, fun b hb g hg => ?_,
    fun c hc => kept _ (.inr (.inl ⟨c, hc, rfl⟩)), fun x nu k hk => kept k (.inr (.inr ⟨x, nu, hk⟩))⟩
  · obtain ⟨ne, nc⟩ := (BayState.refersToProfile_iff _).mp (BayState.inTest_refers hb)
    exact ((whole b).2.1 ne nc).2
  · obtain ⟨g2, hg2, -, hp⟩ := (whole b).2.2 (parked b hb)
    obtain rfl : g2 = g := Option.some.inj (hg2.symm.trans hg)
    exact bay b (by rw [parked b hb]; rfl) _ hp

/-- The commands that may write the table of profiles or enter reset (R10, R12, R185). -/
def movesSlots : Instr → Bool
  | .writeProfile _ _ | .eraseProfile _ _ | .resetInput | .replyEnd => true
  | _ => false

@[simp] theorem updPosition_profile (pos : Nat) (f : Position → Position) (x : BankString) :
    (x.updPosition pos f).profile = x.profile := by unfold BankString.updPosition; split <;> rfl

namespace RefsFilled

open Closed (keeps_if)

variable {v : Vector (Option Profile) 8} {s t : State}

/-! ### Changes of one block -/

/-- A change of what refers to no profile. -/
theorem same (h : RefsFilled v s) (e : t.refs = s.refs) : RefsFilled v t := by
  have bay := State.bay_of_refs e
  have pool : t.pool = s.pool := congrArg (fun r => r.2.2.1) e
  have string : ∀ x, t.string x = s.string x := fun x => congrArg (fun r => r.2.2.2.get x) e
  refine ⟨(congrArg Prod.fst e).trans h.profiles, ?_, ?_, ?_, ?_, ?_⟩ <;> simp only [bay, pool, string]
  exacts [h.bays, h.tested, h.graded, h.records, h.strings]

/-- A bay from which a test runs or goes on names a FILLED profile. -/
theorem hasFilled (h : RefsFilled v s) {b : BayId} (on : (s.bay b).state.inTest = true) : (s.bay b).hasFilled v := by
  obtain ⟨k, hk⟩ := Option.isSome_iff_exists.mp (h.tested b on)
  exact ⟨k, hk, h.bays b (.inl (BayState.inTest_refers on)) k hk⟩

theorem hasFilled_of_phase (h : RefsFilled v s) {b : BayId} {p : Phase} (hp : (s.bay b).state = .phase p) :
    (s.bay b).hasFilled v := h.hasFilled (by rw [hp]; rfl)

theorem updBay (h : RefsFilled v s) (b : BayId) (f : Bay → Bay)
    (names : (f (s.bay b)).state.refersToProfile = true ∨ b ∈ s.pool.park → (f (s.bay b)).namesFilled v)
    (tested : (f (s.bay b)).state.inTest = true → (f (s.bay b)).profile.isSome = true)
    (graded : ∀ g, (f (s.bay b)).grade = some g → FilledIn v g.profile ∨ (s.bay b).grade = some g) :
    RefsFilled v (s.updBay b f) := by
  refine ⟨h.profiles, fun d => ?_, fun d => ?_, fun d hd => ?_, h.records, h.strings⟩ <;> rw [State.updBay_bay] <;>
    split_ifs with e
  · subst e; exact names
  · exact h.bays d
  · subst e; exact tested
  · exact h.tested d
  · subst e; exact fun g hg => (graded g hg).elim id (h.graded b hd g)
  · exact h.graded d hd

/-- A change of a bay record that leaves its state, its profile and its grade record. -/
theorem keepBay (h : RefsFilled v s) (b : BayId) (f : Bay → Bay)
    (keeps : ∀ r, (f r).state = r.state ∧ (f r).profile = r.profile ∧ (f r).grade = r.grade) :
    RefsFilled v (s.updBay b f) := by
  obtain ⟨state, profile, grade⟩ := keeps (s.bay b)
  refine h.updBay b f ?_ ?_ ?_
  · unfold Bay.namesFilled; rw [state, profile]; exact h.bays b
  · rw [state, profile]; exact h.tested b
  · rw [grade]; exact fun g hg => .inr hg

/-- A bay with a FILLED profile goes to another state. -/
theorem moveBay (h : RefsFilled v s) (b : BayId) (f : Bay → Bay) (on : (s.bay b).hasFilled v)
    (keeps : ∀ r, (f r).profile = r.profile ∧ (f r).grade = r.grade) : RefsFilled v (s.updBay b f) := by
  obtain ⟨profile, grade⟩ := keeps (s.bay b)
  refine h.updBay b f (fun _ => ?_) (fun _ => ?_) ?_
  · unfold Bay.namesFilled; rw [profile]; exact on.names
  · obtain ⟨k, hk, -⟩ := on; rw [profile, hk]; rfl
  · rw [grade]; exact fun g hg => .inr hg

/-- A bay whose test is over goes to another such state. -/
theorem retireBay (h : RefsFilled v s) (b : BayId) (f : Bay → Bay) (names : (s.bay b).namesFilled v)
    (out : ∀ r, (f r).state.inTest = false) (keeps : ∀ r, (f r).profile = r.profile ∧ (f r).grade = r.grade) :
    RefsFilled v (s.updBay b f) := by
  obtain ⟨profile, grade⟩ := keeps (s.bay b)
  refine h.updBay b f (fun _ => ?_) (fun on => ?_) ?_
  · unfold Bay.namesFilled; rw [profile]; exact names
  · rw [out] at on; exact absurd on (by decide)
  · rw [grade]; exact fun g hg => .inr hg

/-- A bay goes to a state that refers to no profile. -/
theorem setAside (h : RefsFilled v s) (b : BayId) (f : Bay → Bay) (out : ∀ r, (f r).state.refersToProfile = false)
    (keeps : ∀ r, (f r).profile = r.profile ∧ (f r).grade = r.grade) : RefsFilled v (s.updBay b f) := by
  obtain ⟨profile, grade⟩ := keeps (s.bay b)
  refine h.updBay b f (fun hb => ?_) (fun on => ?_) ?_
  · unfold Bay.namesFilled
    rw [profile]
    exact h.bays b (.inr (hb.resolve_left (by simp [out])))
  · exact absurd (BayState.inTest_refers on) (by simp [out])
  · rw [grade]; exact fun g hg => .inr hg

theorem updPool (h : RefsFilled v s) (f : Pool → Pool)
    (records : ∀ c ∈ (f s.pool).records, FilledIn v c.grade.profile)
    (park : ∀ b ∈ (f s.pool).park, b ∈ s.pool.park ∨
      (s.bay b).namesFilled v ∧ ∀ g, (s.bay b).grade = some g → FilledIn v g.profile) :
    RefsFilled v (s.updPool f) := by
  refine ⟨h.profiles, fun b hb => ?_, h.tested, fun b hb => ?_, records, h.strings⟩
  · rcases hb with hb | hb
    · exact h.bays b (.inl hb)
    · exact (park b hb).elim (fun hb => h.bays b (.inr hb)) And.left
  · exact (park b hb).elim (h.graded b) And.right

/-- Records changed, the profiles of their grade records not. -/
theorem updateRecord (h : RefsFilled v s) (tag : Nat) (f : Candidate → Candidate)
    (keeps : ∀ c, (f c).grade = c.grade) : RefsFilled v (s.updPool (Pool.update tag f)) := by
  refine h.updPool _ (fun c hc => ?_) fun b hb => .inl hb
  obtain ⟨d, hd, rfl⟩ := List.mem_map.mp hc
  have e : (if d.grade.tag == tag then f d else d).grade = d.grade := by split_ifs <;> simp [keeps]
  rw [e]
  exact h.records d hd

/-- The allowance refers to no profile. -/
theorem updCaa (h : RefsFilled v s) (f : Allowance → Allowance) : RefsFilled v (s.updCaa f) := h.same rfl

/-- The stage bus refers to no profile. -/
theorem updSbc (h : RefsFilled v s) (f : StageBus → StageBus) : RefsFilled v (s.updSbc f) := h.same rfl

theorem setToCaa (h : RefsFilled v s) (rest : List CaaMsg) : RefsFilled v { s with toCaa := rest } := h.same rfl

theorem setGrantsOut (h : RefsFilled v s) (rest : List GrantMsg) : RefsFilled v { s with grantsOut := rest } :=
  h.same rfl

theorem updString (h : RefsFilled v s) (x : StringId) (f : BankString → BankString)
    (names : (f (s.string x)).state ≠ .unused → ∀ k, (f (s.string x)).profile = some k → FilledIn v k) :
    RefsFilled v (s.updString x f) := by
  refine ⟨h.profiles, h.bays, h.tested, h.graded, h.records, fun y => ?_⟩
  rw [State.updString_string]
  split_ifs with e
  · subst e; exact names
  · exact h.strings y

/-- A change of a string that leaves its profile, and leaves an UNUSED string UNUSED. -/
theorem keepString (h : RefsFilled v s) (x : StringId) (f : BankString → BankString)
    (profile : (f (s.string x)).profile = (s.string x).profile)
    (used : (f (s.string x)).state ≠ .unused → (s.string x).state ≠ .unused) :
    RefsFilled v (s.updString x f) := by
  refine h.updString x f fun nu => ?_
  rw [profile]
  exact h.strings x (used nu)

/-- A change of its record that leaves the profile leaves the bay with it. -/
theorem updBay_hasFilled {b : BayId} {f : Bay → Bay} (on : (s.bay b).hasFilled v)
    (profile : ∀ r, (f r).profile = r.profile) : ((s.updBay b f).bay b).hasFilled v := by
  rw [State.updBay_bay, if_pos rfl]
  unfold Bay.hasFilled
  rw [profile]
  exact on

/-! ### The two shells -/

theorem msg {m : MessageKind} {t : Byte} {body : List Byte} {serve : State → State × Answer} {u : State}
    (e : message m t body serve s = .next u) (h : RefsFilled v s)
    (serves : RefsFilled v s → RefsFilled v (serve s).1) : RefsFilled v u :=
  message_keeps (fun _ h => h.same rfl) (fun _ _ _ _ h => h.same rfl) serves h e

/-! ### Phases, suspension, rejection -/

theorem leavePhase_refs (s : State) (b : BayId) (x y z : Bool) : (s.leavePhase b x y z).refs = s.refs := by
  cases z <;> rfl

theorem enterPhase (h : RefsFilled v s) (b : BayId) (p : Phase) (on : (s.bay b).hasFilled v) :
    RefsFilled v (s.enterPhase b p) := by
  have begun : ∀ k, RefsFilled v (s.updBay b (Bay.enter p k)) := fun k => h.moveBay b _ on fun _ => ⟨rfl, rfl⟩
  cases p <;> exact (begun _).same rfl

theorem enterCleared (h : RefsFilled v s) (b : BayId) (p : Phase) (on : (s.bay b).hasFilled v) :
    RefsFilled v (s.enterCleared b p) :=
  (h.moveBay b (Bay.enter p .awaitingStage) on fun _ => ⟨rfl, rfl⟩).same rfl

theorem nextPhase (h : RefsFilled v s) (b : BayId) (p : Phase) (on : (s.bay b).hasFilled v) :
    RefsFilled v (s.nextPhase b p) := by
  have e := leavePhase_refs s b true true (p == .chargeCV)
  exact (h.same e).enterPhase b p (by rwa [State.bay_of_refs e])

theorem suspendBay (h : RefsFilled v s) (b : BayId) (c : SuspensionCause) (code : StageCode) (a : Bool) :
    RefsFilled v (s.suspendBay b c code a) := by
  cases hs : (s.bay b).state with
  | phase p =>
    rw [suspendBay_eq hs]
    exact (h.moveBay b (fun r =>
      { r with state := .suspended, substate := .none, resume := some p, cause := .suspension c code })
      (h.hasFilled_of_phase hs) fun _ => ⟨rfl, rfl⟩).same rfl
  | _ => simpa [State.suspendBay, hs] using h

theorem suspendMany (h : RefsFilled v s) (set : List BayId) (c : SuspensionCause) :
    RefsFilled v (s.suspendMany set c) := by
  unfold State.suspendMany
  induction set generalizing s with
  | nil => exact h
  | cons b set ih => exact ih (h.suspendBay _ _ _ _)

theorem stageReport (h : RefsFilled v s) (b : BayId) (c : SuspensionCause) (code : StageCode) :
    RefsFilled v (s.stageReport b c code) := by
  unfold State.stageReport State.changeCause
  split
  · exact h.suspendBay _ _ _ _
  · split_ifs
    · exact (h.keepBay b (fun r => { r with cause := .suspension c code }) fun _ => ⟨rfl, rfl, rfl⟩).same rfl
    · exact h

theorem rejectBay (h : RefsFilled v s) (b : BayId) (c : RejectCause) (on : (s.bay b).hasFilled v) :
    RefsFilled v (s.rejectBay b c) :=
  (h.moveBay b (fun r => { r with state := .rejected, substate := .none, cause := .reject c }) on
    fun _ => ⟨rfl, rfl⟩).same rfl

/-! ### The pool (R126, R131, R134) -/

theorem enterPool (h : RefsFilled v s) (g : GradeRecord) (hg : FilledIn v g.profile) :
    RefsFilled v (s.updPool (Pool.enter g)) := by
  refine h.updPool _ (fun c hc => ?_) fun b hb => .inl hb
  rcases (mem_insertCandidate _ _ c).mp hc with rfl | hc
  · exact hg
  · exact h.records c hc

theorem enterFromBay (h : RefsFilled v s) (b : BayId) (g : GradeRecord) (names : (s.bay b).namesFilled v)
    (hg : FilledIn v g.profile) : RefsFilled v (s.enterFromBay b g) :=
  ((h.enterPool g hg).retireBay b (fun r => { r with state := .done, substate := .none }) names (fun _ => rfl)
    fun _ => ⟨rfl, rfl⟩).same rfl

theorem servePark (h : RefsFilled v s) : RefsFilled v s.servePark := by
  cases hp : s.pool.park with
  | nil => rw [servePark_nil hp]; exact h
  | cons b rest =>
    have head : b ∈ s.pool.park := by simp [hp]
    have taken : RefsFilled v (s.updPool fun p => { p with park := rest }) :=
      h.updPool _ h.records fun d hd => .inl (by rw [hp]; exact List.mem_cons_of_mem b hd)
    cases hg : (s.bay b).grade with
    | none => rw [servePark_empty hp hg]; exact taken
    | some g => rw [servePark_grade hp hg]; exact taken.enterFromBay b g (h.bays b (.inr head)) (h.graded b head g hg)

theorem removeRecord (h : RefsFilled v s) (tag : Nat) : RefsFilled v (s.removeRecord tag) := by
  cases hf : (s.pool.find tag).isSome with
  | false => rw [removeRecord_absent hf]; exact h
  | true =>
    rw [removeRecord_found hf]
    refine servePark (h.updPool (Pool.without tag) (fun c hc => ?_) fun b hb => .inl hb)
    exact h.records c (List.mem_of_mem_filter hc)

/-! ### The test -/

theorem settleGrade (h : RefsFilled v s) (b : BayId) (g : GradeRecord) (on : (s.bay b).hasFilled v)
    (hg : FilledIn v g.profile) : RefsFilled v (s.settleGrade b g) := by
  unfold State.settleGrade
  have graded : RefsFilled v (s.updBay b fun r => { r with grade := some g, substate := .none }) :=
    h.updBay b _ (fun _ => on.names) (h.tested b) fun d hd => .inl (by rw [← Option.some.inj hd]; exact hg)
  have on1 : ((s.updBay b fun r => { r with grade := some g, substate := .none }).bay b).hasFilled v :=
    updBay_hasFilled on fun _ => rfl
  dsimp only
  split
  · exact (graded.moveBay b (fun r => { r with state := .rejected, cause := .reject _ }) on1
      fun _ => ⟨rfl, rfl⟩).same rfl
  · split_ifs
    · exact graded.enterFromBay b g on1.names hg
    · have parked := graded.moveBay b (fun r => { r with state := .parked }) on1 fun _ => ⟨rfl, rfl⟩
      refine parked.updPool _ graded.records fun d hd => ?_
      rcases List.mem_append.mp hd with hd | hd
      · exact .inl hd
      · obtain rfl := List.mem_singleton.mp hd
        refine .inr ?_
        rw [State.updBay_bay, State.updBay_bay, if_pos rfl, if_pos rfl]
        exact ⟨on.names, fun d hd => by rw [← Option.some.inj hd]; exact hg⟩

/-- A grade record is for the profile of its bay (R107, R121). -/
theorem gradeRecord_filled (p : Profile) {r : Bay} (b : BayId) (observed : Bool) (on : r.hasFilled v) :
    FilledIn v (gradeRecord p (r.gradeInputs b observed)).profile := by
  obtain ⟨k, hk, filled⟩ := on
  show FilledIn v (r.profile.getD 0)
  rw [hk]
  exact filled

theorem finishTest (h : RefsFilled v s) (b : BayId) (on : (s.bay b).hasFilled v) : RefsFilled v (s.finishTest b) := by
  unfold State.finishTest
  have e : ((match (s.wevBay b).entry with
      | none => s
      | some e => s.updWev b fun _ => ((s.wevBay b).leavePhase e true).1).tellCaa (.leave b)).refs = s.refs := by
    split <;> rfl
  have marked := (h.same e).keepBay b (fun r => { r with marks := { r.marks with
    watchOff := r.marks.watchOff || !(s.wevBay b).watch } }) fun _ => ⟨rfl, rfl, rfl⟩
  have on1 := updBay_hasFilled (f := fun r => { r with marks := { r.marks with
    watchOff := r.marks.watchOff || !(s.wevBay b).watch } }) (State.bay_of_refs e b ▸ on) fun _ => rfl
  exact marked.settleGrade b _ on1 (gradeRecord_filled _ b _ on1)

theorem mark (h : RefsFilled v s) (b : BayId) (f : Marks → Marks) : RefsFilled v (s.mark b f) :=
  h.keepBay b (fun r => { r with marks := f r.marks }) fun _ => ⟨rfl, rfl, rfl⟩

theorem restPartEnded (h : RefsFilled v s) (b : BayId) (p : Profile) (how : RestEnding) (i n : Nat)
    (on : (s.bay b).hasFilled v) : RefsFilled v (s.restPartEnded b p how i n) := by
  unfold State.restPartEnded
  have ended := h.keepBay b (fun r => { r with restEnding := how }) fun _ => ⟨rfl, rfl, rfl⟩
  dsimp only
  split_ifs
  · exact ended.finishTest b (updBay_hasFilled on fun _ => rfl)
  · exact ended.keepBay b _ fun _ => ⟨rfl, rfl, rfl⟩

theorem judgeCheck (h : RefsFilled v s) (b : BayId) (p : Profile) (r : WindowRecord) (on : (s.bay b).hasFilled v) :
    RefsFilled v (s.judgeCheck b p r) := by
  unfold State.judgeCheck
  split_ifs
  exacts [h.rejectBay _ _ on, h.rejectBay _ _ on, h.rejectBay _ _ on, h.suspendBay _ _ _ _, h.nextPhase _ _ on]

/-- The next phase entered at a limit, which sets a mark. -/
theorem markedNext (h : RefsFilled v s) (b : BayId) (f : Marks → Marks) (p : Phase) (on : (s.bay b).hasFilled v) :
    RefsFilled v ((s.mark b f).nextPhase b p) :=
  (h.mark b f).nextPhase b p (updBay_hasFilled on fun _ => rfl)

theorem phaseOutcome (h : RefsFilled v s) (b : BayId) (p : Profile) (ph : Phase) (x : SampleReport)
    (on : (s.bay b).hasFilled v) : RefsFilled v (s.phaseOutcome b p ph x) := by
  cases ph with
  | check =>
    cases hv : x.verdict with
    | none => simpa only [State.phaseOutcome, hv] using h
    | some w => simpa only [State.phaseOutcome, hv] using h.judgeCheck b p w.record on
  | rest2 =>
    simp only [State.phaseOutcome]
    split
    · split_ifs
      exacts [h.restPartEnded _ _ _ _ _ on, (h.mark _ _).restPartEnded _ _ _ _ _ (updBay_hasFilled on fun _ => rfl), h]
    · split
      · exact h
      · split_ifs
        · refine finishTest (h.keepBay b _ fun _ => ?_) b (updBay_hasFilled on fun _ => ?_)
          exacts [⟨rfl, rfl, rfl⟩, rfl]
        · exact h.keepBay b _ fun _ => ⟨rfl, rfl, rfl⟩
  | restP | pulse =>
    simp only [State.phaseOutcome]
    split_ifs
    exacts [h.nextPhase _ _ on, h]
  | rest0 | rest1 | chargeCC | chargeCV | discharge =>
    simp only [State.phaseOutcome, if_true, reduceCtorEq, if_false]
    split_ifs
    exacts [h.nextPhase _ _ on, h.markedNext _ _ _ on, h]

theorem count_keeps (p : Phase) (x : SampleReport) (r : Bay) :
    (r.count p x).state = r.state ∧ (r.count p x).profile = r.profile ∧ (r.count p x).grade = r.grade := by
  unfold Bay.count Bay.addDischarge
  cases x.verdict <;> dsimp only <;> split_ifs <;> exact ⟨rfl, rfl, rfl⟩

theorem takeClosing_keeps (c : ClosingReport) (r : Bay) : (r.takeClosing c).state = r.state ∧
    (r.takeClosing c).profile = r.profile ∧ (r.takeClosing c).grade = r.grade := by
  unfold Bay.takeClosing Bay.addDischarge
  cases c.phase <;> cases c.part <;> split_ifs <;> exact ⟨rfl, rfl, rfl⟩

theorem takeReport (h : RefsFilled v s) (b : BayId) (x : SampleReport) : RefsFilled v (s.takeReport b x) := by
  unfold State.takeReport
  split
  · rename_i p hp
    split_ifs
    · have counted := h.keepBay b (Bay.count p x) (count_keeps p x)
      have on := updBay_hasFilled (h.hasFilled_of_phase hp) fun r => (count_keeps p x r).2.1
      dsimp only
      split
      exacts [counted.suspendBay _ _ _ _, counted.rejectBay _ _ on, counted.phaseOutcome _ _ _ _ on]
    · exact h
  · exact h

theorem bsqTakeHead (h : RefsFilled v s) (b : BayId) : RefsFilled v (s.bsqTakeHead b) := by
  unfold State.bsqTakeHead
  split
  · exact h
  · rename_i m rest _
    have taken : RefsFilled v { s with toBsq := updAt s.toBsq b fun _ => rest } := h.same rfl
    cases m with
    | report x => exact taken.takeReport _ _
    | closing c => exact taken.keepBay _ _ (takeClosing_keeps c)

theorem bsqTakeIf (h : RefsFilled v s) (b : BayId) (k : BsqMsg → Bool) : RefsFilled v (s.bsqTakeIf b k) := by
  unfold State.bsqTakeIf
  split
  · split_ifs
    exacts [h.bsqTakeHead b, h]
  · exact h

theorem answerReports (h : RefsFilled v s) (b : BayId) (n : Nat) : RefsFilled v (State.answerReports b n s) := by
  induction n generalizing s with
  | zero => exact h
  | succ n ih =>
    unfold State.answerReports
    split_ifs
    exacts [ih (h.bsqTakeHead b), h]

/-! ### WEV, which holds no reference -/

theorem wevLeave_refs (s : State) (b : BayId) (f : Bool) : (s.wevLeave b f).refs = s.refs := by
  unfold State.wevLeave; split <;> rfl

theorem wevTakeHead_refs (s : State) (b : BayId) : (s.wevTakeHead b).refs = s.refs := by
  unfold State.wevTakeHead
  split
  · rfl
  · rename_i m rest _
    cases m with
    | entry p n =>
      show (State.wevEnter _ b p n).refs = s.refs
      unfold State.wevEnter
      split_ifs
      · rfl
      · exact wevLeave_refs _ b false
    | clockStart => rfl
    | leave f a => exact wevLeave_refs _ b f

theorem wevTakeMany (h : RefsFilled v s) (b : BayId) (n : Nat) : RefsFilled v (State.wevTakeMany b n s) := by
  induction n generalizing s with
  | zero => exact h
  | succ n ih => exact ih (h.same (wevTakeHead_refs s b))

theorem wevTakeIf (h : RefsFilled v s) (b : BayId) (k : WevMsg → Bool) : RefsFilled v (s.wevTakeIf b k) := by
  unfold State.wevTakeIf
  split
  · split_ifs
    exacts [h.same (wevTakeHead_refs s b), h]
  · exact h

theorem takeAnswers (h : RefsFilled v s) (b : BayId) (n : Nat) : RefsFilled v (State.takeAnswers b n s) := by
  induction n generalizing s with
  | zero => exact h
  | succ n ih =>
    unfold State.takeAnswers
    split_ifs
    exacts [ih (h.same (wevTakeHead_refs s b)), h]

theorem foldSample_refs (s : State) (b : BayId) (x : Sample) : (s.foldSample b x).refs = s.refs := by
  unfold State.foldSample
  dsimp only
  split <;> split_ifs <;> rfl

/-! ### Allowance and stage bus -/

theorem examineMany (h : RefsFilled v s) (n : Nat) : RefsFilled v (s.examineMany n) := by
  induction n generalizing s with
  | zero => exact h
  | succ n ih =>
    unfold State.examineMany
    split
    · exact h
    · rename_i w rest _
      have judged : RefsFilled v ((s.updCaa fun a => { a with waiting := rest }).overLimit w) := by
        have shorter : RefsFilled v (s.updCaa fun a => { a with waiting := rest }) := h.same rfl
        unfold State.overLimit
        split_ifs
        exacts [shorter.suspendBay _ _ _ _, shorter]
      split_ifs
      exacts [ih judged, h, ih (h.same rfl), h]

theorem examine (h : RefsFilled v s) : RefsFilled v s.examine := h.examineMany _

theorem release (h : RefsFilled v s) (b : BayId) : RefsFilled v (s.release b) := by
  unfold State.release
  split_ifs
  · exact h
  · exact (h.updCaa _).examine

theorem releaseAll (h : RefsFilled v s) : RefsFilled v s.releaseAll := (h.updCaa _).examine

theorem caaTake (h : RefsFilled v s) (m : CaaMsg) : RefsFilled v (s.caaTake m) := by
  cases m with
  | request b mag entry =>
    refine examine ?_
    split_ifs
    exacts [h, h.same rfl]
  | leave b => exact (h.updCaa _).examine
  | giveBack b entry =>
    show RefsFilled v (s.takeReturn b entry)
    unfold State.takeReturn
    split_ifs
    exacts [h.release b, h]

theorem caaTakeFor (h : RefsFilled v s) (b : BayId) (n : Nat) : RefsFilled v (State.caaTakeFor b n s) := by
  induction n generalizing s with
  | zero => exact h
  | succ n ih =>
    unfold State.caaTakeFor
    split_ifs
    · refine ih ?_
      unfold State.caaTakeHead
      split
      · exact h
      · exact (h.setToCaa _).caaTake _
    · exact h

theorem takeGrant (h : RefsFilled v s) (m : GrantMsg) : RefsFilled v (s.takeGrant m) := by
  unfold State.takeGrant
  split
  · split_ifs
    · exact (h.keepBay m.bay (fun r => { r with substate := .awaitingStage }) fun _ => ⟨rfl, rfl, rfl⟩).same rfl
    · exact h.same rfl
  · exact h.same rfl

theorem bsqAck (h : RefsFilled v s) (b : BayId) (k : WriteKind) (l : Nat) : RefsFilled v (s.bsqAck b k l) := by
  unfold State.bsqAck
  split
  · split_ifs
    · exact (h.keepBay b (fun r => { r with substate := .awaitingGrant }) fun _ => ⟨rfl, rfl, rfl⟩).same rfl
    · exact (h.keepBay b (fun r => { r with substate := .running }) fun _ => ⟨rfl, rfl, rfl⟩).same rfl
    · exact h
  · exact h

theorem acknowledged (h : RefsFilled v s) (b : BayId) (k : WriteKind) (l : Nat) :
    RefsFilled v (s.acknowledged b k l) := by
  unfold State.acknowledged
  split_ifs
  exacts [(h.release b).bsqAck _ _ _, h.bsqAck _ _ _]

theorem noAnswer (h : RefsFilled v s) (b : BayId) : RefsFilled v (s.noAnswer b) := (h.updSbc _).stageReport _ _ _

theorem statusRead (h : RefsFilled v s) (b : BayId) (o : Option StageCode) : RefsFilled v (s.statusRead b o) := by
  unfold State.statusRead
  split
  exacts [h.noAnswer b, h, (h.release b).stageReport _ _ _]

theorem foreignOff (h : RefsFilled v s) (set : List BayId) : RefsFilled v (s.foreignOff set) :=
  releaseAll ((h.suspendMany set .externalOff).same rfl)

/-! ### Groups of bays -/

theorem startBay (h : RefsFilled v s) (b : BayId) (e : s.startBay b = some t) : RefsFilled v t := by
  unfold State.startBay at e
  split_ifs at e with loaded
  obtain rfl := Option.some.inj e
  have watched : RefsFilled v (s.setWatch b true) := h.same rfl
  exact watched.enterPhase b _ (h.hasFilled (by rw [loaded]; rfl))

theorem lineSuspend (h : RefsFilled v s) (b : BayId) (e : s.lineSuspend b = some t) : RefsFilled v t := by
  unfold State.lineSuspend at e
  split at e
  · obtain rfl := Option.some.inj e
    exact h.suspendBay _ _ _ _
  · exact absurd e (by simp)

theorem resumed_keeps (p : Phase) (r : Bay) :
    (r.resumed p).state = r.state ∧ (r.resumed p).profile = r.profile ∧ (r.resumed p).grade = r.grade := by
  cases p <;> exact ⟨rfl, rfl, rfl⟩

theorem resumeBay (h : RefsFilled v s) (w : Bool) (b : BayId) (e : State.resumeBay w s b = some t) :
    RefsFilled v t := by
  unfold State.resumeBay at e
  split_ifs at e with suspended
  obtain ⟨p, -, rfl⟩ := Option.map_eq_some_iff.mp e
  have watched : RefsFilled v (s.setWatch b w) := h.same rfl
  have resumed := watched.keepBay b (Bay.resumed p) (resumed_keeps p)
  have on : (((s.setWatch b w).updBay b (Bay.resumed p)).bay b).hasFilled v :=
    updBay_hasFilled (h.hasFilled (by rw [suspended.1]; rfl)) fun r => (resumed_keeps p r).2.1
  unfold State.doResume
  dsimp only
  split_ifs
  exacts [resumed.enterCleared b _ on, resumed.enterPhase b _ on]

/-- ABORT of a bay that refers to a profile: it keeps referring to it. -/
theorem aborted (h : RefsFilled v s) (b : BayId) (on : (s.bay b).state.refersToProfile = true) :
    RefsFilled v ((s.updBay b fun r =>
      { r with state := .aborted, substate := .none, resume := none, cause := .none }).offWrite b) :=
  (h.retireBay b (fun r => { r with state := .aborted, substate := .none, resume := none, cause := .none })
    (h.bays b (.inl on)) (fun _ => rfl) fun _ => ⟨rfl, rfl⟩).same rfl

theorem abortBay (h : RefsFilled v s) (b : BayId) (e : s.abortBay b = some t) : RefsFilled v t := by
  unfold State.abortBay at e
  dsimp only at e
  cases hs : (s.bay b).state with
  | phase p =>
    rw [hs] at e
    obtain rfl := Option.some.inj e
    have left : RefsFilled v (s.leavePhase b false false false) := h.same (leavePhase_refs ..)
    exact left.aborted b (by rw [State.bay_of_refs (leavePhase_refs ..), hs]; rfl)
  | loaded | suspended =>
    rw [hs] at e
    obtain rfl := Option.some.inj e
    exact h.aborted b (by rw [hs]; rfl)
  | parked =>
    rw [hs] at e
    obtain rfl := Option.some.inj e
    have off : RefsFilled v (s.updPool fun p => { p with park := p.park.filter (· ≠ b) }) :=
      h.updPool _ h.records fun d hd => .inl (List.mem_of_mem_filter hd)
    have cleared := off.updBay b (fun r => { r with grade := none }) (off.bays b) (off.tested b)
      fun g hg => absurd hg (by simp)
    refine cleared.aborted b ?_
    rw [State.updBay_bay, if_pos rfl]
    show (s.bay b).state.refersToProfile = true
    rw [hs]; rfl
  | _ => rw [hs] at e; exact absurd e (by simp)

/-! ### Bank and matcher -/

theorem updSeat (h : RefsFilled v s) (id : SeatId) (f : Seat → Seat) : RefsFilled v (s.updSeat id f) :=
  h.keepString id.str _ (updPosition_profile ..) fun used => by
    rwa [BankString.updPosition_state] at used

theorem install (h : RefsFilled v s) (id : SeatId) (g : GradeRecord) : RefsFilled v (s.install id g) :=
  (h.updSeat id _).keepString id.str _ rfl fun used => used

theorem returnSeat (h : RefsFilled v s) (id : SeatId) (under : UnderState) : RefsFilled v (s.returnSeat id under) :=
  (h.updSeat id _).keepString id.str _ rfl fun used => used

theorem sealed (h : RefsFilled v s) (x : StringId) : RefsFilled v (s.seal x) := by
  unfold State.seal
  split_ifs with full
  · refine (h.keepString x (fun r => { r with state := .sealed }) rfl fun _ unused => ?_).same rfl
    simp [BankString.complete, unused] at full
  · exact h

theorem reserve (h : RefsFilled v s) (id : SeatId) (tag : Nat) : RefsFilled v (s.reserve id tag) :=
  ((((h.updateRecord tag (fun c => { c with status := some id }) fun _ => rfl).updSeat id
    (Seat.reserve tag (s.plm.timeout * 10))).keepString id.str (fun x => { x with resCount := x.resCount + 1 }) rfl
      fun used => used)).same rfl

theorem passWalk (h : RefsFilled v s) (l : List SeatId) (n m : Nat) : RefsFilled v (passWalk l n m s).1 := by
  induction l generalizing s n m with
  | nil => exact h
  | cons id l ih =>
    unfold Machine.passWalk
    split_ifs
    · exact ih h _ _
    · exact h
    · split
      exacts [ih h _ _, ih (h.reserve _ _) _ _]

theorem runPass (h : RefsFilled v s) : RefsFilled v s.runPass := (h.passWalk s.seatOrder 0 0).same rfl

theorem tick (h : RefsFilled v s) : RefsFilled v { s with bank := s.bank.map BankString.tick } := by
  have ticked : ∀ x, (s.bank.map BankString.tick).get x = (s.string x).tick := fun x => by
    simp [Vector.get_eq_getElem, State.string]
  refine ⟨h.profiles, h.bays, h.tested, h.graded, h.records, fun x => ?_⟩
  show ((s.bank.map BankString.tick).get x).state ≠ .unused → _
  unfold State.string
  rw [ticked]
  exact h.strings x

theorem lapse (h : RefsFilled v s) (id : SeatId) (c : Candidate) : RefsFilled v (s.lapse id c) := by
  unfold State.lapse
  dsimp only
  split_ifs
  · exact (h.updateRecord c.grade.tag (fun d => { d with status := none, lapses := c.lapses + 1 })
      fun _ => rfl).same rfl
  · refine removeRecord ?_ _
    exact h.same rfl

theorem dealWith (h : RefsFilled v s) (tag : Nat) (why : NotPlacedReason) : RefsFilled v (s.dealWith tag why) := by
  cases why
  exacts [h.removeRecord tag, h.removeRecord tag, h.updateRecord tag _ fun _ => rfl]

theorem vacate (h : RefsFilled v s) (id : SeatId) (ov : Override) (used : (s.string id.str).state ≠ .unused) :
    RefsFilled v (s.vacate id ov) := by
  unfold State.vacate
  generalize (s.seat (mateOf id)).any Seat.isInstalled = kept
  have out := h.updSeat id fun _ => .vacant (if kept then some ov else none)
  cases kept
  · refine (out.updSeat (mateOf id) Seat.dropOverride).keepString id.str _ rfl fun _ => ?_
    simpa [State.updSeat, mateOf] using used
  · refine out.keepString id.str _ rfl fun _ => ?_
    simpa [State.updSeat] using used

/-! ### Messages that name a profile or change a reference -/

theorem filled_of_slot (h : RefsFilled v s) {k : ProfileId} (hk : s.slot k ≠ none) : FilledIn v k := h.profiles ▸ hk

theorem serveLoad (h : RefsFilled v s) (body : List Byte) : RefsFilled v (serveLoad body s).1 := by
  refine onBay_keeps (fun b h => keeps_if _ (fun _ => h) fun _ => keeps_if _ (fun _ => h) fun _ => ?_) h
  split
  · exact h
  · rename_i k _
    split
    · exact h
    · rename_i p hp
      have filled : FilledIn v k := h.filled_of_slot (by simp [hp])
      refine keeps_if _ (fun _ => h) fun _ => keeps_if _ (fun _ => ?_) fun _ => h
      refine h.updBay b _ (fun _ j hj => ?_) (fun _ => rfl) fun g hg => absurd hg (by simp [Bay.reset])
      obtain rfl := Option.some.inj hj
      exact filled

theorem unloaded (h : RefsFilled v s) (b : BayId) : RefsFilled v (s.updBay b Bay.unloaded) := by
  refine h.updBay b _ (fun _ k hk => absurd hk ?_) (fun on => absurd on ?_) fun g hg => absurd hg ?_ <;>
    simp [Bay.unloaded, Bay.reset, BayState.inTest]

theorem serveUnload (h : RefsFilled v s) (body : List Byte) : RefsFilled v (serveUnload body s).1 := by
  refine onBay_keeps (fun b h => keeps_if _ (fun _ => keeps_if _ (fun _ => h) fun _ => ?_) fun _ => h) h
  have drained : RefsFilled v (if s.grantOf b = 0 then s.caaUnload b else s) := by
    split_ifs
    exacts [h.caaTakeFor b _, h]
  refine keeps_if _ (fun _ => drained.same rfl) fun _ => unloaded ?_ b
  exact (drained.wevTakeMany b _).same rfl

theorem serveRestoreCandidate (h : RefsFilled v s) (body : List Byte) :
    RefsFilled v (serveRestoreCandidate body s).1 := by
  unfold Machine.serveRestoreCandidate
  refine keeps_if _ (fun _ => h) fun _ => ?_
  split
  · exact h
  · rename_i g _
    refine keeps_if _ (fun _ => h) fun _ => keeps_if _ (fun _ => h) fun filled => keeps_if _ (fun _ => h) fun _ =>
      keeps_if _ (fun _ => h) fun _ => ?_
    exact (h.enterPool g (h.filled_of_slot (by simpa using filled))).same rfl

theorem serveWithdraw (h : RefsFilled v s) (body : List Byte) : RefsFilled v (serveWithdraw body s).1 := by
  refine keeps_if _ (fun _ => h) fun _ => ?_
  split
  · exact h
  · split
    exacts [h, h.removeRecord _]

theorem serveOpenString (h : RefsFilled v s) (body : List Byte) : RefsFilled v (serveOpenString body s).1 := by
  refine onString_keeps (fun x h => keeps_if _ (fun _ => h) fun _ => ?_) h
  split
  · exact h
  · rename_i k _
    refine keeps_if _ (fun _ => h) fun _ => ?_
    split
    · exact h
    · refine keeps_if _ (fun _ => h) fun _ => keeps_if _ (fun _ => h) fun _ => keeps_if _ (fun _ => h) fun filled => ?_
      refine (h.updString x (fun _ => openedString k _ _ _ _ _ _) fun _ j hj => ?_).same rfl
      obtain rfl : k = j := Option.some.inj hj
      exact h.filled_of_slot (by simpa using filled)

theorem serveSetReference (h : RefsFilled v s) (body : List Byte) : RefsFilled v (serveSetReference body s).1 := by
  refine onString_keeps (fun x h => keeps_if _ (fun _ => h) fun _ => keeps_if _ (fun _ => h) fun _ =>
    keeps_if _ (fun _ => h) fun _ => ?_) h
  exact (h.keepString x (fun r =>
    { r with
      reference := uField body 1 3, strTol := uField body 4 2, capTol := uField body 6 2
      imbalance := uField body 8 2 })
    rfl fun used => used).same rfl

theorem serveDeclareVacancy (h : RefsFilled v s) (body : List Byte) : RefsFilled v (serveDeclareVacancy body s).1 := by
  refine onString_keeps (fun x h => keeps_if _ (fun _ => h) fun served => ?_) h
  split
  · exact h
  · rename_i id e hn
    obtain ⟨-, rfl, -⟩ := Closed.nameSeat_seat hn
    refine keeps_if _ (fun _ => h) fun _ => keeps_if _ (fun _ => (h.vacate id _ fun unused => ?_).same rfl) fun _ => h
    exact served (by simp [unused])

theorem serveReleaseString (h : RefsFilled v s) (body : List Byte) : RefsFilled v (serveReleaseString body s).1 :=
  onString_keeps (fun x h => keeps_if _ (fun _ => h) fun _ => keeps_if _ (fun _ => h) fun _ =>
    h.updString x _ fun used => absurd rfl used) h

theorem serveRestoreSeat (h : RefsFilled v s) (body : List Byte) : RefsFilled v (serveRestoreSeat body s).1 := by
  refine onString_keeps (fun x h => keeps_if _ (fun _ => h) fun _ => ?_) h
  split
  · exact h
  · refine keeps_if _ (fun _ => h) fun _ => keeps_if _ (fun _ => h) fun _ => ?_
    split
    · exact h
    · exact keeps_if _ (fun _ => h) fun _ => ((h.install _ _).sealed x).same rfl

theorem serveInstallDirect (h : RefsFilled v s) (body : List Byte) : RefsFilled v (serveInstallDirect body s).1 := by
  refine keeps_if _ (fun _ => h) fun _ => onString_keeps (fun x h => keeps_if _ (fun _ => h) fun _ => ?_) h
  split
  · exact h
  · refine keeps_if _ (fun _ => h) fun _ => keeps_if _ (fun _ => h) fun _ => ?_
    split
    · exact h
    · split
      exacts [h, h, (((h.removeRecord _).install _ _).sealed x).same rfl]

theorem servePlaced (h : RefsFilled v s) (body : List Byte) : RefsFilled v (servePlaced body s).1 := by
  refine keeps_if _ (fun _ => h) fun _ => ?_
  split
  · exact h
  · split
    exacts [(((h.install _ _).removeRecord _).sealed _).same rfl, h]

theorem serveNotPlaced (h : RefsFilled v s) (body : List Byte) : RefsFilled v (serveNotPlaced body s).1 := by
  refine keeps_if _ (fun _ => h) fun _ => ?_
  split
  · exact h
  · split
    · exact h
    · split
      exacts [h, ((h.returnSeat _ _).dealWith _ _).same rfl]

theorem serveEnterCal (h : RefsFilled v s) (body : List Byte) : RefsFilled v (serveEnterCal body s).1 :=
  onBay_keeps (fun b h => keeps_if _ (fun _ => (h.setAside b (fun r => { r with state := .cal }) (fun _ => rfl)
    fun _ => ⟨rfl, rfl⟩).same rfl) fun _ => h) h

theorem serveExitCal (h : RefsFilled v s) (body : List Byte) : RefsFilled v (serveExitCal body s).1 :=
  onBay_keeps (fun b h => keeps_if _ (fun _ => (h.setAside b (fun r => { r with state := .empty }) (fun _ => rfl)
    fun _ => ⟨rfl, rfl⟩).same rfl) fun _ => h) h

theorem serveResume (h : RefsFilled v s) (body : List Byte) : RefsFilled v (serveResume body s).1 := by
  refine onBay_keeps (fun b h => ?_) h
  split
  · exact h
  · exact keeps_if _ (fun _ => h) fun _ => keeps_if _ (fun _ => h) fun _ =>
      oneBay_keeps (fun _ b _ e h => h.resumeBay _ b e) b h

theorem serveGroup {act : State → BayId → Option State}
    (keeps : ∀ s b t, act s b = some t → RefsFilled v s → RefsFilled v t) (h : RefsFilled v s)
    (body : List Byte) : RefsFilled v (serveGroup act body s).1 := groupAct_keeps keeps _ h

theorem serveStopAll (h : RefsFilled v s) : RefsFilled v (serveStopAll s).1 :=
  ((h.updSbc fun x => { x with queue := joinBroadcast (x.queue.filter fun e => !e.isWrite) }).suspendMany _ _).same rfl

theorem cutFrame (h : RefsFilled v s) (l : LinkLog) : RefsFilled v (s.cutFrame l) := by
  unfold State.cutFrame
  split_ifs <;> exact h.same rfl

/-! ### Every command that leaves the table of profiles alone -/

/-- Every other command keeps every reference to a FILLED slot, and the table as it is. -/
theorem exec {i : Instr} {u : State} (calm : movesSlots i = false) (e : exec i s = .next u) (h : RefsFilled v s) :
    RefsFilled v u := by
  cases i with
  | writeProfile t body => exact absurd calm (by simp [movesSlots])
  | eraseProfile t body => exact absurd calm (by simp [movesSlots])
  | resetInput => exact absurd calm (by simp [movesSlots])
  | replyEnd => exact absurd calm (by simp [movesSlots])
  | echo t body => exact msg e h id
  | getIdentity t body => exact msg e h id
  | reset t body => exact msg e h id
  | getLinkLog t body => exact msg e h id
  | clearLinkError t body => exact msg e h fun h => h.same rfl
  | setLinkMode t body =>
    refine msg e h fun h => ?_
    unfold serveSetLinkMode
    split
    exacts [h, h.same rfl]
  | setLinkRate t body => exact msg e h fun h => by unfold serveSetLinkRate; split <;> exact h
  | readProfile t body =>
    refine msg e h fun h => ?_
    unfold serveReadProfile
    split
    · exact h
    · split <;> exact h
  | enterCal t body => exact msg e h fun h => h.serveEnterCal body
  | trim t body =>
    refine msg e h (onBay_keeps fun b h => ?_)
    split
    · exact h
    · exact keeps_if _ (fun _ => h) fun _ => keeps_if _ (fun _ => h) fun _ => h.same rfl
  | setTrimRange t body =>
    refine msg e h (onBay_keeps fun b h => ?_)
    split
    · exact h
    · exact keeps_if _ (fun _ => h.same rfl) fun _ => h
  | exitCal t body => exact msg e h fun h => h.serveExitCal body
  | getTrim t body => exact msg e h (onBay_keeps fun _ h => h)
  | getWindow t body => exact msg e h (onBay_keeps fun _ h => h)
  | load t body => exact msg e h fun h => h.serveLoad body
  | start t body => exact msg e h (onBay_keeps fun b h => oneBay_keeps (fun _ b _ e h => h.startBay b e) b h)
  | startGroup t body => exact msg e h fun h => serveGroup (fun _ b _ e h => h.startBay b e) h body
  | suspend t body => exact msg e h (onBay_keeps fun b h => oneBay_keeps (fun _ b _ e h => h.lineSuspend b e) b h)
  | resume t body => exact msg e h fun h => h.serveResume body
  | resumeGroup t body =>
    refine msg e h fun h => ?_
    unfold serveResumeGroup
    split
    exacts [h, serveGroup (fun _ b _ e h => h.resumeBay _ b e) h body]
  | abort t body => exact msg e h (onBay_keeps fun b h => oneBay_keeps (fun _ b _ e h => h.abortBay b e) b h)
  | abortGroup t body => exact msg e h fun h => serveGroup (fun _ b _ e h => h.abortBay b e) h body
  | unload t body => exact msg e h fun h => h.serveUnload body
  | getBay t body => exact msg e h (onBay_keeps fun _ h => h)
  | stopAll t body => exact msg e h serveStopAll
  | getStageBus t body => exact msg e h id
  | setLimit t body => exact msg e h fun h => (h.updCaa _).examine
  | getAllowance t body => exact msg e h id
  | restoreCandidate t body => exact msg e h fun h => h.serveRestoreCandidate body
  | withdraw t body => exact msg e h fun h => h.serveWithdraw body
  | getPool t body => exact msg e h fun h => keeps_if _ (fun _ => h) fun _ => h
  | getCandidate t body => exact msg e h fun h => keeps_if _ (fun _ => h) fun _ => by split <;> exact h
  | openString t body => exact msg e h fun h => h.serveOpenString body
  | setReference t body => exact msg e h fun h => h.serveSetReference body
  | declareVacancy t body => exact msg e h fun h => h.serveDeclareVacancy body
  | releaseString t body => exact msg e h fun h => h.serveReleaseString body
  | restoreSeat t body => exact msg e h fun h => h.serveRestoreSeat body
  | installDirect t body => exact msg e h fun h => h.serveInstallDirect body
  | getString t body => exact msg e h (onString_keeps fun _ h => h)
  | getPosition t body =>
    exact msg e h (onString_keeps fun _ h => keeps_if _ (fun _ => h) fun _ => by split <;> exact h)
  | placed t body => exact msg e h fun h => h.servePlaced body
  | notPlaced t body => exact msg e h fun h => h.serveNotPlaced body
  | pauseMatcher t body => exact msg e h fun h => h.same rfl
  | resumeMatcher t body => exact msg e h fun h => h.same rfl
  | setPlacementTimeout t body => exact msg e h fun h => h.same rfl
  | getMatcher t body => exact msg e h id
  | fetchNotices t body =>
    refine msg e h fun h => keeps_if _ (fun _ => h) fun _ => ?_
    dsimp only
    split_ifs <;> exact h.same rfl
  | setNoticeThreshold t body => exact msg e h fun h => keeps_if _ (fun _ => h) fun _ => h.same rfl
  | getAlert t body => exact msg e h id
  | setAlertEnable t body =>
    refine msg e h fun h => ?_
    unfold serveSetAlertEnable
    split
    exacts [h, h.same rfl]
  | clearAlert t body =>
    refine msg e h fun h => ?_
    unfold serveClearAlert
    split
    exacts [h, h.same rfl]
  | badKind k t body =>
    unfold Machine.exec execBadKind at e
    refine event_keeps (fun h => ?_) h e
    split_ifs
    exacts [h, h.same rfl, h.same rfl]
  | checkError k t body check =>
    unfold Machine.exec execCheckError at e
    refine event_keeps (fun h => ?_) h e
    split_ifs
    exacts [h, h.same rfl, h.same rfl]
  | lengthError hi lo =>
    unfold Machine.exec execLengthError at e
    refine event_keeps (fun h => ?_) h e
    split_ifs
    exacts [h.cutFrame _, h]
  | gapError held =>
    unfold Machine.exec execGapError at e
    refine event_keeps (fun h => ?_) h e
    split_ifs
    exacts [h.cutFrame _, h]
  | overrunFrame ending =>
    unfold Machine.exec execOverrunFrame at e
    refine event_keeps (fun h => ?_) h e
    split_ifs
    · cases ending <;> exact h.same rfl
    · exact h
  | replyStart =>
    unfold Machine.exec execReplyStart at e
    exact event_keeps (fun h => h.same rfl) h e
  | sample b vin iin tin inCal =>
    unfold Machine.exec execSample at e
    refine event_keeps (fun h => same (s := s.settleBay b) ?_ (foldSample_refs _ b _)) h e
    exact (h.answerReports b _).takeAnswers b _
  | calWindowCompletion b =>
    unfold Machine.exec execCalWindowCompletion at e
    refine event_keeps (fun h => ?_) h e
    split_ifs
    exacts [h, h.same rfl]
  | phaseEntry b =>
    unfold Machine.exec execPhaseEntry at e
    exact event_keeps (fun h => h.wevTakeIf b _) h e
  | clockStart b =>
    unfold Machine.exec execClockStart at e
    exact event_keeps (fun h => h.wevTakeIf b _) h e
  | phaseLeave b =>
    unfold Machine.exec execPhaseLeave at e
    exact event_keeps (fun h => h.wevTakeIf b _) h e
  | sampleReport b =>
    unfold Machine.exec execSampleReport at e
    exact event_keeps (fun h => h.bsqTakeIf b _) h e
  | closingReport b =>
    unfold Machine.exec execClosingReport at e
    exact event_keeps (fun h => h.bsqTakeIf b _) h e
  | request =>
    unfold Machine.exec execRequest at e
    refine event_keeps (fun h => ?_) h e
    split
    · exact (h.setToCaa _).caaTake (.request _ _ _)
    · exact h
  | leave =>
    unfold Machine.exec execLeave at e
    refine event_keeps (fun h => ?_) h e
    split
    · exact (h.setToCaa _).caaTake (.leave _)
    · exact h
  | grantReturn =>
    unfold Machine.exec execGrantReturn at e
    refine event_keeps (fun h => ?_) h e
    split
    · exact (h.setToCaa _).caaTake (.giveBack _ _)
    · exact h
  | grant =>
    unfold Machine.exec execGrant at e
    refine event_keeps (fun h => ?_) h e
    split
    · exact h
    · exact (h.setGrantsOut _).takeGrant _
  | transactionStart =>
    unfold Machine.exec execTransactionStart at e
    exact event_keeps (fun h => h.updSbc _) h e
  | ack =>
    unfold Machine.exec execAck at e
    refine event_keeps (fun h => ?_) h e
    split
    exacts [(h.updSbc _).acknowledged _ _ _, h]
  | nack =>
    unfold Machine.exec execNack at e
    refine event_keeps (fun h => ?_) h e
    split
    exacts [(h.updSbc _).noAnswer _, h]
  | statusReadOutcome status check =>
    unfold Machine.exec execStatusReadOutcome at e
    refine event_keeps (fun h => ?_) h e
    split
    exacts [(h.updSbc _).statusRead _ _, h]
  | broadcastComplete =>
    unfold Machine.exec execBroadcastComplete at e
    refine event_keeps (fun h => ?_) h e
    split
    exacts [(h.updSbc _).releaseAll, h]
  | arbitrationLost =>
    unfold Machine.exec execArbitrationLost at e
    refine event_keeps (fun h => ?_) h e
    split
    exacts [h.updSbc _, h]
  | foreignStart =>
    unfold Machine.exec execForeignStart at e
    refine event_keeps (fun h => ?_) h e
    split_ifs
    exacts [h.updSbc _, h]
  | foreignTransaction bytes =>
    unfold Machine.exec execForeignTransaction at e
    refine event_keeps (fun h => ?_) h e
    dsimp only
    split_ifs
    exacts [(h.foreignOff _).updSbc _, h.updSbc _, h]
  | stall =>
    unfold Machine.exec execStall at e
    refine event_keeps (fun h => ?_) h e
    split_ifs
    · exact h
    · exact same (suspendMany (s := (s.updSbc (StageBus.stall s.awaitRecovery)).updNqa _) (h.same rfl) _ _) rfl
  | busRecovery =>
    unfold Machine.exec execBusRecovery at e
    refine event_keeps (fun h => ?_) h e
    split_ifs
    exacts [h.updSbc _, h]
  | faultAssertion =>
    unfold Machine.exec execFaultAssertion at e
    refine event_keeps (fun h => ?_) h e
    split_ifs
    exacts [h, h.updSbc _]
  | faultRelease =>
    unfold Machine.exec execFaultRelease at e
    exact event_keeps (fun h => h.updSbc _) h e
  | matchingPass =>
    unfold Machine.exec execMatchingPass at e
    refine event_keeps (fun h => ?_) h e
    split_ifs
    · exact runPass (s := s.updPlm _) (h.same rfl)
    · exact h
  | timeStep =>
    unfold Machine.exec execTimeStep at e
    exact event_keeps tick h e
  | expiry seat =>
    unfold Machine.exec execExpiry at e
    refine event_keeps (fun h => ?_) h e
    split
    · dsimp only
      split
      exacts [((h.returnSeat _ _).lapse _ _).same rfl, (h.returnSeat _ _).same rfl]
    · exact h
  | resetRelease sda scl fault =>
    cases e
    split_ifs
    exacts [h.same rfl, h]

end RefsFilled
end Sys2Proof.Machine
end

section
/-! What a step does to the profile table: every FILLED slot keeps a valid profile, and a slot in use stays as it was
(R9 to R14). -/

namespace Sys2Proof.Machine

open Closed (keeps_if)

/-! ### The profiles held are valid (R2 to R7, R9) -/

/-- Only a write of a profile without a bad field changes what the slots hold to anything but nothing. -/
theorem profilesValid_closed : Closed ProfilesValid where
  bay _ _ _ _ h := h
  wev _ _ _ _ h := h
  trims _ _ _ _ h := h
  sbc _ _ _ _ h := h
  caa _ _ _ h := h
  pool _ _ _ _ h := h
  bank _ _ _ _ _ h := h
  tick _ h := h
  plm _ _ _ h := h
  nqa _ _ _ h := h
  link _ _ _ h := h
  profiles s k w valid h := by
    intro j p hp
    simp only [State.slot, updAt_get] at hp
    split_ifs at hp
    exacts [valid p hp, h j p hp]
  handOver s t e h := by rw [e]; exact h
  flag _ _ h := h
  reset _ := by intro k p hp; simp [State.slot, State.reset] at hp
  pop _ _ h := h

/-! ### The slots in use stay as they are (R14) -/

/-- From `s` to `u` the slots referred to stay FILLED, and the slots in use as they were unless the part enters
reset. -/
def SlotsStand (s u : State) : Prop :=
  SlotsKept u ∧ ∀ k, s.inUse k → u.inReset = false → u.slot k = s.slot k

theorem slotsStand_of_refsFilled {s u : State} (h : RefsFilled s.profiles u) : SlotsStand s u :=
  ⟨fun _ => h.filled_of_inUse, fun k _ _ => congrArg (fun v => v.get k) h.profiles⟩

/-- A slot not in use may be written. -/
theorem slotsStand_write {s : State} (h : SlotsKept s) {k : ProfileId} (free : ¬ s.inUse k) (w : Option Profile) :
    SlotsStand s { s with profiles := updAt s.profiles k fun _ => w } := by
  have others (j : ProfileId) (use : s.inUse j) :
      ({ s with profiles := updAt s.profiles k fun _ => w } : State).slot j = s.slot j := by
    have ne : k ≠ j := by rintro rfl; exact free use
    simp [State.slot, ne]
  exact ⟨fun j use => by rw [others j use]; exact h j use, fun j use _ => others j use⟩

/-- After reset nothing refers to a slot. -/
theorem reset_not_inUse (k : ProfileId) : ¬ State.reset.inUse k := by
  rintro (⟨b, ne, -⟩ | ⟨c, hc, -⟩ | ⟨x, nu, -⟩)
  · exact ne (by simp [State.bay, State.reset, Bay.reset])
  · simp [State.reset, Pool.reset] at hc
  · exact nu (by simp [State.string, State.reset, BankString.unused])

theorem slotsStand_enterReset (s u : State) : SlotsStand s u.enterReset :=
  ⟨fun k use => absurd use (reset_not_inUse k), fun _ _ out => absurd out (by simp [State.enterReset])⟩

/-- What a request leaves standing, its message does. -/
theorem slotsStand_message {m : MessageKind} {t : Byte} {body : List Byte} {serve : State → State × Answer}
    {s u : State} (kept : SlotsKept s) (serves : SlotsStand s (serve s).1) (e : message m t body serve s = .next u) :
    SlotsStand s u :=
  message_keeps (P := SlotsStand s) (fun _ h => h) (fun _ _ _ _ h => h) (fun _ => serves)
    ⟨kept, fun _ _ _ => rfl⟩ e

theorem slotsStand_writeProfile {s : State} (kept : SlotsKept s) (body : List Byte) :
    SlotsStand s (serveWriteProfile body s).1 := by
  have stay : SlotsStand s s := ⟨kept, fun _ _ _ => rfl⟩
  unfold serveWriteProfile
  split
  · exact stay
  · rename_i k _
    refine keeps_if _ (fun _ => stay) fun held => ?_
    dsimp only
    split
    · exact stay
    · refine slotsStand_write kept (fun use => held ?_) _
      simp [(slotInUse_iff s k).mpr use, Option.isSome_iff_ne_none, kept k use]

theorem slotsStand_eraseProfile {s : State} (kept : SlotsKept s) (body : List Byte) :
    SlotsStand s (serveEraseProfile body s).1 := by
  have stay : SlotsStand s s := ⟨kept, fun _ _ _ => rfl⟩
  unfold serveEraseProfile
  split
  · exact stay
  · rename_i k _
    split
    · exact stay
    · refine keeps_if _ (fun _ => stay) fun held => slotsStand_write kept (fun use => held ?_) _
      exact (slotInUse_iff s k).mpr use

theorem slotsStand_replyEnd {s u : State} (kept : SlotsKept s) (e : execReplyEnd s = .next u) : SlotsStand s u := by
  refine event_keeps (P := SlotsStand s) (fun stay => ?_) ⟨kept, fun _ _ _ => rfl⟩ e
  split
  · exact stay
  · rename_i r _
    cases r.act with
    | none => exact stay
    | setRate _ => exact stay
    | reset => exact slotsStand_enterReset s _

/-- What a command does to the slots, from a state whose slots referred to are FILLED and whose bays are whole. -/
theorem exec_slotsStand {i : Instr} {s u : State} (whole : BaysWhole s) (kept : SlotsKept s) (e : exec i s = .next u) :
    SlotsStand s u := by
  cases calm : movesSlots i with
  | false => exact slotsStand_of_refsFilled (RefsFilled.exec calm e (refsFilled_of_whole whole kept))
  | true =>
    cases i with
    | writeProfile t body => exact slotsStand_message kept (slotsStand_writeProfile kept body) e
    | eraseProfile t body => exact slotsStand_message kept (slotsStand_eraseProfile kept body) e
    | resetInput => cases e; exact slotsStand_enterReset s s
    | replyEnd => exact slotsStand_replyEnd kept e
    | _ => exact absurd calm (by simp [movesSlots])

/-- A step idles, or is a command taken from the queue; neither the queue nor its rest bears on what is claimed here. -/
theorem step_cases {s t : State} (e : step s = .next t) :
    t = s ∨ ∃ c rest, s.pending = c :: rest ∧ exec c { s with pending := rest } = .next t := by
  unfold step at e
  split at e
  · exact .inl (Host.Outcome.next.inj e).symm
  · exact .inr ⟨_, _, ‹_›, e⟩

/-- Settles O4: the first part by `Closed`, the second by what `RefsFilled` keeps, with the writes of the table, which
spare the slots in use, and the reset, after which none is. -/
theorem stepKeepsProfilesValid : Obligations.StepKeepsProfilesValid := by
  refine ⟨fun s t valid e => ?_, fun s t whole kept e => ?_⟩
  · rcases step_cases e with rfl | ⟨c, rest, -, e⟩
    · exact valid
    · exact profilesValid_closed.exec e valid
  · rcases step_cases e with rfl | ⟨c, rest, -, e⟩
    · exact ⟨kept, fun _ _ _ => rfl⟩
    · exact exec_slotsStand (s := { s with pending := rest }) whole kept e

/-! ### The messages of the table (R9 to R12, R188) -/

theorem profileOf_byte_none {n : Byte} (h : n = 0 ∨ 8 < n.toNat) : profileOf n.toNat = none := by
  rw [profileOf_none]
  exact h.imp_left (byte_toNat_eq_zero n).mpr

/-- The first bad field is the lowest whose check fails: the fields stand in ascending number. -/
theorem Profile.firstBad_spec {p : Profile} {f : Nat} (h : p.firstBad = some f) :
    1 ≤ f ∧ f ≤ 39 ∧ (f, false) ∈ p.checks ∧ ∀ g ok, (g, ok) ∈ p.checks → g < f → ok = true := by
  obtain ⟨⟨f, bad⟩, found, rfl⟩ := Option.map_eq_some_iff.mp h
  obtain ⟨fails, before, after, cut, pass⟩ := List.find?_eq_some_iff_append.mp found
  obtain rfl : bad = false := by simpa using fails
  have mem : (f, false) ∈ p.checks := by rw [cut]; simp
  have number : f ∈ List.range' 1 39 := p.checks_numbers ▸ List.mem_map_of_mem mem
  have ascending : p.checks.Pairwise fun x y => x.1 < y.1 :=
    List.pairwise_map.mp (p.checks_numbers ▸ List.pairwise_lt_range')
  refine ⟨by simp at number; omega, by simp at number; omega, mem, fun g ok hg lt => ?_⟩
  rw [cut] at hg ascending
  rcases List.mem_append.mp hg with hg | hg
  · simpa using pass _ hg
  · rcases List.mem_cons.mp hg with e | hg
    · obtain ⟨rfl, -⟩ := Prod.mk.inj e
      exact absurd lt (lt_irrefl _)
    · have := (List.pairwise_cons.mp (List.pairwise_append.mp ascending).2.1).1 _ hg
      exact absurd lt (by omega)

/-- WRITE-PROFILE served, for a slot of the table and the bytes of a profile. -/
theorem serveWriteProfile_bytes (s : State) (k : ProfileId) {p : Profile} (h : p.encodable) :
    serveWriteProfile (profileByte k :: p.bytes) s =
      if (s.slot k).isSome && s.slotInUse k then (s, .refuse .inUse [0xFF])
      else match p.firstBad with
        | some f => (s, .refuse .badValue [BitVec.ofNat 8 f])
        | none => ({ s with profiles := s.profiles.set k (some p) }, .ok [0xFF]) := by
  unfold serveWriteProfile
  rw [uField_zero_one, profileByte_toNat, profileOf_succ]
  dsimp only
  rw [Profile.ofBytes_bytes p _ h]
  cases p.firstBad with
  | none => rfl
  | some f => simp [beBytes]

theorem serveWriteProfile_badSlot (s : State) {n : Byte} (h : n = 0 ∨ 8 < n.toNat) (l : List Byte) :
    serveWriteProfile (n :: l) s = (s, .refuse .badValue [0]) := by
  unfold serveWriteProfile
  rw [uField_zero_one, profileOf_byte_none h]

/-- Settles O20: the checks of `serveWriteProfile_bytes`, the first bad field by `Profile.firstBad_spec`. -/
theorem writeProfileJudgedInOrder : Obligations.WriteProfileJudgedInOrder := by
  refine ⟨fun p => ?_, fun s t n k p ready encodable => ?_⟩
  · unfold Profile.bytes
    simp only [List.flatMap_cons, List.flatMap_nil, List.append_nil, List.append_assoc]
  have served : ∀ m : Byte, exec (.writeProfile t (m :: p.bytes)) s =
      .next ((serveWriteProfile (m :: p.bytes) s).1.answered 0x10 t (serveWriteProfile (m :: p.bytes) s).2) :=
    fun m => message_ready ready (by simp [MessageKind.takes])
  refine ⟨fun bad => ?_, fun filled use => ?_, fun free => ?_⟩
  · rw [served, serveWriteProfile_badSlot s bad]
  · rw [served, serveWriteProfile_bytes s k encodable, if_pos (by simp [filled, (slotInUse_iff s k).mpr use])]
  · have pass : ¬ ((s.slot k).isSome && s.slotInUse k) = true := by
      rw [Bool.and_eq_true, slotInUse_iff]
      rintro ⟨filled, use⟩
      rcases free with empty | free
      · simp [empty] at filled
      · exact free use
    refine ⟨fun f hf => ?_, fun good => ?_⟩
    · obtain ⟨lo, hi, bad, lower⟩ := Profile.firstBad_spec hf
      refine ⟨lo, hi, bad, lower, ?_⟩
      rw [served, serveWriteProfile_bytes s k encodable, if_neg pass, hf]
    · rw [served, serveWriteProfile_bytes s k encodable, if_neg pass, good]

/-- Settles O21, by the state of the slot. -/
theorem profileReadAndErased : Obligations.ProfileReadAndErased := by
  intro s t n k ready
  have read : ∀ m : Byte, exec (.readProfile t [m]) s =
      .next ((serveReadProfile [m] s).1.answered 0x11 t (serveReadProfile [m] s).2) := fun m =>
    message_ready ready rfl
  have erase : ∀ m : Byte, exec (.eraseProfile t [m]) s =
      .next ((serveEraseProfile [m] s).1.answered 0x12 t (serveEraseProfile [m] s).2) := fun m =>
    message_ready ready rfl
  refine ⟨fun bad => ?_, fun empty => ?_, fun p filled => ?_⟩
  · rw [read, erase]
    simp [serveReadProfile, serveEraseProfile, profileOf_byte_none bad]
  · rw [read, erase]
    simp [serveReadProfile, serveEraseProfile, empty]
  · rw [read, erase]
    refine ⟨by simp [serveReadProfile, filled], p.bytes_length, fun use => ?_, fun free => ?_⟩
    · simp [serveEraseProfile, filled, (slotInUse_iff s k).mpr use]
    · have free : s.slotInUse k = false := by rw [← Bool.not_eq_true, slotInUse_iff]; exact free
      simp [serveEraseProfile, filled, free, updAt]

/-! ### LOAD (R56) -/

@[simp] theorem load_bay (b : BayId) (tag : Nat) (n : Byte) :
    uField (bayByte b :: beBytes 4 tag ++ [n]) 0 1 = b.val + 1 := by simp

@[simp] theorem load_tag (b : BayId) {tag : Nat} (h : tag < 4294967296) (n : Byte) :
    uField (bayByte b :: beBytes 4 tag ++ [n]) 1 4 = tag := by simp [Nat.mod_eq_of_lt h]

@[simp] theorem load_slot (b : BayId) (tag : Nat) (n : Byte) :
    uField (bayByte b :: beBytes 4 tag ++ [n]) 5 1 = n.toNat := by
  rw [List.cons_append, uField_cons_succ, uField_skip_beBytes 4 tag [n] 4 1 le_rfl, uField_zero_one]

theorem serveLoad_busy (s : State) {b : BayId} (h : (s.bay b).state ≠ .empty) (tag : Nat) (n : Byte) :
    serveLoad (bayByte b :: beBytes 4 tag ++ [n]) s = (s, .refuse .wrongState) := by
  rw [serveLoad, onBay_some (by rw [load_bay, bayOf_succ]), if_pos h]

section
variable {s : State} {b : BayId} {tag : Nat} {n : Byte} (lt : tag < 4294967296) (empty : (s.bay b).state = .empty)
include lt empty

theorem serveLoad_badValue (bad : tag = 0 ∨ n = 0 ∨ 8 < n.toNat) :
    serveLoad (bayByte b :: beBytes 4 tag ++ [n]) s = (s, .refuse .badValue) := by
  rw [serveLoad, onBay_some (by rw [load_bay, bayOf_succ]), if_neg (not_not.mpr empty), load_tag b lt, load_slot]
  rcases bad with zero | bad
  · rw [if_pos zero]
  · rw [profileOf_byte_none bad, ite_self]

theorem serveLoad_notFound {k : ProfileId} (tagged : tag ≠ 0) (open_ : s.slot k = none) :
    serveLoad (bayByte b :: beBytes 4 tag ++ [profileByte k]) s = (s, .refuse .notFound) := by
  rw [serveLoad, onBay_some (by rw [load_bay, bayOf_succ]), if_neg (not_not.mpr empty), load_tag b lt, load_slot,
    if_neg tagged, profileByte_toNat, profileOf_succ]
  simp only [open_]

/-- LOAD of an EMPTY bay under a tag and a FILLED slot: the last two checks (R56). -/
theorem serveLoad_filled {k : ProfileId} {p : Profile} (tagged : tag ≠ 0) (filled : s.slot k = some p) :
    serveLoad (bayByte b :: beBytes 4 tag ++ [profileByte k]) s =
      if s.tagHeld tag then (s, .refuse .duplicate)
      else if p.chargeCurrent ≤ s.caa.limit ∧ p.dischargeCurrent ≤ s.caa.limit ∧
          p.pulseCurrent ≤ s.caa.limit then
        (s.updBay b fun r =>
          { Bay.reset with state := .loaded, tag := some tag, profile := some k, entry := r.entry,
                           lastIndex := r.lastIndex, lastSumV := r.lastSumV }, .ok)
      else (s, .refuse .limit) := by
  rw [serveLoad, onBay_some (by rw [load_bay, bayOf_succ]), if_neg (not_not.mpr empty), load_tag b lt, load_slot,
    if_neg tagged, profileByte_toNat, profileOf_succ]
  simp only [filled]

end

/-- Settles O28: the checks of LOAD, one after the other. -/
theorem loadJudgedInOrder : Obligations.LoadJudgedInOrder := by
  intro s t n b k tag ready lt
  have served : ∀ m : Byte, exec (.load t (bayByte b :: beBytes 4 tag ++ [m])) s =
      .next ((serveLoad (bayByte b :: beBytes 4 tag ++ [m]) s).1.answered 0x30 t
        (serveLoad (bayByte b :: beBytes 4 tag ++ [m]) s).2) :=
    fun m => message_ready ready (by simp [MessageKind.takes])
  refine ⟨fun busy => ?_, fun empty bad => ?_, fun empty tagged open_ => ?_, fun p empty tagged filled =>
    ⟨fun held => ?_, fun free high => ?_, fun free fits => ?_⟩⟩
  · rw [served, serveLoad_busy s busy]
  · rw [served, serveLoad_badValue lt empty bad]
  · rw [served, serveLoad_notFound lt empty tagged open_]
  · rw [served, serveLoad_filled lt empty tagged filled, if_pos ((tagHeld_iff s tag).mpr held)]
  · rw [served, serveLoad_filled lt empty tagged filled, if_neg (by rwa [tagHeld_iff]), if_neg (by omega)]
  · rw [served, serveLoad_filled lt empty tagged filled, if_neg (by rwa [tagHeld_iff]), if_pos (by omega)]

/-! ### Reset -/

section
variable (b : BayId) (x : StringId)

@[simp] theorem State.reset_bay : State.reset.bay b = .reset := replicate_get _ b
@[simp] theorem State.reset_wevBay : State.reset.wevBay b = .reset := replicate_get _ b
@[simp] theorem State.reset_trims : State.reset.trims b = .reset := replicate_get _ b
@[simp] theorem State.reset_string : State.reset.string x = .unused := replicate_get _ x
@[simp] theorem State.reset_slot (k : ProfileId) : State.reset.slot k = none := replicate_get _ k
@[simp] theorem State.reset_grantOf : State.reset.grantOf b = 0 :=
  congrArg Grant.mag (replicate_get _ b)

end

@[simp] theorem State.reset_seat (id : SeatId) : State.reset.seat id = none := by
  simp [State.seat, BankString.position, BankString.unused]

/-- No cause is raised after reset (R194). -/
theorem State.reset_rawCauses : State.reset.rawCauses =
    { notices := false, attention := false, poolFull := false, linkError := false, overflow := false,
      stageBus := false } := by
  have noBay : (State.reset.bays.toList.any fun r => r.state == .suspended) = false := by
    rw [Bool.eq_false_iff, ne_eq, any_toList]
    rintro ⟨b, suspended⟩
    have empty : State.reset.bays.get b = .reset := State.reset_bay b
    rw [empty] at suspended
    exact absurd suspended (by decide)
  unfold State.rawCauses
  rw [noBay]
  rfl

theorem State.reset_alertLow : State.reset.alertLow = false := by
  unfold State.alertLow State.activeCauses
  rw [State.reset_rawCauses]
  rfl

/-- Settles O2: the blocks of `State.reset`, one after the other. -/
theorem resetLeavesStatedValues : Obligations.ResetLeavesStatedValues := by
  refine ⟨State.reset_slot, fun b => ?_, fun b => ?_, fun b => ?_, rfl, rfl, rfl, rfl, rfl, rfl, rfl, rfl, rfl,
    State.reset_string, rfl, rfl, rfl, rfl, by decide, ?_, State.reset_alertLow, rfl, rfl, rfl, rfl, rfl, rfl⟩
  · rw [State.reset_trims]; exact ⟨rfl, rfl, rfl, rfl, rfl, rfl⟩
  · rw [State.reset_wevBay]; exact ⟨rfl, rfl, rfl, rfl, rfl⟩
  · rw [State.reset_bay]; exact ⟨rfl, rfl, State.reset_grantOf b⟩
  · rw [State.reset_rawCauses]; decide

theorem reset_allowance_balanced : Allowance.reset.balanced := by
  refine ⟨?_, Nat.zero_le _, Nat.zero_le _, List.nodup_nil⟩
  simp [Allowance.reset, Allowance.sum]

theorem reset_countersBounded : CountersBounded .reset := by
  refine ⟨fun b => ?_, fun b => ?_, ?_, ?_, ?_, Nat.zero_le _, Nat.zero_le _, fun x => ?_⟩
  · rw [State.reset_bay]; simp [Bay.bounded, Bay.reset]
  · rw [State.reset_wevBay]; simp [WevBay.bounded, WevBay.reset]
  · simp [State.reset, Nqa.bounded, Nqa.reset]
  · simp [State.reset, Link.counted, Link.reset]
  · simp [State.reset, Matcher.bounded, Matcher.reset]
  · rw [State.reset_string]; exact unused_due

theorem TrimSet.reset_inRange : TrimSet.reset.inRange := by
  intro q
  refine ⟨?_, fun x hx => absurd hx (by simp [TrimSet.reset])⟩
  cases q <;> exact ⟨by decide, by decide⟩

theorem reset_tidy : tidy StageBus.reset.queue := ⟨List.pairwise_singleton _ _, by simp [StageBus.reset]⟩

theorem reset_baysWhole : BaysWhole .reset := by
  refine ⟨List.nodup_nil, fun b => ?_⟩
  rw [State.reset_bay]
  simp [State.reset, Pool.reset, Bay.reset]

theorem reset_tagsHeldOnce : TagsHeldOnce .reset := by
  have noBay : ∀ b tag, (State.reset.bay b).holds tag ≠ true := fun b tag => by
    rw [State.reset_bay]; simp [Bay.holds, Bay.reset, BayState.holdsTag]
  have noRecord : State.reset.pool.records = [] := rfl
  refine ⟨fun b _ tag h => absurd h (noBay b tag), List.nodup_nil, ?_, fun b tag h => absurd h (noBay b tag),
    ?_, ?_, ?_⟩ <;> simp [noRecord]

/-- Settles O3, invariant by invariant. -/
theorem resetMeetsInvariants : Obligations.ResetMeetsInvariants := by
  refine ⟨fun k p hp => absurd hp (by simp), fun b => ?_, reset_tidy, reset_allowance_balanced, ?_, fun x => ?_,
    reset_countersBounded, reset_baysWhole, reset_tagsHeldOnce, fun k use => absurd use ?_⟩
  · rw [State.reset_trims]; exact TrimSet.reset_inRange
  · exact ⟨Nat.zero_le _, List.Pairwise.nil, by simp [State.reset, Pool.reset]⟩
  · rw [State.reset_string]; exact unused_consistent
  · exact reset_not_inUse k

end Sys2Proof.Machine
end

section
/-! Calibration (spec/02): what every step keeps of the trims, the conversion of a sample, the messages of a bay in
CAL. -/

namespace Sys2Proof.Machine

/-! ### The trims stay within their ranges (section 2.5, R27, R28, R30) -/

/-- Only a change of the trims of a bay bears on them, and reset puts them all at 0. -/
theorem trimsInRange_closed : Closed TrimsInRange where
  bay _ _ _ _ h := h
  wev _ _ _ _ h := h
  trims s b f keeps h := by
    intro d
    rw [State.updTrims_trims]
    split_ifs with own
    exacts [keeps (h b), h d]
  sbc _ _ _ _ h := h
  caa _ _ _ h := h
  pool _ _ _ _ h := h
  bank _ _ _ _ _ h := h
  tick _ h := h
  plm _ _ _ h := h
  nqa _ _ _ h := h
  link _ _ _ h := h
  profiles _ _ _ _ h := h
  handOver _ _ e h := by rw [e]; exact h
  flag _ _ h := h
  reset _ b := by
    show (State.reset.trims b).inRange
    rw [State.reset_trims]
    exact TrimSet.reset_inRange
  pop _ _ h := h

/-- Settles O5: a step idles or runs one command, and what each block's own changes keep, every command keeps. -/
theorem stepKeepsTrimsInRange : Obligations.StepKeepsTrimsInRange := by
  intro s t inRange e
  rcases step_cases e with rfl | ⟨c, rest, -, e⟩
  · exact inRange
  · exact trimsInRange_closed.exec e inRange

/-! ### Requests and their answers -/

theorem onBay_bayByte (b : BayId) (rest : List Byte) (f : BayId → State → State × Answer) (s : State) :
    onBay (bayByte b :: rest) f s = f b s :=
  onBay_some (by rw [uField_zero_one, bayByte_toNat, bayOf_succ])

/-- A message whose owner leaves the state as it is. -/
theorem message_unchanged {m : MessageKind} {t : Byte} {body : List Byte} {serve : State → State × Answer} {s : State}
    {a : Answer} (ready : s.ready) (size : m.takes body.length = true) (answers : serve s = (s, a)) :
    message m t body serve s = .next (s.answered m.code t a) := by
  rw [message_ready ready size, answers]

/-- An answer of two cases, formed in each (R175). -/
theorem answered_ite (p : Prop) [Decidable p] (x y : State × Answer) (k t : Byte) :
    (if p then x else y).1.answered k t (if p then x else y).2 =
      if p then x.1.answered k t x.2 else y.1.answered k t y.2 := by split_ifs <;> rfl

/-! ### Numbers out of range (R24, R27, R138) -/

theorem onBay_outOfRange {n : Byte} (out : n = 0 ∨ 48 < n.toNat) (rest : List Byte) (f : BayId → State → State × Answer)
    (s : State) : onBay (n :: rest) f s = (s, .refuse .notFound) :=
  onBay_none (by rw [uField_zero_one, bayOf_none]; exact out.imp_left (byte_toNat_eq_zero n).mpr)

theorem onString_outOfRange {n : Byte} (out : n = 0 ∨ 16 < n.toNat) (rest : List Byte)
    (f : StringId → State → State × Answer) (s : State) : onString (n :: rest) 0 f s = (s, .refuse .notFound) :=
  onString_none (by rw [uField_zero_one, stringOf_none]; exact out.imp_left (byte_toNat_eq_zero n).mpr)

/-- A well-formed command that stands for a frame is the command read from it, and its body fits a frame (R175 to
R177). -/
theorem decodeRequest_frameOf (i : Instr) : Laws.FrameRoundTrip.Statement i := by
  cases i with
  | badKind k t body => exact Laws.FrameRoundTrip.badKind k t body
  | _ =>
    first
    | exact Laws.FrameRoundTrip.of_request rfl rfl rfl
    | exact Laws.FrameRoundTrip.of_event rfl

/-- A command whose frame has the code and the size of a message, whose owner refuses its body. -/
theorem exec_refused {i : Instr} {k t : Byte} {body : List Byte} {s : State} {a : Answer} (m : MessageKind)
    {serve : State → State × Answer} (wf : i.wf = true) (frame : i.frameOf = some (k, t, body))
    (entry : (k.toNat, body.length, body.length) ∈ catalogue) (ready : s.ready) (code : k.toNat = m.code.toNat)
    (sizes : ∀ e ∈ catalogue, e.1 = m.code.toNat → m.takes e.2.1 = true)
    (arm : exec (decodeRequest m.code t body) s = message m t body serve s)
    (refuses : serve s = (s, a)) : exec i s = .next (s.answered k t a) := by
  obtain rfl : k = m.code := BitVec.eq_of_toNat_eq code
  rw [← (decodeRequest_frameOf i _ _ _ wf frame).1, arm]
  exact message_unchanged ready (sizes _ entry rfl) refuses

/-- Settles O19, message by message. -/
theorem numberOutsideRangeIsNotFound : Obligations.NumberOutsideRangeIsNotFound := by
  intro s i k t n rest wf frame entry ready
  have refused {a : Answer} (m : MessageKind) {serve} := exec_refused (a := a) (serve := serve) m wf frame entry ready
  refine ⟨fun code out => ?_, fun code out => ?_⟩
  · have notFound (f) : onBay (n :: rest) f s = (s, .refuse .notFound) := onBay_outOfRange out rest f s
    simp only [List.mem_cons, List.not_mem_nil, or_false] at code
    rcases code with c | c | c | c | c | c | c | c | c | c | c | c | c
    · exact refused { code := 0x20, size := 1 } c (by decide) rfl (notFound _)
    · exact refused { code := 0x21, size := 3 } c (by decide) rfl (notFound _)
    · exact refused { code := 0x22, size := 2 } c (by decide) rfl (notFound _)
    · exact refused { code := 0x23, size := 1 } c (by decide) rfl (notFound _)
    · exact refused { code := 0x24, size := 1 } c (by decide) rfl (notFound _)
    · exact refused { code := 0x25, size := 1 } c (by decide) rfl (notFound _)
    · exact refused { code := 0x30, size := 6 } c (by decide) rfl (notFound _)
    · exact refused { code := 0x31, size := 1 } c (by decide) rfl (notFound _)
    · exact refused { code := 0x33, size := 1 } c (by decide) rfl (notFound _)
    · exact refused { code := 0x34, size := 2 } c (by decide) rfl (notFound _)
    · exact refused { code := 0x36, size := 1 } c (by decide) rfl (notFound _)
    · exact refused { code := 0x38, size := 1 } c (by decide) rfl (notFound _)
    · exact refused { code := 0x39, size := 1 } c (by decide) rfl (notFound _)
  · have notFound (f) : onString (n :: rest) 0 f s = (s, .refuse .notFound) := onString_outOfRange out rest f s
    simp only [List.mem_cons, List.not_mem_nil, or_false] at code
    rcases code with c | c | c | c | c | c | c
    · exact refused { code := 0x60, size := 13 } c (by decide) rfl (notFound _)
    · exact refused { code := 0x61, size := 10 } c (by decide) rfl (notFound _)
    · exact refused { code := 0x62, size := 7 } c (by decide) rfl (notFound _)
    · exact refused { code := 0x63, size := 1 } c (by decide) rfl (notFound _)
    · exact refused { code := 0x64, size := 27 } c (by decide) rfl (notFound _)
    · exact refused { code := 0x66, size := 1 } c (by decide) rfl (notFound _)
    · exact refused { code := 0x67, size := 2 } c (by decide) rfl (notFound _)

/-! ### The conversion of a sample (R17 to R23) -/

/-- A value clamped to a range is the end of the range that it lies beyond, or itself. -/
theorem clampTo_eq_ite {lo hi : Int} (h : lo ≤ hi) (x : Int) :
    clampTo lo hi x = if x < lo then lo else if hi < x then hi else x := by unfold clampTo; split_ifs <;> omega

theorem outside_iff (lo hi x : Int) : outside lo hi x = true ↔ x < lo ∨ hi < x := by simp [outside]

theorem outside_clampTo {lo hi : Int} (h : lo ≤ hi) (x : Int) : outside lo hi (clampTo lo hi x) = false := by
  have := clampTo_mem lo hi x h
  rw [Bool.eq_false_iff, ne_eq, outside_iff]
  omega

theorem clampTo_clampTo {lo hi : Int} (h : lo ≤ hi) (x : Int) : clampTo lo hi (clampTo lo hi x) = clampTo lo hi x := by
  unfold clampTo; omega

theorem toNat_clampTo_zero (hi : Int) (x : Int) : ((clampTo 0 hi x).toNat : Int) = clampTo 0 hi x :=
  Int.toNat_of_nonneg (le_max_left _ _)

theorem TrimSet.factor_eq (k : TrimSet) :
    k.factor = if k.range = .fine then 10000 + k.gain else 10000 + 5 * k.gain := by
  unfold TrimSet.factor; cases k.range <;> rfl

/-- The factor of a gain within its range (R21). -/
theorem TrimSet.factor_mem {k : TrimSet} (lo : -64 ≤ k.gain) (hi : k.gain ≤ 63) :
    9680 ≤ k.factor ∧ k.factor ≤ 10315 := by
  rw [factor_eq]; split_ifs <;> omega

/-- What is rounded is not negative, so that the division truncates (R21). -/
theorem TrimSet.trimV_tdiv {k : TrimSet} {raw : Int} (f : 0 ≤ k.factor) (r : 0 ≤ raw) :
    k.trimV raw = (raw * k.factor + 5000).tdiv 10000 + k.offset := by
  rw [Int.tdiv_eq_ediv_of_nonneg (by positivity)]; rfl

/-- Settles O24: each reading is a value clamped to its range, marked where the clamp moves it. -/
theorem sampleConvertedByTrims : Obligations.SampleConvertedByTrims := by
  intro k v i tin lo hi
  obtain ⟨least, most⟩ := TrimSet.factor_mem lo hi
  have volts : (0 : Int) ≤ 65535 := by decide
  have amps : (-32767 : Int) ≤ 32767 := by decide
  have rawV : 0 ≤ clampTo 0 65535 v := (clampTo_mem _ _ _ volts).1
  refine ⟨clampTo 0 65535 v, clampTo (-32767) 32767 i, k.factor, k.trimV (clampTo 0 65535 v),
    clampTo_eq_ite volts v, clampTo_eq_ite amps i, k.factor_eq, least, most,
    TrimSet.trimV_tdiv (by omega) rawV, fun inCal => ⟨rfl, clampTo_eq_ite (by decide) tin, outside_iff _ _ _⟩,
    ?_, ?_, ?_, ?_, toNat_clampTo_zero _ _, ?_, rfl, ?_⟩ <;>
  simp only [convert, toNat_clampTo_zero, clampTo_clampTo volts, clampTo_clampTo amps, outside_clampTo volts,
    outside_clampTo amps, Bool.or_eq_true, outside_iff, if_true, if_false, Bool.false_eq_true, or_false, or_assoc]

/-! ### The messages of a bay in CAL (R24 to R30) -/

theorem trimQuantityOf_none {n : Byte} (h : n = 0 ∨ 3 < n.toNat) : trimQuantityOf n.toNat = none := by
  have out : n.toNat = 0 ∨ 3 < n.toNat := h.imp_left (byte_toNat_eq_zero n).mpr
  unfold trimQuantityOf
  split
  · omega
  · omega
  · omega
  · rfl

theorem trimRangeOf_none {n : Byte} (h : 1 < n.toNat) : trimRangeOf n.toNat = none := by
  unfold trimRangeOf
  split
  · omega
  · omega
  · rfl

theorem serveTrim_badQuantity (b : BayId) {kb : Byte} (h : kb = 0 ∨ 3 < kb.toNat) (steps : Byte) (s : State) :
    serveTrim [bayByte b, kb, steps] s = (s, .refuse .badValue) := by
  rw [serveTrim, onBay_bayByte, uField_cons_succ, uField_zero_one, trimQuantityOf_none h]

/-- TRIM served for a quantity and a step value of one byte (R27). -/
theorem serveTrim_quantity (b : BayId) (q : TrimQuantity) {steps : Int} (lo : -128 ≤ steps) (hi : steps ≤ 127)
    (s : State) : serveTrim ([bayByte b, q.code] ++ sBytes 1 steps) s =
      if (s.bay b).state ≠ .cal then (s, .refuse .wrongState)
      else if (s.trims b).pending.isSome then (s, .refuse .busy)
      else (s.updTrims b fun k => { k with pending := some (q, k.target q steps) },
        { status := .ok
          clamped := outside (-4) 4 steps || outside q.lo q.hi ((s.trims b).applied q + trimSteps steps)
          body := q.code :: (sBytes 1 ((s.trims b).applied q) ++ sBytes 1 ((s.trims b).target q steps)) }) := by
  have read : sField ([bayByte b, q.code] ++ sBytes 1 steps) 2 1 = steps := by
    simpa using sField_sBytes 1 steps [] (by omega) (by omega)
  rw [serveTrim, List.cons_append, onBay_bayByte, ← List.cons_append, read]
  simp only [List.cons_append, uField_cons_succ, uField_zero_one, trimQuantityOf_code]

/-- Settles O22, by the order of the checks. -/
theorem trimMakesPendingTrim : Obligations.TrimMakesPendingTrim := by
  refine ⟨fun s t kb steps b ready bad => ?_, fun s t b q steps ready lo hi => ?_⟩
  · exact message_unchanged ready rfl (serveTrim_badQuantity b bad steps s)
  · refine (message_ready ready (by simp [MessageKind.takes])).trans (congrArg _ ?_)
    rw [serveTrim_quantity b q lo hi]
    by_cases cal : (s.bay b).state = .cal
    · cases pending : (s.trims b).pending with
      | some x => simp [cal]
      | none =>
        have clamped : (outside (-4) 4 steps || outside q.lo q.hi ((s.trims b).applied q + trimSteps steps)) =
            decide (steps < -4 ∨ 4 < steps ∨ (s.trims b).applied q + trimSteps steps < q.lo ∨
              q.hi < (s.trims b).applied q + trimSteps steps) := by
          rw [Bool.eq_iff_iff, Bool.or_eq_true, outside_iff, outside_iff, decide_eq_true_iff, or_assoc]
        simp only [cal, ne_eq, not_true_eq_false, if_false, Option.isSome_none, Bool.false_eq_true]
        rw [clamped]
        rfl
    · simp [cal]

/-- SET-TRIM-RANGE served for a range (R29). -/
theorem serveSetTrimRange_range (b : BayId) (g : TrimRange) (s : State) :
    serveSetTrimRange [bayByte b, g.code] s =
      if (s.bay b).state = .cal ∧ (s.trims b).gain = 0 ∧ (s.trims b).gainPending = false then
        (s.updTrims b fun k => { k with range := g }, .ok)
      else (s, .refuse .wrongState) := by
  rw [serveSetTrimRange, onBay_bayByte, uField_cons_succ, uField_zero_one, trimRangeOf_code]

theorem TrimSet.gainPending_false (k : TrimSet) : k.gainPending = false ↔ k.pending.map Prod.fst ≠ some .gain := by
  unfold TrimSet.gainPending; cases k.pending <;> simp

theorem TrimSet.applyPending_none {k : TrimSet} (h : k.pending = none) : k.applyPending = k := by
  rw [TrimSet.applyPending, h]

theorem TrimSet.applyPending_some {k : TrimSet} {q : TrimQuantity} {x : Int} (h : k.pending = some (q, x)) :
    k.applyPending = { k.set q x with pending := none } := by rw [TrimSet.applyPending, h]

/-- CAL_WINDOW_COMPLETION, where a completion waits (R28). -/
theorem exec_calWindowCompletion {s : State} {b : BayId} (live : s.inReset = false) (waits : s.toScan.get b ≠ 0) :
    exec (.calWindowCompletion b) s =
      .next (({ s with toScan := s.toScan.set b (s.toScan.get b - 1) } : State).updTrims b TrimSet.applyPending) := by
  show execCalWindowCompletion b s = _
  rw [execCalWindowCompletion, event_runs live, if_neg waits]
  rfl

/-- A change of the trims of a bay, as far as the set that stands there goes. -/
theorem State.updTrims_congr {s : State} {b : BayId} {f g : TrimSet → TrimSet} (h : f (s.trims b) = g (s.trims b)) :
    s.updTrims b f = s.updTrims b g := by
  unfold State.updTrims
  rw [updAt_eq_set, updAt_eq_set]
  exact congrArg (fun k => { s with scan := s.scan.set b k }) h

/-- A change that leaves the trims of a bay as they are. -/
theorem State.updTrims_same {s : State} {b : BayId} {f : TrimSet → TrimSet} (h : f (s.trims b) = s.trims b) :
    s.updTrims b f = s :=
  (State.updTrims_congr (g := id) h).trans (congrArg (fun v => { s with scan := v }) (set_own s.scan b))

/-- Settles O23, message by message. -/
theorem calibrationEnteredAndLeft : Obligations.CalibrationEnteredAndLeft := by
  refine ⟨fun s t gb b ready bad => ?_, fun s t b g ready => ⟨?_, ?_, ?_⟩, fun s b live waits =>
    ⟨_, rfl, fun idle => ?_, fun x => ⟨fun pending => ?_, fun pending => ?_, fun pending => ?_⟩⟩⟩
  · refine message_unchanged ready rfl ?_
    rw [serveSetTrimRange, onBay_bayByte, uField_cons_succ, uField_zero_one, trimRangeOf_none bad]
  · refine (message_ready ready rfl).trans (congrArg _ ?_)
    rw [serveEnterCal, onBay_bayByte, answered_ite]
  · refine (message_ready ready rfl).trans (congrArg _ ?_)
    simp only [serveSetTrimRange_range, TrimSet.gainPending_false, answered_ite]
  · refine (message_ready ready rfl).trans (congrArg _ ?_)
    rw [serveExitCal, onBay_bayByte, answered_ite]
    dsimp only
    rw [State.updTrims_trims, if_pos rfl]
    rfl
  · rw [exec_calWindowCompletion live waits]
    exact congrArg _ (State.updTrims_same (TrimSet.applyPending_none idle))
  all_goals
    rw [exec_calWindowCompletion live waits]
    exact congrArg _ (State.updTrims_congr (TrimSet.applyPending_some pending))

end Sys2Proof.Machine
end

section
/-! A sample at WEV (spec/03): what folding makes of it, in a phase and in CAL, and when it is folded at all. -/

namespace Sys2Proof.Machine

/-! ### The window in progress (R35) -/

theorem WevBay.foldInto_none {w : WevBay} (h : w.window = none) (dead : Nat) (x : Sample) :
    w.foldInto dead x = .begin w.nextIndex x := by rw [WevBay.foldInto, h]

theorem WevBay.foldInto_some {w : WevBay} {a : WindowAcc} (h : w.window = some a) (dead : Nat) (x : Sample) :
    w.foldInto dead x = a.add dead x := by rw [WevBay.foldInto, h]

/-- The ring keeps the four most recent samples (R39). -/
theorem ringAdd_eq_drop {ring : List (Nat × Int)} (h : ring.length ≤ 4) (x : Sample) :
    ringAdd ring x = (ring ++ [(x.v, x.i)]).drop (ring.length - 3) := by
  unfold ringAdd
  split_ifs with room
  · rw [Nat.sub_eq_zero_of_le (by omega), List.drop_zero]
  · rw [List.drop_append_of_le_length (by omega), show ring.length - 3 = 1 by omega]

/-! ### A sample folded in a phase (R35, R40, R41) -/

/-- WEV with a sample in the ring, from which the window that the sample completes is judged. -/
def WevBay.withRing (x : Sample) (w : WevBay) : WevBay := { w with ring := ringAdd w.ring x }

section
variable {p : Profile} {e : PhaseEntry} {x : Sample} {w : WevBay}

/-- A sample before the W-th: the window goes on. -/
theorem foldPhase_open (h : (w.foldInto p.deadBand x).n < p.windowLen) :
    foldPhase p e x w = ({ w.withRing x with window := some (w.foldInto p.deadBand x) }, reportOf p e x none) := by
  rw [foldPhase, if_neg (by omega)]; rfl

/-- The W-th sample: the window is closed and judged, and the verdict reported. -/
theorem foldPhase_complete (h : p.windowLen ≤ (w.foldInto p.deadBand x).n) :
    foldPhase p e x w =
      let a := w.foldInto p.deadBand x
      let r := a.close (some e.phase) false
      let j := judgeWindow p e.phase r a.satT (w.withRing x)
      ({ j.2 with window := none, nextIndex := a.index + 1, lastRecord := some r }, reportOf p e x (some j.1)) := by
  rw [foldPhase, if_pos h]; rfl

/-- The verdict of a window bears on none of what WEV holds of samples. -/
theorem judgeWindow_ring (p : Profile) (phase : Phase) (r : WindowRecord) (satT : Bool) (w : WevBay) :
    (judgeWindow p phase r satT w).2.ring = w.ring := by
  unfold judgeWindow
  split_ifs <;> rfl

/-- The sample joins the ring (R39). -/
theorem foldPhase_ring (p : Profile) (e : PhaseEntry) (x : Sample) (w : WevBay) :
    (foldPhase p e x w).1.ring = ringAdd w.ring x := by
  by_cases h : p.windowLen ≤ (w.foldInto p.deadBand x).n
  · rw [foldPhase_complete h]; exact judgeWindow_ring _ _ _ _ _
  · rw [foldPhase_open (by omega)]; rfl

/-- The report of a sample is that of its phase, whatever the verdict (R41). -/
theorem foldPhase_report (p : Profile) (e : PhaseEntry) (x : Sample) (w : WevBay) :
    (foldPhase p e x w).2 = reportOf p e x (foldPhase p e x w).2.verdict := by
  by_cases h : p.windowLen ≤ (w.foldInto p.deadBand x).n
  · rw [foldPhase_complete h]; rfl
  · rw [foldPhase_open (by omega)]; rfl

theorem foldPhase_verdict_isSome (p : Profile) (e : PhaseEntry) (x : Sample) (w : WevBay) :
    (foldPhase p e x w).2.verdict.isSome = true ↔ p.windowLen ≤ (w.foldInto p.deadBand x).n := by
  by_cases h : p.windowLen ≤ (w.foldInto p.deadBand x).n
  · rw [foldPhase_complete h]; exact iff_of_true rfl h
  · rw [foldPhase_open (by omega)]; exact iff_of_false Bool.false_ne_true h

end

theorem reportOf_cvCrossed (p : Profile) (e : PhaseEntry) (x : Sample) (v : Option Verdict) :
    (reportOf p e x v).cvCrossed = true ↔ e.phase = .chargeCC ∧ p.cvVoltage ≤ x.v := by simp [reportOf]

theorem reportOf_cutoff (p : Profile) (e : PhaseEntry) (x : Sample) (v : Option Verdict) :
    (reportOf p e x v).cutoff = true ↔ e.phase = .discharge ∧ x.v ≤ p.cutoff := by simp [reportOf]

theorem reportOf_magnitude (p : Profile) (e : PhaseEntry) (x : Sample) (v : Option Verdict) :
    (reportOf p e x v).magnitude =
      if e.phase ∈ [.chargeCC, .chargeCV, .discharge, .pulse] then some x.i.natAbs else none := by
  unfold reportOf; cases e.phase <;> rfl

/-- A window in progress with room for more samples: they are added to it, and the last record stays. -/
theorem foldPhase_foldl {p : Profile} (e : PhaseEntry) (xs : List Sample) {w : WevBay} {a : WindowAcc}
    (h : w.window = some a) (room : a.n + xs.length < p.windowLen) :
    (xs.foldl (fun v z => (foldPhase p e z v).1) w).window = some (xs.foldl (WindowAcc.add p.deadBand) a) ∧
      (xs.foldl (fun v z => (foldPhase p e z v).1) w).lastRecord = w.lastRecord := by
  induction xs generalizing w a with
  | nil => exact ⟨h, rfl⟩
  | cons x xs ih =>
    rw [List.length_cons] at room
    have added : w.foldInto p.deadBand x = a.add p.deadBand x := WevBay.foldInto_some h _ _
    have count : (a.add p.deadBand x).n = a.n + 1 := rfl
    have open_ := foldPhase_open (p := p) (e := e) (x := x) (w := w) (by rw [added]; omega)
    rw [List.foldl_cons, List.foldl_cons, open_, added]
    exact ih rfl (by omega)

/-- Fewer samples than complete a window begin it and are added to it. -/
theorem foldPhase_foldl_begin {p : Profile} (e : PhaseEntry) (x : Sample) (xs : List Sample) {w : WevBay}
    (empty : w.window = none) (room : xs.length + 1 < p.windowLen) :
    ((x :: xs).foldl (fun v z => (foldPhase p e z v).1) w).window =
        some (xs.foldl (WindowAcc.add p.deadBand) (.begin w.nextIndex x)) ∧
      ((x :: xs).foldl (fun v z => (foldPhase p e z v).1) w).lastRecord = w.lastRecord := by
  have begun : w.foldInto p.deadBand x = .begin w.nextIndex x := WevBay.foldInto_none empty _ _
  have one : (WindowAcc.begin w.nextIndex x).n = 1 := rfl
  rw [List.foldl_cons, foldPhase_open (by rw [begun]; omega), begun]
  exact foldPhase_foldl (w := { w.withRing x with window := _ }) e xs rfl (by omega)

theorem foldl_add_n (dead : Nat) (xs : List Sample) (a : WindowAcc) :
    (xs.foldl (WindowAcc.add dead) a).n = a.n + xs.length := by
  induction xs generalizing a with
  | nil => rfl
  | cons x xs ih => rw [List.foldl_cons, ih, List.length_cons]; show a.n + 1 + _ = _; omega

/-! ### A sample folded in CAL (R53) -/

theorem foldCal_open {x : Sample} {w : WevBay} (h : (w.foldInto 0 x).n < 50) :
    foldCal x w = ({ w with window := some (w.foldInto 0 x) }, false) := by
  rw [foldCal, if_neg (by rw [Config.calWindow]; omega)]

theorem foldCal_complete {x : Sample} {w : WevBay} (h : 50 ≤ (w.foldInto 0 x).n) :
    foldCal x w = ({ w with window := none, nextIndex := (w.foldInto 0 x).index + 1,
                            lastRecord := some ((w.foldInto 0 x).close none false) }, true) := by
  rw [foldCal, if_pos (show Config.calWindow ≤ _ from h)]

/-- A CAL window is complete exactly when none is left in progress. -/
theorem foldCal_window (x : Sample) (w : WevBay) : (foldCal x w).2 = true ↔ (foldCal x w).1.window = none := by
  by_cases h : 50 ≤ (w.foldInto 0 x).n
  · rw [foldCal_complete h]; exact iff_of_true rfl rfl
  · rw [foldCal_open (by omega)]; exact iff_of_false Bool.false_ne_true (Option.some_ne_none _)

/-! ### When a sample is folded (R33, R41) -/

theorem answerReports_none {s : State} {b : BayId} (h : ∀ m ∈ s.toBsq.get b, m.isReport = false) (n : Nat) :
    State.answerReports b n s = s := by
  cases n with
  | zero => rfl
  | succ n => rw [State.answerReports, if_neg (by simpa using h)]

theorem takeAnswers_none {s : State} {b : BayId} (h : ∀ m ∈ s.toWev.get b, m.isAnswer = false) (n : Nat) :
    State.takeAnswers b n s = s := by
  cases n with
  | zero => rfl
  | succ n => rw [State.takeAnswers, if_neg (by simpa using h)]

/-- A bay whose reports have been answered, and the answers taken, is settled. -/
theorem settleBay_settled {s : State} {b : BayId} (reports : ∀ m ∈ s.toBsq.get b, m.isReport = false)
    (answers : ∀ m ∈ s.toWev.get b, m.isAnswer = false) : s.settleBay b = s := by
  rw [State.settleBay, answerReports_none reports]
  exact takeAnswers_none answers _

section
variable {s : State} {b : BayId} {x : Sample}

theorem foldSample_phase {e : PhaseEntry} (h : (s.wevBay b).entry = some e) (started : e.started = true) :
    s.foldSample b x = (s.updWev b fun _ => (foldPhase (s.profileOfBay b) e x (s.wevBay b)).1).tellBsq b
      (.report (foldPhase (s.profileOfBay b) e x (s.wevBay b)).2) := by
  rw [State.foldSample]; simp only [h, started, if_true]

theorem foldSample_cal (h : (s.wevBay b).entry = none) (cal : (s.wevBay b).cal = true) (raw : x.untrimmed = true) :
    s.foldSample b x = { s.updWev b fun _ => (foldCal x (s.wevBay b)).1 with
      toScan := if (foldCal x (s.wevBay b)).2 then updAt s.toScan b (· + 1) else s.toScan } := by
  rw [State.foldSample]; simp only [h, cal, raw, Bool.and_self, if_true]

theorem foldSample_discarded (h : ∀ e, (s.wevBay b).entry = some e → e.started = false)
    (out : x.untrimmed = false ∨ (s.wevBay b).cal = false) : s.foldSample b x = s := by
  rw [State.foldSample]
  cases entry : (s.wevBay b).entry with
  | some e => simp only [h e entry, Bool.false_eq_true, if_false]
  | none => rcases out with out | out <;> simp only [out, Bool.and_false, Bool.false_and, Bool.false_eq_true, if_false]

end

/-- SAMPLE of a bay whose reports have been answered (R23, R33). -/
theorem exec_sample {s : State} {b : BayId} (live : s.inReset = false)
    (reports : ∀ m ∈ s.toBsq.get b, m.isReport = false) (answers : ∀ m ∈ s.toWev.get b, m.isAnswer = false)
    (v i tin : Int) (inCal : Bool) :
    exec (.sample b v i tin inCal) s =
      .next ((s.handedOver b).foldSample b (convert (s.trims b) v i tin ((s.trims b).flagTaken inCal))) := by
  show execSample b v i tin inCal s = _
  rw [execSample, event_runs live, settleBay_settled reports answers]

/-- Settles O25: folding in a phase, folding in CAL, and what SAMPLE makes of either. -/
theorem sampleFoldedOrDiscarded : Obligations.SampleFoldedOrDiscarded := by
  refine ⟨fun index dead x a => ⟨rfl, rfl, rfl, rfl⟩, fun p e x w u r fold => ?_,
    fun p e x y xs w u empty room hu => ?_, fun x w u full fold => ?_, fun s b v i tin inCal live reports answers => ?_⟩
  · have ring := foldPhase_ring p e x w
    have report := foldPhase_report p e x w
    rw [fold] at ring report
    dsimp only at ring report
    refine ⟨w.foldInto p.deadBand x, fun h => WevBay.foldInto_none h _ _, fun y h => WevBay.foldInto_some h _ _, ?_⟩
    rw [report, ring]
    refine ⟨rfl, rfl, rfl, rfl, rfl, reportOf_cvCrossed _ _ _ _, reportOf_cutoff _ _ _ _, reportOf_magnitude _ _ _ _,
      fun h => ringAdd_eq_drop h x, fun h => ?_, fun h => ?_⟩
    · rw [foldPhase_open h] at fold
      cases fold
      exact ⟨rfl, rfl⟩
    · rw [foldPhase_complete h] at fold
      cases fold
      exact ⟨_, _, _, rfl, rfl, rfl, rfl⟩
  · obtain ⟨window, record⟩ := foldPhase_foldl_begin (p := p) e x xs empty (by omega)
    rw [← hu] at window record
    have count : (u.foldInto p.deadBand y).n = 1 + xs.length + 1 := by
      rw [WevBay.foldInto_some window]
      exact congrArg (· + 1) (foldl_add_n _ xs _)
    refine ⟨window, record, ?_⟩
    rw [foldPhase_verdict_isSome, count]
    omega
  · refine ⟨w.foldInto 0 x, fun h => WevBay.foldInto_none h _ _, fun y h => WevBay.foldInto_some h _ _, ?_⟩
    by_cases complete : 50 ≤ (w.foldInto 0 x).n
    · rw [foldCal_complete complete] at fold
      cases fold
      exact ⟨iff_of_true rfl complete, fun h => absurd complete (by omega), fun _ => rfl⟩
    · rw [foldCal_open (by omega)] at fold
      cases fold
      exact ⟨iff_of_false Bool.false_ne_true complete, fun _ => rfl, fun h => absurd h complete⟩
  · rw [exec_sample live reports answers]
    refine ⟨_, s.handedOver b, rfl, rfl, fun e entry started => ⟨(foldPhase _ e _ _).1, (foldPhase _ e _ _).2, rfl, ?_⟩,
      fun idle out => ?_, fun entry cal raw => ⟨(foldCal _ _).1, (foldCal _ _).2, rfl, foldCal_window _ _, ?_⟩⟩
    · have report := foldPhase_report (s.profileOfBay b) e
        (convert (s.trims b) v i tin ((s.trims b).flagTaken inCal)) (s.wevBay b)
      exact ⟨congrArg SampleReport.entry report, congrArg SampleReport.phase report, congrArg SampleReport.v report,
        congrArg SampleReport.i report, congrArg _ (foldSample_phase (s := s.handedOver b) entry started)⟩
    · exact congrArg _ (foldSample_discarded (s := s.handedOver b) idle out)
    · exact congrArg _ (foldSample_cal (s := s.handedOver b) entry cal raw)

end Sys2Proof.Machine
end

section
/-! UNLOAD (R80): what CAA and WEV take first, and what is left of the bay. -/

namespace Sys2Proof.Machine

/-! ### What CAA takes, as a bay in no phase sees it (R101, R102) -/

/-- A bay that is in no phase. -/
def Bay.idle (r : Bay) : Prop := ∀ p, r.state ≠ .phase p

/-- From `s` to `u` the record of a bay stays, and no message of it joins those handed over to CAA. -/
structure Spares (b : BayId) (s u : State) : Prop where
  bay : u.bay b = s.bay b
  toCaa : ∃ more, u.toCaa = s.toCaa ++ more ∧ ∀ m ∈ more, m.bay ≠ b

namespace Spares

variable {b : BayId} {s u v : State}

theorem refl (b : BayId) (s : State) : Spares b s s := ⟨rfl, [], (List.append_nil _).symm, by simp⟩

theorem trans (h : Spares b s u) (k : Spares b u v) : Spares b s v := by
  obtain ⟨bay, more, toCaa, others⟩ := h
  obtain ⟨bay2, more2, toCaa2, others2⟩ := k
  refine ⟨bay2.trans bay, more ++ more2, by rw [toCaa2, toCaa, List.append_assoc], fun m hm => ?_⟩
  exact (List.mem_append.mp hm).elim (others m) (others2 m)

theorem idle (h : Spares b s u) (i : (s.bay b).idle) : (u.bay b).idle := by rw [h.bay]; exact i

/-- The allowance is neither the record of a bay nor a message. -/
theorem ofCaa {f : Allowance → Allowance} (h : Spares b (s.updCaa f) u) : Spares b s u := ⟨h.bay, h.toCaa⟩

theorem ofGrant {m : GrantMsg} (h : Spares b (s.handGrant m) u) : Spares b s u := ⟨h.bay, h.toCaa⟩

/-- A bay suspended is one in a phase, and so another one. -/
theorem suspendBay (i : (s.bay b).idle) (d : BayId) (c : SuspensionCause) (k : StageCode) (a : Bool) :
    Spares b s (s.suspendBay d c k a) := by
  cases state : (s.bay d).state with
  | phase p =>
    have other : d ≠ b := by rintro rfl; exact i p state
    rw [suspendBay_eq state]
    refine ⟨?_, [.leave d], rfl, by simpa [CaaMsg.bay] using other⟩
    exact set_get_ne _ _ _ _ other
  | _ =>
    rw [State.suspendBay, state]
    exact refl b s

theorem overLimit (i : (s.bay b).idle) (w : Waiting) : Spares b s (s.overLimit w) := by
  unfold State.overLimit
  split_ifs
  exacts [suspendBay i _ _ _ _, refl b s]

theorem examineMany (n : Nat) (i : (s.bay b).idle) : Spares b s (s.examineMany n) := by
  induction n generalizing s with
  | zero => exact refl b s
  | succ n ih =>
    unfold State.examineMany
    split
    · exact refl b s
    · rename_i w rest _
      split_ifs
      · have removed := overLimit (s := s.updCaa fun a => { a with waiting := rest }) i w
        exact ofCaa (removed.trans (ih (removed.idle i)))
      · exact refl b s
      · exact ofCaa (ofGrant (ih i))
      · exact refl b s

theorem release (i : (s.bay b).idle) (d : BayId) : Spares b s (s.release d) := by
  unfold State.release
  split_ifs
  exacts [refl b s, ofCaa (examineMany _ i)]

theorem caaTake (i : (s.bay b).idle) (m : CaaMsg) : Spares b s (s.caaTake m) := by
  cases m with
  | request d mag entry =>
    show Spares b s (s.takeRequest d mag entry)
    unfold State.takeRequest
    split_ifs
    exacts [examineMany _ i, ofCaa (examineMany _ i)]
  | leave d => exact ofCaa (examineMany _ i)
  | giveBack d entry =>
    show Spares b s (s.takeReturn d entry)
    unfold State.takeReturn
    split_ifs
    exacts [release i d, refl b s]

end Spares

/-- The oldest message is taken, and the bay keeps its record. -/
theorem caaTakeHead_cons {b : BayId} {s : State} {m : CaaMsg} {rest : List CaaMsg} (i : (s.bay b).idle)
    (h : s.toCaa = m :: rest) : Spares b { s with toCaa := rest } s.caaTakeHead := by
  rw [State.caaTakeHead, h]
  exact Spares.caaTake (s := { s with toCaa := rest }) i m

theorem caaTakeHead_bay {b : BayId} {s : State} (i : (s.bay b).idle) : s.caaTakeHead.bay b = s.bay b := by
  cases h : s.toCaa with
  | nil => rw [State.caaTakeHead, h]
  | cons m rest => exact (caaTakeHead_cons i h).bay

theorem caaTakeFor_bay {b : BayId} (n : Nat) {s : State} (i : (s.bay b).idle) :
    (State.caaTakeFor b n s).bay b = s.bay b := by
  induction n generalizing s with
  | zero => rfl
  | succ n ih =>
    unfold State.caaTakeFor
    split_ifs
    · have same := caaTakeHead_bay i
      rw [ih (by rw [same]; exact i), same]
    · rfl

/-- The messages of the bay stand among the first that are taken: those handed over meanwhile are of other bays. -/
theorem caaTakeFor_clears {b : BayId} (n : Nat) {s : State} (i : (s.bay b).idle) {first more : List CaaMsg}
    (h : s.toCaa = first ++ more) (few : first.length ≤ n) (others : ∀ m ∈ more, m.bay ≠ b) :
    ∀ m ∈ (State.caaTakeFor b n s).toCaa, m.bay ≠ b := by
  induction n generalizing s first more with
  | zero =>
    rw [List.length_eq_zero_iff.mp (Nat.le_zero.mp few), List.nil_append] at h
    show ∀ m ∈ s.toCaa, m.bay ≠ b
    rwa [h]
  | succ n ih =>
    unfold State.caaTakeFor
    split_ifs with stands
    · cases first with
      | nil =>
        obtain ⟨m, hm, own⟩ := List.any_eq_true.mp stands
        rw [h, List.nil_append] at hm
        exact absurd (beq_iff_eq.mp own) (others m hm)
      | cons m first =>
        obtain ⟨bay, new, toCaa, newOthers⟩ := caaTakeHead_cons i h
        refine ih (first := first) (more := more ++ new) (by rw [bay]; exact i) (toCaa.trans (List.append_assoc ..))
          (Nat.le_of_succ_le_succ few) fun m hm => ?_
        exact (List.mem_append.mp hm).elim (others m) (newOthers m)
    · simpa using stands

section
variable {s : State} {b : BayId}

theorem caaUnload_clears (i : (s.bay b).idle) : ∀ m ∈ (s.caaUnload b).toCaa, m.bay ≠ b :=
  caaTakeFor_clears _ i (List.append_nil _).symm le_rfl (by simp)

theorem caaUnload_bay (i : (s.bay b).idle) : (s.caaUnload b).bay b = s.bay b := caaTakeFor_bay _ i

/-- With no message of the bay handed over, CAA takes none. -/
theorem caaUnload_none (h : ∀ m ∈ s.toCaa, m.bay ≠ b) : s.caaUnload b = s := by
  unfold State.caaUnload
  cases s.toCaa.length with
  | zero => rfl
  | succ n => rw [State.caaTakeFor, if_neg (by simpa using h)]

/-! ### What WEV takes (R32, R35) -/

/-- What WEV takes bears on its own records and on the reports. -/
theorem wevTake_frame (s : State) (b : BayId) (m : WevMsg) :
    ∃ w q, s.wevTake b m = { s with wev := w, toBsq := q } := by
  have left (finished : Bool) : ∃ w q, s.wevLeave b finished = { s with wev := w, toBsq := q } := by
    unfold State.wevLeave
    split
    exacts [⟨_, _, rfl⟩, ⟨_, _, rfl⟩]
  cases m with
  | entry p n =>
    unfold State.wevTake State.wevEnter
    split_ifs
    · exact ⟨_, _, rfl⟩
    · obtain ⟨w, q, e⟩ := left false
      rw [e]
      exact ⟨_, _, rfl⟩
  | clockStart => exact ⟨_, _, rfl⟩
  | leave finished answering => exact left finished

theorem wevTakeHead_frame (s : State) (b : BayId) :
    ∃ w q, s.wevTakeHead b =
      { s with wev := w, toBsq := q, toWev := updAt s.toWev b fun _ => (s.toWev.get b).tail } := by
  unfold State.wevTakeHead
  split
  · rename_i empty
    refine ⟨s.wev, s.toBsq, ?_⟩
    rw [empty, List.tail_nil, ← empty, updAt_eq_set, set_own]
  · rename_i m rest queue
    obtain ⟨w, q, e⟩ := wevTake_frame { s with toWev := updAt s.toWev b fun _ => rest } b m
    rw [e, queue]
    exact ⟨w, q, rfl⟩

theorem wevTakeMany_frame (b : BayId) (n : Nat) (s : State) :
    ∃ w q m, State.wevTakeMany b n s = { s with wev := w, toBsq := q, toWev := m } := by
  induction n generalizing s with
  | zero => exact ⟨_, _, _, rfl⟩
  | succ n ih =>
    obtain ⟨w, q, e⟩ := wevTakeHead_frame s b
    rw [State.wevTakeMany, e]
    obtain ⟨w, q, m, e⟩ := ih { s with wev := w, toBsq := q, toWev := updAt s.toWev b fun _ => (s.toWev.get b).tail }
    exact ⟨w, q, m, e⟩

/-- As many takings as messages stand leave none. -/
theorem wevTakeMany_drains (b : BayId) (n : Nat) (s : State) (h : (s.toWev.get b).length ≤ n) :
    (State.wevTakeMany b n s).toWev.get b = [] := by
  induction n generalizing s with
  | zero => exact List.length_eq_zero_iff.mp (Nat.le_zero.mp h)
  | succ n ih =>
    obtain ⟨w, q, e⟩ := wevTakeHead_frame s b
    refine ih _ ?_
    rw [e]
    simp only [updAt_get, if_true, List.length_tail]
    omega

/-! ### UNLOAD by the state of the bay -/

theorem serveUnload_wrongState (h : (s.bay b).state ∉ [BayState.done, .rejected, .aborted]) :
    serveUnload [bayByte b] s = (s, .refuse .wrongState) := by
  rw [serveUnload, onBay_bayByte, if_neg (by simpa using h)]

section
variable (ended : (s.bay b).state ∈ [BayState.done, .rejected, .aborted])
include ended

/-- A bay that UNLOAD takes is in no phase. -/
theorem idle_of_ended : (s.bay b).idle := by
  intro p state
  rw [state] at ended
  simp at ended

theorem serveUnload_writing (h : s.writeInHand b = true) : serveUnload [bayByte b] s = (s, .refuse .busy) := by
  rw [serveUnload, onBay_bayByte, if_pos (by simpa using ended), if_pos h]

theorem serveUnload_granted (h : s.writeInHand b = false) (grant : s.grantOf b ≠ 0) :
    serveUnload [bayByte b] s = (s.offWrite b, .refuse .busy) := by
  rw [serveUnload, onBay_bayByte, if_pos (by simpa using ended), if_neg (by simp [h])]
  dsimp only
  rw [if_neg grant, if_pos grant]

theorem serveUnload_taken (h : s.writeInHand b = false) (free : s.grantOf b = 0) :
    serveUnload [bayByte b] s =
      if (s.caaUnload b).grantOf b ≠ 0 then ((s.caaUnload b).offWrite b, .refuse .busy)
      else ((((s.caaUnload b).wevUnload b).dropReports b).updBay b Bay.unloaded, .ok) := by
  rw [serveUnload, onBay_bayByte, if_pos (by simpa using ended), if_neg (by simp [h])]
  dsimp only
  rw [if_pos free]

end

end

/-- Settles O33, by the state of the bay, the writes in hand, and the grant before and after CAA has taken its
messages. -/
theorem unloadTakenByState : Obligations.UnloadTakenByState := by
  intro s t b ready
  refine ⟨fun wrong => message_unchanged ready rfl (serveUnload_wrongState wrong), fun ended =>
    ⟨fun writing => message_unchanged ready rfl (serveUnload_writing ended writing), fun still grant => ?_,
      fun still free => ⟨s.caaUnload b, _, rfl, rfl, caaUnload_none, caaUnload_clears (idle_of_ended ended),
        caaUnload_bay (idle_of_ended ended), fun empty => ?_, wevTakeMany_drains b _ _ le_rfl, ?_⟩⟩⟩
  · refine (message_ready ready rfl).trans (congrArg _ ?_)
    rw [serveUnload_granted ended still grant]
    rfl
  · rw [empty]
    rfl
  · have own := caaUnload_bay (idle_of_ended ended)
    have served : exec (.unload t [bayByte b]) s = _ := message_ready ready rfl
    rw [served, serveUnload_taken ended still free]
    obtain ⟨w, q, m, frame⟩ := wevTakeMany_frame b ((s.caaUnload b).toWev.get b).length (s.caaUnload b)
    refine ⟨by rw [frame], by rw [frame], by rw [frame], by rw [frame], fun grant => ?_, fun grant => ?_⟩
    · rw [if_pos grant, ← own]
      rfl
    · have kept : (State.wevTakeMany b ((s.caaUnload b).toWev.get b).length (s.caaUnload b)).bay b = s.bay b := by
        rw [frame]
        exact own
      rw [if_neg (not_not.mpr grant), ← kept]
      rfl

end Sys2Proof.Machine
end

section
/-! The messages that read (R31, R40, R82, R99, R105, R135, R136, R154, R155, R174): the bytes of each reply. -/

namespace Sys2Proof.Machine

theorem onString_stringByte (x : StringId) (rest : List Byte) (f : StringId → State → State × Answer) (s : State) :
    onString (stringByte x :: rest) 0 f s = f x s :=
  onString_some (by rw [uField_zero_one, stringByte_toNat, stringOf_succ])

/-! ### Bytes -/

theorem beBytes_one (n : Nat) : beBytes 1 n = [BitVec.ofNat 8 n] := by simp [beBytes]

/-- Two flags in the lowest bits of a byte. -/
theorem bitIf_or_bitIf (x y : Bool) : bitIf x 0 ||| bitIf y 1 = (if x then 1 else 0) + (if y then 2 else 0) := by
  cases x <;> cases y <;> rfl

/-- Entries of three bytes each, one after the other. -/
theorem length_flatMap_three {α : Type} (l : List α) (first : α → Byte) (n : α → Nat) :
    (l.flatMap fun x => first x :: beBytes 2 (n x)).length = 3 * l.length := by
  induction l with
  | nil => rfl
  | cons x l ih =>
    rw [List.flatMap_cons, List.length_append, ih, List.length_cons, beBytes_length, List.length_cons]
    omega

/-! ### Trims, windows, bays -/

theorem TrimSet.bytes_length (k : TrimSet) : k.bytes.length = 7 := by
  unfold TrimSet.bytes
  cases k.pending <;> simp

theorem windowBytes_length (b : BayId) (r : Option WindowRecord) : (windowBytes b r).length = 30 := by
  cases r <;> simp [windowBytes]

theorem Cause.bytes_length (c : Cause) : c.bytes.length = 2 := by cases c <;> rfl

theorem Bay.bytes_length (r : Bay) : r.bytes.length = 87 := by
  unfold Bay.bytes
  cases r.grade <;> simp [Cause.bytes_length]

/-! ### Pool -/

theorem Candidate.bytes_length (c : Candidate) : c.bytes.length = 32 := by
  unfold Candidate.bytes
  cases c.status <;> simp [seatIdBytes]

/-- The records of a page are those from its first index on, numbered from there (R135). -/
theorem Pool.page_eq (p : Pool) (first count : Nat) :
    p.page first count = (((p.records.drop first).take count).zipIdx first).map fun e => (e.2, e.1) := by
  have same : (p.records.zipIdx.drop first).take count = ((p.records.drop first).take count).zipIdx first :=
    List.ext_getElem (by simp) (by simp)
  rw [Pool.page, same]

theorem Pool.pageBytes_eq (p : Pool) (first count : Nat) :
    p.pageBytes first count = [BitVec.ofNat 8 p.records.length] ++ beBytes 4 p.nextSeq ++
      [BitVec.ofNat 8 p.park.length] ++ p.park.map bayByte ++
      [BitVec.ofNat 8 ((p.records.drop first).take count).length] ++
      (((p.records.drop first).take count).zipIdx first).flatMap fun e => BitVec.ofNat 8 e.2 :: e.1.bytes := by
  simp only [Pool.pageBytes, Pool.page_eq, beBytes_one, List.length_map, List.length_zipIdx, List.flatMap_map,
    List.singleton_append]

/-- The records of a page, each behind its index. -/
theorem length_flatMap_indexed (l : List Candidate) (first : Nat) :
    ((l.zipIdx first).flatMap fun e => BitVec.ofNat 8 e.2 :: e.1.bytes).length = 33 * l.length := by
  simp [List.length_flatMap, Candidate.bytes_length, Nat.mul_comm]

theorem Pool.pageBytes_length (p : Pool) (first count : Nat) :
    (p.pageBytes first count).length = 7 + p.park.length + 33 * ((p.records.drop first).take count).length := by
  rw [Pool.pageBytes_eq, List.length_append, length_flatMap_indexed]
  simp only [List.length_append, List.length_map, List.length_singleton, beBytes_length]
  omega

/-- A count of entries asked for, cut at 8 (R135). -/
theorem min_countOf (n : Byte) : min 8 (countOf n.toNat) = if n = 0 then 8 else min 8 n.toNat := by
  unfold countOf
  simp only [byte_toNat_eq_zero]
  split_ifs <;> rfl

theorem countOf_clamped (n : Byte) : 8 < countOf n.toNat ↔ 8 < n.toNat := by
  unfold countOf
  split_ifs <;> omega

/-! ### Stage bus and allowance -/

theorem StageBus.bytes_length (x : StageBus) : x.bytes.length = 7 := by
  unfold StageBus.bytes
  cases x.inFlight <;> simp

theorem any_isBroadcast (q : List BusEntry) : q.any (·.isBroadcast) = decide (BusEntry.broadcastOff ∈ q) := by
  have iff (e : BusEntry) : e.isBroadcast = true ↔ e = .broadcastOff := by cases e <;> simp [BusEntry.isBroadcast]
  rw [Bool.eq_iff_iff, List.any_eq_true, decide_eq_true_iff]
  simp only [iff, exists_eq_right]

theorem State.mem_granted (s : State) (b : BayId) : b ∈ s.granted ↔ s.grantOf b ≠ 0 := by
  simp [State.granted, mem_allBays]

theorem State.allowanceBytes_length (s : State) :
    s.allowanceBytes.length = 10 + 3 * (s.granted.length + s.caa.waiting.length) := by
  simp only [State.allowanceBytes, List.length_append, beBytes_length, length_flatMap_three]
  omega

/-! ### Strings and seats -/

theorem BankString.bytes_length (x : BankString) : x.bytes.length = 18 := by
  simp [BankString.bytes, BankString.countByte]

theorem partnerBytes_length (q : Option Partner) : (partnerBytes q).length = 5 := by cases q <;> simp [partnerBytes]

theorem overrideBytes_length (o : Option Override) : (overrideBytes o).length = 5 := by
  cases o <;> simp [overrideBytes]

theorem Seat.bytes_length (partner : Option Partner) (x : Seat) : (x.bytes partner).length = 42 := by
  cases x with
  | reserved tag d under => cases under <;> simp [Seat.bytes, overrideBytes_length]
  | _ => simp [Seat.bytes, overrideBytes_length, partnerBytes_length]

theorem Seat.bytes_reserved_empty (partner : Option Partner) (tag d : Nat) :
    (Seat.reserved tag d .empty).bytes partner =
      1 :: (beBytes 4 tag ++ beBytes 2 ((d + 9) / 10) ++ List.replicate 35 0) :=
  List.append_assoc (1 :: (beBytes 4 tag ++ beBytes 2 ((d + 9) / 10))) (zeros 6) (zeros 29)

/-- The partner values of a seat are read from the two seats of its position (R143). -/
theorem State.partner_position {s : State} {x : StringId} {pos : Nat} {p : Position}
    (h : (s.string x).position pos = some p) (n : SeatName) :
    s.partner { str := x, pos := pos, seat := n } = partnerOf s.pool (p.get n) (p.get (otherSeat n)) := by
  simp [State.partner, State.seat, mateOf, h]

theorem position_outOfRange {x : BankString} {pos : Nat} (h : pos = 0 ∨ x.positions.length < pos) :
    x.position pos = none := by
  rw [← Option.not_isSome_iff_eq_none, position_isSome]
  omega

theorem State.positionBytes_eq {s : State} {x : StringId} {pos : Nat} {p : Position}
    (h : (s.string x).position pos = some p) : s.positionBytes x p = Config.stringStateCode (s.string x).state ::
      (p.a.bytes (s.partner ⟨x, pos, .a⟩) ++ p.b.bytes (s.partner ⟨x, pos, .b⟩)) := by
  rw [State.partner_position h, State.partner_position h]
  rfl

theorem State.positionBytes_length (s : State) (x : StringId) (p : Position) : (s.positionBytes x p).length = 85 := by
  simp [State.positionBytes, Seat.bytes_length]

/-! ### Matcher -/

theorem PassResult.bytes_length (r : PassResult) : r.bytes.length = 7 := by
  cases r <;> simp [PassResult.bytes, seatIdBytes]

theorem PassResult.bytes_complete (served made : Nat) :
    (PassResult.complete served made).bytes = 1 :: (beBytes 2 served ++ [BitVec.ofNat 8 made, 0, 0, 0]) := by
  rw [PassResult.bytes, beBytes_one, List.append_assoc]
  rfl

theorem PassResult.bytes_noticeRoom (served made : Nat) (id : SeatId) : (PassResult.noticeRoom served made id).bytes =
    2 :: (beBytes 2 served ++ [BitVec.ofNat 8 made] ++ seatIdBytes id) := by
  rw [← beBytes_one]
  rfl

/-! ### The messages served -/

section
variable {s : State} {x : StringId}

theorem serveGetPosition_unused (unused : (s.string x).state = .unused) (pb : Byte) :
    serveGetPosition [stringByte x, pb] s = (s, .refuse .wrongState) := by
  rw [serveGetPosition, onString_stringByte, if_pos unused]

theorem serveGetPosition_none (used : (s.string x).state ≠ .unused) {pb : Byte}
    (out : (s.string x).position pb.toNat = none) : serveGetPosition [stringByte x, pb] s = (s, .refuse .notFound) := by
  rw [serveGetPosition, onString_stringByte, if_neg used, uField_cons_succ, uField_zero_one, out]

theorem serveGetPosition_some (used : (s.string x).state ≠ .unused) {pb : Byte} {p : Position}
    (at_ : (s.string x).position pb.toNat = some p) :
    serveGetPosition [stringByte x, pb] s = (s, .ok (s.positionBytes x p)) := by
  rw [serveGetPosition, onString_stringByte, if_neg used, uField_cons_succ, uField_zero_one, at_]

theorem serveGetCandidate_zero : serveGetCandidate [0, 0, 0, 0] s = (s, .refuse .badValue) := by
  simp [serveGetCandidate, uField, beNat]

/-- GET-CANDIDATE for a tag of four bytes (R136). -/
theorem serveGetCandidate_none {tag : Nat} (lt : tag < 4294967296) (tagged : 0 < tag)
    (absent : s.pool.find tag = none) : serveGetCandidate (beBytes 4 tag) s = (s, .refuse .notFound) := by
  simp only [serveGetCandidate, uField_beBytes_nil, Nat.reducePow, Nat.mod_eq_of_lt lt, absent, if_neg tagged.ne']

theorem serveGetCandidate_some {tag : Nat} (lt : tag < 4294967296) (tagged : 0 < tag) {c : Candidate}
    (found : s.pool.find tag = some c) :
    serveGetCandidate (beBytes 4 tag) s = (s, .ok (beBytes 1 (s.pool.index tag) ++ c.bytes)) := by
  simp only [serveGetCandidate, uField_beBytes_nil, Nat.reducePow, Nat.mod_eq_of_lt lt, found, if_neg tagged.ne']

theorem serveGetPool_low {first : Byte} (low : first.toNat ≤ 127) (n : Byte) :
    serveGetPool [first, n] s =
      (s, { status := .ok, clamped := decide (8 < n.toNat),
            body := s.pool.pageBytes first.toNat (if n = 0 then 8 else min 8 n.toNat) }) := by
  simp only [serveGetPool, uField_cons_succ, uField_zero_one, if_neg (Nat.not_lt.mpr low), countOf_clamped,
    min_countOf]

theorem serveGetPool_high {first : Byte} (high : 127 < first.toNat) (n : Byte) :
    serveGetPool [first, n] s = (s, .refuse .badValue) := by
  simp only [serveGetPool, uField_zero_one, if_pos high]

end

/-- Settles O60: the messages in the order of the statement, each with the bytes its reply spells. -/
theorem readsAnswerAndChangeNothing : Obligations.ReadsAnswerAndChangeNothing := by
  intro s t b x ready
  have bay (f) : onBay [bayByte b] f s = f b s := onBay_bayByte b [] f s
  have string (f) : onString [stringByte x] 0 f s = f x s := onString_stringByte x [] f s
  refine ⟨⟨_, message_unchanged ready rfl (bay _), TrimSet.bytes_length _, ?_⟩,
    ⟨_, message_unchanged ready rfl (bay _), windowBytes_length _ _, ?_⟩,
    ⟨_, _, message_unchanged ready rfl (bay _), Bay.bytes_length _, rfl, ?_⟩,
    ⟨_, message_unchanged ready rfl rfl, StageBus.bytes_length _, ?_⟩,
    ⟨_, s.granted, message_unchanged ready rfl rfl, s.mem_granted, allBays_ascending.filter _, ?_,
      s.allowanceBytes_length⟩, fun first n low => ?_, fun first n high => ?_, ?_,
    fun tag tagged lt => ⟨fun absent => ?_, fun c found => ?_⟩,
    ⟨_, _, message_unchanged ready rfl (string _), BankString.bytes_length _, rfl, ?_⟩,
    fun pb => ⟨fun unused => ?_, fun used out => ?_⟩, fun pos p lo hi used at_ => ?_,
    ⟨_, message_unchanged ready rfl rfl, ?_, ?_⟩⟩
  · unfold TrimSet.bytes
    cases (s.trims b).pending <;> rfl
  · cases (s.wevBay b).lastRecord with
    | none => rfl
    | some r => rcases r with ⟨_ | phase⟩ <;> simp only [windowBytes, beBytes_one, bitIf_or_bitIf]
  · unfold Bay.bytes
    rw [bitIf_or_bitIf]
    simp only [beq_iff_eq]
    cases (s.bay b).profile <;> cases (s.bay b).cause <;> cases (s.bay b).grade <;> rfl
  · simp only [StageBus.bytes, beBytes_one, any_isBroadcast, flagByte, decide_eq_true_iff]
    cases s.sbc.inFlight <;> cases s.sbc.faultLow <;> rfl
  · simp only [State.allowanceBytes, beBytes_one, List.append_assoc]
  · exact ⟨_, _, _, rfl, rfl, message_unchanged ready rfl (serveGetPool_low low n), Pool.pageBytes_length _ _ _,
      Pool.pageBytes_eq _ _ _⟩
  · exact message_unchanged ready rfl (serveGetPool_high high n)
  · exact message_unchanged ready rfl serveGetCandidate_zero
  · exact message_unchanged ready (by simp [MessageKind.takes]) (serveGetCandidate_none lt tagged absent)
  · exact ⟨_, message_unchanged ready (by simp [MessageKind.takes]) (serveGetCandidate_some lt tagged found), rfl,
      by simp [Candidate.bytes_length]⟩
  · simp only [BankString.bytes, BankString.countByte, beBytes_one, List.map_cons, List.map_nil]
    cases (s.string x).profile <;> cases (s.string x).minClass <;> rfl
  · exact message_unchanged ready rfl (serveGetPosition_unused unused pb)
  · exact message_unchanged ready rfl (serveGetPosition_none used
      (position_outOfRange (out.imp_left (byte_toNat_eq_zero pb).mpr)))
  · have number : (BitVec.ofNat 8 pos).toNat = pos := by rw [BitVec.toNat_ofNat, Nat.mod_eq_of_lt (by omega)]
    refine ⟨s.positionBytes x p, fun n => (p.get n).bytes (s.partner ⟨x, pos, n⟩),
      fun n => partnerBytes (s.partner ⟨x, pos, n⟩), overrideBytes,
      message_unchanged ready rfl (serveGetPosition_some used (by rw [number, at_])), s.positionBytes_length x p,
      State.positionBytes_eq at_, fun n => ?_, rfl, fun o => rfl, fun n => ⟨Seat.bytes_length _ _, ?_⟩⟩
    · dsimp only
      cases s.partner ⟨x, pos, n⟩ with
      | none => rfl
      | some q => rcases q with ⟨cap, res, _ | _ | _⟩ <;> rfl
    · dsimp only
      cases p.get n with
      | reserved tag d under =>
        cases under with
        | empty => exact Seat.bytes_reserved_empty _ tag d
        | vacancy o => rfl
      | _ => rfl
  · simp [State.matcherBytes, PassResult.bytes_length]
  · simp only [State.matcherBytes, beBytes_one]
    cases s.plm.lastPass with
    | none => rfl
    | complete served made => rw [PassResult.bytes_complete]; rfl
    | noticeRoom served made id => rw [PassResult.bytes_noticeRoom]; rfl

end Sys2Proof.Machine
end

section
/-! The counters named in R39 to R193 stay within their tops: what each block's own changes keep, every step keeps. -/

namespace Sys2Proof.Machine

/-- Each block's own counters bear on no other block, and reset meets their tops; but a deadline is bounded by the
placement timeout from which a reservation takes it (R156, R163). -/
theorem countersBounded_closed : Closed CountersBounded where
  bay s b f keeps h := by
    obtain ⟨bays, others⟩ := h
    refine ⟨fun d => ?_, others⟩
    rw [State.updBay_bay]
    split_ifs
    exacts [keeps _ (bays b), bays d]
  wev s b f keeps h := by
    obtain ⟨bays, wevs, others⟩ := h
    refine ⟨bays, fun d => ?_, others⟩
    rw [State.updWev_wevBay]
    split_ifs
    exacts [keeps (wevs b), wevs d]
  trims _ _ _ _ h := h
  sbc s f _ keeps h := by
    obtain ⟨bays, wevs, nqa, link, plm, stalls, others⟩ := h
    exact ⟨bays, wevs, nqa, link, plm, keeps stalls, others⟩
  caa _ _ _ h := h
  pool s f _ keeps h := by
    obtain ⟨bays, wevs, nqa, link, plm, stalls, seq, due⟩ := h
    exact ⟨bays, wevs, nqa, link, plm, stalls, keeps seq, due⟩
  bank s x f _ keeps h := by
    obtain ⟨bays, wevs, nqa, link, plm, stalls, seq, due⟩ := h
    refine ⟨bays, wevs, nqa, link, plm, stalls, seq, fun y => ?_⟩
    rw [State.updString_string]
    split_ifs
    exacts [keeps plm.2.1 (due x), due y]
  tick s h := by
    obtain ⟨bays, wevs, nqa, link, plm, stalls, seq, due⟩ := h
    refine ⟨bays, wevs, nqa, link, plm, stalls, seq, fun y => ?_⟩
    have ticked : ({ s with bank := s.bank.map BankString.tick } : State).string y = (s.string y).tick := by
      simp [State.string, Vector.get_eq_getElem]
    rw [ticked]
    exact tick_due (due y)
  plm s f keeps h := by
    obtain ⟨bays, wevs, nqa, link, plm, others⟩ := h
    exact ⟨bays, wevs, nqa, link, keeps plm, others⟩
  nqa s f keeps h := by
    obtain ⟨bays, wevs, nqa, others⟩ := h
    exact ⟨bays, wevs, keeps nqa, others⟩
  link s f keeps h := by
    obtain ⟨bays, wevs, nqa, link, others⟩ := h
    exact ⟨bays, wevs, nqa, keeps link, others⟩
  profiles _ _ _ _ h := h
  handOver _ _ e h := by rw [e]; exact h
  flag _ _ h := h
  reset _ := reset_countersBounded
  pop _ _ h := h

/-- Settles O10: a step idles or runs one command, and what each block's own changes keep, every command keeps. -/
theorem stepKeepsCountersBounded : Obligations.StepKeepsCountersBounded := by
  intro s t bounded e
  rcases step_cases e with rfl | ⟨c, rest, -, e⟩
  · exact bounded
  · exact countersBounded_closed.exec e bounded

end Sys2Proof.Machine
end

section
/-! PHASE_ENTRY, CLOCK_START and PHASE_LEAVE (R32, R34, R35, R41). -/

namespace Sys2Proof.Machine

section
variable {s : State} {b : BayId} {m : WevMsg} {rest : List WevMsg}

/-- WEV takes the oldest message handed over for a bay, where it is of the kind asked for (log 3). -/
theorem wevTakeIf_cons {kind : WevMsg → Bool} (queue : s.toWev.get b = m :: rest) (is : kind m = true) :
    s.wevTakeIf b kind = ({ s with toWev := s.toWev.set b rest } : State).wevTake b m := by
  unfold State.wevTakeIf State.wevTakeHead
  simp only [queue, is, if_true]
  rfl

theorem wevLeave_none (h : (s.wevBay b).entry = none) (finished : Bool) : s.wevLeave b finished = s := by
  simp only [State.wevLeave, h]

theorem wevLeave_some {e : PhaseEntry} (h : (s.wevBay b).entry = some e) (finished : Bool) :
    s.wevLeave b finished = (s.updWev b fun _ => ((s.wevBay b).leavePhase e finished).1).tellBsq b
      (.closing ((s.wevBay b).leavePhase e finished).2) := by
  simp only [State.wevLeave, h]

theorem wevEnter_fresh (h : (s.wevBay b).cal = false) (idle : (s.wevBay b).entry = none) (p : Phase) (n : Nat) :
    s.wevEnter b p n = s.updWev b fun w =>
      { w with entry := some { phase := p, number := n, started := false }, window := none, nextIndex := 0, ring := [],
               quietRun := 0, settledOnce := false, eocRun := 0, history := [] } := by
  rw [State.wevEnter, h, wevLeave_none idle]
  rfl

theorem wevClock_some {e : PhaseEntry} (h : (s.wevBay b).entry = some e) :
    s.wevClock b = s.updWev b fun w => { w with entry := some { e with started := true } } := by
  have h : (s.wev.get b).entry = some e := h
  simp only [State.wevClock, State.updWev, updAt_eq_set, h, Option.map_some]

end

section
variable {s : State} {b : BayId} {rest : List WevMsg} (live : s.inReset = false)
include live

theorem exec_phaseEntry {p : Phase} {n : Nat} (queue : s.toWev.get b = .entry p n :: rest) :
    exec (.phaseEntry b) s = .next (({ s with toWev := s.toWev.set b rest } : State).wevEnter b p n) :=
  (event_runs (f := fun s => s.wevTakeIf b WevMsg.isEntry) live).trans
    (congrArg _ (wevTakeIf_cons queue rfl))

theorem exec_clockStart (queue : s.toWev.get b = .clockStart :: rest) :
    exec (.clockStart b) s = .next (({ s with toWev := s.toWev.set b rest } : State).wevClock b) :=
  (event_runs (f := fun s => s.wevTakeIf b WevMsg.isClock) live).trans
    (congrArg _ (wevTakeIf_cons queue rfl))

theorem exec_phaseLeave {finished answering : Bool} (queue : s.toWev.get b = .leave finished answering :: rest) :
    exec (.phaseLeave b) s = .next (({ s with toWev := s.toWev.set b rest } : State).wevLeave b finished) :=
  (event_runs (f := fun s => s.wevTakeIf b WevMsg.isLeave) live).trans
    (congrArg _ (wevTakeIf_cons queue rfl))

end

/-- Settles O27, message by message. -/
theorem wevTakesEntryClockAndLeave : Obligations.WevTakesEntryClockAndLeave := by
  intro s b rest live
  refine ⟨_, rfl, fun p n queue cal entry => ?_, fun e queue entry => ?_, fun e fin ans queue entry => ⟨_, rfl, ?_⟩⟩
  · rw [exec_phaseEntry live queue]
    exact congrArg _ (wevEnter_fresh (s := { s with toWev := s.toWev.set b rest }) cal entry p n)
  · rw [exec_clockStart live queue]
    exact congrArg _ (wevClock_some (s := { s with toWev := s.toWev.set b rest }) entry)
  · rw [exec_phaseLeave live queue]
    exact congrArg _ (wevLeave_some (s := { s with toWev := s.toWev.set b rest }) entry fin)

end Sys2Proof.Machine
end

section
/-! START, SUSPEND, ABORT and RESUME of one bay (R57, R75 to R78, R81). -/

namespace Sys2Proof.Machine

section
variable {s u : State} {b : BayId}

/-! ### Acts on one bay -/

theorem oneBay_some {act : State → BayId → Option State} (h : act s b = some u) : oneBay act b s = (u, .ok) := by
  rw [oneBay, h]

theorem oneBay_none {act : State → BayId → Option State} (h : act s b = none) :
    oneBay act b s = (s, .refuse .wrongState) := by rw [oneBay, h]

theorem startBay_loaded (h : (s.bay b).state = .loaded) :
    s.startBay b = some ((s.setWatch b true).enterPhase b .check) := if_pos h

theorem startBay_other (h : (s.bay b).state ≠ .loaded) : s.startBay b = none := if_neg h

theorem lineSuspend_phase {p : Phase} (h : (s.bay b).state = .phase p) :
    s.lineSuspend b = some (s.suspendBay b .lineRequest .ok false) := by rw [State.lineSuspend, h]

theorem lineSuspend_other (h : ∀ p, (s.bay b).state ≠ .phase p) : s.lineSuspend b = none := by
  unfold State.lineSuspend
  split
  · exact absurd ‹_› (h _)
  · rfl

/-! ### ABORT (R81) -/

/-- The record that an ABORT leaves (R81; log 19). -/
def Bay.aborted (r : Bay) : Bay := { r with state := .aborted, substate := .none, resume := none, cause := .none }

/-- What an ABORT does to every bay that takes it: the record, and the OFF under its present entry. -/
def State.abortDone (s : State) (b : BayId) : State :=
  { s with bays := s.bays.set b (s.bay b).aborted, sbc := s.sbc.write b .off 0 (s.bay b).entry }

theorem abortDone_eq (s : State) (b : BayId) :
    (s.updBay b fun r => { r with state := .aborted, substate := .none, resume := none, cause := .none }).offWrite b =
      s.abortDone b := by
  rw [State.offWrite, State.updBay_bay, if_pos rfl]
  rfl

theorem abortBay_phase {p : Phase} (h : (s.bay b).state = .phase p) :
    s.abortBay b = some ((s.leavePhase b false false false).abortDone b) := by
  simp only [State.abortBay, h, abortDone_eq]

theorem abortBay_still (h : (s.bay b).state = .loaded ∨ (s.bay b).state = .suspended) :
    s.abortBay b = some (s.abortDone b) := by
  rcases h with h | h <;> simp only [State.abortBay, h, abortDone_eq]

theorem abortBay_parked (h : (s.bay b).state = .parked) :
    s.abortBay b = some (((s.updPool fun p => { p with park := p.park.filter (· ≠ b) }).updBay b fun r =>
      { r with grade := none }).abortDone b) := by
  simp only [State.abortBay, h, abortDone_eq]

theorem abortBay_other (h : (s.bay b).state ∈ [BayState.empty, .cal, .done, .rejected, .aborted]) :
    s.abortBay b = none := by
  simp only [List.mem_cons, List.not_mem_nil, or_false] at h
  rcases h with h | h | h | h | h <;> simp only [State.abortBay, h]

end

/-- START, SUSPEND or ABORT of a bay that takes it. -/
theorem message_taken {m : MessageKind} {t : Byte} {b : BayId} {act : State → BayId → Option State} {s u : State}
    (ready : s.ready) (size : m.takes 1 = true) (takes : act s b = some u) :
    message m t [bayByte b] (onBay [bayByte b] (oneBay act)) s = .next (u.answered m.code t .ok) := by
  rw [message_ready ready size, onBay_bayByte, oneBay_some takes]

/-- START, SUSPEND or ABORT of a bay in a state that does not take it. -/
theorem message_wrongState {m : MessageKind} {t : Byte} {b : BayId} {act : State → BayId → Option State} {s : State}
    (ready : s.ready) (size : m.takes 1 = true) (no : act s b = none) :
    message m t [bayByte b] (onBay [bayByte b] (oneBay act)) s = .next (s.answered m.code t (.refuse .wrongState)) :=
  message_unchanged ready size (by rw [onBay_bayByte, oneBay_none no])

/-- Settles O31, message by message and by the state of the bay. -/
theorem startSuspendAndAbortTaken : Obligations.StartSuspendAndAbortTaken := by
  refine ⟨fun s t b ready => ⟨fun loaded => ?_, fun other => ?_, ?_, fun other => ?_⟩, ?_⟩
  · exact message_taken ready rfl (startBay_loaded loaded)
  · exact message_wrongState ready rfl (startBay_other other)
  · rintro ⟨p, phase⟩
    exact message_taken ready rfl (lineSuspend_phase phase)
  · exact message_wrongState ready rfl (lineSuspend_other other)
  · rintro s t b r ready rfl
    refine ⟨_, rfl, ?_, fun still => ?_, fun parked => ?_, fun other => ?_⟩
    · rintro ⟨p, phase⟩
      exact message_taken ready rfl (abortBay_phase phase)
    · exact message_taken ready rfl (abortBay_still still)
    · refine (message_taken ready rfl (abortBay_parked parked)).trans (congrArg _ ?_)
      rw [State.abortDone, State.updBay_bay, if_pos rfl, State.updBay_bays, updAt_eq_set, Vector.set_set]
      rfl
    · exact message_wrongState ready rfl (abortBay_other other)

/-! ### RESUME (R76 to R78) -/

theorem watchOf_none {w : Byte} (h : 1 < w.toNat) : watchOf w.toNat = none := by
  unfold watchOf
  split
  · omega
  · omega
  · rfl

theorem watchOf_some {w : Byte} (h : w.toNat ≤ 1) : watchOf w.toNat = some (w == 1) := by
  rcases Nat.le_one_iff_eq_zero_or_eq_one.mp h with z | o
  · rw [(byte_toNat_eq_zero w).mp z]; rfl
  · rw [show w = 1 from BitVec.eq_of_toNat_eq o]; rfl

theorem Cause.isNoAnswer_iff (c : Cause) : c.isNoAnswer = true ↔ ∃ k, c = .suspension .stageNoAnswer k := by
  rcases c with _ | ⟨_ | _, k⟩ | _ <;> simp [Cause.isNoAnswer]

theorem Cause.isBusStall_iff (c : Cause) : c.isBusStall = true ↔ ∃ k, c = .suspension .busStall k := by
  rcases c with _ | ⟨_ | _, k⟩ | _ <;> simp [Cause.isBusStall]

section
variable {s : State} {b : BayId} {w : Byte}

/-- What makes a bay BUSY to a RESUME (R76; logs 12, 37). -/
theorem resumeBusy_iff : s.resumeBusy b = true ↔
    s.writeInHand b = true ∨ (s.grantOf b ≠ 0 ∧ ∀ k, (s.bay b).cause ≠ .suspension .stageNoAnswer k) ∨
      (b ∈ s.sbc.recovery ∧ ∃ k, (s.bay b).cause = .suspension .busStall k) := by
  have answered : (!(s.bay b).cause.isNoAnswer) = true ↔ ∀ k, (s.bay b).cause ≠ .suspension .stageNoAnswer k := by
    rw [Bool.not_eq_true', ← Bool.not_eq_true, Cause.isNoAnswer_iff, not_exists]
  simp only [State.resumeBusy, Bool.or_eq_true, Bool.and_eq_true, decide_eq_true_iff, answered, List.contains_iff_mem,
    Cause.isBusStall_iff, or_assoc]

theorem serveResume_badWatch (h : 1 < w.toNat) : serveResume [bayByte b, w] s = (s, .refuse .badValue) := by
  rw [serveResume, onBay_bayByte, uField_cons_succ, uField_zero_one, watchOf_none h]

variable (watch : w.toNat ≤ 1)
include watch

theorem serveResume_wrongState (h : (s.bay b).state ≠ .suspended) :
    serveResume [bayByte b, w] s = (s, .refuse .wrongState) := by
  rw [serveResume, onBay_bayByte, uField_cons_succ, uField_zero_one, watchOf_some watch]
  exact if_pos h

variable (suspended : (s.bay b).state = .suspended)
include suspended

theorem serveResume_busy (h : s.resumeBusy b = true) : serveResume [bayByte b, w] s = (s, .refuse .busy) := by
  rw [serveResume, onBay_bayByte, uField_cons_succ, uField_zero_one, watchOf_some watch]
  dsimp only
  rw [if_neg (not_not.mpr suspended), if_pos h]

theorem serveResume_taken {p : Phase} (h : s.resumeBusy b = false) (left : (s.bay b).resume = some p) :
    serveResume [bayByte b, w] s = (s.doResume b (w == 1) p, .ok) := by
  rw [serveResume, onBay_bayByte, uField_cons_succ, uField_zero_one, watchOf_some watch]
  dsimp only
  rw [if_neg (not_not.mpr suspended), if_neg (by simp [h])]
  refine oneBay_some ?_
  rw [State.resumeBay, if_pos ⟨suspended, h⟩, left]
  rfl

end

/-- What a RESUME clears or sets in the record, field by field (R77). -/
theorem Bay.resumed_fields (p : Phase) (r : Bay) : r.resumed p = { r with
    cause := .none, resume := none,
    marks := { r.marks with interrupted := r.marks.interrupted || p == .discharge },
    restEnding := if p ∈ [.rest0, .rest1, .restP, .rest2, .pulse] then .none else r.restEnding,
    obsIndex := if p = .rest2 then 0 else r.obsIndex, obsFirst := if p = .rest2 then 0 else r.obsFirst,
    obsK := if p = .rest2 then 0 else r.obsK, obsLeft := if p = .rest2 then 0 else r.obsLeft,
    obsLast := if p = .rest2 then 0 else r.obsLast } := by
  cases p <;> simp [Bay.resumed, beq_eq_decide]

/-- A RESUME that passes its checks, by the cause it clears (R77, R78). -/
theorem doResume_eq (s : State) (b : BayId) (on : Bool) (p : Phase) : s.doResume b on p =
    if (s.bay b).cause.isNoAnswer then ((s.setWatch b on).updBay b (Bay.resumed p)).enterCleared b p.resumesInto
    else ((s.setWatch b on).updBay b (Bay.resumed p)).enterPhase b p.resumesInto := rfl

/-- Settles O32: the checks of RESUME one after the other, the record by `Bay.resumed_fields`. -/
theorem resumeJudgedInOrder : Obligations.ResumeJudgedInOrder := by
  intro s t w b p ready
  refine ⟨fun bad => message_unchanged ready rfl (serveResume_badWatch bad),
    fun watch other => message_unchanged ready rfl (serveResume_wrongState watch other),
    fun watch suspended busy => message_unchanged ready rfl (serveResume_busy watch suspended (resumeBusy_iff.mpr busy)),
    fun watch suspended left still =>
      ⟨p.resumesInto, _, _, by cases p <;> rfl, rfl, Bay.resumed_fields p _, fun noAnswer => ?_,
        fun answered free recovered => ?_⟩⟩
  · have calm : s.resumeBusy b = false := by
      rw [← Bool.not_eq_true, resumeBusy_iff]
      rintro (writing | ⟨-, answered⟩ | ⟨-, k, stalled⟩)
      · simp [still] at writing
      · exact noAnswer.elim answered
      · obtain ⟨j, noAnswer⟩ := noAnswer
        simp [noAnswer] at stalled
    refine (message_ready ready rfl).trans (congrArg _ ?_)
    rw [serveResume_taken watch suspended calm left, doResume_eq, if_pos ((Cause.isNoAnswer_iff _).mpr noAnswer)]
    rfl
  · have calm : s.resumeBusy b = false := by
      rw [← Bool.not_eq_true, resumeBusy_iff]
      rintro (writing | ⟨grant, -⟩ | ⟨waits, k, stalled⟩)
      · simp [still] at writing
      · exact grant free
      · exact recovered.elim (fun gone => gone waits) fun other => other k stalled
    refine (message_ready ready rfl).trans (congrArg _ ?_)
    rw [serveResume_taken watch suspended calm left, doResume_eq,
      if_neg (by rw [Cause.isNoAnswer_iff]; exact fun ⟨k, noAnswer⟩ => answered k noAnswer)]
    rfl

end Sys2Proof.Machine
end

section
/-! Windows and verdicts (R36 to R38, R43 to R51): what a closed record holds of its samples, and each outcome with what
WEV holds after it. -/

namespace Sys2Proof.Machine

/-! ### What a window in progress holds of its samples (R36) -/

/-- What a window in progress holds of the samples folded into it, the reversals apart. -/
structure WindowAcc.Holds (index : Nat) (l : List Sample) (a : WindowAcc) : Prop where
  index : a.index = index
  count : a.n = l.length
  sumV : a.sumV = (l.map Sample.v).sum
  sumI : a.sumI = (l.map Sample.i).sum
  sumT : a.sumT = (l.map Sample.t).sum
  minV : a.minV ∈ l.map Sample.v
  maxV : a.maxV ∈ l.map Sample.v
  range : ∀ y ∈ l, a.minV ≤ y.v ∧ y.v ≤ a.maxV
  firstV : l.head?.map Sample.v = some a.firstV
  lastV : l.getLast?.map Sample.v = some a.lastV
  sat : a.sat = l.any Sample.sat
  satT : a.satT = l.any Sample.satT

theorem WindowAcc.begin_holds (index : Nat) (x : Sample) : (WindowAcc.begin index x).Holds index [x] := by
  constructor <;> simp [WindowAcc.begin]

theorem WindowAcc.Holds.add {index : Nat} {l : List Sample} {a : WindowAcc} (h : a.Holds index l) (dead : Nat)
    (x : Sample) : (a.add dead x).Holds index (l ++ [x]) where
  index := h.index
  count := by simp [WindowAcc.add, h.count]
  sumV := by simp [WindowAcc.add, h.sumV]
  sumI := by simp [WindowAcc.add, h.sumI]
  sumT := by simp [WindowAcc.add, h.sumT]
  minV := by
    show min a.minV x.v ∈ _
    rw [List.map_append]
    rcases min_choice a.minV x.v with e | e <;> rw [e]
    · exact List.mem_append_left _ h.minV
    · simp
  maxV := by
    show max a.maxV x.v ∈ _
    rw [List.map_append]
    rcases max_choice a.maxV x.v with e | e <;> rw [e]
    · exact List.mem_append_left _ h.maxV
    · simp
  range y hy := by
    show min a.minV x.v ≤ y.v ∧ y.v ≤ max a.maxV x.v
    rcases List.mem_append.mp hy with hy | hy
    · have := h.range y hy
      omega
    · obtain rfl := List.mem_singleton.mp hy
      omega
  firstV := by
    have := h.firstV
    cases l <;> simp_all [WindowAcc.add]
  lastV := by simp [WindowAcc.add]
  sat := by simp [WindowAcc.add, h.sat]
  satT := by simp [WindowAcc.add, h.satT]

theorem WindowAcc.Holds.foldl {index : Nat} {l : List Sample} {a : WindowAcc} (h : a.Holds index l) (dead : Nat)
    (xs : List Sample) : (xs.foldl (WindowAcc.add dead) a).Holds index (l ++ xs) := by
  induction xs generalizing l a with
  | nil => simpa using h
  | cons x xs ih => simpa using ih (h.add dead x)

/-! ### Reversals (R38) -/

theorem turns_cons (d : Bool) (ds : List Bool) :
    turns (d :: ds) = (if ds.head? = some (!d) then 1 else 0) + turns ds := by
  cases ds with
  | nil => rfl
  | cons c cs => cases d <;> cases c <;> rfl

/-- The directions that change in a window in progress: the last one counted, and those of the samples that follow. -/
theorem foldl_add_reversals (dead : Nat) (xs : List Sample) (a : WindowAcc) :
    (xs.foldl (WindowAcc.add dead) a).reversals =
      a.reversals + turns (a.dir.toList ++ directions dead (a.lastV :: xs.map Sample.v)) := by
  induction xs generalizing a with
  | nil => cases a.dir <;> simp [directions, turns]
  | cons x xs ih =>
    rw [List.foldl_cons, ih, List.map_cons, directions]
    have up : decide ((0 : Int) < (x.v : Int) - a.lastV) = decide (a.lastV < x.v) := by
      rw [decide_eq_decide]; omega
    by_cases counted : dead < ((x.v : Int) - a.lastV).natAbs
    · rw [if_pos counted]
      simp only [WindowAcc.add, counted, up, decide_true, Bool.true_and, if_true, Option.toList_some,
        List.singleton_append]
      cases a.dir with
      | none => simp
      | some d =>
        simp only [Option.toList_some, List.singleton_append, turns_cons d, List.head?_cons]
        cases d <;> cases decide (a.lastV < x.v) <;> simp [Nat.add_assoc]
    · rw [if_neg counted]
      simp [WindowAcc.add, counted]

theorem directions_length (dead : Nat) (v : Nat) (l : List Nat) : (directions dead (v :: l)).length ≤ l.length := by
  induction l generalizing v with
  | nil => simp [directions]
  | cons w l ih =>
    have := ih w
    rw [directions]
    split_ifs <;> simp only [List.length_cons] <;> omega

theorem turns_le (l : List Bool) : turns l ≤ l.length - 1 := by
  induction l with
  | nil => exact le_rfl
  | cons d ds ih =>
    rw [turns_cons, List.length_cons]
    cases ds with
    | nil => simp [turns]
    | cons c cs =>
      rw [List.length_cons] at ih ⊢
      split_ifs <;> omega

/-! ### A closed record (R36, R37) -/

theorem roundHalfAway_eq (x : Int) (n : Nat) :
    roundHalfAway x n = (if x < 0 then -1 else 1) * (((x.natAbs + n / 2) / n : Nat) : Int) := by
  unfold roundHalfAway
  split_ifs <;> simp

/-! ### The outcomes of a verdict (R43 to R51) -/

theorem quietWindow_iff (p : Profile) (r : WindowRecord) : quietWindow p r = true ↔ r.drift.natAbs ≤ p.settleLimit := by
  simp [quietWindow]

theorem noiseWindow_eq (p : Profile) (r : WindowRecord) :
    noiseWindow p r = decide (p.revHigh ≤ r.reversals ∧ p.rippleLow ≤ r.ripple ∧ r.ripple ≤ p.rippleHigh) := by
  simp [noiseWindow, Bool.and_assoc]

theorem sagWindow_eq (p : Profile) (r : WindowRecord) :
    sagWindow p r = decide (r.reversals ≤ p.revLow ∧ r.drift ≤ -(p.sagDrift : Int)) := by
  simp [sagWindow]

theorem sagEvaluated_iff (phase : Phase) (settledOnce : Bool) : sagEvaluated phase settledOnce = true ↔
    phase = .chargeCC ∨ phase = .chargeCV ∨ (phase.isRest = true ∧ settledOnce = true) := by
  simp [sagEvaluated, or_assoc]

theorem historyAdd_eq_drop {h : List Condition} (le : h.length ≤ 3) (c : Condition) :
    historyAdd h c = (h ++ [c]).drop (h.length - 2) := by
  unfold historyAdd
  split_ifs with room
  · rw [Nat.sub_eq_zero_of_le (by omega), List.drop_zero]
  · rw [List.drop_append_of_le_length (by omega), show h.length - 2 = 1 by omega]

theorem triggerOf_noise (h : List Condition) : triggerOf h = some .noise ↔ 2 ≤ h.count .noise := by
  unfold triggerOf
  split_ifs with noise sag
  · exact iff_of_true rfl noise
  · exact iff_of_false (by simp) noise
  · exact iff_of_false (by simp) noise

theorem triggerOf_sag (h : List Condition) :
    triggerOf h = some .sag ↔ h.count .noise < 2 ∧ 2 ≤ h.count .sag := by
  unfold triggerOf
  split_ifs with noise sag
  · exact iff_of_false (by simp) (by omega)
  · exact iff_of_true rfl ⟨by omega, sag⟩
  · exact iff_of_false (by simp) (by omega)

theorem triggerOf_ne_none (h : List Condition) : triggerOf h ≠ some .none := by
  unfold triggerOf
  split_ifs <;> simp

/-- The condition of a window, from what its verdict says of NOISE and SAG (R48). -/
theorem conditionOf_verdict (noise eval sag : Bool) : conditionOf noise (eval && sag) =
    if some noise = some true then .noise
    else if (if eval then some (eval && sag) else none) = some true then .sag else .none := by
  cases noise <;> cases eval <;> simp [conditionOf]

/-- What a verdict of a phase other than CHECK says of a window, and what WEV holds after it (R43). -/
structure Judged (p : Profile) (phase : Phase) (r : WindowRecord) (satT : Bool) (w : WevBay) (v : Verdict) (t : WevBay) :
    Prop where
  record : v.record = r
  frame : t = { w with quietRun := t.quietRun, settledOnce := t.settledOnce, eocRun := t.eocRun, history := t.history,
                       watch := t.watch }
  quiet : v.quiet = if phase.isRest then some (quietWindow p r) else none
  run : v.quietRun = t.quietRun
  quietRun : t.quietRun = if phase.isRest then runCount 3 w.quietRun (quietWindow p r) else w.quietRun
  settled : v.settled = (phase.isRest && t.quietRun == 3)
  firstSettle : v.firstSettle = (v.settled && !w.settledOnce)
  settledOnce : t.settledOnce = (w.settledOnce || v.settled)
  eocRun : t.eocRun =
    if phase == .chargeCV then runCount 2 w.eocRun (decide (r.meanI ≤ (p.endCurrent : Int))) else w.eocRun
  endOfCharge : v.endOfCharge = if phase == .chargeCV then some (t.eocRun == 2) else none
  noise : v.noise = some (noiseWindow p r)
  sag : v.sag =
    if sagEvaluated phase w.settledOnce then some (sagEvaluated phase w.settledOnce && sagWindow p r) else none
  history : t.history =
    historyAdd w.history (conditionOf (noiseWindow p r) (sagEvaluated phase w.settledOnce && sagWindow p r))
  anomaly : v.anomaly = if w.watch then triggerOf t.history else none
  watch : t.watch = (w.watch && v.anomaly.isNone)
  contactLost : v.contactLost = some (decide (r.meanV < p.presentLow))
  overtemp : v.overtemp = if phase.isCurrent then some (decide (p.tempHigh < r.meanT)) else none
  sensor : v.sensor = if phase.isCurrent then some satT else none

theorem judgeWindow_judged {p : Profile} {phase : Phase} (other : phase ≠ .check) (r : WindowRecord) (satT : Bool)
    (w : WevBay) : Judged p phase r satT w (judgeWindow p phase r satT w).1 (judgeWindow p phase r satT w).2 := by
  rw [judgeWindow, if_neg other]
  constructor <;> rfl

theorem ne_check_of_isRest {phase : Phase} (rest : phase.isRest = true) : phase ≠ .check := by
  rintro rfl
  exact Bool.false_ne_true rest

/-- Three in a row fill a run of three, whatever it stood at (R44). -/
theorem runCount_three (n : Nat) (x y z : Bool) :
    runCount 3 (runCount 3 (runCount 3 n x) y) z = 3 ↔ x = true ∧ y = true ∧ z = true := by
  cases x <;> cases y <;> cases z <;> simp [runCount]

theorem runCount_two (n : Nat) (x y : Bool) : runCount 2 (runCount 2 n x) y = 2 ↔ x = true ∧ y = true := by
  cases x <;> cases y <;> simp [runCount]

/-- The end-of-charge run and the quiet run as the tests of their windows raise them (R44, R45). -/
theorem runCount_decide (top n : Nat) (c : Prop) [Decidable c] :
    runCount top n (decide c) = if c then min top (n + 1) else 0 := by simp [runCount]

/-- Settles O26: the record by `WindowAcc.Holds` and `foldl_add_reversals`, the runs by `runCount_three` and
`runCount_two`, and each outcome by its test. -/
theorem windowsSummariseAndSettle : Obligations.WindowsSummariseAndSettle := by
  refine ⟨fun dead index phase part x xs => ?_, fun p phase x y z i j k w rest => ⟨_, _, rfl, rfl, ?_⟩,
    fun p x y i j w => ?_, fun p r satT w => ⟨_, rfl, rfl, rfl, rfl, rfl, rfl, rfl, rfl, rfl, rfl, rfl, rfl⟩,
    fun p phase r satT w other => ?_⟩
  · have holds := (WindowAcc.begin_holds index x).foldl dead xs
    have reversals := foldl_add_reversals dead xs (WindowAcc.begin index x)
    rw [List.singleton_append] at holds
    generalize xs.foldl (WindowAcc.add dead) (WindowAcc.begin index x) = a at holds reversals ⊢
    replace reversals : a.reversals = turns (directions dead ((x :: xs).map Sample.v)) :=
      reversals.trans (Nat.zero_add _)
    have first : x.v = a.firstV := Option.some.inj holds.firstV
    have last : ((x :: xs).getLast (by simp)).v = a.lastV := by
      have := holds.lastV
      rw [List.getLast?_eq_getLast_of_ne_nil (by simp)] at this
      exact Option.some.inj this
    refine ⟨_, rfl, holds.index, rfl, rfl, holds.count, holds.sumV, holds.sumI, holds.minV, holds.maxV, holds.range,
      rfl, ?_, rfl, roundHalfAway_eq _ _, fun sumT sum => ?_, holds.sat, reversals, ?_, holds.satT⟩
    · rw [last, first]
      rfl
    · rw [sum, ← holds.sumT]
      exact roundHalfAway_eq _ _
    · refine reversals.trans_le ((turns_le _).trans (Nat.sub_le_sub_right ?_ 1))
      simpa using directions_length dead x.v (xs.map Sample.v)
  · have judged := judgeWindow_judged (p := p) (ne_check_of_isRest rest)
    rw [(judged _ _ _).settled, rest, Bool.true_and, beq_iff_eq, (judged _ _ _).quietRun, (judged _ _ _).quietRun,
      (judged _ _ _).quietRun, rest, if_pos rfl, if_pos rfl, if_pos rfl, runCount_three, quietWindow_iff,
      quietWindow_iff, quietWindow_iff]
  · have judged := judgeWindow_judged (p := p) (phase := .chargeCV) (by decide)
    rw [(judged _ _ _).endOfCharge, (judged _ _ _).eocRun, (judged _ _ _).eocRun, beq_self_eq_true, if_pos rfl,
      if_pos rfl, if_pos rfl, Option.some_inj, beq_iff_eq, runCount_two, decide_eq_true_iff, decide_eq_true_iff]
  · have judged := judgeWindow_judged (p := p) other r satT w
    generalize judgeWindow p phase r satT w = verdict at judged ⊢
    obtain ⟨v, t⟩ := verdict
    replace judged : Judged p phase r satT w v t := judged
    refine ⟨v, t, _, rfl, judged.record, judged.frame, ?_, ?_, judged.noise.trans (congrArg _ (noiseWindow_eq p r)), ?_,
      rfl, fun short => ?_, fun off => ?_, fun on => ?_, judged.contactLost, ?_⟩
    · have quiet := judged.quiet
      have quietRun := judged.quietRun
      have settled := judged.settled
      by_cases rest : phase.isRest = true
      · rw [rest, if_pos rfl] at quiet quietRun ⊢
        rw [rest, Bool.true_and] at settled
        exact ⟨quiet, judged.run, quietRun.trans (runCount_decide _ _ _), by simp [settled],
          by simp [judged.firstSettle], by simp [judged.settledOnce]⟩
      · rw [Bool.not_eq_true] at rest
        rw [rest, if_neg Bool.false_ne_true] at quiet quietRun ⊢
        rw [rest, Bool.false_and] at settled
        exact ⟨quiet, settled, by simp [judged.firstSettle, settled], quietRun, by simp [judged.settledOnce, settled]⟩
    · have eocRun := judged.eocRun
      have endOfCharge := judged.endOfCharge
      by_cases cv : phase = .chargeCV
      · rw [cv, beq_self_eq_true, if_pos rfl] at eocRun endOfCharge
        rw [if_pos cv]
        exact ⟨eocRun.trans (runCount_decide _ _ _), endOfCharge⟩
      · rw [beq_eq_false_iff_ne.mpr cv, if_neg Bool.false_ne_true] at eocRun endOfCharge
        rw [if_neg cv]
        exact ⟨endOfCharge, eocRun⟩
    · have sag := judged.sag
      simp only [sagEvaluated_iff] at sag
      split_ifs at sag ⊢ with eval
      · rw [sag, (sagEvaluated_iff _ _).mpr eval, Bool.true_and, sagWindow_eq]
      · exact sag
    · rw [judged.history, historyAdd_eq_drop short, judged.noise, judged.sag, conditionOf_verdict]
    · exact ⟨by simp [judged.anomaly, off], by simp [judged.watch, off]⟩
    · have anomaly := judged.anomaly
      rw [on, if_pos rfl] at anomaly
      rw [anomaly]
      refine ⟨triggerOf_noise _, triggerOf_sag _, triggerOf_ne_none _, ?_⟩
      rw [judged.watch, on, anomaly, Bool.true_and, Option.isNone_iff_eq_none]
    · have overtemp := judged.overtemp
      have sensor := judged.sensor
      split_ifs at overtemp sensor ⊢ <;> exact ⟨overtemp, sensor⟩

end Sys2Proof.Machine
end

section
/-! SAMPLE_REPORT (R61 to R69): a report counted, and its first outcome in the order of R63, phase by phase. -/

namespace Sys2Proof.Machine

/-! ### A bay record written outright -/

/-- The state with the record of a bay written. -/
def State.withBay (s : State) (b : BayId) (r : Bay) : State := { s with bays := s.bays.set b r }

section
variable (s : State) (b : BayId) (r : Bay)

theorem State.updBay_eq_withBay (f : Bay → Bay) : s.updBay b f = s.withBay b (f (s.bay b)) := rfl

@[simp] theorem State.withBay_bay : (s.withBay b r).bay b = r := set_get_self _ _ _

@[simp] theorem State.withBay_updBay (f : Bay → Bay) : (s.withBay b r).updBay b f = s.withBay b (f r) := by
  rw [State.updBay_eq_withBay, State.withBay_bay]
  simp [State.withBay]

@[simp] theorem State.withBay_mark (f : Marks → Marks) :
    (s.withBay b r).mark b f = s.withBay b { r with marks := f r.marks } := State.withBay_updBay _ _ _ _

end

/-! ### The outcomes of orders 1 to 6 (R42, R63) -/

section
variable {p : Profile} {phase : Phase} {x : SampleReport} {v : Verdict}

theorem overCurrent_iff : overCurrent p phase x = true ↔
    ∃ m, x.magnitude = some m ∧ p.phaseCurrent phase * 105 < m * 100 := by
  simp [overCurrent, Option.any_eq_true]

theorem upsetOf_unjudged (h : x.verdict = none) :
    upsetOf p phase x = if overCurrent p phase x then some (.suspend .overcurrent) else none := by
  simp [upsetOf, h]

theorem upsetOf_judged (h : x.verdict = some v) : upsetOf p phase x =
    if v.contactLost = some true then some (.suspend .contactLost)
    else if v.sensor = some true then some (.suspend .sensor)
    else if v.overtemp = some true then some (.suspend .overtemp)
    else if overCurrent p phase x then some (.suspend .overcurrent)
    else if v.anomaly = some .noise then some (.suspend .contactNoise)
    else if v.anomaly = some .sag then some (.reject .voltageSag)
    else none := by
  simp [upsetOf, h]

/-- A report with none of the outcomes of orders 1 to 6. -/
theorem upsetOf_calm (low : overCurrent p phase x = false) (calm : ∀ v, x.verdict = some v → v.contactLost ≠ some true ∧
    v.sensor ≠ some true ∧ v.overtemp ≠ some true ∧ v.anomaly ≠ some .noise ∧ v.anomaly ≠ some .sag) :
    upsetOf p phase x = none := by
  cases judged : x.verdict with
  | none => rw [upsetOf_unjudged judged, low]; rfl
  | some v =>
    obtain ⟨contact, sensor, temp, noise, sag⟩ := calm v judged
    rw [upsetOf_judged judged, if_neg contact, if_neg sensor, if_neg temp, low, if_neg Bool.false_ne_true, if_neg noise,
      if_neg sag]

end

/-! ### A report taken (R61 to R63) -/

section
variable {s : State} {b : BayId} {x : SampleReport} {phase : Phase}

/-- SAMPLE_REPORT, where a report is the oldest message of WEV (log 3). -/
theorem exec_sampleReport {rest : List BsqMsg} (live : s.inReset = false) (queue : s.toBsq.get b = .report x :: rest) :
    exec (.sampleReport b) s = .next (({ s with toBsq := s.toBsq.set b rest } : State).takeReport b x) := by
  refine (event_runs (f := fun s => s.bsqTakeIf b BsqMsg.isReport) live).trans (congrArg _ ?_)
  unfold State.bsqTakeIf State.bsqTakeHead
  simp only [queue, BsqMsg.isReport, if_true]
  rfl

theorem takeReport_discarded (h : x.entry ≠ (s.bay b).entry ∨ ∀ p, (s.bay b).state ≠ .phase p) :
    s.takeReport b x = s := by
  unfold State.takeReport
  split
  · rename_i p state
    rcases h with entry | idle
    · exact if_neg entry
    · exact absurd state (idle p)
  · rfl

section
variable (state : (s.bay b).state = .phase phase) (entry : x.entry = (s.bay b).entry)
include state entry

theorem takeReport_suspend {c : SuspensionCause} (h : upsetOf (s.profileOfBay b) phase x = some (.suspend c)) :
    s.takeReport b x = (s.updBay b (Bay.count phase x)).suspendBay b c .ok true := by
  simp only [State.takeReport, state, if_pos entry, h]

theorem takeReport_reject {c : RejectCause} (h : upsetOf (s.profileOfBay b) phase x = some (.reject c)) :
    s.takeReport b x = (s.updBay b (Bay.count phase x)).rejectBay b c := by
  simp only [State.takeReport, state, if_pos entry, h]

theorem takeReport_calm (h : upsetOf (s.profileOfBay b) phase x = none) :
    s.takeReport b x = (s.updBay b (Bay.count phase x)).phaseOutcome b (s.profileOfBay b) phase x := by
  simp only [State.takeReport, state, if_pos entry, h]

end

end

/-! ### The end of a phase, orders 7 and 8 (R64 to R68) -/

theorem settledEnd_iff (p : Profile) (r : Bay) (x : SampleReport) : settledEnd p r x = true ↔
    (∃ v, x.verdict = some v ∧ v.settled = true) ∧ p.restMin * 10 ≤ r.clock := by
  simp [settledEnd, Option.any_eq_true]

section
variable (s : State) (b : BayId) (p : Profile) (r : Bay) {x : SampleReport}

theorem phaseOutcome_unjudged (h : x.verdict = none) : s.phaseOutcome b p .check x = s := by
  simp only [State.phaseOutcome, h]

theorem phaseOutcome_check {v : Verdict} (h : x.verdict = some v) :
    s.phaseOutcome b p .check x = s.judgeCheck b p v.record := by
  simp only [State.phaseOutcome, h]

/-- The record of a bay whose rest has reached its maximum (R65, R66). -/
def Bay.unsettled (r : Bay) : Bay := { r with marks := { r.marks with unsettled := true } }

/-- REST0 and REST1 (R65). -/
theorem phaseOutcome_rest {phase q : Phase}
    (h : (phase = .rest0 ∧ q = .chargeCC) ∨ (phase = .rest1 ∧ q = .discharge)) (x : SampleReport) :
    (s.withBay b r).phaseOutcome b p phase x =
      if settledEnd p r x then (s.withBay b r).nextPhase b q
      else if p.restMax * 10 ≤ r.clock then
        (s.withBay b r.unsettled).nextPhase b q
      else s.withBay b r := by
  rcases h with ⟨rfl, rfl⟩ | ⟨rfl, rfl⟩ <;>
    simp only [State.phaseOutcome, State.withBay_bay, State.withBay_mark, if_true, reduceCtorEq, if_false] <;> rfl

/-- CHARGE_CC and CHARGE_CV, by what ends each of its own condition (R67). -/
theorem phaseOutcome_charge {phase : Phase} {ended : Prop} [Decidable ended]
    (h : (phase = .chargeCC ∧ ended = (x.cvCrossed = true)) ∨
      (phase = .chargeCV ∧ ended = ∃ v, x.verdict = some v ∧ v.endOfCharge = some true)) :
    (s.withBay b r).phaseOutcome b p phase x =
      if ended then (s.withBay b r).nextPhase b (if phase = .chargeCC then .chargeCV else .rest1)
      else if p.chargeLimit * 600 ≤ r.chargeTime then
        (s.withBay b { r with marks := { r.marks with chargeTimeout := true } }).nextPhase b .rest1
      else s.withBay b r := by
  have endOfCharge : x.verdict.any (·.endOfCharge == some true) = true ↔
      ∃ v, x.verdict = some v ∧ v.endOfCharge = some true := by simp [Option.any_eq_true]
  rcases h with ⟨rfl, rfl⟩ | ⟨rfl, rfl⟩ <;>
    simp only [State.phaseOutcome, State.withBay_bay, State.withBay_mark, endOfCharge, if_true, reduceCtorEq, if_false]

theorem phaseOutcome_discharge (x : SampleReport) :
    (s.withBay b r).phaseOutcome b p .discharge x =
      if x.cutoff then (s.withBay b r).nextPhase b .restP
      else if p.dischargeLimit * 600 ≤ r.dischargeTime then
        (s.withBay b { r with marks := { r.marks with dischargeTimeout := true } }).nextPhase b .restP
      else s.withBay b r := by
  simp only [State.phaseOutcome, State.withBay_bay, State.withBay_mark]

theorem phaseOutcome_restP (x : SampleReport) :
    (s.withBay b r).phaseOutcome b p .restP x =
      if p.prePulse ≤ r.clock then (s.withBay b r).nextPhase b .pulse else s.withBay b r := by
  simp only [State.phaseOutcome, State.withBay_bay]

theorem phaseOutcome_pulse (x : SampleReport) :
    (s.withBay b r).phaseOutcome b p .pulse x =
      if p.pulseLen ≤ r.clock then (s.withBay b r).nextPhase b .rest2 else s.withBay b r := by
  simp only [State.phaseOutcome, State.withBay_bay]

/-- The record that the end of the rest part leaves: an observation opened, where the profile has one (R66). -/
def Bay.restPartEnded (p : Profile) (how : RestEnding) (r : Bay) : Bay :=
  if p.observation = 0 then { r with restEnding := how }
  else { r with restEnding := how, obsIndex := r.lastIndex, obsFirst := r.lastSumV, obsK := p.obsWindows,
                obsLeft := p.obsWindows }

theorem restPartEnded_withBay (how : RestEnding) :
    (s.withBay b r).restPartEnded b p how r.lastIndex r.lastSumV =
      if p.observation = 0 then (s.withBay b (r.restPartEnded p how)).finishTest b
      else s.withBay b (r.restPartEnded p how) := by
  unfold State.restPartEnded Bay.restPartEnded
  split_ifs <;> simp only [State.withBay_updBay]

/-- The rest part of REST2 (R66). -/
theorem phaseOutcome_rest2_rest (h : r.restEnding = .none) (x : SampleReport) :
    (s.withBay b r).phaseOutcome b p .rest2 x =
      if settledEnd p r x then
        if p.observation = 0 then (s.withBay b (r.restPartEnded p .settled)).finishTest b
        else s.withBay b (r.restPartEnded p .settled)
      else if p.restMax * 10 ≤ r.clock then
        if p.observation = 0 then (s.withBay b (r.unsettled.restPartEnded p .maximum)).finishTest b
        else s.withBay b (r.unsettled.restPartEnded p .maximum)
      else s.withBay b r := by
  rw [← restPartEnded_withBay, ← restPartEnded_withBay]
  unfold State.phaseOutcome
  simp only [State.withBay_bay, State.withBay_mark]
  split
  · rfl
  · exact absurd h ‹_›

theorem phaseOutcome_observing_unjudged (h : r.restEnding ≠ .none) (unjudged : x.verdict = none) :
    (s.withBay b r).phaseOutcome b p .rest2 x = s.withBay b r := by
  unfold State.phaseOutcome
  simp only [State.withBay_bay, unjudged]

/-- The observation of REST2 (R66). -/
theorem phaseOutcome_observing (h : r.restEnding ≠ .none) {v : Verdict} (judged : x.verdict = some v) :
    (s.withBay b r).phaseOutcome b p .rest2 x =
      if r.obsLeft ≤ 1 then (s.withBay b { r with obsLeft := 0, obsLast := v.record.sumV }).finishTest b
      else s.withBay b { r with obsLeft := r.obsLeft - 1 } := by
  unfold State.phaseOutcome
  simp only [State.withBay_bay, State.withBay_updBay, judged]

end

/-- The three branches of a phase that ends by its own condition or at a limit, one by one. -/
theorem ended_limit_open {c : Prop} [Decidable c] {limit n : Nat} {s own late stay : State}
    (h : s = if c then own else if limit ≤ n then late else stay) :
    (c → s = own) ∧ (¬ c → limit ≤ n → s = late) ∧ (¬ c → n < limit → s = stay) :=
  ⟨fun hc => by rw [h, if_pos hc], fun hc hl => by rw [h, if_neg hc, if_pos hl],
    fun hc hl => by rw [h, if_neg hc, if_neg (Nat.not_le.mpr hl)]⟩

/-- Settles O35: the outcomes of orders 1 to 6 by `upsetOf_judged` and `upsetOf_unjudged`, the end of each phase by its
own lemma. -/
theorem reportCountedThenJudged : Obligations.ReportCountedThenJudged := by
  intro s b x rest u0 live queue hu0
  have report : exec (.sampleReport b) s = .next (u0.takeReport b x) := by rw [hu0]; exact exec_sampleReport live queue
  have bays : s.bays = u0.bays := by rw [hu0]
  have bay : s.bay b = u0.bay b := by rw [hu0]; rfl
  have profile : s.profileOfBay b = u0.profileOfBay b := by rw [hu0]; rfl
  rw [report, bays, bay, profile]
  clear hu0 report
  refine ⟨fun out => congrArg _ (takeReport_discarded out), fun p state entry =>
    ⟨u0.withBay b, _, _, _, _, _, rfl, rfl, rfl, rfl, rfl, rfl, ?_⟩⟩
  have suspends {c : SuspensionCause} (h : upsetOf (u0.profileOfBay b) p x = some (.suspend c)) :=
    takeReport_suspend state entry h
  have rejects {c : RejectCause} (h : upsetOf (u0.profileOfBay b) p x = some (.reject c)) :=
    takeReport_reject state entry h
  have calms (h : upsetOf (u0.profileOfBay b) p x = none) := takeReport_calm state entry h
  simp only [State.updBay_eq_withBay] at suspends rejects calms
  generalize (u0.bay b).count p x = r at *
  generalize u0.profileOfBay b = prof at *
  simp only [Host.Outcome.next.injEq]
  rw [← overCurrent_iff]
  refine ⟨fun v judged => ⟨fun contact => ?_, fun contact sensor => ?_, fun contact sensor temp => ?_,
    fun contact sensor temp above => ?_, fun contact sensor temp low => ⟨fun noise => ?_, fun sag => ?_⟩⟩,
    fun unjudged above => ?_, fun calm => ?_⟩
  · exact suspends (by rw [upsetOf_judged judged, if_pos contact])
  · exact suspends (by rw [upsetOf_judged judged, if_neg contact, if_pos sensor])
  · exact suspends (by rw [upsetOf_judged judged, if_neg contact, if_neg sensor, if_pos temp])
  · exact suspends (by rw [upsetOf_judged judged, if_neg contact, if_neg sensor, if_neg temp, if_pos above])
  · exact suspends (by
      rw [upsetOf_judged judged, if_neg contact, if_neg sensor, if_neg temp, if_neg low, if_pos noise])
  · exact rejects (by
      rw [upsetOf_judged judged, if_neg contact, if_neg sensor, if_neg temp, if_neg low, if_neg (by simp [sag]),
        if_pos sag])
  · exact suspends (by rw [upsetOf_unjudged unjudged, if_pos above])
  rw [calms (upsetOf_calm (Bool.not_eq_true _ ▸ calm.1) calm.2)]
  refine ⟨?_, fun q settled phase hs => ?_, fun ended phase => ?_, ?_, ?_, ?_, ?_, ?_⟩
  · rintro rfl
    exact ⟨fun unjudged => phaseOutcome_unjudged _ _ _ unjudged, fun v judged => phaseOutcome_check _ _ _ judged⟩
  · rw [hs, ← settledEnd_iff]
    exact ended_limit_open (phaseOutcome_rest _ _ _ _ phase x)
  · classical exact ended_limit_open (phaseOutcome_charge _ _ _ _ phase)
  · rintro rfl
    rw [← Bool.not_eq_true]
    exact ended_limit_open (phaseOutcome_discharge _ _ _ _ x)
  · rintro rfl
    exact phaseOutcome_restP _ _ _ _ x
  · rintro rfl
    exact phaseOutcome_pulse _ _ _ _ x
  · rintro rfl resting settled ends k hs rfl rfl
    rw [hs, ← settledEnd_iff]
    obtain ⟨own, late, stay⟩ := ended_limit_open (phaseOutcome_rest2_rest u0 b prof r resting x)
    exact ⟨own, fun marks e => e ▸ late, stay⟩
  · rintro rfl observing
    refine ⟨fun unjudged => phaseOutcome_observing_unjudged _ _ _ _ observing unjudged, fun v judged => ?_⟩
    rw [phaseOutcome_observing _ _ _ _ observing judged]
    exact ⟨fun last => if_pos last, fun more => if_neg (Nat.not_le.mpr more)⟩

end Sys2Proof.Machine
end

section
/-! Tags in custody (R55, R129, R130, R134): who holds which tag, seen apart from the rest of the state, and the few ways
in which a tag changes hands. -/

namespace Sys2Proof.Machine

/-! ### The ledger of tags -/

/-- What `TagsHeldOnce` says, of which bay holds which tag, of the records, and of which seat is RESERVED or INSTALLED
with which tag: a reservation is a record that names its seat and a seat that names its record, so that the two are
one relation. -/
structure Ledger (bay : BayId → Nat → Prop) (records : List Candidate) (reserved installed : SeatId → Nat → Prop) :
    Prop where
  oneBay : ∀ b c tag, bay b tag → bay c tag → b = c
  oneRecord : (records.map fun c => c.grade.tag).Nodup
  oneSeat : ∀ id d tag, installed id tag → installed d tag → id = d
  bayOrRecord : ∀ b, ∀ c ∈ records, ¬ bay b c.grade.tag
  bayOrSeat : ∀ b id tag, bay b tag → ¬ installed id tag
  recordOrSeat : ∀ c ∈ records, ∀ id, ¬ installed id c.grade.tag
  matched : ∀ id tag, reserved id tag ↔ ∃ c ∈ records, c.grade.tag = tag ∧ c.status = some id

namespace Ledger

variable {bay bay' : BayId → Nat → Prop} {records : List Candidate} {reserved installed installed' : SeatId → Nat → Prop}

/-- Two records of one tag are one record. -/
theorem record_unique (l : Ledger bay records reserved installed) {c d : Candidate} (hc : c ∈ records)
    (hd : d ∈ records) (e : c.grade.tag = d.grade.tag) : c = d :=
  List.inj_on_of_nodup_map l.oneRecord hc hd e

/-- Bays and seats let tags go. -/
theorem mono (l : Ledger bay records reserved installed) (bays : ∀ b tag, bay' b tag → bay b tag)
    (seats : ∀ id tag, installed' id tag → installed id tag) : Ledger bay' records reserved installed' where
  oneBay b c tag hb hc := l.oneBay b c tag (bays _ _ hb) (bays _ _ hc)
  oneRecord := l.oneRecord
  oneSeat id d tag hi hd := l.oneSeat id d tag (seats _ _ hi) (seats _ _ hd)
  bayOrRecord b c hc hb := l.bayOrRecord b c hc (bays _ _ hb)
  bayOrSeat b id tag hb hi := l.bayOrSeat b id tag (bays _ _ hb) (seats _ _ hi)
  recordOrSeat c hc id hi := l.recordOrSeat c hc id (seats _ _ hi)
  matched := l.matched

/-- A tag that no bay, no record and no INSTALLED seat holds; with them no RESERVED seat does. -/
structure Free (bay : BayId → Nat → Prop) (records : List Candidate) (installed : SeatId → Nat → Prop) (tag : Nat) :
    Prop where
  bay : ∀ b, ¬ bay b tag
  record : ∀ c ∈ records, c.grade.tag ≠ tag
  seat : ∀ id, ¬ installed id tag

/-- A bay takes a free tag. -/
theorem load (l : Ledger bay records reserved installed) {tag : Nat} (free : Free bay records installed tag) (b : BayId)
    (bays : ∀ d t, bay' d t → bay d t ∨ (d = b ∧ t = tag)) : Ledger bay' records reserved installed where
  oneBay c d t hc hd := by
    rcases bays c t hc with hc | ⟨rfl, rfl⟩ <;> rcases bays d t hd with hd | ⟨rfl, e⟩
    · exact l.oneBay c d t hc hd
    · exact absurd (e ▸ hc) (free.bay c)
    · exact absurd hd (free.bay d)
    · rfl
  oneRecord := l.oneRecord
  oneSeat := l.oneSeat
  bayOrRecord d c hc hd := by
    rcases bays _ _ hd with hd | ⟨-, e⟩
    exacts [l.bayOrRecord d c hc hd, free.record c hc e]
  bayOrSeat d id t hd hi := by
    rcases bays _ _ hd with hd | ⟨-, rfl⟩
    exacts [l.bayOrSeat d id t hd hi, free.seat id hi]
  recordOrSeat := l.recordOrSeat
  matched := l.matched

/-- A record of a free tag enters the pool, FREE (R126). -/
theorem enter (l : Ledger bay records reserved installed) {c : Candidate} {records' : List Candidate}
    (free : Free bay records installed c.grade.tag) (open_ : c.status = none) (perm : records'.Perm (c :: records)) :
    Ledger bay records' reserved installed where
  oneBay := l.oneBay
  oneRecord := by
    refine (perm.map _).nodup_iff.mpr (List.nodup_cons.mpr ⟨fun h => ?_, l.oneRecord⟩)
    obtain ⟨d, hd, e⟩ := List.mem_map.mp h
    exact free.record d hd e
  oneSeat := l.oneSeat
  bayOrRecord b d hd := by
    rcases List.mem_cons.mp (perm.mem_iff.mp hd) with rfl | hd
    exacts [free.bay b, l.bayOrRecord b d hd]
  bayOrSeat := l.bayOrSeat
  recordOrSeat d hd := by
    rcases List.mem_cons.mp (perm.mem_iff.mp hd) with rfl | hd
    exacts [free.seat, l.recordOrSeat d hd]
  matched id tag := by
    rw [l.matched]
    simp [perm.mem_iff, open_]

/-- A record leaves the pool, and its reservation ends (R131, R141). -/
theorem remove (l : Ledger bay records reserved installed) (tag : Nat) :
    Ledger bay (records.filter fun c => !(c.grade.tag == tag)) (fun id t => reserved id t ∧ t ≠ tag) installed where
  oneBay := l.oneBay
  oneRecord := l.oneRecord.sublist (List.filter_sublist.map _)
  oneSeat := l.oneSeat
  bayOrRecord b c hc := l.bayOrRecord b c (List.mem_of_mem_filter hc)
  bayOrSeat := l.bayOrSeat
  recordOrSeat c hc := l.recordOrSeat c (List.mem_of_mem_filter hc)
  matched id t := by
    rw [l.matched]
    simp only [List.mem_filter, Bool.not_eq_true', beq_eq_false_iff_ne]
    constructor
    · rintro ⟨⟨c, hc, rfl, hs⟩, ne⟩
      exact ⟨c, ⟨hc, ne⟩, rfl, hs⟩
    · rintro ⟨c, ⟨hc, ne⟩, rfl, hs⟩
      exact ⟨⟨c, hc, rfl, hs⟩, ne⟩

/-- With its record the tag is gone. -/
theorem removed_free (l : Ledger bay records reserved installed) {c : Candidate} (hc : c ∈ records) :
    Free bay (records.filter fun d => !(d.grade.tag == c.grade.tag)) installed c.grade.tag where
  bay b := l.bayOrRecord b c hc
  record d hd := by simpa using (List.mem_filter.mp hd).2
  seat := l.recordOrSeat c hc

/-- The record of a tag is given another status, its seat with it (R141, R162). -/
theorem setStatus (l : Ledger bay records reserved installed) {c : Candidate} (hc : c ∈ records) (st : Option SeatId)
    {f : Candidate → Candidate} (grade : ∀ d, (f d).grade = d.grade) (status : ∀ d, (f d).status = st) :
    Ledger bay (records.map fun d => if d.grade.tag == c.grade.tag then f d else d)
      (fun id t => (reserved id t ∧ t ≠ c.grade.tag) ∨ (st = some id ∧ t = c.grade.tag)) installed := by
  have tags : ∀ d : Candidate, (if d.grade.tag == c.grade.tag then f d else d).grade = d.grade := fun d => by
    split_ifs <;> simp [grade]
  refine ⟨l.oneBay, ?_, l.oneSeat, fun b d hd => ?_, l.bayOrSeat, fun d hd => ?_, fun id t => ?_⟩
  · rw [List.map_map]
    exact (congrArg (fun g => (records.map g).Nodup) (funext fun d => congrArg GradeRecord.tag (tags d))).mpr l.oneRecord
  · obtain ⟨e, he, rfl⟩ := List.mem_map.mp hd
    rw [tags]
    exact l.bayOrRecord b e he
  · obtain ⟨e, he, rfl⟩ := List.mem_map.mp hd
    rw [tags]
    exact l.recordOrSeat e he
  · rw [l.matched]
    constructor
    · rintro (⟨⟨d, hd, rfl, hs⟩, ne⟩ | ⟨rfl, rfl⟩)
      · exact ⟨d, List.mem_map.mpr ⟨d, hd, by simp [ne]⟩, rfl, hs⟩
      · exact ⟨f c, List.mem_map.mpr ⟨c, hc, by simp⟩, by rw [grade], status c⟩
    · rintro ⟨e, he, rfl, hs⟩
      obtain ⟨d, hd, rfl⟩ := List.mem_map.mp he
      rw [tags]
      by_cases own : d.grade.tag = c.grade.tag
      · rw [if_pos (by simpa using own), status] at hs
        exact .inr ⟨hs, own⟩
      · rw [if_neg (by simpa using own)] at hs
        exact .inl ⟨⟨d, hd, rfl, hs⟩, own⟩

/-- A module of a free tag is installed (R146). -/
theorem install (l : Ledger bay records reserved installed) {tag : Nat} (free : Free bay records installed tag)
    (id : SeatId) (seats : ∀ d t, installed' d t → installed d t ∨ (d = id ∧ t = tag)) :
    Ledger bay records reserved installed' where
  oneBay := l.oneBay
  oneRecord := l.oneRecord
  oneSeat c d t hc hd := by
    rcases seats c t hc with hc | ⟨rfl, rfl⟩ <;> rcases seats d t hd with hd | ⟨rfl, e⟩
    · exact l.oneSeat c d t hc hd
    · exact absurd (e ▸ hc) (free.seat c)
    · exact absurd hd (free.seat d)
    · rfl
  bayOrRecord := l.bayOrRecord
  bayOrSeat b d t hb hd := by
    rcases seats d t hd with hd | ⟨-, rfl⟩
    exacts [l.bayOrSeat b d t hb hd, free.bay b hb]
  recordOrSeat c hc d hd := by
    rcases seats d _ hd with hd | ⟨-, e⟩
    exacts [l.recordOrSeat c hc d hd, free.record c hc e]
  matched := l.matched

/-- The relations of a ledger matter only in what they relate. -/
theorem congr {reserved' : SeatId → Nat → Prop} (l : Ledger bay records reserved installed)
    (same : ∀ id tag, reserved' id tag ↔ reserved id tag) : Ledger bay records reserved' installed :=
  ⟨l.oneBay, l.oneRecord, l.oneSeat, l.bayOrRecord, l.bayOrSeat, l.recordOrSeat, fun id tag =>
    (same id tag).trans (l.matched id tag)⟩

end Ledger

/-! ### The ledger of a state -/

/-- A seat is RESERVED with a tag. -/
def State.reserves (s : State) (id : SeatId) (tag : Nat) : Prop := ∃ n under, s.seat id = some (.reserved tag n under)

/-- A seat is INSTALLED with a tag. -/
def State.installs (s : State) (id : SeatId) (tag : Nat) : Prop := ∃ g, s.seat id = some (.installed g) ∧ g.tag = tag

def State.Ledger (s : State) : Prop :=
  Machine.Ledger (fun b tag => (s.bay b).holds tag = true) s.pool.records s.reserves s.installs

/-- A tag that nothing in the state holds. -/
def State.Free (s : State) (tag : Nat) : Prop :=
  Ledger.Free (fun b tag => (s.bay b).holds tag = true) s.pool.records s.installs tag

theorem Seat.tag_eq_some (e : Seat) (tag : Nat) :
    e.tag = some tag ↔ (∃ n under, e = .reserved tag n under) ∨ ∃ g, e = .installed g ∧ g.tag = tag := by
  cases e <;> simp [Seat.tag]

theorem State.seat_tag_iff (s : State) (id : SeatId) (tag : Nat) :
    (∃ e, s.seat id = some e ∧ e.tag = some tag) ↔ s.reserves id tag ∨ s.installs id tag := by
  unfold State.reserves State.installs
  cases s.seat id with
  | none => simp
  | some e => simp [Seat.tag_eq_some]

theorem tagsHeldOnce_iff (s : State) : TagsHeldOnce s ↔ s.Ledger := by
  constructor
  · rintro ⟨bays, records, seats, bay, record, status, reserved⟩
    refine ⟨bays, records, fun id d tag hi hd => ?_, fun b c hc hb => (bay b _ hb).1 c hc rfl, ?_, ?_, fun id tag => ?_⟩
    · obtain ⟨x, hx, tx⟩ := (s.seat_tag_iff id tag).mpr (.inr hi)
      obtain ⟨y, hy, ty⟩ := (s.seat_tag_iff d tag).mpr (.inr hd)
      exact seats id d x y tag hx hy tx ty
    · rintro b id tag hb ⟨g, hg, rfl⟩
      exact (bay b _ hb).2 id _ hg rfl
    · rintro c hc id ⟨g, hg, e⟩
      exact record c hc id g hg e
    · constructor
      · rintro ⟨n, under, h⟩
        exact reserved id tag n under h
      · rintro ⟨c, hc, rfl, hs⟩
        exact status c hc id hs
  · intro l
    refine ⟨l.oneBay, l.oneRecord, fun id d x y tag hx hy tx ty => ?_, fun b tag hb => ⟨fun c hc e => ?_,
      fun id x hx tx => ?_⟩, fun c hc id g hg e => l.recordOrSeat c hc id ⟨g, hg, e⟩, fun c hc id hs =>
      (l.matched id _).mpr ⟨c, hc, rfl, hs⟩, fun id tag n under h => (l.matched id tag).mp ⟨n, under, h⟩⟩
    · rcases (s.seat_tag_iff id tag).mp ⟨x, hx, tx⟩ with hi | hi <;>
        rcases (s.seat_tag_iff d tag).mp ⟨y, hy, ty⟩ with hd | hd
      · obtain ⟨c, hc, ec, sc⟩ := (l.matched id tag).mp hi
        obtain ⟨c', hc', ec', sc'⟩ := (l.matched d tag).mp hd
        obtain rfl := l.record_unique hc hc' (ec.trans ec'.symm)
        exact Option.some.inj (sc.symm.trans sc')
      · obtain ⟨c, hc, rfl, -⟩ := (l.matched id tag).mp hi
        exact absurd hd (l.recordOrSeat c hc d)
      · obtain ⟨c, hc, rfl, -⟩ := (l.matched d tag).mp hd
        exact absurd hi (l.recordOrSeat c hc id)
      · exact l.oneSeat id d tag hi hd
    · exact l.bayOrRecord b c hc (e ▸ hb)
    · rcases (s.seat_tag_iff id tag).mp ⟨x, hx, tx⟩ with hi | hi
      · obtain ⟨c, hc, rfl, -⟩ := (l.matched id tag).mp hi
        exact l.bayOrRecord b c hc hb
      · exact l.bayOrSeat b id tag hb hi

theorem Bay.holds_iff (r : Bay) (tag : Nat) : r.holds tag = true ↔ r.state.holdsTag = true ∧ r.tag = some tag := by
  simp [Bay.holds]

theorem free_of_not_tagHeld {s : State} {tag : Nat} (h : ¬ s.tagHeld tag = true) : s.Free tag := by
  simp only [State.tagHeld, Bool.or_eq_true, not_or, any_toList] at h
  simp only [List.any_eq_true, not_exists, not_and, beq_iff_eq] at h
  obtain ⟨⟨bays, records⟩, seats⟩ := h
  refine ⟨bays, records, ?_⟩
  rintro id ⟨g, hg, rfl⟩
  exact seats id.str _ (seat_mem hg) rfl

theorem insertCandidate_perm (c : Candidate) (l : List Candidate) : (insertCandidate c l).Perm (c :: l) := by
  induction l with
  | nil => exact .refl _
  | cons d l ih =>
    unfold insertCandidate
    split_ifs
    exacts [.refl _, (ih.cons d).trans (.swap c d l)]

end Sys2Proof.Machine
end

section
/-! What every command keeps of the bays and of the tags (R55, R127, R129, R130, R134): `Custody`, command by command. -/

namespace Sys2Proof.Machine

/-- The bays are whole, and where the tags are followed too (`tags`), the ledger of tags holds. The tags rest on the
whole bays, which rest on nothing else. -/
structure Custody (tags : Prop) (s : State) : Prop where
  whole : BaysWhole s
  ledger : tags → s.Ledger

/-- What of a state holds modules and tags. -/
def State.custody (s : State) : Vector Bay 48 × Pool × Vector BankString 16 := (s.bays, s.pool, s.bank)

theorem custody_of_refs {s t : State} (e : t.refs = s.refs) : t.custody = s.custody := congrArg Prod.snd e

/-- What of a bay record its custody rests on. -/
def Bay.module (r : Bay) : BayState × Option Nat × Option ProfileId × Option GradeRecord :=
  (r.state, r.tag, r.profile, r.grade)

theorem Bay.count_module (p : Phase) (x : SampleReport) (r : Bay) : (r.count p x).module = r.module := by
  unfold Bay.count Bay.addDischarge
  cases x.verdict <;> dsimp only <;> split_ifs <;> rfl

theorem Bay.takeClosing_module (c : ClosingReport) (r : Bay) : (r.takeClosing c).module = r.module := by
  unfold Bay.takeClosing Bay.addDischarge
  cases c.phase <;> cases c.part <;> split_ifs <;> rfl

theorem Bay.resumed_module (p : Phase) (r : Bay) : (r.resumed p).module = r.module := by cases p <;> rfl

theorem BayState.inTest_holdsTag {x : BayState} (h : x.inTest = true) : x.holdsTag = true := by
  cases x with
  | loaded | suspended | phase _ => rfl
  | _ => exact absurd h Bool.false_ne_true

theorem BayState.inTest_ne_parked {x : BayState} (h : x.inTest = true) : x ≠ .parked := by
  rintro rfl; exact absurd h (by decide)

theorem BayState.holdsTag_ne {x : BayState} (h : x.holdsTag = true) : x ≠ .empty ∧ x ≠ .cal ∧ x ≠ .done := by
  refine ⟨?_, ?_, ?_⟩ <;> rintro rfl <;> exact absurd h (by decide)

/-! ### The end of the test (R70, R71; log 5) -/

/-- The record of a bay whose finished phase ended under a watch that was armed or not (R70). -/
def Bay.watched (w : WevBay) (r : Bay) : Bay :=
  { r with marks := { r.marks with watchOff := r.marks.watchOff || !w.watch } }

/-- WEV after the leave of a finished phase, where it holds one (R35). -/
def WevBay.left (w : WevBay) : WevBay :=
  match w.entry with
  | none => w
  | some e => (w.leavePhase e true).1

/-- The state in which GRU grades at the end of REST2: the leave and the closing report taken (R71). -/
def State.testEnded (s : State) (b : BayId) : State :=
  { s with
    bays := s.bays.set b ((s.bay b).watched (s.wevBay b))
    wev := s.wev.set b (s.wevBay b).left
    toCaa := s.toCaa ++ [.leave b] }

/-- The inputs of GRU at the end of REST2 (R107). -/
def State.finalInputs (s : State) (b : BayId) : GradeInputs :=
  ((s.bay b).watched (s.wevBay b)).gradeInputs b (decide ((s.profileOfBay b).observation ≠ 0))

theorem finishTest_eq (s : State) (b : BayId) :
    s.finishTest b = (s.testEnded b).settleGrade b (gradeRecord (s.profileOfBay b) (s.finalInputs b)) := by
  have own : (s.testEnded b).bay b = (s.bay b).watched (s.wevBay b) := set_get_self _ _ _
  have profile : (s.testEnded b).profileOfBay b = s.profileOfBay b := by
    rw [State.profileOfBay, own]; rfl
  have graded : ∀ u, u = s.testEnded b → u.settleGrade b (gradeRecord (u.profileOfBay b) ((u.bay b).gradeInputs b
      (decide ((u.profileOfBay b).observation ≠ 0)))) =
        (s.testEnded b).settleGrade b (gradeRecord (s.profileOfBay b) (s.finalInputs b)) := by
    rintro _ rfl
    rw [own, profile]
    rfl
  refine graded _ ?_
  unfold State.testEnded WevBay.left
  cases (s.wevBay b).entry with
  | none => simp only [State.wevBay, set_own]; rfl
  | some e => rfl

namespace Custody

open Closed (keeps_if)

variable {tags : Prop} {s t : State}

/-! ### Changes of one block -/

/-- A change of what holds no module and no tag. -/
theorem same (h : Custody tags s) (e : t.custody = s.custody) : Custody tags t := by
  have bay : ∀ b, t.bay b = s.bay b := fun b => congrArg (fun r => r.1.get b) e
  have pool : t.pool = s.pool := congrArg (fun r => r.2.1) e
  have seat : ∀ id, t.seat id = s.seat id := fun id =>
    congrArg (fun r => ((r.2.2.get id.str).position id.pos).map (·.get id.seat)) e
  have reserved : t.reserves = s.reserves := by funext id tag; simp only [State.reserves, seat]
  have installed : t.installs = s.installs := by funext id tag; simp only [State.installs, seat]
  refine ⟨?_, fun on => ?_⟩
  · simp only [BaysWhole, bay, pool]
    exact h.whole
  · simp only [State.Ledger, bay, pool, reserved, installed]
    exact h.ledger on

/-- A change of records and seats, where the ledger still holds. -/
theorem recorded (h : Custody tags s) (bays : t.bays = s.bays) (park : t.pool.park = s.pool.park)
    (ledger : tags → t.Ledger) : Custody tags t := by
  refine ⟨?_, ledger⟩
  have whole := h.whole
  unfold BaysWhole State.bay at *
  rwa [bays, park]

/-- A bay keeps its module, whatever else of its record changes. -/
theorem keepBay (h : Custody tags s) (b : BayId) (f : Bay → Bay) (keeps : (f (s.bay b)).module = (s.bay b).module) :
    Custody tags (s.updBay b f) := by
  obtain ⟨⟨nodup, whole⟩, ledger⟩ := h
  simp only [Bay.module, Prod.mk.injEq] at keeps
  obtain ⟨state, tag, profile, grade⟩ := keeps
  refine ⟨⟨nodup, fun d => ?_⟩, fun on => (ledger on).mono (fun d n => ?_) fun _ _ h => h⟩
  · rw [State.updBay_bay]
    split_ifs with own
    · subst own
      rw [state, tag, profile, grade]
      exact whole b
    · exact whole d
  · rw [State.updBay_bay]
    split_ifs with own
    · subst own
      rw [Bay.holds, state, tag]
      exact id
    · exact id

/-- A bay that is not PARKED becomes one that is not. -/
theorem wholeBay (h : Custody tags s) (b : BayId) (f : Bay → Bay) (out : (s.bay b).state ≠ .parked)
    (stays : (f (s.bay b)).state ≠ .parked)
    (has : (f (s.bay b)).state ≠ .empty → (f (s.bay b)).state ≠ .cal →
      (f (s.bay b)).tag.isSome = true ∧ (f (s.bay b)).profile.isSome = true) : BaysWhole (s.updBay b f) := by
  obtain ⟨⟨nodup, whole⟩, -⟩ := h
  refine ⟨nodup, fun d => ?_⟩
  rw [State.updBay_bay]
  split_ifs with own
  · subst own
    exact ⟨⟨fun parked => absurd ((whole b).1.mp parked) out, fun parked => absurd parked stays⟩, has,
      fun parked => absurd parked stays⟩
  · exact whole d

theorem hasModule (h : Custody tags s) {b : BayId} (on : (s.bay b).state.holdsTag = true) :
    (s.bay b).tag.isSome = true ∧ (s.bay b).profile.isSome = true := by
  obtain ⟨ne, nc, -⟩ := BayState.holdsTag_ne on
  exact (h.whole.2 b).2.1 ne nc

theorem not_parked (h : Custody tags s) {b : BayId} (out : (s.bay b).state ≠ .parked) : b ∉ s.pool.park :=
  fun parked => out ((h.whole.2 b).1.mp parked)

/-- A bay that is not PARKED is not on the park list. -/
theorem updPool_erase (h : Custody tags s) {b : BayId} (out : (s.bay b).state ≠ .parked) :
    (s.updPool fun p => { p with park := p.park.erase b }) = s := by
  simp [State.updPool, List.erase_of_not_mem (h.not_parked out)]

/-- A bay with a module goes to another state, off the park list, and keeps the module. -/
theorem leavePark (h : Custody tags s) (b : BayId) (f : Bay → Bay) (on : (s.bay b).state.holdsTag = true)
    (stays : (f (s.bay b)).state ≠ .parked) (tag : (f (s.bay b)).tag = (s.bay b).tag)
    (profile : (f (s.bay b)).profile = (s.bay b).profile) :
    Custody tags ((s.updPool fun p => { p with park := p.park.erase b }).updBay b f) := by
  obtain ⟨⟨nodup, whole⟩, ledger⟩ := h
  have module := hasModule ⟨⟨nodup, whole⟩, ledger⟩ on
  refine ⟨⟨nodup.erase b, fun d => ?_⟩, fun followed => (ledger followed).mono (fun d n => ?_) fun _ _ h => h⟩
  · simp only [State.updBay_bay, State.updPool_bay, State.updBay_pool, State.updPool_pool, nodup.mem_erase_iff]
    split_ifs with own
    · subst own
      exact ⟨⟨fun parked => absurd rfl parked.1, fun parked => absurd parked stays⟩,
        fun _ _ => by rw [tag, profile]; exact module, fun parked => absurd parked stays⟩
    · obtain ⟨parked, others⟩ := whole d
      exact ⟨by rw [← parked]; simp [Ne.symm own], others⟩
  · simp only [State.updBay_bay, State.updPool_bay]
    split_ifs with own
    · subst own
      simp only [Bay.holds_iff, tag, on, true_and]
      exact And.right
    · exact id

/-- A bay in its test goes to another state and keeps its module. -/
theorem moveBay (h : Custody tags s) (b : BayId) (f : Bay → Bay) (on : (s.bay b).state.inTest = true)
    (stays : (f (s.bay b)).state ≠ .parked) (tag : (f (s.bay b)).tag = (s.bay b).tag)
    (profile : (f (s.bay b)).profile = (s.bay b).profile) : Custody tags (s.updBay b f) := by
  have left := h.leavePark b f (BayState.inTest_holdsTag on) stays tag profile
  rwa [h.updPool_erase (BayState.inTest_ne_parked on)] at left

/-- A bay that is not PARKED loses its module, or has none. -/
theorem setAside (h : Custody tags s) (b : BayId) (f : Bay → Bay) (out : (s.bay b).state ≠ .parked)
    (empties : (f (s.bay b)).state = .empty ∨ (f (s.bay b)).state = .cal) : Custody tags (s.updBay b f) := by
  refine ⟨h.wholeBay b f out ?_ fun ne nc => absurd empties (not_or.mpr ⟨ne, nc⟩), fun on =>
    (h.ledger on).mono (fun d n => ?_) fun _ _ h => h⟩
  · rcases empties with e | e <;> simp [e]
  · rw [State.updBay_bay]
    split_ifs
    · rcases empties with e | e <;> simp [Bay.holds, e, BayState.holdsTag]
    · exact id

/-- A bay without a module is given one, of a free tag (R56). -/
theorem load (h : Custody tags s) (b : BayId) (f : Bay → Bay) {tag : Nat} (empty : (s.bay b).state = .empty)
    (loaded : (f (s.bay b)).state = .loaded) (named : (f (s.bay b)).tag = some tag)
    (has : (f (s.bay b)).profile.isSome = true) (free : tags → s.Free tag) : Custody tags (s.updBay b f) := by
  refine ⟨h.wholeBay b f (by simp [empty]) (by simp [loaded]) fun _ _ => ⟨by simp [named], has⟩, fun on =>
    (h.ledger on).load (free on) b fun d n hd => ?_⟩
  rw [State.updBay_bay] at hd
  split_ifs at hd with own
  · rw [Bay.holds_iff, named] at hd
    exact .inr ⟨own.symm, (Option.some.inj hd.2).symm⟩
  · exact .inl hd

/-! ### The two shells -/

theorem msg {m : MessageKind} {n : Byte} {body : List Byte} {serve : State → State × Answer} {u : State}
    (e : message m n body serve s = .next u) (h : Custody tags s)
    (serves : Custody tags s → Custody tags (serve s).1) : Custody tags u :=
  message_keeps (fun _ h => h.same rfl) (fun _ _ _ _ h => h.same rfl) serves h e

/-! ### Phases, suspension, rejection -/

theorem enterPhase (h : Custody tags s) (b : BayId) (p : Phase) (on : (s.bay b).state.inTest = true) :
    Custody tags (s.enterPhase b p) := by
  have begun : ∀ k, Custody tags (s.updBay b (Bay.enter p k)) := fun k => h.moveBay b _ on nofun rfl rfl
  cases p <;> exact (begun _).same rfl

theorem enterCleared (h : Custody tags s) (b : BayId) (p : Phase) (on : (s.bay b).state.inTest = true) :
    Custody tags (s.enterCleared b p) := (h.moveBay b (Bay.enter p .awaitingStage) on nofun rfl rfl).same rfl

theorem nextPhase (h : Custody tags s) (b : BayId) (p : Phase) (on : (s.bay b).state.inTest = true) :
    Custody tags (s.nextPhase b p) := by
  have e := RefsFilled.leavePhase_refs s b true true (p == .chargeCV)
  exact (h.same (custody_of_refs e)).enterPhase b p (by rwa [State.bay_of_refs e])

theorem suspendBay (h : Custody tags s) (b : BayId) (c : SuspensionCause) (code : StageCode) (a : Bool) :
    Custody tags (s.suspendBay b c code a) := by
  cases hs : (s.bay b).state with
  | phase p =>
    rw [suspendBay_eq hs]
    exact (h.moveBay b (fun r =>
      { r with state := .suspended, substate := .none, resume := some p, cause := .suspension c code })
      (by rw [hs]; rfl) nofun rfl rfl).same rfl
  | _ => simpa [State.suspendBay, hs] using h

theorem suspendMany (h : Custody tags s) (set : List BayId) (c : SuspensionCause) :
    Custody tags (s.suspendMany set c) := by
  unfold State.suspendMany
  induction set generalizing s with
  | nil => exact h
  | cons b set ih => exact ih (h.suspendBay _ _ _ _)

theorem stageReport (h : Custody tags s) (b : BayId) (c : SuspensionCause) (code : StageCode) :
    Custody tags (s.stageReport b c code) := by
  unfold State.stageReport State.changeCause
  split
  · exact h.suspendBay _ _ _ _
  · split_ifs
    · exact (h.keepBay b (fun r => { r with cause := .suspension c code }) rfl).same rfl
    · exact h

theorem rejectBay (h : Custody tags s) (b : BayId) (c : RejectCause) (on : (s.bay b).state.inTest = true) :
    Custody tags (s.rejectBay b c) :=
  (h.moveBay b (fun r => { r with state := .rejected, substate := .none, cause := .reject c }) on nofun rfl rfl).same rfl

/-! ### The pool (R126, R131, R134) -/

theorem enterPool (h : Custody tags s) (g : GradeRecord) (free : tags → s.Free g.tag) :
    Custody tags (s.updPool (Pool.enter g)) :=
  h.recorded rfl rfl fun on =>
    (h.ledger on).enter (c := { grade := g, seq := s.pool.nextSeq, lapses := 0, status := none }) (free on) rfl
      (insertCandidate_perm _ _)

/-- A bay hands its module's record over to the pool and leaves the park list. -/
theorem passToPool (h : Custody tags s) (b : BayId) (g : GradeRecord) (holds : (s.bay b).holds g.tag = true) :
    Custody tags ((s.updPool fun p => { p with park := p.park.erase b }).enterFromBay b g) := by
  obtain ⟨on, tag⟩ := (Bay.holds_iff _ _).mp holds
  have left := h.leavePark b (fun r => { r with state := .done, substate := .none }) on nofun rfl rfl
  refine (left.enterPool g fun followed => ?_).same rfl
  have l := h.ledger followed
  refine ⟨fun d hd => ?_, fun c hc e => l.bayOrRecord b c hc (e ▸ holds), fun id => l.bayOrSeat b id _ holds⟩
  simp only [State.updBay_bay, State.updPool_bay] at hd
  split_ifs at hd with own
  · exact absurd hd (by simp [Bay.holds, BayState.holdsTag])
  · exact own (l.oneBay b d g.tag holds hd)

theorem enterFromBay (h : Custody tags s) (b : BayId) (g : GradeRecord) (on : (s.bay b).state.inTest = true)
    (tag : (s.bay b).tag = some g.tag) : Custody tags (s.enterFromBay b g) := by
  have entered := h.passToPool b g ((Bay.holds_iff _ _).mpr ⟨BayState.inTest_holdsTag on, tag⟩)
  rwa [h.updPool_erase (BayState.inTest_ne_parked on)] at entered

theorem servePark (h : Custody tags s) : Custody tags s.servePark := by
  cases hp : s.pool.park with
  | nil => rw [servePark_nil hp]; exact h
  | cons b rest =>
    have parked : (s.bay b).state = .parked := (h.whole.2 b).1.mp (by simp [hp])
    obtain ⟨g, hg, tag, -⟩ := (h.whole.2 b).2.2 parked
    rw [servePark_grade hp hg]
    have head : (s.updPool fun p => { p with park := rest }) = s.updPool fun p => { p with park := p.park.erase b } := by
      simp [State.updPool, hp]
    rw [head]
    exact h.passToPool b g ((Bay.holds_iff _ _).mpr ⟨by rw [parked]; rfl, tag⟩)

/-- The removal of a record, where the ledger holds with it gone. -/
theorem removed {tag : Nat} (h : Custody tags (s.updPool (Pool.without tag))) : Custody tags (s.removeRecord tag) := by
  cases hf : (s.pool.find tag).isSome with
  | false =>
    have absent : ∀ c ∈ s.pool.records, ¬ c.grade.tag = tag := by simpa [Pool.find] using hf
    have all : (s.pool.records.filter fun c => !(c.grade.tag == tag)) = s.pool.records :=
      List.filter_eq_self.mpr fun c hc => by simpa using absent c hc
    rw [removeRecord_absent hf]
    refine h.same ?_
    simp [State.custody, Pool.without, all]
  | true =>
    rw [removeRecord_found hf]
    exact h.servePark

/-- A bay whose module finds no room in the pool goes to the end of the park list (R127). -/
theorem parkBay (h : Custody tags s) (b : BayId) (g : GradeRecord) (on : (s.bay b).state.inTest = true)
    (graded : (s.bay b).grade = some g) (tag : (s.bay b).tag = some g.tag)
    (profile : (s.bay b).profile = some g.profile) :
    Custody tags
      ((s.updBay b fun r => { r with state := .parked }).updPool fun p => { p with park := p.park ++ [b] }) := by
  have off := h.not_parked (BayState.inTest_ne_parked on)
  obtain ⟨⟨nodup, whole⟩, ledger⟩ := h
  refine ⟨⟨nodup.append (List.nodup_singleton b) (by simpa using off), fun d => ?_⟩, fun followed =>
    (ledger followed).mono (fun d n => ?_) fun _ _ h => h⟩
  · simp only [State.updPool_bay, State.updBay_bay, State.updPool_pool, State.updBay_pool, List.mem_append,
      List.mem_singleton]
    split_ifs with own
    · subst own
      simp [tag, profile, graded]
    · obtain ⟨parked, others⟩ := whole d
      exact ⟨by rw [← parked]; simp [Ne.symm own], others⟩
  · simp only [State.updPool_bay, State.updBay_bay]
    split_ifs with own
    · subst own
      simp only [Bay.holds_iff, BayState.inTest_holdsTag on, true_and]
      exact And.right
    · exact id

/-! ### The test -/

theorem settleGrade (h : Custody tags s) (b : BayId) (g : GradeRecord) (on : (s.bay b).state.inTest = true)
    (tag : (s.bay b).tag = some g.tag) (profile : (s.bay b).profile = some g.profile) :
    Custody tags (s.settleGrade b g) := by
  unfold State.settleGrade
  have graded := h.moveBay b (fun r => { r with grade := some g, substate := .none }) on
    (BayState.inTest_ne_parked on) rfl rfl
  have own : (s.updBay b fun r => { r with grade := some g, substate := .none }).bay b =
      { s.bay b with grade := some g, substate := .none } := by rw [State.updBay_bay, if_pos rfl]
  have on1 : ((s.updBay b fun r => { r with grade := some g, substate := .none }).bay b).state.inTest = true := by
    rw [own]; exact on
  dsimp only
  split
  · exact (graded.moveBay b (fun r => { r with state := .rejected, cause := .reject _ }) on1 nofun rfl rfl).same rfl
  · split_ifs
    · exact graded.enterFromBay b g on1 (by rw [own]; exact tag)
    · exact graded.parkBay b g on1 (by rw [own]) (by rw [own]; exact tag) (by rw [own]; exact profile)

theorem finishTest (h : Custody tags s) (b : BayId) (on : (s.bay b).state.inTest = true) :
    Custody tags (s.finishTest b) := by
  obtain ⟨tag, profile⟩ := h.hasModule (BayState.inTest_holdsTag on)
  obtain ⟨n, tag⟩ := Option.isSome_iff_exists.mp tag
  obtain ⟨k, profile⟩ := Option.isSome_iff_exists.mp profile
  have own : (s.testEnded b).bay b = (s.bay b).watched (s.wevBay b) := set_get_self _ _ _
  have ended : Custody tags (s.testEnded b) := (h.keepBay b (Bay.watched (s.wevBay b)) rfl).same rfl
  rw [finishTest_eq]
  refine ended.settleGrade b _ (by rw [own]; exact on) ?_ ?_ <;> rw [own]
  · show (s.bay b).tag = some ((s.bay b).tag.getD 0)
    rw [tag]; rfl
  · show (s.bay b).profile = some ((s.bay b).profile.getD 0)
    rw [profile]; rfl

/-- A change of its record that keeps the state keeps the bay in its test. -/
theorem updBay_inTest {b : BayId} {f : Bay → Bay} (on : (s.bay b).state.inTest = true)
    (keeps : (f (s.bay b)).state = (s.bay b).state) : ((s.updBay b f).bay b).state.inTest = true := by
  rw [State.updBay_bay, if_pos rfl, keeps]
  exact on

theorem mark (h : Custody tags s) (b : BayId) (f : Marks → Marks) : Custody tags (s.mark b f) :=
  h.keepBay b (fun r => { r with marks := f r.marks }) rfl

theorem restPartEnded (h : Custody tags s) (b : BayId) (p : Profile) (how : RestEnding) (i n : Nat)
    (on : (s.bay b).state.inTest = true) : Custody tags (s.restPartEnded b p how i n) := by
  unfold State.restPartEnded
  have ended := h.keepBay b (fun r => { r with restEnding := how }) rfl
  dsimp only
  split_ifs
  · exact ended.finishTest b (updBay_inTest on rfl)
  · exact ended.keepBay b _ rfl

theorem judgeCheck (h : Custody tags s) (b : BayId) (p : Profile) (r : WindowRecord)
    (on : (s.bay b).state.inTest = true) : Custody tags (s.judgeCheck b p r) := by
  unfold State.judgeCheck
  split_ifs
  exacts [h.rejectBay _ _ on, h.rejectBay _ _ on, h.rejectBay _ _ on, h.suspendBay _ _ _ _, h.nextPhase _ _ on]

/-- The next phase entered at a limit, which sets a mark. -/
theorem markedNext (h : Custody tags s) (b : BayId) (f : Marks → Marks) (p : Phase)
    (on : (s.bay b).state.inTest = true) : Custody tags ((s.mark b f).nextPhase b p) :=
  (h.mark b f).nextPhase b p (updBay_inTest on rfl)

theorem phaseOutcome (h : Custody tags s) (b : BayId) (p : Profile) (ph : Phase) (x : SampleReport)
    (on : (s.bay b).state.inTest = true) : Custody tags (s.phaseOutcome b p ph x) := by
  cases ph with
  | check =>
    cases judged : x.verdict with
    | none => rw [phaseOutcome_unjudged _ _ _ judged]; exact h
    | some v => rw [phaseOutcome_check _ _ _ judged]; exact h.judgeCheck b p v.record on
  | rest2 =>
    simp only [State.phaseOutcome]
    split
    · split_ifs
      exacts [h.restPartEnded _ _ _ _ _ on, (h.mark _ _).restPartEnded _ _ _ _ _ (updBay_inTest on rfl), h]
    · split
      · exact h
      · split_ifs
        · exact finishTest (h.keepBay b _ (by rfl)) b (updBay_inTest on (by rfl))
        · exact h.keepBay b _ (by rfl)
  | restP | pulse =>
    simp only [State.phaseOutcome]
    split_ifs
    exacts [h.nextPhase _ _ on, h]
  | rest0 | rest1 | chargeCC | chargeCV | discharge =>
    simp only [State.phaseOutcome, if_true, reduceCtorEq, if_false]
    split_ifs
    exacts [h.nextPhase _ _ on, h.markedNext _ _ _ on, h]

theorem takeReport (h : Custody tags s) (b : BayId) (x : SampleReport) : Custody tags (s.takeReport b x) := by
  unfold State.takeReport
  split
  · rename_i p hp
    split_ifs
    · have counted := h.keepBay b (Bay.count p x) (Bay.count_module p x _)
      have on : ((s.updBay b (Bay.count p x)).bay b).state.inTest = true :=
        updBay_inTest (by rw [hp]; rfl) (congrArg Prod.fst (Bay.count_module p x _))
      dsimp only
      split
      exacts [counted.suspendBay _ _ _ _, counted.rejectBay _ _ on, counted.phaseOutcome _ _ _ _ on]
    · exact h
  · exact h

theorem bsqTakeHead (h : Custody tags s) (b : BayId) : Custody tags (s.bsqTakeHead b) := by
  unfold State.bsqTakeHead
  split
  · exact h
  · rename_i m rest _
    have taken : Custody tags { s with toBsq := updAt s.toBsq b fun _ => rest } := h.same rfl
    cases m with
    | report x => exact taken.takeReport _ _
    | closing c => exact taken.keepBay _ _ (Bay.takeClosing_module c _)

theorem bsqTakeIf (h : Custody tags s) (b : BayId) (k : BsqMsg → Bool) : Custody tags (s.bsqTakeIf b k) := by
  unfold State.bsqTakeIf
  split
  · split_ifs
    exacts [h.bsqTakeHead b, h]
  · exact h

theorem answerReports (h : Custody tags s) (b : BayId) (n : Nat) : Custody tags (State.answerReports b n s) := by
  induction n generalizing s with
  | zero => exact h
  | succ n ih =>
    unfold State.answerReports
    split_ifs
    exacts [ih (h.bsqTakeHead b), h]

/-! ### WEV, which holds no module -/

theorem wevTakeHead (h : Custody tags s) (b : BayId) : Custody tags (s.wevTakeHead b) :=
  h.same (custody_of_refs (RefsFilled.wevTakeHead_refs s b))

theorem wevTakeIf (h : Custody tags s) (b : BayId) (k : WevMsg → Bool) : Custody tags (s.wevTakeIf b k) := by
  unfold State.wevTakeIf
  split
  · split_ifs
    exacts [h.wevTakeHead b, h]
  · exact h

theorem takeAnswers (h : Custody tags s) (b : BayId) (n : Nat) : Custody tags (State.takeAnswers b n s) := by
  induction n generalizing s with
  | zero => exact h
  | succ n ih =>
    unfold State.takeAnswers
    split_ifs
    exacts [ih (h.wevTakeHead b), h]

/-! ### Allowance and stage bus -/

theorem updCaa (h : Custody tags s) (f : Allowance → Allowance) : Custody tags (s.updCaa f) := h.same rfl

theorem updSbc (h : Custody tags s) (f : StageBus → StageBus) : Custody tags (s.updSbc f) := h.same rfl

theorem examineMany (h : Custody tags s) (n : Nat) : Custody tags (s.examineMany n) := by
  induction n generalizing s with
  | zero => exact h
  | succ n ih =>
    unfold State.examineMany
    split
    · exact h
    · rename_i w rest _
      have judged : Custody tags ((s.updCaa fun a => { a with waiting := rest }).overLimit w) := by
        have shorter : Custody tags (s.updCaa fun a => { a with waiting := rest }) := h.same rfl
        unfold State.overLimit
        split_ifs
        exacts [shorter.suspendBay _ _ _ _, shorter]
      split_ifs
      exacts [ih judged, h, ih (h.same rfl), h]

theorem examine (h : Custody tags s) : Custody tags s.examine := h.examineMany _

theorem release (h : Custody tags s) (b : BayId) : Custody tags (s.release b) := by
  unfold State.release
  split_ifs
  · exact h
  · exact (h.updCaa _).examine

theorem releaseAll (h : Custody tags s) : Custody tags s.releaseAll := (h.updCaa _).examine

theorem caaTake (h : Custody tags s) (m : CaaMsg) : Custody tags (s.caaTake m) := by
  cases m with
  | request b mag entry =>
    refine examine ?_
    split_ifs
    exacts [h, h.same rfl]
  | leave b => exact (h.updCaa _).examine
  | giveBack b entry =>
    show Custody tags (s.takeReturn b entry)
    unfold State.takeReturn
    split_ifs
    exacts [h.release b, h]

/-- CAA takes the oldest message, which has left the queue. -/
theorem caaTakes (h : Custody tags s) (rest : List CaaMsg) (m : CaaMsg) :
    Custody tags (({ s with toCaa := rest } : State).caaTake m) :=
  caaTake (s := { s with toCaa := rest }) (h.same rfl) m

theorem caaTakeFor (h : Custody tags s) (b : BayId) (n : Nat) : Custody tags (State.caaTakeFor b n s) := by
  induction n generalizing s with
  | zero => exact h
  | succ n ih =>
    unfold State.caaTakeFor
    split_ifs
    · refine ih ?_
      unfold State.caaTakeHead
      split
      exacts [h, h.caaTakes _ _]
    · exact h

theorem takeGrant (h : Custody tags s) (m : GrantMsg) : Custody tags (s.takeGrant m) := by
  unfold State.takeGrant
  split
  · split_ifs
    · exact (h.keepBay m.bay (fun r => { r with substate := .awaitingStage }) rfl).same rfl
    · exact h.same rfl
  · exact h.same rfl

theorem grantTaken (h : Custody tags s) (rest : List GrantMsg) (m : GrantMsg) :
    Custody tags (({ s with grantsOut := rest } : State).takeGrant m) :=
  takeGrant (s := { s with grantsOut := rest }) (h.same rfl) m

theorem bsqAck (h : Custody tags s) (b : BayId) (k : WriteKind) (l : Nat) : Custody tags (s.bsqAck b k l) := by
  unfold State.bsqAck
  split
  · split_ifs
    · exact (h.keepBay b (fun r => { r with substate := .awaitingGrant }) rfl).same rfl
    · exact (h.keepBay b (fun r => { r with substate := .running }) rfl).same rfl
    · exact h
  · exact h

theorem acknowledged (h : Custody tags s) (b : BayId) (k : WriteKind) (l : Nat) :
    Custody tags (s.acknowledged b k l) := by
  unfold State.acknowledged
  split_ifs
  exacts [(h.release b).bsqAck _ _ _, h.bsqAck _ _ _]

theorem noAnswer (h : Custody tags s) (b : BayId) : Custody tags (s.noAnswer b) := (h.updSbc _).stageReport _ _ _

theorem statusRead (h : Custody tags s) (b : BayId) (o : Option StageCode) : Custody tags (s.statusRead b o) := by
  unfold State.statusRead
  split
  exacts [h.noAnswer b, h, (h.release b).stageReport _ _ _]

theorem foreignOff (h : Custody tags s) (set : List BayId) : Custody tags (s.foreignOff set) :=
  releaseAll ((h.suspendMany set .externalOff).same rfl)

/-! ### Groups of bays -/

theorem startBay (h : Custody tags s) (b : BayId) (e : s.startBay b = some t) : Custody tags t := by
  unfold State.startBay at e
  split_ifs at e with loaded
  obtain rfl := Option.some.inj e
  have watched : Custody tags (s.setWatch b true) := h.same rfl
  exact watched.enterPhase b _ (by show (s.bay b).state.inTest = true; rw [loaded]; rfl)

theorem lineSuspend (h : Custody tags s) (b : BayId) (e : s.lineSuspend b = some t) : Custody tags t := by
  unfold State.lineSuspend at e
  split at e
  · obtain rfl := Option.some.inj e
    exact h.suspendBay _ _ _ _
  · exact absurd e (by simp)

theorem resumeBay (h : Custody tags s) (w : Bool) (b : BayId) (e : State.resumeBay w s b = some t) :
    Custody tags t := by
  unfold State.resumeBay at e
  split_ifs at e with suspended
  obtain ⟨p, -, rfl⟩ := Option.map_eq_some_iff.mp e
  have watched : Custody tags (s.setWatch b w) := h.same rfl
  have resumed := watched.keepBay b (Bay.resumed p) (Bay.resumed_module p _)
  have on : (((s.setWatch b w).updBay b (Bay.resumed p)).bay b).state.inTest = true :=
    updBay_inTest (by show (s.bay b).state.inTest = true; rw [suspended.1]; rfl)
      (congrArg Prod.fst (Bay.resumed_module p _))
  unfold State.doResume
  dsimp only
  split_ifs
  exacts [resumed.enterCleared b _ on, resumed.enterPhase b _ on]

theorem abortBay (h : Custody tags s) (b : BayId) (e : s.abortBay b = some t) : Custody tags t := by
  have done (u : State) (hu : Custody tags u) (on : (u.bay b).state.inTest = true) : Custody tags (u.abortDone b) :=
    (hu.moveBay b Bay.aborted on nofun rfl rfl).same rfl
  cases hs : (s.bay b).state with
  | phase p =>
    rw [abortBay_phase hs] at e
    obtain rfl := Option.some.inj e
    have left := RefsFilled.leavePhase_refs s b false false false
    exact done _ (h.same (custody_of_refs left)) (by rw [State.bay_of_refs left, hs]; rfl)
  | loaded | suspended =>
    rw [abortBay_still (by simp [hs])] at e
    obtain rfl := Option.some.inj e
    exact done _ h (by rw [hs]; rfl)
  | parked =>
    rw [abortBay_parked hs] at e
    obtain rfl := Option.some.inj e
    have off : s.pool.park.erase b = s.pool.park.filter (· ≠ b) :=
      (h.whole.1.erase_eq_filter b).trans (List.filter_congr fun d _ => by simp [bne, beq_eq_decide])
    refine (h.leavePark b (fun r => { r.aborted with grade := none }) (by rw [hs]; rfl) nofun rfl rfl).same ?_
    simp only [State.custody, State.abortDone, State.updBay_bay, State.updPool_bay, if_true, State.updBay_bays,
      State.updPool_bays, State.updBay_pool, State.updPool_pool, State.updBay_bank, State.updPool_bank, updAt_eq_set,
      Vector.set_set, off]
    rfl
  | _ => rw [abortBay_other (by simp [hs])] at e; exact absurd e (by simp)

theorem serveGroup {act : State → BayId → Option State}
    (keeps : ∀ s b t, act s b = some t → Custody tags s → Custody tags t) (h : Custody tags s)
    (body : List Byte) : Custody tags (serveGroup act body s).1 := groupAct_keeps keeps _ h

end Custody
end Sys2Proof.Machine
end

section
/-! What the bank, the matcher and the messages keep of the bays and of the tags, and with them every command
(R55, R129, R130, R138 to R141, R146, R152). -/

namespace Sys2Proof.Machine

/-! ### Seats written (R140) -/

section
variable {s t : State} {id : SeatId} {f : Seat → Seat}
  (w : ∀ d, t.seat d = if id = d then (s.seat d).map f else s.seat d)
include w

theorem reserves_of_write (d : SeatId) (tag : Nat) : t.reserves d tag ↔ (d ≠ id ∧ s.reserves d tag) ∨
    (d = id ∧ ∃ e, s.seat id = some e ∧ ∃ n under, f e = .reserved tag n under) := by
  unfold State.reserves
  rw [w d]
  by_cases own : d = id
  · subst own
    cases s.seat d <;> simp
  · simp [own, Ne.symm own]

theorem installs_of_write (d : SeatId) (tag : Nat) : t.installs d tag ↔ (d ≠ id ∧ s.installs d tag) ∨
    (d = id ∧ ∃ e, s.seat id = some e ∧ ∃ g, f e = .installed g ∧ g.tag = tag) := by
  unfold State.installs
  rw [w d]
  by_cases own : d = id
  · subst own
    cases s.seat d <;> simp
  · simp [own, Ne.symm own]

end

theorem install_seat (s : State) (id : SeatId) (g : GradeRecord) (d : SeatId) :
    (s.install id g).seat d = if id = d then (s.seat d).map (fun _ => .installed g) else s.seat d :=
  (State.updString_seat _ _ _ _ (by intro r; rfl)).trans (State.updSeat_seat ..)

theorem returnSeat_seat (s : State) (id : SeatId) (under : UnderState) (d : SeatId) :
    (s.returnSeat id under).seat d = if id = d then (s.seat d).map (fun _ => under.seat) else s.seat d :=
  (State.updString_seat _ _ _ _ (by intro r; rfl)).trans (State.updSeat_seat ..)

theorem reserve_seat (s : State) (id : SeatId) (tag : Nat) (d : SeatId) : (s.reserve id tag).seat d =
    if id = d then (s.seat d).map (Seat.reserve tag (s.plm.timeout * 10)) else s.seat d := by
  have written : (s.reserve id tag).seat d = (State.updString (s.updSeat id (Seat.reserve tag (s.plm.timeout * 10)))
    id.str fun x => { x with resCount := x.resCount + 1 }).seat d := rfl
  rw [written]
  exact (State.updString_seat _ _ _ _ (by intro r; rfl)).trans (State.updSeat_seat ..)

/-- An installation reserves nothing, and ends the reservation of its seat. -/
theorem install_reserves (s : State) (id : SeatId) (g : GradeRecord) (d : SeatId) (tag : Nat) :
    (s.install id g).reserves d tag ↔ d ≠ id ∧ s.reserves d tag := by
  rw [reserves_of_write (install_seat s id g)]
  simp

theorem install_installs {s : State} {id : SeatId} {g : GradeRecord} {d : SeatId} {tag : Nat}
    (h : (s.install id g).installs d tag) : s.installs d tag ∨ (d = id ∧ tag = g.tag) := by
  rcases (installs_of_write (install_seat s id g) d tag).mp h with h | ⟨rfl, e, -, g', hg, rfl⟩
  · exact .inl h.2
  · cases hg
    exact .inr ⟨rfl, rfl⟩

theorem returnSeat_reserves (s : State) (id : SeatId) (under : UnderState) (d : SeatId) (tag : Nat) :
    (s.returnSeat id under).reserves d tag ↔ d ≠ id ∧ s.reserves d tag := by
  rw [reserves_of_write (returnSeat_seat s id under)]
  cases under <;> simp [UnderState.seat]

theorem returnSeat_installs {s : State} {id : SeatId} {under : UnderState} {d : SeatId} {tag : Nat}
    (h : (s.returnSeat id under).installs d tag) : s.installs d tag := by
  rcases (installs_of_write (returnSeat_seat s id under) d tag).mp h with h | ⟨-, -, -, g, hg, -⟩
  · exact h.2
  · cases under <;> exact absurd hg nofun

/-! ### A reservation that ends (R141) -/

/-- With the record that is reserved for a seat at most, the reservation of that seat is the one that goes. -/
theorem Ledger.ends {bay : BayId → Nat → Prop} {records : List Candidate} {reserved installed : SeatId → Nat → Prop}
    (l : Ledger bay records reserved installed) {c : Candidate} (hc : c ∈ records) {id : SeatId}
    (home : ∀ d, c.status = some d → d = id) (fits : ∀ tag, reserved id tag → tag = c.grade.tag) (d : SeatId)
    (tag : Nat) : d ≠ id ∧ reserved d tag ↔ reserved d tag ∧ tag ≠ c.grade.tag := by
  constructor
  · rintro ⟨ne, hd⟩
    refine ⟨hd, ?_⟩
    rintro rfl
    obtain ⟨c', hc', e, status⟩ := (l.matched d _).mp hd
    obtain rfl := l.record_unique hc' hc e
    exact ne (home d status)
  · rintro ⟨hd, ne⟩
    refine ⟨?_, hd⟩
    rintro rfl
    exact ne (fits tag hd)

section
variable {s : State} {id : SeatId} {c : Candidate} (l : s.Ledger) (hc : c ∈ s.pool.records)
  (home : ∀ d, c.status = some d → d = id) (fits : ∀ tag, s.reserves id tag → tag = c.grade.tag)
include l hc home fits

/-- A record leaves the pool and its module is installed in the seat it was reserved for, if any (R146). -/
theorem install_ledger : ((s.install id c.grade).updPool (Pool.without c.grade.tag)).Ledger := by
  refine (((l.remove c.grade.tag).install (l.removed_free hc) id fun d tag => install_installs)).congr fun d tag => ?_
  exact (install_reserves s id c.grade d tag).trans (l.ends hc home fits d tag)

/-- A reservation ends, and its record leaves the pool (R167, R169). -/
theorem returnSeat_remove_ledger (under : UnderState) :
    ((s.returnSeat id under).updPool (Pool.without c.grade.tag)).Ledger := by
  refine ((l.remove c.grade.tag).mono (fun _ _ h => h) fun d tag => returnSeat_installs).congr fun d tag => ?_
  exact (returnSeat_reserves s id under d tag).trans (l.ends hc home fits d tag)

/-- A reservation ends, and its record is FREE again (R141). -/
theorem returnSeat_free_ledger (under : UnderState) {f : Candidate → Candidate} (grade : ∀ d, (f d).grade = d.grade)
    (status : ∀ d, (f d).status = none) :
    ((s.returnSeat id under).updPool (Pool.update c.grade.tag f)).Ledger := by
  refine ((l.setStatus hc none grade status).mono (fun _ _ h => h) fun d tag => returnSeat_installs).congr fun d tag => ?_
  refine (returnSeat_reserves s id under d tag).trans ((l.ends hc home fits d tag).trans ?_)
  simp

end

/-- The record of a RESERVED seat (R130). -/
theorem State.Ledger.record_of_seat {s : State} (l : s.Ledger) {id : SeatId} {tag n : Nat} {under : UnderState}
    (hs : s.seat id = some (.reserved tag n under)) : ∃ c ∈ s.pool.records, c.grade.tag = tag ∧
      (∀ d, c.status = some d → d = id) ∧ ∀ t, s.reserves id t → t = c.grade.tag := by
  obtain ⟨c, hc, rfl, status⟩ := (l.matched id tag).mp ⟨n, under, hs⟩
  refine ⟨c, hc, rfl, fun d hd => Option.some.inj (hd.symm.trans status), ?_⟩
  rintro t ⟨n', under', hs'⟩
  rw [hs] at hs'
  cases hs'
  rfl

/-- What the search of the pool finds is a record of the tag. -/
theorem Pool.find_mem {p : Pool} {tag : Nat} {c : Candidate} (h : p.find tag = some c) :
    c ∈ p.records ∧ c.grade.tag = tag :=
  ⟨List.mem_of_find?_eq_some h, by simpa using List.find?_some h⟩

/-- A record that the pairing rules find fit for a seat is FREE (R145). -/
theorem judge_none_status {x : BankString} {q : Option Partner} {c : Candidate} (h : judge x q c = none) :
    c.status = none := by
  unfold judge at h
  split_ifs at h with _ _ reserved
  simpa using reserved

theorem smallest_mem {key : Candidate → List Nat} {l : List Candidate} {c : Candidate} (h : smallest key l = some c) :
    c ∈ l := by
  induction l generalizing c with
  | nil => simp [smallest] at h
  | cons d rest ih =>
    unfold smallest at h
    split at h
    · simp_all
    · split_ifs at h
      · exact List.mem_cons_of_mem _ (ih (by rw [← h]; assumption))
      · simp_all

/-- A pass chooses a FREE record of the pool (R161). -/
theorem choose_free {s : State} {id : SeatId} {c : Candidate} (h : s.choose id = some c) :
    c ∈ s.pool.records ∧ c.status = none := by
  obtain ⟨hc, fits⟩ := List.mem_filter.mp (smallest_mem h)
  exact ⟨hc, judge_none_status (Option.isNone_iff_eq_none.mp fits)⟩


namespace Custody

open Closed (keeps_if)

variable {tags : Prop} {s t : State}

/-! ### Seats (R138, R140, R152, R163) -/

/-- Seats that keep their reservations, and install nothing. -/
theorem reseat (h : Custody tags s) (bays : t.bays = s.bays) (pool : t.pool = s.pool)
    (reserved : ∀ id tag, t.reserves id tag ↔ s.reserves id tag)
    (installed : ∀ id tag, t.installs id tag → s.installs id tag) : Custody tags t := by
  refine h.recorded bays (by rw [pool]) fun on => ?_
  have l := ((h.ledger on).mono (fun _ _ h => h) installed).congr reserved
  simp only [State.Ledger, State.bay, bays, pool] at l ⊢
  exact l

/-- A seat written that keeps its reservation, and installs nothing. -/
theorem updSeat (h : Custody tags s) (id : SeatId) (f : Seat → Seat)
    (reserved : ∀ e, s.seat id = some e → ∀ tag, (∃ n under, f e = .reserved tag n under) ↔
      ∃ n under, e = .reserved tag n under)
    (installed : ∀ e g, f e = .installed g → e = .installed g) : Custody tags (s.updSeat id f) := by
  refine h.reseat rfl rfl (fun d tag => ?_) fun d tag hd => ?_
  · rw [reserves_of_write (s.updSeat_seat id · f)]
    by_cases own : d = id
    · subst own
      unfold State.reserves
      cases hs : s.seat d with
      | none => simp
      | some e => simpa using reserved e hs tag
    · simp [own]
  · rcases (installs_of_write (s.updSeat_seat id · f) d tag).mp hd with hd | ⟨rfl, e, he, g, hg, rfl⟩
    exacts [hd.2, ⟨g, by rw [he, installed e g hg], rfl⟩]

/-- A string changed outside its positions. -/
theorem keepString (h : Custody tags s) (x : StringId) (f : BankString → BankString)
    (positions : ∀ r, (f r).positions = r.positions) : Custody tags (s.updString x f) := by
  have seat := fun d => State.updString_seat s x f d positions
  exact h.reseat rfl rfl (fun d tag => by simp only [State.reserves, seat])
    fun d tag => by simp only [State.installs, seat, imp_self]

/-- A string without a reservation becomes one whose seats hold no tag. -/
theorem clearString (h : Custody tags s) (x : StringId) (f : BankString → BankString)
    (before : tags → ∀ e ∈ (s.string x).seats, e.isReserved = false)
    (after : ∀ e ∈ (f (s.string x)).seats, e.tag = none) : Custody tags (s.updString x f) := by
  have other : ∀ d, d.str ≠ x → (s.updString x f).seat d = s.seat d := fun d ne => by
    simp only [State.seat, State.updString_string, if_neg (Ne.symm ne)]
  have bare : ∀ d e, d.str = x → (s.updString x f).seat d = some e → e.tag = none := by
    rintro d e rfl hd
    have mem := seat_mem hd
    rw [State.updString_string, if_pos rfl] at mem
    exact after e mem
  refine h.recorded rfl rfl fun on => ((h.ledger on).mono (fun _ _ h => h) ?_).congr fun d tag => ?_
  · rintro d tag ⟨g, hg, rfl⟩
    by_cases own : d.str = x
    · exact absurd (bare d _ own hg) nofun
    · exact ⟨g, (other d own).symm.trans hg, rfl⟩
  · unfold State.reserves
    by_cases own : d.str = x
    · subst own
      refine ⟨?_, ?_⟩ <;> rintro ⟨n, under, hd⟩
      · exact absurd (bare d _ rfl hd) nofun
      · exact absurd (before on _ (seat_mem hd)) nofun
    · rw [other d own]

theorem tick (h : Custody tags s) : Custody tags { s with bank := s.bank.map BankString.tick } := by
  have seat : ∀ d, ({ s with bank := s.bank.map BankString.tick } : State).seat d = (s.seat d).map Seat.tick := by
    intro d
    have string : ({ s with bank := s.bank.map BankString.tick } : State).string d.str = (s.string d.str).tick := by
      simp [State.string, Vector.get_eq_getElem]
    simp only [State.seat, string, BankString.position, BankString.tick, List.getElem?_map]
    split_ifs
    · rfl
    · simp only [Option.map_map]
      congr 1
      funext p
      cases d.seat <;> rfl
  refine h.reseat rfl rfl (fun d tag => ?_) fun d tag => ?_
  · unfold State.reserves
    rw [seat]
    rcases s.seat d with _ | _ | _ | _ | _ <;> simp [Seat.tick]
  · unfold State.installs
    rw [seat]
    rcases s.seat d with _ | _ | _ | _ | _ <;> simp [Seat.tick]

theorem sealed (h : Custody tags s) (x : StringId) : Custody tags (s.seal x) := by
  unfold State.seal
  split_ifs
  · exact (h.keepString x (fun r => { r with state := .sealed }) fun _ => rfl).same rfl
  · exact h

theorem vacate (h : Custody tags s) (id : SeatId) (ov : Override) {e : Seat} (hs : s.seat id = some e)
    (installed : e.isInstalled = true) : Custody tags (s.vacate id ov) := by
  unfold State.vacate
  generalize (s.seat (mateOf id)).any Seat.isInstalled = kept
  have out := h.updSeat id (fun _ => .vacant (if kept then some ov else none)) (fun e' he' tag => by
    obtain rfl := Option.some.inj (hs.symm.trans he')
    cases e <;> simp_all [Seat.isInstalled]) fun _ _ he => absurd he (by simp)
  cases kept
  · refine keepString (out.updSeat (mateOf id) Seat.dropOverride (fun e _ tag => ?_) fun e g hg => ?_) _ _
      (by intro r; rfl)
    · rcases e with _ | ⟨_, _, _ | _⟩ | _ | _ <;> simp [Seat.dropOverride]
    · rcases e with _ | ⟨_, _, _ | _⟩ | _ | _ <;> simp_all [Seat.dropOverride]
  · exact out.keepString _ _ (by intro r; rfl)

/-- A module of a tag not held is installed in a seat that is not RESERVED (R148). -/
theorem install (h : Custody tags s) (id : SeatId) (g : GradeRecord) (unreserved : ∀ tag, ¬ s.reserves id tag)
    (free : tags → s.Free g.tag) : Custody tags (s.install id g) := by
  refine h.recorded rfl rfl fun on => ?_
  refine ((h.ledger on).install (free on) id fun d tag => install_installs).congr fun d tag => ?_
  refine (install_reserves s id g d tag).trans ⟨And.right, fun hd => ⟨?_, hd⟩⟩
  rintro rfl
  exact unreserved tag hd

/-- A record of the pool is installed in a seat that is its own, if the record is RESERVED or the seat is (R146). -/
theorem installRecord (h : Custody tags s) {id : SeatId} {c : Candidate} (hc : c ∈ s.pool.records)
    (home : tags → ∀ d, c.status = some d → d = id) (fits : ∀ tag, s.reserves id tag → tag = c.grade.tag) :
    Custody tags ((s.install id c.grade).removeRecord c.grade.tag) :=
  removed (h.recorded rfl rfl fun on => install_ledger (h.ledger on) hc (home on) fits)

/-! ### Reservations (R141, R162, R167, R169) -/

theorem reserve (h : Custody tags s) {id : SeatId} {c : Candidate} {e : Seat} (hs : s.seat id = some e)
    (free : e.isFree = true) (hc : c ∈ s.pool.records) (open_ : c.status = none) :
    Custody tags (s.reserve id c.grade.tag) := by
  have bare : ∀ tag, ¬ s.reserves id tag ∧ ¬ s.installs id tag := by
    unfold State.reserves State.installs
    rw [hs]
    cases e <;> simp_all [Seat.isFree, Seat.isEmpty, Seat.isVacant]
  refine h.recorded rfl rfl fun on => ?_
  have l := h.ledger on
  refine ((l.setStatus hc (some id) (f := fun d => { d with status := some id }) (fun _ => rfl) fun _ => rfl).mono
    (fun _ _ h => h) fun d tag hd => ?_).congr fun d tag => ?_
  · rcases (installs_of_write (reserve_seat s id c.grade.tag) d tag).mp hd with hd | ⟨-, e, -, g, hg, -⟩
    exacts [hd.2, absurd hg nofun]
  · rw [reserves_of_write (reserve_seat s id c.grade.tag), hs]
    constructor
    · rintro (⟨-, hd⟩ | ⟨rfl, e, -, n, under, he⟩)
      · refine .inl ⟨hd, ?_⟩
        rintro rfl
        obtain ⟨c', hc', e, status⟩ := (l.matched d _).mp hd
        obtain rfl := l.record_unique hc' hc e
        exact absurd (open_.symm.trans status) nofun
      · exact .inr ⟨rfl, (Seat.reserved.inj he).1.symm⟩
    · rintro (⟨hd, -⟩ | ⟨own, rfl⟩)
      · refine .inl ⟨?_, hd⟩
        rintro rfl
        exact (bare tag).1 hd
      · exact .inr ⟨(Option.some.inj own).symm, e, rfl, _, _, rfl⟩

theorem passWalk (h : Custody tags s) (l : List SeatId) (n m : Nat) : Custody tags (passWalk l n m s).1 := by
  induction l generalizing s n m with
  | nil => exact h
  | cons id l ih =>
    unfold Machine.passWalk
    split_ifs with serves
    · exact ih h _ _
    · exact h
    · split
      · exact ih h _ _
      · rename_i c chosen
        have serves : s.mayServe id = true := by simpa using serves
        simp only [State.mayServe, Bool.and_eq_true, Option.any_eq_true] at serves
        obtain ⟨⟨⟨e, he, free⟩, -⟩, -⟩ := serves
        obtain ⟨hc, open_⟩ := choose_free chosen
        exact ih (h.reserve he free hc open_) _ _

theorem runPass (h : Custody tags s) : Custody tags s.runPass := (h.passWalk s.seatOrder 0 0).same rfl

/-- A record leaves the pool that is reserved for no seat (R131). -/
theorem removeFree (h : Custody tags s) {c : Candidate} (hc : c ∈ s.pool.records) (open_ : c.status = none) :
    Custody tags (s.removeRecord c.grade.tag) := by
  refine removed (h.recorded rfl rfl fun on => ((h.ledger on).remove c.grade.tag).congr fun d tag => ?_)
  refine ⟨fun hd => ⟨hd, ?_⟩, And.left⟩
  rintro rfl
  obtain ⟨c', hc', e, status⟩ := ((h.ledger on).matched d _).mp hd
  obtain rfl := (h.ledger on).record_unique hc' hc e
  exact absurd (open_.symm.trans status) nofun

section
variable {id : SeatId} {tag n : Nat} {under : UnderState} (hs : s.seat id = some (.reserved tag n under))
include hs

/-- A reservation ends, and its record leaves the pool (R167, R169). -/
theorem returnRemove (h : Custody tags s) : Custody tags ((s.returnSeat id under).removeRecord tag) := by
  refine removed (h.recorded rfl rfl fun on => ?_)
  obtain ⟨c, hc, rfl, home, fits⟩ := (h.ledger on).record_of_seat hs
  exact returnSeat_remove_ledger (h.ledger on) hc home fits under

/-- A reservation ends, and its record is FREE again (R141, R167, R169). -/
theorem returnFree (h : Custody tags s) {f : Candidate → Candidate} (grade : ∀ d, (f d).grade = d.grade)
    (status : ∀ d, (f d).status = none) :
    Custody tags ((s.returnSeat id under).updPool (Pool.update tag f)) := by
  refine h.recorded rfl rfl fun on => ?_
  obtain ⟨c, hc, rfl, home, fits⟩ := (h.ledger on).record_of_seat hs
  exact returnSeat_free_ledger (h.ledger on) hc home fits under grade status

theorem returnDealt (h : Custody tags s) (why : NotPlacedReason) :
    Custody tags ((s.returnSeat id under).dealWith tag why) := by
  cases why
  exacts [h.returnRemove hs, h.returnRemove hs, h.returnFree hs (fun _ => rfl) fun _ => rfl]

theorem returnLapsed (h : Custody tags s) {c : Candidate} (own : c.grade.tag = tag) :
    Custody tags ((s.returnSeat id under).lapse id c) := by
  subst own
  unfold State.lapse
  dsimp only
  split_ifs
  · exact (h.returnFree hs (f := fun d => { d with status := none, lapses := c.lapses + 1 }) (fun _ => rfl)
      fun _ => rfl).same rfl
  · have told : Custody tags (s.notify (.dropped c.grade.tag)) := h.same rfl
    exact returnRemove (s := s.notify (.dropped c.grade.tag)) hs told

end

end Custody
end Sys2Proof.Machine
end

section
/-! Every message and every event keeps the bays whole and each tag in one place. -/

namespace Sys2Proof.Machine

/-- The seats of a consistent string that is UNUSED, or counts no reservation, hold none (R138, R141). -/
theorem no_reserved_of_unused {x : BankString} (h : x.consistent) (unused : x.state = .unused) :
    ∀ e ∈ x.seats, e.isReserved = false := by
  obtain ⟨-, -, h⟩ := h
  rw [unused] at h
  rw [show x = .unused from h, unused_seats]
  simp

theorem no_reserved_of_count {x : BankString} (h : x.consistent) (none_ : x.resCount = 0) :
    ∀ e ∈ x.seats, e.isReserved = false := by
  obtain ⟨count, -⟩ := h
  rw [none_] at count
  exact fun e he => by simpa using List.countP_eq_zero.mp count.symm e he

theorem opened_seats {k : ProfileId} {n : Nat} {least : GradeClass} {ref st ct imb : Nat} {e : Seat}
    (h : e ∈ (openedString k n least ref st ct imb).seats) : e = .empty := by
  simp only [BankString.seats, openedString, List.mem_flatMap, List.mem_replicate] at h
  obtain ⟨p, ⟨-, rfl⟩, h⟩ := h
  simpa using h

namespace Custody

open Closed (keeps_if)

variable {tags : Prop} {s t : State}

/-! ### Bays -/

theorem serveEnterCal (h : Custody tags s) (body : List Byte) : Custody tags (serveEnterCal body s).1 :=
  onBay_keeps (fun b h => keeps_if _ (fun empty =>
    (h.setAside b (fun r => { r with state := .cal }) (by simp [empty]) (.inr rfl)).same rfl) fun _ => h) h

theorem serveExitCal (h : Custody tags s) (body : List Byte) : Custody tags (serveExitCal body s).1 :=
  onBay_keeps (fun b h => keeps_if _ (fun cal =>
    (h.setAside b (fun r => { r with state := .empty }) (by simp [cal]) (.inl rfl)).same rfl) fun _ => h) h

theorem serveLoad (h : Custody tags s) (body : List Byte) : Custody tags (serveLoad body s).1 := by
  refine onBay_keeps (fun b h => keeps_if _ (fun _ => h) fun empty => keeps_if _ (fun _ => h) fun _ => ?_) h
  split
  · exact h
  · split
    · exact h
    · refine keeps_if _ (fun _ => h) fun held => keeps_if _ (fun _ => ?_) fun _ => h
      exact h.load b _ (not_not.mp empty) rfl rfl rfl fun _ => free_of_not_tagHeld held

theorem serveResume (h : Custody tags s) (body : List Byte) : Custody tags (serveResume body s).1 := by
  refine onBay_keeps (fun b h => ?_) h
  split
  · exact h
  · exact keeps_if _ (fun _ => h) fun _ => keeps_if _ (fun _ => h) fun _ =>
      oneBay_keeps (fun _ b _ e h => h.resumeBay _ b e) b h

theorem serveUnload (h : Custody tags s) (body : List Byte) : Custody tags (serveUnload body s).1 := by
  refine onBay_keeps (fun b h => keeps_if _ (fun ended => keeps_if _ (fun _ => h) fun _ => ?_) fun _ => h) h
  have idle : (s.bay b).idle := idle_of_ended (by simpa using ended)
  have drained : Custody tags (if s.grantOf b = 0 then s.caaUnload b else s) ∧
      (if s.grantOf b = 0 then s.caaUnload b else s).bay b = s.bay b := by
    split_ifs
    exacts [⟨h.caaTakeFor b _, caaUnload_bay idle⟩, ⟨h, rfl⟩]
  dsimp only
  generalize (if s.grantOf b = 0 then s.caaUnload b else s) = u at drained
  obtain ⟨drained, own⟩ := drained
  refine keeps_if _ (fun _ => drained.same rfl) fun _ => ?_
  obtain ⟨w, q, m, frame⟩ := wevTakeMany_frame b (u.toWev.get b).length u
  have out : (u.bay b).state ≠ .parked := by
    rw [own]
    rcases ended with e | e | e <;> simp [e]
  refine ((drained.setAside b Bay.unloaded out (.inl rfl))).same ?_
  unfold State.wevUnload
  rw [frame]
  rfl

theorem serveStopAll (h : Custody tags s) : Custody tags (serveStopAll s).1 :=
  ((h.updSbc fun x => { x with queue := joinBroadcast (x.queue.filter fun e => !e.isWrite) }).suspendMany _ _).same rfl

theorem cutFrame (h : Custody tags s) (l : LinkLog) : Custody tags (s.cutFrame l) := by
  unfold State.cutFrame
  split_ifs <;> exact h.same rfl

/-! ### Pool and bank -/

theorem serveRestoreCandidate (h : Custody tags s) (body : List Byte) :
    Custody tags (serveRestoreCandidate body s).1 := by
  unfold Machine.serveRestoreCandidate
  refine keeps_if _ (fun _ => h) fun _ => ?_
  split
  · exact h
  · refine keeps_if _ (fun _ => h) fun _ => keeps_if _ (fun _ => h) fun _ => keeps_if _ (fun _ => h) fun held =>
      keeps_if _ (fun _ => h) fun _ => ?_
    exact (h.enterPool _ fun _ => free_of_not_tagHeld held).same rfl

theorem serveWithdraw (h : Custody tags s) (body : List Byte) : Custody tags (serveWithdraw body s).1 := by
  refine keeps_if _ (fun _ => h) fun _ => ?_
  split
  · exact h
  · rename_i c found
    split
    · exact h
    · rename_i open_
      obtain ⟨hc, own⟩ := Pool.find_mem found
      rw [← own]
      exact h.removeFree hc open_

theorem serveOpenString (h : Custody tags s) (consistent : tags → BankConsistent s) (body : List Byte) :
    Custody tags (serveOpenString body s).1 := by
  refine onString_keeps (fun x h => keeps_if _ (fun _ => h) fun unused => ?_) h
  split
  · exact h
  · refine keeps_if _ (fun _ => h) fun _ => ?_
    split
    · exact h
    · refine keeps_if _ (fun _ => h) fun _ => keeps_if _ (fun _ => h) fun _ => keeps_if _ (fun _ => h) fun _ => ?_
      refine (h.clearString x (fun _ => openedString _ _ _ _ _ _ _) (fun on => ?_) fun e he => ?_).same rfl
      · exact no_reserved_of_unused (consistent on x) (not_not.mp unused)
      · rw [opened_seats he]; rfl

theorem serveSetReference (h : Custody tags s) (body : List Byte) : Custody tags (serveSetReference body s).1 := by
  refine onString_keeps (fun x h => keeps_if _ (fun _ => h) fun _ => keeps_if _ (fun _ => h) fun _ =>
    keeps_if _ (fun _ => h) fun _ => ?_) h
  exact (h.keepString x (fun r =>
    { r with
      reference := uField body 1 3, strTol := uField body 4 2, capTol := uField body 6 2
      imbalance := uField body 8 2 }) fun _ => rfl).same rfl

theorem serveReleaseString (h : Custody tags s) (consistent : tags → BankConsistent s) (body : List Byte) :
    Custody tags (serveReleaseString body s).1 :=
  onString_keeps (fun x h => keeps_if _ (fun _ => h) fun _ => keeps_if _ (fun _ => h) fun none_ =>
    h.clearString x _ (fun on => no_reserved_of_count (consistent on x) (Nat.eq_zero_of_not_pos none_))
      (by simp [unused_seats])) h

theorem serveDeclareVacancy (h : Custody tags s) (body : List Byte) : Custody tags (serveDeclareVacancy body s).1 := by
  refine onString_keeps (fun x h => keeps_if _ (fun _ => h) fun _ => ?_) h
  split
  · exact h
  · rename_i id e hn
    refine keeps_if _ (fun _ => h) fun _ => keeps_if _ (fun installed => ?_) fun _ => h
    exact (h.vacate id _ (Closed.nameSeat_seat hn).1 installed).same rfl

/-- A seat that is not RESERVED reserves no tag. -/
theorem unreserved {id : SeatId} {e : Seat} (hs : s.seat id = some e) (no : ¬ e.isReserved = true) (tag : Nat) :
    ¬ s.reserves id tag := by
  rintro ⟨n, under, hr⟩
  obtain rfl := Option.some.inj (hs.symm.trans hr)
  exact no rfl

theorem serveRestoreSeat (h : Custody tags s) (body : List Byte) : Custody tags (serveRestoreSeat body s).1 := by
  refine onString_keeps (fun x h => keeps_if _ (fun _ => h) fun _ => ?_) h
  split
  · exact h
  · rename_i id e hn
    refine keeps_if _ (fun _ => h) fun open_ => keeps_if _ (fun _ => h) fun _ => ?_
    split
    · exact h
    · refine keeps_if _ (fun _ => h) fun held => (sealed ?_ x).same rfl
      exact h.install id _ (unreserved (Closed.nameSeat_seat hn).1 open_) fun _ => free_of_not_tagHeld held

/-- An installation, seen apart from the removal of the record it is of. -/
theorem removeRecord_install (s : State) (id : SeatId) (g : GradeRecord) (tag : Nat) :
    (s.install id g).removeRecord tag = (s.removeRecord tag).install id g := by
  rw [install_eq, removeRecord_updString, install_eq, removeRecord_seat]

theorem serveInstallDirect (h : Custody tags s) (body : List Byte) : Custody tags (serveInstallDirect body s).1 := by
  refine keeps_if _ (fun _ => h) fun _ => onString_keeps (fun x h => keeps_if _ (fun _ => h) fun _ => ?_) h
  split
  · exact h
  · rename_i id e hn
    refine keeps_if _ (fun _ => h) fun open_ => keeps_if _ (fun _ => h) fun _ => ?_
    cases found : s.pool.find (uField body 0 4) with
    | none => exact h
    | some c =>
      dsimp only
      split
      · exact h
      · exact h
      · rename_i status _
        obtain ⟨hc, own⟩ := Pool.find_mem found
        rw [← own, ← removeRecord_install]
        refine ((h.installRecord hc (fun _ d hd => ?_) fun tag ht => ?_).sealed x).same rfl
        · exact absurd (status.symm.trans hd) nofun
        · exact absurd ht (unreserved (Closed.nameSeat_seat hn).1 open_ tag)

theorem servePlaced (h : Custody tags s) (body : List Byte) : Custody tags (servePlaced body s).1 := by
  refine keeps_if _ (fun _ => h) fun _ => ?_
  split
  · exact h
  · rename_i id _
    split
    · rename_i under c reserved found
      obtain ⟨n, hs⟩ := Closed.reservation_seat reserved
      obtain ⟨hc, own⟩ := Pool.find_mem found
      rw [← own] at hs ⊢
      refine ((h.installRecord hc (fun on d hd => ?_) fun tag ht => ?_).sealed id.str).same rfl
      · obtain ⟨c', hc', e, home, -⟩ := (h.ledger on).record_of_seat hs
        obtain rfl := (h.ledger on).record_unique hc' hc e
        exact home d hd
      · obtain ⟨n', under', hs'⟩ := ht
        cases hs.symm.trans hs'
        rfl
    · exact h

theorem serveNotPlaced (h : Custody tags s) (body : List Byte) : Custody tags (serveNotPlaced body s).1 := by
  refine keeps_if _ (fun _ => h) fun _ => ?_
  split
  · exact h
  · split
    · exact h
    · split
      · exact h
      · rename_i reserved
        obtain ⟨n, hs⟩ := Closed.reservation_seat reserved
        exact (h.returnDealt hs _).same rfl

/-- EXPIRY: the reservation of the seat ends, and its record, which it always has, lapses (R130, R169). -/
theorem expired (h : Custody tags s) {id : SeatId} {tag n : Nat} {under : UnderState}
    (hs : s.seat id = some (.reserved tag n under)) (found : s.pool.find tag = none) :
    Custody tags (s.returnSeat id under) := by
  refine h.recorded rfl rfl fun on => ?_
  obtain ⟨c, hc, own, -⟩ := (h.ledger on).record_of_seat hs
  exact absurd own (by simpa using List.find?_eq_none.mp found c hc)

/-! ### Every command -/

theorem enterReset (s : State) : Custody tags s.enterReset :=
  same (s := State.reset) ⟨reset_baysWhole, fun _ => (tagsHeldOnce_iff _).mp reset_tagsHeldOnce⟩ rfl

/-- Every command keeps the bays whole; with the bank consistent it keeps the ledger of tags too. -/
theorem exec {i : Instr} {u : State} (e : exec i s = .next u) (consistent : tags → BankConsistent s)
    (h : Custody tags s) : Custody tags u := by
  cases i with
  | echo t body | getIdentity t body | reset t body | getLinkLog t body | getStageBus t body | getAllowance t body
  | getMatcher t body | getAlert t body => exact msg e h id
  | clearLinkError t body | pauseMatcher t body | resumeMatcher t body | setPlacementTimeout t body =>
    exact msg e h fun h => h.same rfl
  | getTrim t body | getWindow t body | getBay t body => exact msg e h (onBay_keeps fun _ h => h)
  | getString t body => exact msg e h (onString_keeps fun _ h => h)
  | setLinkMode t body =>
    refine msg e h fun h => ?_
    unfold serveSetLinkMode
    split
    exacts [h, h.same rfl]
  | setLinkRate t body => exact msg e h fun h => by unfold serveSetLinkRate; split <;> exact h
  | writeProfile t body =>
    refine msg e h fun h => ?_
    unfold serveWriteProfile
    split
    · exact h
    · refine keeps_if _ (fun _ => h) fun _ => ?_
      dsimp only
      split
      exacts [h, h.same rfl]
  | readProfile t body =>
    refine msg e h fun h => ?_
    unfold serveReadProfile
    split
    · exact h
    · split <;> exact h
  | eraseProfile t body =>
    refine msg e h fun h => ?_
    unfold serveEraseProfile
    split
    · exact h
    · split
      · exact h
      · exact keeps_if _ (fun _ => h) fun _ => h.same rfl
  | enterCal t body => exact msg e h fun h => h.serveEnterCal body
  | trim t body =>
    refine msg e h (onBay_keeps fun b h => ?_)
    split
    · exact h
    · exact keeps_if _ (fun _ => h) fun _ => keeps_if _ (fun _ => h) fun _ => h.same rfl
  | setTrimRange t body =>
    refine msg e h (onBay_keeps fun b h => ?_)
    split
    · exact h
    · exact keeps_if _ (fun _ => h.same rfl) fun _ => h
  | exitCal t body => exact msg e h fun h => h.serveExitCal body
  | load t body => exact msg e h fun h => h.serveLoad body
  | start t body => exact msg e h (onBay_keeps fun b h => oneBay_keeps (fun _ b _ e h => h.startBay b e) b h)
  | startGroup t body => exact msg e h fun h => serveGroup (fun _ b _ e h => h.startBay b e) h body
  | suspend t body => exact msg e h (onBay_keeps fun b h => oneBay_keeps (fun _ b _ e h => h.lineSuspend b e) b h)
  | resume t body => exact msg e h fun h => h.serveResume body
  | resumeGroup t body =>
    refine msg e h fun h => ?_
    unfold serveResumeGroup
    split
    exacts [h, serveGroup (fun _ b _ e h => h.resumeBay _ b e) h body]
  | abort t body => exact msg e h (onBay_keeps fun b h => oneBay_keeps (fun _ b _ e h => h.abortBay b e) b h)
  | abortGroup t body => exact msg e h fun h => serveGroup (fun _ b _ e h => h.abortBay b e) h body
  | unload t body => exact msg e h fun h => h.serveUnload body
  | stopAll t body => exact msg e h serveStopAll
  | setLimit t body => exact msg e h fun h => (h.updCaa _).examine
  | restoreCandidate t body => exact msg e h fun h => h.serveRestoreCandidate body
  | withdraw t body => exact msg e h fun h => h.serveWithdraw body
  | getPool t body => exact msg e h fun h => keeps_if _ (fun _ => h) fun _ => h
  | getCandidate t body => exact msg e h fun h => keeps_if _ (fun _ => h) fun _ => by split <;> exact h
  | openString t body => exact msg e h fun h => h.serveOpenString consistent body
  | setReference t body => exact msg e h fun h => h.serveSetReference body
  | declareVacancy t body => exact msg e h fun h => h.serveDeclareVacancy body
  | releaseString t body => exact msg e h fun h => h.serveReleaseString consistent body
  | restoreSeat t body => exact msg e h fun h => h.serveRestoreSeat body
  | installDirect t body => exact msg e h fun h => h.serveInstallDirect body
  | getPosition t body =>
    exact msg e h (onString_keeps fun _ h => keeps_if _ (fun _ => h) fun _ => by split <;> exact h)
  | placed t body => exact msg e h fun h => h.servePlaced body
  | notPlaced t body => exact msg e h fun h => h.serveNotPlaced body
  | fetchNotices t body =>
    refine msg e h fun h => keeps_if _ (fun _ => h) fun _ => ?_
    dsimp only
    split_ifs <;> exact h.same rfl
  | setNoticeThreshold t body => exact msg e h fun h => keeps_if _ (fun _ => h) fun _ => h.same rfl
  | setAlertEnable t body =>
    refine msg e h fun h => ?_
    unfold serveSetAlertEnable
    split
    exacts [h, h.same rfl]
  | clearAlert t body =>
    refine msg e h fun h => ?_
    unfold serveClearAlert
    split
    exacts [h, h.same rfl]
  | badKind k t body =>
    unfold Machine.exec execBadKind at e
    refine event_keeps (fun h => ?_) h e
    split_ifs
    exacts [h, h.same rfl, h.same rfl]
  | checkError k t body check =>
    unfold Machine.exec execCheckError at e
    refine event_keeps (fun h => ?_) h e
    split_ifs
    exacts [h, h.same rfl, h.same rfl]
  | lengthError hi lo =>
    unfold Machine.exec execLengthError at e
    refine event_keeps (fun h => ?_) h e
    split_ifs
    exacts [h.cutFrame _, h]
  | gapError held =>
    unfold Machine.exec execGapError at e
    refine event_keeps (fun h => ?_) h e
    split_ifs
    exacts [h.cutFrame _, h]
  | overrunFrame ending =>
    unfold Machine.exec execOverrunFrame at e
    refine event_keeps (fun h => ?_) h e
    split_ifs
    · cases ending <;> exact h.same rfl
    · exact h
  | replyStart =>
    unfold Machine.exec execReplyStart at e
    exact event_keeps (fun h => h.same rfl) h e
  | replyEnd =>
    unfold Machine.exec execReplyEnd at e
    refine event_keeps (fun h => ?_) h e
    split
    · exact h
    · rename_i r _
      cases r.act with
      | none => exact h.same rfl
      | setRate _ => exact h.same rfl
      | reset => exact enterReset _
  | resetInput => cases e; exact enterReset s
  | sample b vin iin tin inCal =>
    unfold Machine.exec execSample at e
    refine event_keeps (fun h => same (s := s.settleBay b) ?_ ?_) h e
    · exact (h.answerReports b _).takeAnswers b _
    · exact custody_of_refs (RefsFilled.foldSample_refs _ b _)
  | calWindowCompletion b =>
    unfold Machine.exec execCalWindowCompletion at e
    refine event_keeps (fun h => ?_) h e
    split_ifs
    exacts [h, h.same rfl]
  | phaseEntry b =>
    unfold Machine.exec execPhaseEntry at e
    exact event_keeps (fun h => h.wevTakeIf b _) h e
  | clockStart b =>
    unfold Machine.exec execClockStart at e
    exact event_keeps (fun h => h.wevTakeIf b _) h e
  | phaseLeave b =>
    unfold Machine.exec execPhaseLeave at e
    exact event_keeps (fun h => h.wevTakeIf b _) h e
  | sampleReport b =>
    unfold Machine.exec execSampleReport at e
    exact event_keeps (fun h => h.bsqTakeIf b _) h e
  | closingReport b =>
    unfold Machine.exec execClosingReport at e
    exact event_keeps (fun h => h.bsqTakeIf b _) h e
  | request =>
    unfold Machine.exec execRequest at e
    refine event_keeps (fun h => ?_) h e
    split
    exacts [h.caaTakes _ (.request _ _ _), h]
  | leave =>
    unfold Machine.exec execLeave at e
    refine event_keeps (fun h => ?_) h e
    split
    exacts [h.caaTakes _ (.leave _), h]
  | grantReturn =>
    unfold Machine.exec execGrantReturn at e
    refine event_keeps (fun h => ?_) h e
    split
    exacts [h.caaTakes _ (.giveBack _ _), h]
  | grant =>
    unfold Machine.exec execGrant at e
    refine event_keeps (fun h => ?_) h e
    split
    · exact h
    · exact h.grantTaken _ _
  | transactionStart =>
    unfold Machine.exec execTransactionStart at e
    exact event_keeps (fun h => h.updSbc _) h e
  | ack =>
    unfold Machine.exec execAck at e
    refine event_keeps (fun h => ?_) h e
    split
    exacts [(h.updSbc _).acknowledged _ _ _, h]
  | nack =>
    unfold Machine.exec execNack at e
    refine event_keeps (fun h => ?_) h e
    split
    exacts [(h.updSbc _).noAnswer _, h]
  | statusReadOutcome status check =>
    unfold Machine.exec execStatusReadOutcome at e
    refine event_keeps (fun h => ?_) h e
    split
    exacts [(h.updSbc _).statusRead _ _, h]
  | broadcastComplete =>
    unfold Machine.exec execBroadcastComplete at e
    refine event_keeps (fun h => ?_) h e
    split
    exacts [(h.updSbc _).releaseAll, h]
  | arbitrationLost =>
    unfold Machine.exec execArbitrationLost at e
    refine event_keeps (fun h => ?_) h e
    split
    exacts [h.updSbc _, h]
  | foreignStart =>
    unfold Machine.exec execForeignStart at e
    refine event_keeps (fun h => ?_) h e
    split_ifs
    exacts [h.updSbc _, h]
  | foreignTransaction bytes =>
    unfold Machine.exec execForeignTransaction at e
    refine event_keeps (fun h => ?_) h e
    dsimp only
    split_ifs
    exacts [(h.foreignOff _).updSbc _, h.updSbc _, h]
  | stall =>
    unfold Machine.exec execStall at e
    refine event_keeps (fun h => ?_) h e
    split_ifs
    · exact h
    · exact same (suspendMany (s := (s.updSbc (StageBus.stall s.awaitRecovery)).updNqa _) (h.same rfl) _ _) rfl
  | busRecovery =>
    unfold Machine.exec execBusRecovery at e
    refine event_keeps (fun h => ?_) h e
    split_ifs
    exacts [h.updSbc _, h]
  | faultAssertion =>
    unfold Machine.exec execFaultAssertion at e
    refine event_keeps (fun h => ?_) h e
    split_ifs
    exacts [h, h.updSbc _]
  | faultRelease =>
    unfold Machine.exec execFaultRelease at e
    exact event_keeps (fun h => h.updSbc _) h e
  | matchingPass =>
    unfold Machine.exec execMatchingPass at e
    refine event_keeps (fun h => ?_) h e
    split_ifs
    · exact runPass (s := s.updPlm _) (h.same rfl)
    · exact h
  | timeStep =>
    unfold Machine.exec execTimeStep at e
    exact event_keeps tick h e
  | expiry seat =>
    unfold Machine.exec execExpiry at e
    refine event_keeps (fun h => ?_) h e
    split
    · rename_i hs
      dsimp only
      split
      · rename_i c found
        exact (h.returnLapsed hs (Pool.find_mem found).2).same rfl
      · rename_i found
        exact (h.expired hs found).same rfl
    · exact h
  | resetRelease sda scl fault =>
    cases e
    split_ifs
    exacts [h.same rfl, h]

end Custody

/-! ### The bank (R138, R139, R141) -/

/-- Only a change of a string bears on the strings, and reset leaves them UNUSED. -/
theorem bankConsistent_closed : Closed BankConsistent where
  bay _ _ _ _ h := h
  wev _ _ _ _ h := h
  trims _ _ _ _ h := h
  sbc _ _ _ _ h := h
  caa _ _ _ h := h
  pool _ _ _ _ h := h
  bank s x f keeps _ h := by
    intro y
    rw [State.updString_string]
    split_ifs
    exacts [keeps (h x), h y]
  tick s h := by
    intro x
    have ticked : ({ s with bank := s.bank.map BankString.tick } : State).string x = (s.string x).tick := by
      simp [State.string, Vector.get_eq_getElem]
    rw [ticked]
    exact tick_consistent (h x)
  plm _ _ _ h := h
  nqa _ _ _ h := h
  link _ _ _ h := h
  profiles _ _ _ _ h := h
  handOver _ _ e h := by rw [e]; exact h
  flag _ _ h := h
  reset _ x := by
    show (State.reset.string x).consistent
    rw [State.reset_string]
    exact unused_consistent
  pop _ _ h := h

/-- Settles O9: the strings by `Closed`, the bays and the tags by what `Custody` keeps. -/
theorem stepKeepsBankConsistent : Obligations.StepKeepsBankConsistent := by
  refine ⟨fun s t consistent e => ?_, fun s t whole e => ?_, fun s t consistent whole once e => ?_⟩ <;>
    rcases step_cases e with rfl | ⟨c, rest, -, e⟩
  · exact consistent
  · exact bankConsistent_closed.exec e consistent
  · exact whole
  · have held : Custody False { s with pending := rest } := ⟨whole, False.elim⟩
    exact (held.exec e False.elim).whole
  · exact once
  · have held : Custody True { s with pending := rest } := ⟨whole, fun _ => (tagsHeldOnce_iff s).mp once⟩
    exact (tagsHeldOnce_iff t).mpr ((held.exec e fun _ => consistent).ledger trivial)

end Sys2Proof.Machine
end

section
/-! A bay entering, leaving and ending its phases (R59 to R62, R69 to R73, R78): what each act of BSQ writes. -/

namespace Sys2Proof.Machine

/-! ### Phase entries (R59) -/

section
variable (s : State) (b : BayId) (p : Phase) (sub : Substate)

theorem beginPhase_bay : (s.beginPhase b p sub).bay b = (s.bay b).enter p sub := set_get_self _ _ _

theorem beginPhase_profileOfBay : (s.beginPhase b p sub).profileOfBay b = s.profileOfBay b := by
  rw [State.profileOfBay, beginPhase_bay]
  rfl

/-- The write that opens a phase is labelled with the entry number of the phase (R59). -/
theorem beginPhase_queueWrite (k : WriteKind) (value : Nat) :
    (s.beginPhase b p sub).queueWrite b k value ((s.beginPhase b p sub).bay b).entry =
      { s.beginPhase b p sub with sbc := s.sbc.write b k value (((s.bay b).entry + 1) % 65536) } := by
  rw [beginPhase_bay]
  rfl

/-- The request that opens a phase is labelled so too (R59, R101). -/
theorem beginPhase_askCurrent : (s.beginPhase b p sub).askCurrent b p = { s.beginPhase b p sub with
    toCaa := s.toCaa ++ [.request b ((s.profileOfBay b).phaseCurrent p) (((s.bay b).entry + 1) % 65536)] } := by
  rw [State.askCurrent, beginPhase_profileOfBay, beginPhase_bay]
  rfl

theorem enterPhase_chargeCV : s.enterPhase b .chargeCV = { s.beginPhase b .chargeCV .awaitingStage with
    sbc := s.sbc.write b .chargeVoltage (s.profileOfBay b).cvVoltage (((s.bay b).entry + 1) % 65536) } := by
  refine (beginPhase_queueWrite _ _ _ _ _ _).trans ?_
  rw [beginPhase_profileOfBay]

/-- A phase that ends leaves CAA as well, but for the grant that CHARGE_CV carries over (R59, R70). -/
theorem nextPhase_eq : s.nextPhase b p = State.enterPhase { s with
    toWev := s.toWev.set b (s.toWev.get b ++ [.leave true true])
    toCaa := if p = .chargeCV then s.toCaa else s.toCaa ++ [.leave b] } b p := by
  cases p <;> rfl

end

/-- Settles O29: each phase opens with the write or the request of its kind. -/
theorem phaseEntryFollowsTable : Obligations.PhaseEntryFollowsTable := by
  refine ⟨nextPhase_eq, ?_⟩
  rintro s b p _ _ rfl rfl
  have cleared (sub : Substate) := beginPhase_queueWrite s b p sub .off 0
  cases p with
  | check | rest0 | rest1 | restP | rest2 =>
    exact ⟨.awaitingStage, _, rfl, ⟨rfl, cleared _⟩, cleared _⟩
  | chargeCC | discharge | pulse =>
    exact ⟨.awaitingGrant, _, rfl, ⟨rfl, beginPhase_askCurrent _ _ _ _⟩, cleared _⟩
  | chargeCV => exact ⟨.awaitingStage, _, rfl, ⟨rfl, enterPhase_chargeCV _ _⟩, cleared _⟩

/-! ### Suspension and rejection (R72, R73) -/

theorem rejectBay_eq (s : State) (b : BayId) (c : RejectCause) : s.rejectBay b c = { s with
    bays := s.bays.set b { s.bay b with state := .rejected, substate := .none, cause := .reject c }
    toWev := s.toWev.set b (s.toWev.get b ++ [.leave false true])
    toCaa := s.toCaa ++ [.leave b]
    sbc := s.sbc.write b .off 0 (s.bay b).entry
    nqa := s.nqa.push (.rejected ((s.bay b).tag.getD 0) b c none) } := by
  have own : (((s.leavePhase b false true false).updBay b fun r =>
      { r with state := .rejected, substate := .none, cause := .reject c }).bay b).entry = (s.bay b).entry := by
    rw [State.updBay_bay, if_pos rfl]
    rfl
  rw [State.rejectBay, State.offWrite, own]
  rfl

theorem queuesOff_iff (c : SuspensionCause) : c.queuesOff = true ↔ ¬ (c = .externalOff ∨ c = .busStall) := by
  cases c <;> simp [SuspensionCause.queuesOff]

/-- Settles O30, by the equations of the two acts. -/
theorem suspensionFollowsRule : Obligations.SuspensionFollowsRule := by
  refine ⟨rejectBay_eq, fun s b p c code answering phase => ?_⟩
  rw [suspendBay_eq phase]
  simp only [queuesOff_iff, ite_not]
  rfl

/-! ### A sample counted (R62) -/

theorem qAdd_fst (q : Nat) (i : Int) : ((qAdd q i).1 : Int) = max 0 (min 4294967295 ((q : Int) - i)) := by
  simp only [qAdd, Config.max32]
  omega

theorem qAdd_snd (q : Nat) (i : Int) : (qAdd q i).2 = true ↔ 4294967295 < (q : Int) - i := decide_eq_true_iff

/-- The part of a count that a verdict adds (R61, R54). -/
def Bay.judged (p : Phase) (v : Verdict) (r : Bay) : Bay :=
  { (if p = .discharge then r.addDischarge v.record else r) with
    lastIndex := v.record.index, lastSumV := v.record.sumV }

/-- The part of a count that every sample adds (R62). -/
def Bay.clocked (p : Phase) (x : SampleReport) (r : Bay) : Bay :=
  { r with
    clock := r.clock + 1
    chargeTime := if p = .chargeCC ∨ p = .chargeCV then min 16777215 (r.chargeTime + 1) else r.chargeTime
    dischargeTime := if p = .discharge then min 16777215 (r.dischargeTime + 1) else r.dischargeTime
    q := if p = .discharge then (qAdd r.q x.i).1 else r.q
    marks := { r.marks with
      saturated := if p = .discharge then r.marks.saturated || (qAdd r.q x.i).2 || x.satI else r.marks.saturated } }

theorem Bay.count_eq (p : Phase) (x : SampleReport) (r : Bay) : r.count p x =
    match x.verdict with
    | none => r.clocked p x
    | some v => (r.clocked p x).judged p v := by
  unfold Bay.count
  cases x.verdict <;> cases p <;> rfl

/-- Settles O36: what a verdict adds comes on top of what every sample adds. -/
theorem sampleCountedByPhase : Obligations.SampleCountedByPhase := by
  intro r p x
  refine ⟨_, rfl, ?_⟩
  rw [Bay.count_eq]
  cases judged : x.verdict with
  | none =>
    dsimp only
    refine ⟨rfl, rfl, rfl, fun other => ?_, fun discharge => ?_, fun v h => absurd h (by simp), fun _ => ⟨rfl, rfl⟩, rfl⟩
    · simp [Bay.clocked, other]
    · simp [Bay.clocked, discharge, qAdd_fst, qAdd_snd, or_assoc, or_comm (a := x.satI = true)]
  | some v =>
    dsimp only
    by_cases discharge : p = .discharge
    · simp [Bay.judged, Bay.addDischarge, Bay.clocked, discharge, qAdd_fst, qAdd_snd, or_assoc,
        or_comm (a := x.satI = true)]
    · simp [Bay.judged, Bay.clocked, discharge]

/-! ### A closing report (R61, R69, R70) -/

/-- CLOSING_REPORT, where a closing report is the oldest message of WEV (log 3). -/
theorem exec_closingReport {s : State} {b : BayId} {c : ClosingReport} {rest : List BsqMsg} (live : s.inReset = false)
    (queue : s.toBsq.get b = .closing c :: rest) : exec (.closingReport b) s =
      .next { s with toBsq := s.toBsq.set b rest, bays := s.bays.set b ((s.bay b).takeClosing c) } := by
  refine (event_runs (f := fun s => s.bsqTakeIf b fun m => !m.isReport) live).trans (congrArg _ ?_)
  unfold State.bsqTakeIf State.bsqTakeHead
  simp only [queue, BsqMsg.isReport, Bool.not_false, if_true]
  rfl

/-- What a closing report adds and sets, field by field. -/
theorem Bay.takeClosing_eq (c : ClosingReport) (r : Bay) : r.takeClosing c = { r with
    dCount := if c.phase = .discharge then c.part.elim r.dCount fun w => r.dCount + w.count else r.dCount
    dWeight := if c.phase = .discharge then c.part.elim r.dWeight fun w => r.dWeight + (w.count : Int) * w.meanT
      else r.dWeight
    preV := if c.phase = .restP ∧ c.finished = true then c.ringV else r.preV
    preI := if c.phase = .restP ∧ c.finished = true then c.ringI else r.preI
    pulseV := if c.phase = .pulse ∧ c.finished = true then c.ringV else r.pulseV
    pulseI := if c.phase = .pulse ∧ c.finished = true then c.ringI else r.pulseI
    marks := { r.marks with watchOff := r.marks.watchOff || (c.finished && !c.watch) } } := by
  obtain ⟨phase, _, part, _, _, _, watch, finished⟩ := c
  cases finished <;> cases phase <;> cases part <;> simp [Bay.takeClosing, Bay.addDischarge]

/-- Settles O37, field by field. -/
theorem closingReportTaken : Obligations.ClosingReportTaken := by
  intro s b c rest live queue
  refine ⟨_, exec_closingReport live queue, ?_⟩
  rw [Bay.takeClosing_eq]
  refine ⟨fun w discharge part => by simp [discharge, part], fun other => ?_, fun pre finished => by simp [pre, finished],
    fun other => ?_, fun pulse finished => by simp [pulse, finished], fun other => ?_, by simp, rfl⟩
  · rcases other with other | unparted
    · simp [other]
    · simp [unparted]
  · rcases other with other | cut <;> simp [*]
  · rcases other with other | cut <;> simp [*]

/-! ### A bay record changed in its phase -/

section
variable {s : State} {b : BayId} {f : Bay → Bay}

theorem updBay_updBay {g : Bay → Bay} : (s.updBay b f).updBay b g = s.updBay b fun r => g (f r) := by
  rw [State.updBay, State.updBay, updAt_updAt]
  rfl

theorem updBay_own : (s.updBay b f).bay b = f (s.bay b) := by rw [State.updBay_bay, if_pos rfl]

theorem updBay_profileOfBay (kept : (f (s.bay b)).profile = (s.bay b).profile) :
    (s.updBay b f).profileOfBay b = s.profileOfBay b := by
  rw [State.profileOfBay, updBay_own, kept]
  rfl

end

/-! ### A grant taken (R60, R101) -/

section
variable {s : State} {m : GrantMsg}

/-- GRANT, where one is the oldest of CAA (log 3). -/
theorem exec_grant {rest : List GrantMsg} (live : s.inReset = false) (queue : s.grantsOut = m :: rest) :
    exec .grant s = .next (({ s with grantsOut := rest } : State).takeGrant m) := by
  show execGrant s = _
  simp only [execGrant, event_runs live, queue]

theorem takeGrant_awaited {p : Phase} (phase : (s.bay m.bay).state = .phase p)
    (awaits : (s.bay m.bay).substate = .awaitingGrant) (entry : (s.bay m.bay).entry = m.entry) :
    s.takeGrant m = { s with
      bays := s.bays.set m.bay { s.bay m.bay with substate := .awaitingStage }
      sbc := s.sbc.write m.bay (if p = .chargeCC then .chargeCurrent else .dischargeCurrent)
        ((s.profileOfBay m.bay).phaseCurrent p) m.entry } := by
  simp only [State.takeGrant, phase]
  rw [if_pos ⟨awaits, entry⟩, State.openCurrent, updBay_profileOfBay rfl, updBay_own, ← entry, ← phase]
  rfl

theorem takeGrant_ended (h : (s.bay m.bay).substate ≠ .awaitingGrant ∨ (s.bay m.bay).entry ≠ m.entry ∨
    ∀ q, (s.bay m.bay).state ≠ .phase q) : s.takeGrant m = s.tellCaa (.giveBack m.bay m.entry) := by
  unfold State.takeGrant
  split
  · rename_i p phase
    refine if_neg ?_
    rintro ⟨awaits, entry⟩
    rcases h with h | h | h
    exacts [h awaits, h entry, h p phase]
  · rfl

end

/-- Settles O38. -/
theorem grantOpensThePhase : Obligations.GrantOpensThePhase := by
  intro s m rest p live queue
  refine ⟨_, _, rfl, rfl, fun phase awaits entry => ?_, fun ended => ?_⟩ <;> rw [exec_grant live queue]
  · exact congrArg _ (takeGrant_awaited (s := { s with grantsOut := rest }) phase awaits entry)
  · exact congrArg _ (takeGrant_ended (s := { s with grantsOut := rest }) ended)

/-! ### An acknowledgement (R60, R78, R89) -/

section
variable {s : State} {b : BayId} {k : WriteKind} {label : Nat}

/-- ACK, of a setpoint write. -/
theorem exec_ack {value : Nat} (live : s.inReset = false) (sent : s.sbc.inFlight = some (.write b k value label)) :
    exec .ack s = .next ((s.updSbc StageBus.finish).acknowledged b k label) := by
  show execAck s = _
  simp only [execAck, event_runs live, sent]

theorem bsqAck_unawaited (h : (s.bay b).substate ≠ .awaitingStage ∨ (s.bay b).entry ≠ label) :
    s.bsqAck b k label = s := by
  unfold State.bsqAck
  split
  · exact if_neg fun awaited => h.elim (· awaited.1) (· awaited.2)
  · rfl

theorem bsqAck_awaited {p : Phase} (phase : (s.bay b).state = .phase p)
    (awaits : (s.bay b).substate = .awaitingStage) : s.bsqAck b k (s.bay b).entry =
      if p.isCurrent = true ∧ k = .off then
        (s.updBay b fun r => { r with substate := .awaitingGrant }).askCurrent b p
      else (s.updBay b fun r => { r with substate := .running }).tellWev b .clockStart := by
  simp [State.bsqAck, phase, awaits]

theorem askCurrent_updBay (f : Bay → Bay) (p : Phase) (profile : (f (s.bay b)).profile = (s.bay b).profile)
    (entry : (f (s.bay b)).entry = (s.bay b).entry) : (s.updBay b f).askCurrent b p = { s with
      bays := s.bays.set b (f (s.bay b))
      toCaa := s.toCaa ++ [.request b ((s.profileOfBay b).phaseCurrent p) (s.bay b).entry] } := by
  rw [State.askCurrent, updBay_profileOfBay profile, updBay_own, entry]
  rfl

end

/-- Settles O42: CAA first, then BSQ. -/
theorem acknowledgementReleasesThenStarts : Obligations.AcknowledgementReleasesThenStarts := by
  intro s b
  refine ⟨fun k value label live sent => ⟨_, rfl, exec_ack live sent⟩, fun none_ => if_pos none_, fun held => if_neg held,
    fun p k => ⟨fun label => bsqAck_unawaited, fun phase awaits => ⟨fun current off => ?_, fun other => ?_⟩⟩⟩ <;>
    rw [bsqAck_awaited phase awaits]
  · rw [if_pos ⟨current, off⟩]
    exact askCurrent_updBay _ _ rfl rfl
  · rw [if_neg fun both => other.elim (by simp [both.1]) (· both.2)]
    rfl

/-! ### The end of the test (R70, R71, R107, R127) -/

section
variable {s : State} {b : BayId} {g : GradeRecord}

theorem enterFromBay_updBay {f : Bay → Bay} : (s.updBay b f).enterFromBay b g =
    (((s.updBay b fun r => { f r with state := .done, substate := .none }).updPool (Pool.enter g)).notify
      (gradedNotice g b)).askPass :=
  congrArg (fun u : State => ((u.updPool (Pool.enter g)).notify (gradedNotice g b)).askPass)
    (updBay_updBay (g := fun r => { r with state := .done, substate := .none }))

theorem settleGrade_rejected {c : RejectCause} (h : g.reject = some c) : s.settleGrade b g = { s with
    bays := s.bays.set b { s.bay b with grade := some g, substate := .none, state := .rejected, cause := .reject c }
    nqa := s.nqa.push (.rejected g.tag b c (some (g.ccorr, g.soh, g.res.map Prod.fst))) } := by
  simp only [State.settleGrade, h, updBay_updBay]
  rfl

theorem settleGrade_pooled (h : g.reject = none) (room : s.pool.records.length < 128) : s.settleGrade b g =
    ({ s with
      bays := s.bays.set b { s.bay b with grade := some g, substate := .none, state := .done }
      pool := s.pool.enter g
      nqa := s.nqa.push (.graded g.tag b g.cls g.ccorr g.soh) } : State).askPass := by
  simp only [State.settleGrade, h]
  refine (if_pos room).trans ?_
  exact enterFromBay_updBay

theorem settleGrade_parked (h : g.reject = none) (full : 128 ≤ s.pool.records.length) : s.settleGrade b g = { s with
    bays := s.bays.set b { s.bay b with grade := some g, substate := .none, state := .parked }
    pool := { s.pool with park := s.pool.park ++ [b] } } := by
  simp only [State.settleGrade, h]
  refine (if_neg (Nat.not_lt.mpr full)).trans ?_
  rw [updBay_updBay]
  rfl

end

/-- Settles O40: the end of REST2 by `finishTest_eq`, and each outcome of grading by its equation. -/
theorem gradeSettlesTheBay : Obligations.GradeSettlesTheBay := by
  intro s b g
  refine ⟨⟨(s.bay b).watched (s.wevBay b), (s.wevBay b).left, s.testEnded b, _, s.finalInputs b, rfl, rfl, fun out => ?_,
    fun e held => ?_, rfl, ?_, finishTest_eq s b⟩, fun c => settleGrade_rejected, settleGrade_pooled, settleGrade_parked⟩
  · simp [WevBay.left, out]
  · simp only [WevBay.left, held]
    rfl
  · simp only [State.finalInputs, Bay.gradeInputs, decide_eq_true_iff, ite_not]

end Sys2Proof.Machine
end

section
/-! The stage queue and the reports of a stage (R73, R74, R84 to R91): each write, start, outcome and report. -/

namespace Sys2Proof.Machine

/-! ### A write joins the queue (R86) -/

section
variable {b : BayId} {k : WriteKind} {value label : Nat} {q : List BusEntry}

theorem joinWrite_tail (none_ : q.any (·.isWriteOf b) = false) :
    joinWrite b k value label q = q ++ [.write b k value label] := by
  simp [joinWrite, none_]

theorem map_replaceWrite (none_ : q.any (·.isWriteOf b) = false) :
    (q.map fun e => if e.isWriteOf b then .write b k value label else e) = q := by
  have kept : ∀ e ∈ q, (if e.isWriteOf b then .write b k value label else e) = e := fun e he =>
    if_neg (List.any_eq_false.mp none_ e he)
  rw [List.map_congr_left kept, List.map_id']

theorem joinWrite_replaces {before behind : List BusEntry} {e : BusEntry} (own : e.isWriteOf b = true)
    (only : (before ++ behind).any (·.isWriteOf b) = false) :
    joinWrite b k value label (before ++ e :: behind) = before ++ .write b k value label :: behind := by
  rw [List.any_append, Bool.or_eq_false_iff] at only
  simp [joinWrite, own, map_replaceWrite only.1, map_replaceWrite only.2]

end

/-! ### A report of a stage at BSQ (R73, R74) -/

section
variable {s : State} {b : BayId} {c : SuspensionCause} {code : StageCode}

theorem stageReport_phase {p : Phase} (phase : (s.bay b).state = .phase p) :
    s.stageReport b c code = s.suspendBay b c code false := by simp only [State.stageReport, phase]

theorem stageReport_still (still : ∀ p, (s.bay b).state ≠ .phase p) :
    s.stageReport b c code = s.changeCause b c code := by
  unfold State.stageReport
  split
  · rename_i p phase
    exact absurd phase (still p)
  · rfl

theorem still_of_suspended (h : (s.bay b).state = .suspended) (p : Phase) : (s.bay b).state ≠ .phase p := by
  rw [h]; nofun

theorem stageReport_changed (suspended : (s.bay b).state = .suspended) (other : (s.bay b).cause ≠ .suspension c code) :
    s.stageReport b c code = { s with
      bays := s.bays.set b { s.bay b with cause := .suspension c code }
      nqa := s.nqa.push (.suspended b c code (s.bay b).resume) } := by
  rw [stageReport_still (still_of_suspended suspended)]
  exact if_pos ⟨suspended, other⟩

theorem stageReport_same (suspended : (s.bay b).state = .suspended) (same : (s.bay b).cause = .suspension c code) :
    s.stageReport b c code = s := by
  rw [stageReport_still (still_of_suspended suspended)]
  exact if_neg fun h => h.2 same

theorem stageReport_other (still : ∀ p, (s.bay b).state ≠ .phase p) (other : (s.bay b).state ≠ .suspended) :
    s.stageReport b c code = s := by
  rw [stageReport_still still]
  exact if_neg fun h => other h.1

end

/-! ### A transaction starts and comes to its outcome (R84, R87, R90, R91) -/

section
variable {s : State} {b : BayId}

theorem exec_transactionStart (live : s.inReset = false) :
    exec .transactionStart s = .next (s.updSbc StageBus.begin) :=
  event_runs (f := fun s => s.updSbc StageBus.begin) live

theorem begin_sends {x : StageBus} {e : BusEntry} {rest : List BusEntry} (queue : x.queue = e :: rest)
    (idle : x.bus = .idle) (free : x.inFlight = none) :
    x.begin = { x with queue := rest, inFlight := some e, newer := false, bus := .busy } := by
  simp only [StageBus.begin, queue]
  exact if_pos ⟨idle, free⟩

theorem begin_waits {x : StageBus} (h : x.bus ≠ .idle ∨ x.inFlight ≠ none ∨ x.queue = []) : x.begin = x := by
  unfold StageBus.begin
  split
  · rename_i queue
    refine if_neg fun ready => ?_
    rcases h with h | h | h
    exacts [h ready.1, h ready.2, by simp [queue] at h]
  · rfl

theorem exec_nack {k : WriteKind} {value label : Nat} (live : s.inReset = false)
    (sent : s.sbc.inFlight = some (.write b k value label)) :
    exec .nack s = .next ((s.updSbc StageBus.finish).noAnswer b) := by
  show execNack s = _
  simp only [execNack, event_runs live, sent]

theorem exec_statusReadOutcome {status check : Byte} (live : s.inReset = false)
    (sent : s.sbc.inFlight = some (.statusRead b)) : exec (.statusReadOutcome status check) s =
      .next ((s.updSbc StageBus.finish).statusRead b (statusOf status check)) := by
  show execStatusReadOutcome status check s = _
  simp only [execStatusReadOutcome, event_runs live, sent]

theorem statusOf_zero {status check : Byte} (sum : status + check = 0) (zero : status = 0) :
    statusOf status check = some .ok :=
  (if_neg (not_not.mpr sum)).trans (if_pos zero)

theorem statusOf_nonzero {status check : Byte} (sum : status + check = 0) (nonzero : status ≠ 0) :
    statusOf status check =
      some (if status = 1 then .overtemp else if status = 3 then .inputLoss else .outputFault) := by
  refine ((if_neg (not_not.mpr sum)).trans (if_neg nonzero)).trans ?_
  split_ifs <;> rfl

theorem statusOf_badSum {status check : Byte} (sum : status + check ≠ 0) : statusOf status check = none := if_pos sum

theorem statusRead_code {code : StageCode} (fault : code ≠ .ok) :
    s.statusRead b (some code) = (s.release b).stageReport b .stageFault code := by
  cases code with
  | ok => exact absurd rfl fault
  | _ => rfl

end

/-- Settles O41, by the equations of the queue, the report and the outcomes. -/
theorem stageTransactionsTaken : Obligations.StageTransactionsTaken := by
  refine ⟨fun x b k value label => ⟨rfl, joinWrite_tail, fun before e behind queue own only => ?_⟩,
    fun s b c code => ⟨fun ⟨_, phase⟩ => stageReport_phase phase, stageReport_changed, stageReport_same,
      stageReport_other⟩, fun s b w st ck rest live => ⟨fun queue idle free => ?_, fun waits => ?_, _, _, rfl, rfl,
      fun k value label sent => ?_, fun sent => ⟨fun sum zero => ?_, fun code sum nonzero known => ?_, fun sum => ?_⟩⟩⟩
  · rw [queue]
    exact joinWrite_replaces own only
  · rw [exec_transactionStart live]
    exact congrArg (fun x => Host.Outcome.next (s.updSbc fun _ => x)) (begin_sends queue idle free)
  · rw [exec_transactionStart live]
    exact congrArg (fun x => Host.Outcome.next (s.updSbc fun _ => x)) (begin_waits waits)
  · rw [exec_nack live sent]
    exact ⟨fun ⟨_, phase⟩ => congrArg _ (stageReport_phase (s := State.updSbc _ _) phase),
      fun suspended other => congrArg _ (stageReport_changed (s := State.updSbc _ _) suspended other),
      fun suspended same => congrArg _ (stageReport_same (s := State.updSbc _ _) suspended same),
      fun still other => congrArg _ (stageReport_other (s := State.updSbc _ _) still other)⟩
  · rw [exec_statusReadOutcome live sent, statusOf_zero sum zero]
    rfl
  · rw [exec_statusReadOutcome live sent, statusOf_nonzero sum nonzero, ← known, statusRead_code]
    · rfl
    · rw [known]
      split_ifs <;> decide
  · rw [exec_statusReadOutcome live sent, statusOf_badSum sum]
    rfl

end Sys2Proof.Machine
end

section
/-! Broadcasts, foreign transactions, stalls, STOP-ALL and the FAULT line (R92 to R98): the bays in hand are suspended
together, and what becomes of the stage queue. -/

namespace Sys2Proof.Machine

/-! ### The bays in hand suspended (R73) -/

/-- What `HandsSuspended` reads of a state. -/
def State.hands (s : State) : Vector Bay 48 × Vector (List WevMsg) 48 × List CaaMsg × Nqa :=
  (s.bays, s.toWev, s.toCaa, s.nqa)

theorem HandsSuspended.congr {c : SuspensionCause} {s s' v v' : State} (h : HandsSuspended c s v)
    (before : s'.hands = s.hands) (after : v'.hands = v.hands) : HandsSuspended c s' v' := by
  simp only [State.hands, Prod.mk.injEq] at before after
  obtain ⟨bays, toWev, toCaa, nqa⟩ := before
  obtain ⟨bays', toWev', toCaa', nqa'⟩ := after
  unfold HandsSuspended State.bay at *
  rw [bays, toWev, toCaa, nqa, bays', toWev', toCaa', nqa']
  exact h

theorem phase_of_inHand {s : State} : ∀ b ∈ s.baysInHand, ∃ p, (s.bay b).state = .phase p := fun b hb => by
  obtain ⟨p, phase, -⟩ := (inHand_iff _).mp ((mem_baysInHand s b).mp hb)
  exact ⟨p, phase⟩

section
variable (c : SuspensionCause) (s : State)

theorem handsSuspended_suspendMany : HandsSuspended c s (s.suspendMany s.baysInHand c) := by
  obtain ⟨bays, toWev, toCaa, -, nqa, -⟩ :=
    suspendMany_spec c _ s (ascending_nodup (baysInHand_ascending s)) phase_of_inHand
  exact ⟨s.baysInHand, baysInHand_ascending s, fun b => (mem_baysInHand s b).trans (inHand_iff _), bays, toWev, toCaa,
    nqa⟩

/-- Suspending the bays in hand leaves every other part but the stage queue. -/
theorem suspendHands_frame : s.suspendMany s.baysInHand c = { s with
    bays := (s.suspendMany s.baysInHand c).bays, toWev := (s.suspendMany s.baysInHand c).toWev
    toCaa := (s.suspendMany s.baysInHand c).toCaa, sbc := (s.suspendMany s.baysInHand c).sbc
    nqa := (s.suspendMany s.baysInHand c).nqa } :=
  (suspendMany_spec c _ s (ascending_nodup (baysInHand_ascending s)) phase_of_inHand).2.2.2.2.2

theorem suspendHands_sbc : (s.suspendMany s.baysInHand c).sbc =
    if c.queuesOff then s.baysInHand.foldl (fun x b => x.write b .off 0 (s.bay b).entry) s.sbc else s.sbc :=
  (suspendMany_spec c _ s (ascending_nodup (baysInHand_ascending s)) phase_of_inHand).2.2.2.1

/-- The bays suspended leave the waiting list (log 16). -/
theorem unwaitHands (a : Allowance) :
    (a.waiting.filter fun w => !s.baysInHand.contains w.bay) = a.waiting.filter fun w => !(s.bay w.bay).inHand := by
  refine List.filter_congr fun w _ => congrArg _ (Bool.eq_iff_iff.mpr ?_)
  rw [List.contains_iff_mem]
  exact mem_baysInHand s w.bay

end

/-! ### The stage queue as several bays join or leave it -/

section
variable {q : List BusEntry}

theorem foldl_dropWrite (set : List BayId) (q : List BusEntry) :
    set.foldl (fun q b => dropWrite b q) q = q.filter fun e => !set.any (e.isWriteOf ·) := by
  induction set generalizing q with
  | nil => simp
  | cons b set ih =>
    rw [List.foldl_cons, ih, dropWrite, List.filter_filter]
    refine List.filter_congr fun e _ => ?_
    rw [List.any_cons, Bool.not_or, Bool.and_comm]

/-- Status reads join in the order of the bays that have none pending (R86, R93). -/
theorem foldl_joinRead {set : List BayId} (nd : set.Nodup) (q : List BusEntry) :
    set.foldl (fun q b => joinRead b q) q =
      q ++ (set.filter fun b => !q.any (·.isReadOf b)).map .statusRead := by
  induction set generalizing q with
  | nil => simp
  | cons b set ih =>
    obtain ⟨apart, nd⟩ := List.nodup_cons.mp nd
    rw [List.foldl_cons, ih nd, joinRead]
    by_cases pending : q.any (·.isReadOf b) = true
    · rw [if_pos pending]
      simp only [List.filter_cons, pending, Bool.not_true, Bool.false_eq_true, if_false]
    · have others : (set.filter fun d => !(q ++ [BusEntry.statusRead b]).any (·.isReadOf d)) =
          set.filter fun d => !q.any (·.isReadOf d) := by
        refine List.filter_congr fun d hd => ?_
        have : b ≠ d := fun e => apart (e ▸ hd)
        simp [BusEntry.isReadOf, this]
      rw [if_neg pending, others]
      simp only [List.filter_cons, pending, Bool.not_false, if_true, List.map_cons, List.append_assoc,
        List.singleton_append]

/-- Writes of bays that have none pending join in the order of the bays (R86, R98). -/
theorem foldl_write {set : List BayId} (nd : set.Nodup) (label : BayId → Nat) {x : StageBus}
    (none_ : ∀ b ∈ set, x.queue.any (·.isWriteOf b) = false) :
    set.foldl (fun x b => x.write b .off 0 (label b)) x = { x with
      queue := x.queue ++ set.map fun b => .write b .off 0 (label b)
      newer := x.newer || set.any fun b => x.hasTaken b } := by
  induction set generalizing x with
  | nil => simp
  | cons b set ih =>
    obtain ⟨apart, nd⟩ := List.nodup_cons.mp nd
    have joined : x.write b .off 0 (label b) = { x with
        queue := x.queue ++ [.write b .off 0 (label b)], newer := x.newer || x.hasTaken b } := by
      rw [StageBus.write, joinWrite_tail (none_ b (by simp))]
    rw [List.foldl_cons, ih nd fun d hd => ?_, joined]
    · simp [StageBus.hasTaken, Bool.or_assoc]
    · have : b ≠ d := fun e => apart (e ▸ hd)
      rw [joined]
      simpa [BusEntry.isWriteOf, this] using none_ d (by simp [hd])

theorem any_isWriteOf_filter (b : BayId) : (q.filter fun e => !e.isWrite).any (·.isWriteOf b) = false := by
  rw [List.any_filter, List.any_eq_false]
  intro e _
  cases e <;> simp [BusEntry.isWrite, BusEntry.isWriteOf]

theorem any_isBroadcast_iff : q.any (·.isBroadcast) = true ↔ .broadcastOff ∈ q := by
  rw [List.any_eq_true]
  constructor
  · rintro ⟨e, he, broadcast⟩
    cases e with
    | broadcastOff => exact he
    | _ => exact absurd broadcast Bool.false_ne_true
  · exact fun h => ⟨_, h, rfl⟩

theorem joinBroadcast_eq : joinBroadcast q = (if .broadcastOff ∈ q then [] else [.broadcastOff]) ++ q := by
  unfold joinBroadcast
  simp only [any_isBroadcast_iff]
  split_ifs <;> rfl

/-- A broadcast OFF in a tidy queue is its head (R85). -/
theorem tidy_head (h : tidy q) (pending : .broadcastOff ∈ q) : q.head? = some .broadcastOff := by
  cases q with
  | nil => exact absurd pending List.not_mem_nil
  | cons e q =>
    rcases List.mem_cons.mp pending with own | behind
    · rw [← own]; rfl
    · exact absurd rfl (h.2 _ behind)

theorem joinBroadcast_head (h : tidy q) : (joinBroadcast q).head? = some .broadcastOff := by
  refine tidy_head (tidy_joinBroadcast h) ?_
  rw [joinBroadcast_eq]
  split_ifs with pending
  exacts [pending, by simp]

end

/-! ### An abandoned entry (R94) -/

section
variable {x : StageBus} {set : List BayId} {b : BayId}

theorem settleAbandoned_eq (x : StageBus) (set : List BayId) :
    x.settleAbandoned set = { x with abandoned := none, queue := (x.settleAbandoned set).queue } := by
  unfold StageBus.settleAbandoned
  split
  · rename_i free
    rw [← free]
  · rfl

theorem settleAbandoned_none (h : x.abandoned = none) : (x.settleAbandoned set).queue = x.queue := by
  rw [StageBus.settleAbandoned, h]

theorem settleAbandoned_write {k : WriteKind} {value label : Nat} (h : x.abandoned = some (.write b k value label)) :
    (x.settleAbandoned set).queue = if b ∈ set ∨ x.newer = true ∨ x.queue.any (·.isWriteOf b) = true then x.queue
      else putHead (.write b k value label) x.queue := by
  simp only [StageBus.settleAbandoned, h, BusEntry.ofAny, returnEntry, List.contains_iff_mem, Bool.or_eq_true]
  by_cases own : b ∈ set
  · simp only [own, if_true, true_or]
  · simp only [own, if_false, false_or]

theorem settleAbandoned_read (h : x.abandoned = some (.statusRead b)) :
    (x.settleAbandoned set).queue = if b ∈ set ∨ x.queue.any (·.isReadOf b) = true then x.queue
      else putHead (.statusRead b) x.queue := by
  simp only [StageBus.settleAbandoned, h, BusEntry.ofAny, returnEntry, List.contains_iff_mem]
  by_cases own : b ∈ set
  · simp only [own, if_true, true_or]
  · simp only [own, if_false, false_or]

theorem settleAbandoned_broadcast (h : x.abandoned = some .broadcastOff) :
    (x.settleAbandoned set).queue = joinBroadcast x.queue := by
  rw [StageBus.settleAbandoned, h]
  rfl

end

/-! ### The commands, each on the states it acts on -/

section
variable {s : State} {bytes : List Byte}

theorem exec_broadcastComplete (live : s.inReset = false) (sent : s.sbc.inFlight = some .broadcastOff) :
    exec .broadcastComplete s = .next (s.updSbc fun x => { x.finish with recovery := [] }).releaseAll := by
  show execBroadcastComplete s = _
  simp only [execBroadcastComplete, event_runs live, sent]

theorem exec_arbitrationLost {e : BusEntry} (live : s.inReset = false) (sent : s.sbc.inFlight = some e) :
    exec .arbitrationLost s =
      .next (s.updSbc fun x => { x with inFlight := none, abandoned := some e, listening := true }) := by
  show execArbitrationLost s = _
  simp only [execArbitrationLost, event_runs live, sent]

theorem exec_foreignStart (live : s.inReset = false) (idle : s.sbc.bus = .idle) :
    exec .foreignStart s = .next (s.updSbc fun x => { x with bus := .busy, listening := true }) := by
  show execForeignStart s = _
  simp only [execForeignStart, event_runs live, idle, if_true]

theorem isForeignOff_iff : isForeignOff bytes = true ↔
    bytes.length = 5 ∧ bytes.take 2 = [0x00, 0x10] ∧ byteSum bytes = 0 := by
  simp only [isForeignOff, Bool.and_eq_true, decide_eq_true_iff, beq_iff_eq, and_assoc]
  refine and_congr_right fun length => ?_
  obtain ⟨a, b, rest, rfl⟩ : ∃ a b rest, bytes = a :: b :: rest := by
    match bytes, length with
    | a :: b :: rest, _ => exact ⟨a, b, rest, rfl⟩
  simp [and_assoc]

theorem exec_foreignTransaction_other (live : s.inReset = false) (listening : s.sbc.listening = true)
    (other : isForeignOff bytes = false) : exec (.foreignTransaction bytes) s =
      .next (s.updSbc fun x => { x.settleAbandoned [] with listening := false, bus := .idle }) := by
  show execForeignTransaction bytes s = _
  simp [execForeignTransaction, event_runs live, listening, other]

theorem exec_foreignTransaction_off (live : s.inReset = false) (listening : s.sbc.listening = true)
    (off : isForeignOff bytes = true) : exec (.foreignTransaction bytes) s =
      .next ((s.foreignOff s.baysInHand).updSbc fun x =>
        { x.settleAbandoned s.baysInHand with listening := false, bus := .idle }) := by
  show execForeignTransaction bytes s = _
  simp [execForeignTransaction, event_runs live, listening, off]

theorem exec_stall (live : s.inReset = false) (going : s.sbc.bus ≠ .stalled) : exec .stall s =
    .next ((((s.updSbc (StageBus.stall s.awaitRecovery)).updNqa fun x => { x with stageBus := true }).suspendMany
      s.baysInHand .busStall).unwaitMany s.baysInHand) := by
  show execStall s = _
  simp only [execStall, event_runs live, going, if_false]

theorem exec_busRecovery (live : s.inReset = false) (stalled : s.sbc.bus = .stalled) :
    exec .busRecovery s = .next (s.updSbc fun x => { x with bus := .idle, timer := .clear }) := by
  show execBusRecovery s = _
  simp [execBusRecovery, event_runs live, StageBus.waitsForLines, stalled]

end

/-! ### A foreign broadcast OFF (R95) -/

/-- The state in which a foreign broadcast OFF has suspended its bays and released every grant, and CAA has yet to examine
the waiting list (R95; log 28). -/
def State.foreignReleased (s : State) : State :=
  ((((s.suspendMany s.baysInHand .externalOff).unwaitMany s.baysInHand).updSbc fun x =>
    { x with queue := s.baysInHand.foldl (fun q b => dropWrite b q) x.queue })).updCaa fun a =>
      { a with grants := Vector.replicate 48 { mag := 0, entry := 0 }, committed := a.committed - a.sum }

section
variable (s : State)

theorem foreignOff_eq : s.foreignOff s.baysInHand = s.foreignReleased.examine := rfl

theorem foreignReleased_frame : s.foreignReleased = { s with
    bays := s.foreignReleased.bays, toWev := s.foreignReleased.toWev, toCaa := s.foreignReleased.toCaa
    nqa := s.foreignReleased.nqa, caa := s.foreignReleased.caa, sbc := s.foreignReleased.sbc } := by
  have frame := suspendHands_frame .externalOff s
  rw [State.foreignReleased, frame]
  rfl

theorem foreignReleased_caa : s.foreignReleased.caa = { s.caa with
    grants := Vector.replicate 48 { mag := 0, entry := 0 }
    committed := s.caa.committed - s.caa.sum
    waiting := s.caa.waiting.filter fun y => !(s.bay y.bay).inHand } := by
  have kept : (s.suspendMany s.baysInHand .externalOff).caa = s.caa := by rw [suspendHands_frame .externalOff s]
  rw [← unwaitHands, ← kept]
  rfl

theorem foreignReleased_sbc : s.foreignReleased.sbc = { s.sbc with
    queue := s.sbc.queue.filter fun e =>
      match e with
      | .write b _ _ _ => !(s.bay b).inHand
      | _ => true } := by
  have kept : (s.suspendMany s.baysInHand .externalOff).sbc = s.sbc :=
    (suspendHands_sbc .externalOff s).trans (if_neg nofun)
  have dropped : s.foreignReleased.sbc = { (s.suspendMany s.baysInHand .externalOff).sbc with
      queue := s.baysInHand.foldl (fun q b => dropWrite b q) (s.suspendMany s.baysInHand .externalOff).sbc.queue } := rfl
  rw [dropped, kept, foldl_dropWrite]
  refine congrArg (fun q => ({ s.sbc with queue := q } : StageBus)) (List.filter_congr fun e _ => ?_)
  cases e with
  | write b _ _ _ =>
    refine congrArg _ (Bool.eq_iff_iff.mpr ?_)
    rw [← mem_baysInHand, List.any_eq_true]
    simp [BusEntry.isWriteOf]
  | _ => simp [BusEntry.isWriteOf]

end

/-! ### The examination leaves the abandoned entry -/

section
variable {s : State}

theorem suspendBay_abandoned (b : BayId) (c : SuspensionCause) (code : StageCode) (answering : Bool) :
    (s.suspendBay b c code answering).sbc.abandoned = s.sbc.abandoned := by
  cases phase : (s.bay b).phase? with
  | none =>
    unfold State.suspendBay
    split
    · rename_i p h
      simp [Bay.phase?, h] at phase
    · rfl
  | some p =>
    have h : (s.bay b).state = .phase p := by
      unfold Bay.phase? at phase
      split at phase
      · rename_i q h
        rw [h, Option.some.inj phase]
      · exact absurd phase nofun
    rw [suspendBay_eq h]
    cases c.queuesOff <;> rfl

theorem overLimit_abandoned (w : Waiting) : (s.overLimit w).sbc.abandoned = s.sbc.abandoned := by
  unfold State.overLimit
  split_ifs
  exacts [suspendBay_abandoned _ _ _ _, rfl]

theorem examineMany_abandoned (n : Nat) : (s.examineMany n).sbc.abandoned = s.sbc.abandoned := by
  induction n generalizing s with
  | zero => rfl
  | succ n ih =>
    unfold State.examineMany
    split
    · rfl
    · split_ifs
      exacts [(ih ..).trans (overLimit_abandoned _), rfl, ih, rfl]

theorem examine_abandoned : s.examine.sbc.abandoned = s.sbc.abandoned := examineMany_abandoned _

end

/-- The listening part that has judged a foreign transaction settles the abandoned entry (R94). -/
theorem settled_eq (s : State) (set : List BayId) :
    (s.updSbc fun x => { x.settleAbandoned set with listening := false, bus := .idle }) =
      { s with sbc := { s.sbc with abandoned := none, listening := false, bus := .idle,
                                   queue := (s.sbc.settleAbandoned set).queue } } := by
  show { s with sbc := { s.sbc.settleAbandoned set with listening := false, bus := .idle } } = _
  rw [settleAbandoned_eq]

/-- Settles O43: what of the abandoned entry by `settleAbandoned_write` and its like, the acts of a foreign broadcast OFF
by `foreignReleased_sbc` and its like. -/
theorem broadcastAndForeignTransactionsTaken : Obligations.BroadcastAndForeignTransactionsTaken := by
  intro s w bytes live
  refine ⟨fun sent => exec_broadcastComplete live sent, fun sent => exec_arbitrationLost live sent,
    fun idle => exec_foreignStart live idle, fun listening other => ?_, fun listening five head sum => ?_⟩
  · have other : isForeignOff bytes = false := by
      rw [← Bool.not_eq_true, isForeignOff_iff]
      tauto
    rw [exec_foreignTransaction_other live listening other, settled_eq]
    refine ⟨_, rfl, settleAbandoned_none, fun b k value label abandoned => ⟨fun newer => ?_, fun old none_ => ?_⟩,
      fun b abandoned => ⟨fun pending => ?_, fun none_ => ?_⟩, settleAbandoned_broadcast⟩
    · rw [settleAbandoned_write abandoned, if_pos (.inr newer)]
    · rw [settleAbandoned_write abandoned, if_neg (by simp [old, none_])]
    · rw [settleAbandoned_read abandoned, if_pos (.inr pending)]
    · rw [settleAbandoned_read abandoned, if_neg (by simp [none_])]
  · rw [exec_foreignTransaction_off live listening (isForeignOff_iff.mpr ⟨five, head, sum⟩), settled_eq, foreignOff_eq]
    have abandoned : s.foreignReleased.examine.sbc.abandoned = s.sbc.abandoned := by
      rw [examine_abandoned, foreignReleased_sbc]
    refine ⟨_, s.foreignReleased, _, rfl, foreignReleased_caa s, foreignReleased_sbc s,
      (handsSuspended_suspendMany .externalOff s).congr rfl rfl, foreignReleased_frame s, rfl, fun none_ => ?_,
      fun b k value label held => ⟨fun h => ?_, fun notInHand old none_ => ?_⟩,
      fun b held => ⟨fun h => ?_, fun notInHand none_ => ?_⟩, fun held => ?_⟩ <;> rw [← abandoned] at *
    · exact settleAbandoned_none none_
    · rw [settleAbandoned_write held, if_pos (by rwa [mem_baysInHand])]
    · rw [settleAbandoned_write held, if_neg (by simp [mem_baysInHand, notInHand, old, none_])]
    · rw [settleAbandoned_read held, if_pos (by rwa [mem_baysInHand])]
    · rw [settleAbandoned_read held, if_neg (by simp [mem_baysInHand, notInHand, none_])]
    · exact settleAbandoned_broadcast held

/-- Settles O44. -/
theorem stallSuspendsBaysInHand : Obligations.StallSuspendsBaysInHand := by
  intro s live
  refine ⟨fun going => ⟨_, exec_stall live going, ?_⟩, exec_busRecovery live⟩
  generalize ht : (s.updSbc (StageBus.stall s.awaitRecovery)).updNqa (fun x => { x with stageBus := true }) = t
  have hands : s.baysInHand = t.baysInHand := by rw [← ht]; rfl
  have bus : (t.suspendMany t.baysInHand .busStall).sbc = s.sbc.stall s.awaitRecovery := by
    rw [suspendHands_sbc, ← ht]
    rfl
  have frame := suspendHands_frame .busStall t
  have waiting := unwaitHands s s.caa
  rw [hands] at waiting ⊢
  have sbc : ((t.suspendMany t.baysInHand .busStall).unwaitMany t.baysInHand).sbc = s.sbc.stall s.awaitRecovery := bus
  refine ⟨?_, fun b => ?_, (handsSuspended_suspendMany .busStall t).congr (by rw [← ht]; rfl) rfl, ?_, ?_⟩
  · rw [sbc]
    rfl
  · rw [sbc]
    exact State.mem_awaitRecovery
  · have kept : (t.suspendMany t.baysInHand .busStall).caa = s.caa := by rw [frame, ← ht]; rfl
    rw [← waiting, ← kept]
    rfl
  · rw [frame, ← ht]
    rfl

/-! ### STOP-ALL and the FAULT line (R93, R98) -/

/-- The state in which STOP-ALL has put the broadcast OFF in the place of the pending writes (R98). -/
def State.stopQueued (s : State) : State :=
  s.updSbc fun x => { x with queue := joinBroadcast (x.queue.filter fun e => !e.isWrite) }

/-- The state in which STOP-ALL has suspended the bays in hand (R98). -/
def State.stopped (s : State) : State := (s.stopQueued.suspendMany s.baysInHand .stopAll).unwaitMany s.baysInHand

theorem exec_stopAll {s : State} (t : Byte) (ready : s.ready) :
    exec (.stopAll t []) s = .next (s.stopped.answered 0x40 t (.ok (baySetBytes s.baysInHand))) :=
  message_ready ready rfl

theorem broadcast_mem_filter {q : List BusEntry} :
    .broadcastOff ∈ (q.filter fun e => !e.isWrite) ↔ .broadcastOff ∈ q := by
  rw [List.mem_filter]
  exact and_iff_left rfl

section
variable (s : State)

/-- Suspended by STOP-ALL, each bay queues its OFF behind the broadcast and the status reads. -/
theorem stopped_sbc : s.stopped.sbc = { s.sbc with
    queue := joinBroadcast (s.sbc.queue.filter fun e => !e.isWrite) ++
      s.baysInHand.map fun b => .write b .off 0 (s.bay b).entry
    newer := s.sbc.newer || s.baysInHand.any fun b => s.sbc.hasTaken b } := by
  have none_ (b : BayId) : s.stopQueued.sbc.queue.any (·.isWriteOf b) = false := by
    show (joinBroadcast (s.sbc.queue.filter fun e => !e.isWrite)).any (·.isWriteOf b) = false
    rw [joinBroadcast_eq, List.any_append, any_isWriteOf_filter]
    split_ifs <;> rfl
  have suspended := suspendHands_sbc .stopAll s.stopQueued
  rw [if_pos (show SuspensionCause.stopAll.queuesOff = true from rfl),
    foldl_write (ascending_nodup (baysInHand_ascending _)) _ fun b _ => none_ b] at suspended
  exact suspended

theorem stopped_frame : s.stopped = { s with
    bays := s.stopped.bays, toWev := s.stopped.toWev, toCaa := s.stopped.toCaa, nqa := s.stopped.nqa
    caa := s.stopped.caa, sbc := s.stopped.sbc } := by
  have frame : s.stopQueued.suspendMany s.baysInHand .stopAll = _ := suspendHands_frame .stopAll s.stopQueued
  rw [State.stopped, frame]
  rfl

theorem stopped_caa :
    s.stopped.caa = { s.caa with waiting := s.caa.waiting.filter fun w => !(s.bay w.bay).inHand } := by
  have kept : (s.stopQueued.suspendMany s.baysInHand .stopAll).caa = s.caa := by
    have frame : s.stopQueued.suspendMany s.baysInHand .stopAll = _ := suspendHands_frame .stopAll s.stopQueued
    rw [frame]
    rfl
  rw [← unwaitHands, ← kept]
  rfl

end

section
variable {s : State}

theorem exec_faultAssertion_high (live : s.inReset = false) (high : s.sbc.faultLow = false) :
    exec .faultAssertion s = .next (s.updSbc fun x =>
      { x with faultLow := true, queue := s.baysInHand.foldl (fun q b => joinRead b q) x.queue }) := by
  show execFaultAssertion s = _
  simp [execFaultAssertion, event_runs live, high]

theorem exec_faultAssertion_low (live : s.inReset = false) (low : s.sbc.faultLow = true) :
    exec .faultAssertion s = .next s := by
  show execFaultAssertion s = _
  simp [execFaultAssertion, event_runs live, low]

theorem exec_faultRelease (live : s.inReset = false) :
    exec .faultRelease s = .next (s.updSbc fun x => { x with faultLow := false }) :=
  event_runs (f := fun s => s.updSbc fun x => { x with faultLow := false }) live

end

/-- Settles O45: STOP-ALL writes by `foldl_write`, the FAULT line reads by `foldl_joinRead`. -/
theorem stopAllAndFaultLineTaken : Obligations.StopAllAndFaultLineTaken := by
  refine ⟨fun s t ready => ⟨s.stopped, exec_stopAll t ready, mem_baysInHand s, baysInHand_ascending s,
    (handsSuspended_suspendMany .stopAll s.stopQueued).congr rfl rfl, ?_, fun tidied => ?_, stopped_caa s,
    stopped_frame s⟩, fun s live => ⟨fun high => ⟨s.baysInHand.filter fun b => !s.sbc.queue.any (·.isReadOf b),
      (baysInHand_ascending s).filter _, fun b => ?_, ?_⟩, exec_faultAssertion_low live, exec_faultRelease live⟩⟩
  · rw [stopped_sbc, joinBroadcast_eq]
    simp only [broadcast_mem_filter]
    rfl
  · have head := joinBroadcast_head (tidy_filter (fun e => !e.isWrite) ((queueTidy_iff s).mp tidied))
    rw [stopped_sbc]
    exact (List.head?_append ..).trans (by rw [head]; rfl)
  · rw [List.mem_filter, mem_baysInHand, Bool.not_eq_true']
  · rw [exec_faultAssertion_high live high, ← foldl_joinRead (ascending_nodup (baysInHand_ascending s))]
    rfl

end Sys2Proof.Machine
end

section
/-! Groups of bays (R58): the act on one bay leaves every other bay as it is, so that each of a set is served exactly as
by the single message. -/

namespace Sys2Proof.Machine

/-! ### An act beside the other bays -/

/-- No entry is a write of two bays. -/
theorem isWriteOf_other {b d : BayId} (apart : d ≠ b) {e : BusEntry} (own : e.isWriteOf b = true) :
    e.isWriteOf d = false := by
  cases e with
  | write c _ _ _ =>
    obtain rfl : c = b := beq_iff_eq.mp own
    exact beq_eq_false_iff_ne.mpr apart.symm
  | _ => rfl

theorem any_isWriteOf_joinWrite {b d : BayId} (apart : d ≠ b) (k : WriteKind) (value label : Nat) (q : List BusEntry) :
    (joinWrite b k value label q).any (·.isWriteOf d) = q.any (·.isWriteOf d) := by
  have foreign : (BusEntry.write b k value label).isWriteOf d = false := isWriteOf_other apart (beq_self_eq_true b)
  unfold joinWrite
  split_ifs
  · rw [List.any_map]
    refine List.any_congr rfl fun e => ?_
    dsimp only [Function.comp]
    split_ifs with own
    exacts [foreign.trans (isWriteOf_other apart own).symm, rfl]
  · simp [foreign]

/-- From `s` to `u` nothing changes of the other bays than `b`, of the link and of what CAA and SBC hold of their
grants and stalls: all that a group message reads (R58, R76). -/
structure Beside (b : BayId) (s u : State) : Prop where
  bay : ∀ d, d ≠ b → u.bay d = s.bay d
  wevBay : ∀ d, d ≠ b → u.wevBay d = s.wevBay d
  write : ∀ d, d ≠ b → u.writeInHand d = s.writeInHand d
  rest : (u.inReset, u.link, u.caa, u.sbc.recovery) = (s.inReset, s.link, s.caa, s.sbc.recovery)

namespace Beside

variable {b : BayId} {s u : State}

theorem refl (b : BayId) (s : State) : Beside b s s := ⟨fun _ _ => rfl, fun _ _ => rfl, fun _ _ => rfl, rfl⟩

theorem updBay (h : Beside b s u) (f : Bay → Bay) : Beside b s (u.updBay b f) :=
  ⟨fun d apart => by rw [State.updBay_bay, if_neg apart.symm, h.bay d apart], h.wevBay, h.write, h.rest⟩

theorem setWatch (h : Beside b s u) (on : Bool) : Beside b s (u.setWatch b on) :=
  ⟨h.bay, fun d apart => by rw [State.setWatch, State.updWev_wevBay, if_neg apart.symm, h.wevBay d apart], h.write,
    h.rest⟩

theorem queueWrite (h : Beside b s u) (k : WriteKind) (value label : Nat) :
    Beside b s (u.queueWrite b k value label) :=
  ⟨h.bay, h.wevBay, fun d apart => by
    rw [← h.write d apart, State.writeInHand, State.queueWrite, State.updSbc_sbc, StageBus.write_queue,
      any_isWriteOf_joinWrite apart]
    rfl, h.rest⟩

theorem offWrite (h : Beside b s u) : Beside b s (u.offWrite b) := h.queueWrite _ _ _

theorem tellWev (h : Beside b s u) (m : WevMsg) : Beside b s (u.tellWev b m) := ⟨h.bay, h.wevBay, h.write, h.rest⟩

theorem tellCaa (h : Beside b s u) (m : CaaMsg) : Beside b s (u.tellCaa m) := ⟨h.bay, h.wevBay, h.write, h.rest⟩

theorem updPool (h : Beside b s u) (f : Pool → Pool) : Beside b s (u.updPool f) := ⟨h.bay, h.wevBay, h.write, h.rest⟩

theorem beginPhase (h : Beside b s u) (p : Phase) (sub : Substate) : Beside b s (u.beginPhase b p sub) :=
  (h.updBay _).tellWev _

theorem enterPhase (h : Beside b s u) (p : Phase) : Beside b s (u.enterPhase b p) := by
  cases p with
  | check | rest0 | rest1 | restP | rest2 => exact (h.beginPhase _ _).offWrite
  | chargeCC | discharge | pulse => exact (h.beginPhase _ _).tellCaa _
  | chargeCV => exact (h.beginPhase _ _).queueWrite _ _ _

theorem enterCleared (h : Beside b s u) (p : Phase) : Beside b s (u.enterCleared b p) := (h.beginPhase _ _).offWrite

theorem ready (h : Beside b s u) : u.ready ↔ s.ready := by
  obtain ⟨-, -, -, rest⟩ := h
  simp only [Prod.mk.injEq] at rest
  obtain ⟨reset, link, -⟩ := rest
  rw [State.ready, State.ready, State.dispatches, State.dispatches, reset, link]

theorem resumeBusy (h : Beside b s u) {d : BayId} (apart : d ≠ b) : u.resumeBusy d = s.resumeBusy d := by
  obtain ⟨bay, -, write, rest⟩ := h
  simp only [Prod.mk.injEq] at rest
  obtain ⟨-, -, caa, recovery⟩ := rest
  rw [State.resumeBusy, State.resumeBusy, State.grantOf, State.grantOf, bay d apart, write d apart, caa, recovery]

end Beside

/-! ### A set of bays served (R58) -/

/-- An act that a bay takes where `takes` says so, and that leaves the others beside it. -/
structure ActsAlone (act : State → BayId → Option State) (takes : State → BayId → Prop) : Prop where
  taken : ∀ s b, (act s b).isSome = true ↔ takes s b
  beside : ∀ {s b u}, act s b = some u → Beside b s u
  others : ∀ {s b u}, Beside b s u → ∀ d, d ≠ b → (takes u d ↔ takes s d)

/-- A bay that has been served: the act was on its record as it stood, and the bay is as the act left it. -/
def ServedBy (act : State → BayId → Option State) (s u : State) (b : BayId) : Prop :=
  ∃ v w, v.bay b = s.bay b ∧ act v b = some w ∧ u.bay b = w.bay b ∧ u.wevBay b = w.wevBay b

namespace ActsAlone

variable {act : State → BayId → Option State} {takes : State → BayId → Prop}

/-- Which bays of a set are served, and how each bay is left. -/
theorem serves (alone : ActsAlone act takes) {set : List BayId} (nd : set.Nodup) (s : State) :
    (∀ b, b ∈ (groupAct act set s).2 ↔ b ∈ set ∧ takes s b) ∧
    ∀ b, (b ∈ (groupAct act set s).2 → ServedBy act s (groupAct act set s).1 b) ∧
      (b ∉ (groupAct act set s).2 → (groupAct act set s).1.bay b = s.bay b ∧
        (groupAct act set s).1.wevBay b = s.wevBay b) := by
  induction set generalizing s with
  | nil => simp [groupAct]
  | cons d set ih =>
    obtain ⟨absent, nd⟩ := List.nodup_cons.mp nd
    have ne_of_mem {b : BayId} (hb : b ∈ set) : b ≠ d := fun e => absent (e ▸ hb)
    rw [groupAct_cons]
    cases acts : act s d with
    | none =>
      have refused : ¬ takes s d := by rw [← alone.taken, acts]; simp
      obtain ⟨members, left⟩ := ih nd s
      refine ⟨fun b => (members b).trans ⟨fun ⟨mem, takes⟩ => ⟨List.mem_cons_of_mem _ mem, takes⟩, ?_⟩, left⟩
      rintro ⟨mem, taken⟩
      rcases List.mem_cons.mp mem with rfl | mem
      exacts [absurd taken refused, ⟨mem, taken⟩]
    | some u =>
      have taken : takes s d := by rw [← alone.taken, acts]; rfl
      have beside := alone.beside acts
      obtain ⟨members, left⟩ := ih nd u
      have unserved : d ∉ (groupAct act set u).2 := fun h => absent ((members d).mp h).1
      refine ⟨fun b => ?_, fun b => ⟨fun served => ?_, fun unserved => ?_⟩⟩
      · rw [List.mem_cons, members, List.mem_cons]
        constructor
        · rintro (rfl | ⟨mem, takes⟩)
          exacts [⟨.inl rfl, taken⟩, ⟨.inr mem, (alone.others beside b (ne_of_mem mem)).mp takes⟩]
        · rintro ⟨rfl | mem, takes⟩
          exacts [.inl rfl, .inr ⟨mem, (alone.others beside b (ne_of_mem mem)).mpr takes⟩]
      · rcases List.mem_cons.mp served with rfl | served
        · obtain ⟨bay, wevBay⟩ := (left b).2 unserved
          exact ⟨s, u, rfl, acts, bay, wevBay⟩
        · obtain ⟨v, w, bay, acts', after⟩ := (left b).1 served
          exact ⟨v, w, bay.trans (beside.bay b (ne_of_mem ((members b).mp served).1)), acts', after⟩
      · obtain ⟨other, unserved⟩ := not_or.mp (mt List.mem_cons.mpr unserved)
        obtain ⟨bay, wevBay⟩ := (left b).2 unserved
        exact ⟨bay.trans (beside.bay b other), wevBay.trans (beside.wevBay b other)⟩

/-- The bays of an ascending set take the single message one after the other. -/
theorem servedInOrder (alone : ActsAlone act takes) {single : BayId → Instr} {code t : Byte}
    (message : ∀ {s b u}, s.ready → act s b = some u → exec (single b) s = .next (u.answered code t .ok))
    {set : List BayId} (ascending : set.Pairwise (· < ·)) {s : State} (ready : s.ready) :
    ServedInOrder single code t (groupAct act set s).2 s (groupAct act set s).1 := by
  obtain ⟨sub, at_, zero, last, each⟩ := groupAct_spec act set s
  refine ⟨ascending.sublist sub, at_, zero, last, fun n b hb => message ?_ (each n b hb)⟩
  have upTo : ∀ n, n ≤ (groupAct act set s).2.length → (at_ n).ready := by
    intro n le
    induction n with
    | zero => rw [zero]; exact ready
    | succ n ih =>
      have lt : n < (groupAct act set s).2.length := le
      exact (alone.beside (each n _ (List.getElem?_eq_getElem lt))).ready.mpr (ih lt.le)
  obtain ⟨lt, -⟩ := List.getElem?_eq_some_iff.mp hb
  exact upTo n lt.le

end ActsAlone

/-! ### The three acts -/

theorem startBay_alone : ActsAlone State.startBay fun s b => (s.bay b).state = .loaded where
  taken s b := by
    unfold State.startBay
    split_ifs with loaded <;> simp [loaded]
  beside {s b u} acts := by
    unfold State.startBay at acts
    split_ifs at acts
    obtain rfl := Option.some.inj acts
    exact ((Beside.refl b s).setWatch true).enterPhase _
  others beside d apart := by rw [beside.bay d apart]

theorem resumeBay_alone (on : Bool) : ActsAlone (State.resumeBay on) fun s b =>
    (s.bay b).state = .suspended ∧ s.resumeBusy b = false ∧ (s.bay b).resume.isSome = true where
  taken s b := by
    unfold State.resumeBay
    split_ifs with calm
    · simp [calm]
    · simp only [Option.isSome_none, Bool.false_eq_true, false_iff]
      exact fun h => calm ⟨h.1, h.2.1⟩
  beside {s b u} acts := by
    unfold State.resumeBay at acts
    split_ifs at acts
    obtain ⟨p, -, rfl⟩ := Option.map_eq_some_iff.mp acts
    have resumed := ((Beside.refl b s).setWatch on).updBay (Bay.resumed p)
    rw [doResume_eq]
    split_ifs
    exacts [resumed.enterCleared _, resumed.enterPhase _]
  others beside d apart := by rw [beside.bay d apart, beside.resumeBusy apart]

/-- The states in which a bay takes an ABORT (R81). -/
def BayState.aborts (x : BayState) : Prop := (∃ p, x = .phase p) ∨ x = .loaded ∨ x = .suspended ∨ x = .parked

theorem Beside.abortDone {b : BayId} {s u : State} (h : Beside b s u) : Beside b s (u.abortDone b) := by
  rw [← abortDone_eq]
  exact (h.updBay _).offWrite

/-- A bay that takes an ABORT is left ABORTED with its tag, and the others beside it (R81). -/
theorem abortBay_taken {s u : State} {b : BayId} (acts : s.abortBay b = some u) :
    (s.bay b).state.aborts ∧ Beside b s u ∧ (u.bay b).state = .aborted ∧ (u.bay b).tag = (s.bay b).tag := by
  have done {v : State} (beside : Beside b s v) (tag : (v.bay b).tag = (s.bay b).tag) : Beside b s (v.abortDone b) ∧
      ((v.abortDone b).bay b).state = .aborted ∧ ((v.abortDone b).bay b).tag = (s.bay b).tag := by
    have own : (v.abortDone b).bay b = (v.bay b).aborted := set_get_self _ _ _
    rw [own]
    exact ⟨beside.abortDone, rfl, tag⟩
  have start := Beside.refl b s
  cases state : (s.bay b).state with
  | phase p =>
    rw [abortBay_phase state] at acts
    obtain rfl := Option.some.inj acts
    exact ⟨.inl ⟨p, rfl⟩, done ((start.tellWev _).tellCaa _) rfl⟩
  | loaded =>
    rw [abortBay_still (.inl state)] at acts
    obtain rfl := Option.some.inj acts
    exact ⟨.inr (.inl rfl), done start rfl⟩
  | suspended =>
    rw [abortBay_still (.inr state)] at acts
    obtain rfl := Option.some.inj acts
    exact ⟨.inr (.inr (.inl rfl)), done start rfl⟩
  | parked =>
    rw [abortBay_parked state] at acts
    obtain rfl := Option.some.inj acts
    exact ⟨.inr (.inr (.inr rfl)), done ((start.updPool _).updBay _) (by rw [updBay_own]; rfl)⟩
  | _ => rw [abortBay_other (by simp [state])] at acts; exact absurd acts nofun

theorem abortBay_alone : ActsAlone State.abortBay fun s b => (s.bay b).state.aborts where
  taken s b := by
    refine ⟨fun h => ?_, ?_⟩
    · obtain ⟨u, acts⟩ := Option.isSome_iff_exists.mp h
      exact (abortBay_taken acts).1
    · rintro (⟨p, phase⟩ | loaded | suspended | parked)
      · rw [abortBay_phase phase]; rfl
      · rw [abortBay_still (.inl loaded)]; rfl
      · rw [abortBay_still (.inr suspended)]; rfl
      · rw [abortBay_parked parked]; rfl
  beside acts := (abortBay_taken acts).2.1
  others beside d apart := by rw [beside.bay d apart]

/-! ### What a bay served is left as -/

theorem enterPhase_state (s : State) (b : BayId) (p : Phase) : ((s.enterPhase b p).bay b).state = .phase p := by
  cases p <;> exact congrArg Bay.state (beginPhase_bay s b _ _)

theorem enterPhase_wevBay (s : State) (b : BayId) (p : Phase) : (s.enterPhase b p).wevBay b = s.wevBay b := by
  cases p <;> rfl

theorem setWatch_watch (s : State) (b : BayId) (on : Bool) : ((s.setWatch b on).wevBay b).watch = on := by
  rw [State.setWatch, State.updWev_wevBay, if_pos rfl]

theorem startBay_after {s u : State} {b : BayId} (acts : s.startBay b = some u) :
    (u.bay b).state = .phase .check ∧ (u.wevBay b).watch = true := by
  unfold State.startBay at acts
  split_ifs at acts
  obtain rfl := Option.some.inj acts
  exact ⟨enterPhase_state _ _ _, by rw [enterPhase_wevBay, setWatch_watch]⟩

theorem resumeBay_after {on : Bool} {s u : State} {b : BayId} (acts : State.resumeBay on s b = some u) :
    (∃ p, (s.bay b).resume = some p ∧ (u.bay b).state = .phase p.resumesInto) ∧ (u.wevBay b).watch = on := by
  unfold State.resumeBay at acts
  split_ifs at acts
  obtain ⟨p, resume, rfl⟩ := Option.map_eq_some_iff.mp acts
  have watch : (((s.setWatch b on).updBay b (Bay.resumed p)).wevBay b).watch = on := setWatch_watch s b on
  rw [doResume_eq]
  split_ifs
  · exact ⟨⟨p, resume, congrArg Bay.state (beginPhase_bay _ _ _ _)⟩, watch⟩
  · exact ⟨⟨p, resume, enterPhase_state _ _ _⟩, by rw [enterPhase_wevBay]; exact watch⟩

/-! ### The messages (R58) -/

theorem mem_baysOf {body : List Byte} {b : BayId} : b ∈ baysOf body 0 ↔ inBaySet body 0 b = true := by
  rw [baysOf, List.mem_filter]
  exact and_iff_right (mem_allBays b)

theorem baysOf_ascending (body : List Byte) : (baysOf body 0).Pairwise (· < ·) := allBays_ascending.filter _

/-- The watch value that follows a set of bays is no part of the set. -/
theorem baysOf_append {set : List Byte} (six : set.length = 6) (w : Byte) : baysOf (set ++ [w]) 0 = baysOf set 0 := by
  refine List.filter_congr fun b _ => ?_
  have lt : 0 + b.val / 8 < set.length := by omega
  rw [inBaySet, inBaySet, List.getD_append _ _ _ _ lt]

theorem uField_watch {set : List Byte} (six : set.length = 6) (w : Byte) : uField (set ++ [w]) 6 1 = w.toNat := by
  rw [uField_skip _ _ _ _ six.le, six]
  exact uField_zero_one w []

/-- A group message answers the set served. -/
theorem group_message {m : MessageKind} {act : State → BayId → Option State} {set : List Byte} {s : State} {t : Byte}
    (ready : s.ready) (size : m.takes set.length = true) : message m t set (serveGroup act set) s =
      .next ((groupAct act (baysOf set 0) s).1.answered m.code t
        (.ok (baySetBytes (groupAct act (baysOf set 0) s).2))) := message_ready ready size

theorem start_message {s u : State} {b : BayId} {t : Byte} (ready : s.ready) (acts : s.startBay b = some u) :
    exec (.start t [bayByte b]) s = .next (u.answered 0x31 t .ok) := message_taken ready rfl acts

theorem abort_message {s u : State} {b : BayId} {t : Byte} (ready : s.ready) (acts : s.abortBay b = some u) :
    exec (.abort t [bayByte b]) s = .next (u.answered 0x36 t .ok) := message_taken ready rfl acts

theorem resume_message {s u : State} {b : BayId} {t w : Byte} (watch : w.toNat ≤ 1) (ready : s.ready)
    (acts : State.resumeBay (w == 1) s b = some u) :
    exec (.resume t [bayByte b, w]) s = .next (u.answered 0x34 t .ok) := by
  refine (message_ready ready rfl).trans (congrArg _ ?_)
  obtain ⟨suspended, calm, resume⟩ := ((resumeBay_alone (w == 1)).taken s b).mp (by rw [acts]; rfl)
  obtain ⟨p, left⟩ := Option.isSome_iff_exists.mp resume
  rw [State.resumeBay, if_pos ⟨suspended, calm⟩, left] at acts
  rw [serveResume_taken watch suspended calm left, Option.some.inj acts]

/-- Settles O34: each act leaves the other bays beside it, so `ActsAlone.serves` and `ActsAlone.servedInOrder` say what is
served, in which order, and what it is left as. -/
theorem groupsServeTheirBays : Obligations.GroupsServeTheirBays := by
  refine ⟨fun set b => ⟨baySetBytes_length set, inBaySet_baySetBytes set b⟩, fun s t set ready six =>
    ⟨?_, fun w watch => ?_, fun w bad => ?_, ?_⟩⟩
  · obtain ⟨members, left⟩ := startBay_alone.serves (ascending_nodup (baysOf_ascending set)) s
    refine ⟨_, _, group_message ready (by rw [six]; rfl), startBay_alone.servedInOrder start_message
      (baysOf_ascending set) ready, fun b => by rw [members, mem_baysOf], fun b => ⟨fun served => ?_, fun unserved =>
      ((left b).2 unserved).1⟩⟩
    obtain ⟨v, x, -, acts, bay, wevBay⟩ := (left b).1 served
    rw [bay, wevBay]
    exact startBay_after acts
  · obtain ⟨members, left⟩ := (resumeBay_alone (w == 1)).serves (ascending_nodup (baysOf_ascending set)) s
    have serve : serveResumeGroup (set ++ [w]) s = serveGroup (State.resumeBay (w == 1)) set s := by
      unfold serveResumeGroup
      rw [uField_watch six, watchOf_some watch]
      dsimp only
      rw [serveGroup, serveGroup, baysOf_append six]
    refine ⟨_, _, (message_ready ready (by simp [MessageKind.takes, six])).trans (by rw [serve]; rfl),
      (resumeBay_alone (w == 1)).servedInOrder (resume_message watch) (baysOf_ascending set) ready,
      fun b => by rw [members, mem_baysOf], fun b => ⟨fun served => ?_, fun unserved => ((left b).2 unserved).1⟩⟩
    obtain ⟨v, x, own, acts, bay, wevBay⟩ := (left b).1 served
    rw [bay, wevBay, ← own]
    exact resumeBay_after acts
  · refine message_unchanged ready (by simp [MessageKind.takes, six]) ?_
    unfold serveResumeGroup
    rw [uField_watch six, watchOf_none bad]
  · obtain ⟨members, left⟩ := abortBay_alone.serves (ascending_nodup (baysOf_ascending set)) s
    refine ⟨_, _, group_message ready (by rw [six]; rfl), abortBay_alone.servedInOrder abort_message
      (baysOf_ascending set) ready, fun b => by rw [members, mem_baysOf]; rfl, fun b => ⟨fun served => ?_, fun unserved =>
      ((left b).2 unserved).1⟩⟩
    obtain ⟨v, x, own, acts, bay, -⟩ := (left b).1 served
    rw [bay, ← own]
    exact (abortBay_taken acts).2.2

end Sys2Proof.Machine
end

section
/-! The stage queue keeps its form (R85, R86) and the committed allowance stays the sum of the grants (R100): what each
block's own changes keep, every step keeps. And the two ways into and out of reset (R185). -/

namespace Sys2Proof.Machine

/-- A step idles or runs one command, and what each block's own changes keep, every command keeps. -/
theorem Closed.step_keeps {P : State → Prop} (c : Closed P) {s t : State} (e : step s = .next t) (h : P s) : P t := by
  rcases step_cases e with rfl | ⟨i, rest, -, e⟩
  · exact h
  · exact c.exec e (c.pop s rest h)

/-- Only a change of the stage bus bears on the stage queue, and reset leaves the broadcast OFF alone in it. -/
theorem queueTidy_closed : Closed QueueTidy where
  bay _ _ _ _ h := h
  wev _ _ _ _ h := h
  trims _ _ _ _ h := h
  sbc _ _ keeps _ h := keeps h
  caa _ _ _ h := h
  pool _ _ _ _ h := h
  bank _ _ _ _ _ h := h
  tick _ h := h
  plm _ _ _ h := h
  nqa _ _ _ h := h
  link _ _ _ h := h
  profiles _ _ _ _ h := h
  handOver _ _ e h := by rw [e]; exact h
  flag _ _ h := h
  reset _ := reset_tidy
  pop _ _ h := h

/-- Settles O6: every write, read and broadcast OFF joins a tidy queue tidily, and so does an abandoned entry. -/
theorem stepKeepsStageQueueTidy : Obligations.StepKeepsStageQueueTidy :=
  fun _ _ tidy e => queueTidy_closed.step_keeps e tidy

/-- Only a change of the allowance bears on its balance, and reset leaves no grant and no bay waiting. -/
theorem allowanceBalanced_closed : Closed AllowanceBalanced where
  bay _ _ _ _ h := h
  wev _ _ _ _ h := h
  trims _ _ _ _ h := h
  sbc _ _ _ _ h := h
  caa _ _ keeps h := keeps h
  pool _ _ _ _ h := h
  bank _ _ _ _ _ h := h
  tick _ h := h
  plm _ _ _ h := h
  nqa _ _ _ h := h
  link _ _ _ h := h
  profiles _ _ _ _ h := h
  handOver _ _ e h := by rw [e]; exact h
  flag _ _ h := h
  reset _ := reset_allowance_balanced
  pop _ _ h := h

/-- Settles O7: a grant given adds its magnitude to sum and committed allowance alike, a grant dropped takes it from
both, and a bay joins the waiting list only where it does not stand on it. -/
theorem stepKeepsAllowanceBalanced : Obligations.StepKeepsAllowanceBalanced :=
  fun _ _ balanced e => allowanceBalanced_closed.step_keeps e balanced

/-! ### Reset (R88, R93, R96, R185) -/

/-- Both shells, `message` and `event`, test reset first; only the RESET input and the release of reset stand outside
them (log 7). -/
theorem exec_inReset {i : Instr} {s : State} (held : s.inReset = true) (notInput : i ≠ .resetInput)
    (notRelease : ∀ x y z, i ≠ .resetRelease x y z) : exec i s = .next s := by
  cases i with
  | resetInput => exact absurd rfl notInput
  | resetRelease x y z => exact absurd rfl (notRelease x y z)
  | _ => exact congrArg Host.Outcome.next (if_pos held)

theorem StageBus.release_eq (sda scl fault : Bool) (x : StageBus) : x.release sda scl fault =
    { x with bus := if sda && scl then .idle else .busy, timer := if sda && scl then .clear else .running,
             faultLow := !fault } := by
  unfold StageBus.release
  split_ifs <;> rfl

/-- Settles O18. -/
theorem resetEnteredAndReleased : Obligations.ResetEnteredAndReleased := by
  refine fun s => ⟨rfl, fun held => ⟨fun sda scl fault => ?_, fun i => exec_inReset held⟩⟩
  rw [← StageBus.release_eq]
  exact congrArg _ (if_pos held)

end Sys2Proof.Machine
end

section
/-! The allowance (R101 to R104): one examination head by head, and the takings that end in one. -/

namespace Sys2Proof.Machine

/-! ### A request above the limit (R102, R73; log 17) -/

theorem isBroadcast_write {b : BayId} {e : BusEntry} (own : e.isWriteOf b = true) : e.isBroadcast = false := by
  cases e with
  | broadcastOff => exact absurd own nofun
  | _ => rfl

theorem any_isBroadcast_joinWrite (b : BayId) (k : WriteKind) (value label : Nat) (q : List BusEntry) :
    (joinWrite b k value label q).any (·.isBroadcast) = q.any (·.isBroadcast) := by
  unfold joinWrite
  split_ifs
  · rw [List.any_map]
    refine List.any_congr rfl fun e => ?_
    dsimp only [Function.comp]
    split_ifs with own
    · exact (isBroadcast_write own).symm
    · rfl
  · simp [BusEntry.isBroadcast]

section
variable {s : State} {b : BayId} {w : Waiting} {rest : List Waiting} {p : Phase}

theorem suspendBay_still (still : ∀ p, (s.bay b).state ≠ .phase p) (c : SuspensionCause) (code : StageCode)
    (answering : Bool) : s.suspendBay b c code answering = s := by
  unfold State.suspendBay
  split
  · rename_i p phase
    exact absurd phase (still p)
  · rfl

/-- A bay awaits a grant under this request, in some phase. -/
def Bay.awaits (r : Bay) (w : Waiting) (p : Phase) : Prop :=
  r.state = .phase p ∧ r.substate = .awaitingGrant ∧ r.entry = w.entry

/-- The record of a bay suspended in a phase for a request above the limit. -/
def Bay.overLimit (r : Bay) (p : Phase) : Bay :=
  { r with state := .suspended, substate := .none, resume := some p, cause := .suspension .allowanceOverLimit .ok }

theorem overLimit_awaiting (h : (s.bay w.bay).awaits w p) :
    s.overLimit w = s.suspendBay w.bay .allowanceOverLimit .ok false := if_pos h.2

theorem overLimit_other (h : ∀ p, ¬ (s.bay w.bay).awaits w p) : s.overLimit w = s := by
  unfold State.overLimit
  split_ifs with present
  · exact suspendBay_still (fun p phase => h p ⟨phase, present⟩) _ _ _
  · rfl

/-- The suspension bears neither on the allowance nor on the grants handed over, and queues no broadcast OFF. -/
theorem overLimit_frame (s : State) (w : Waiting) : (s.overLimit w).caa = s.caa ∧
    (s.overLimit w).grantsOut = s.grantsOut ∧ (s.overLimit w).broadcastInHand = s.broadcastInHand := by
  by_cases h : ∃ p, (s.bay w.bay).awaits w p
  · obtain ⟨p, h⟩ := h
    rw [overLimit_awaiting h, suspendBay_eq h.1]
    refine ⟨rfl, rfl, ?_⟩
    simp [State.broadcastInHand, SuspensionCause.queuesOff, any_isBroadcast_joinWrite]
  · rw [overLimit_other (not_exists.mp h)]
    exact ⟨rfl, rfl, rfl⟩

/-! ### One head judged (R102) -/

/-- The head is above the limit: it is taken off, and a bay awaiting under it is suspended. -/
def State.removeHead (s : State) (w : Waiting) (rest : List Waiting) : State :=
  (s.updCaa fun a => { a with waiting := rest }).overLimit w

/-- The head is granted, and the grant handed to BSQ. -/
def State.grantHead (s : State) (w : Waiting) (rest : List Waiting) : State :=
  (s.updCaa (Allowance.give w rest)).handGrant { bay := w.bay, entry := w.entry }

@[simp] theorem removeHead_caa : (s.removeHead w rest).caa = { s.caa with waiting := rest } := (overLimit_frame _ w).1

@[simp] theorem removeHead_grantsOut : (s.removeHead w rest).grantsOut = s.grantsOut := (overLimit_frame _ w).2.1

@[simp] theorem removeHead_broadcastInHand : (s.removeHead w rest).broadcastInHand = s.broadcastInHand :=
  (overLimit_frame _ w).2.2

theorem removeHead_bay_awaiting (h : (s.bay w.bay).awaits w p) :
    (s.removeHead w rest).bay w.bay = (s.bay w.bay).overLimit p := by
  have h : ((s.updCaa fun a => { a with waiting := rest }).bay w.bay).awaits w p := h
  rw [State.removeHead, overLimit_awaiting h, suspendBay_eq h.1]
  exact (updAt_get ..).trans (if_pos rfl)

theorem removeHead_bay_other (h : w.bay = b → ∀ p, ¬ (s.bay b).awaits w p) :
    (s.removeHead w rest).bay b = s.bay b := by
  by_cases awaiting : ∃ p, (s.bay w.bay).awaits w p
  · obtain ⟨p, awaiting⟩ := awaiting
    have other : w.bay ≠ b := by rintro rfl; exact h rfl p awaiting
    have awaiting : ((s.updCaa fun a => { a with waiting := rest }).bay w.bay).awaits w p := awaiting
    rw [State.removeHead, overLimit_awaiting awaiting, suspendBay_eq awaiting.1]
    exact (updAt_get ..).trans (if_neg other)
  · rw [State.removeHead, overLimit_other (s := s.updCaa fun a => { a with waiting := rest }) (not_exists.mp awaiting)]
    rfl

theorem grantHead_grants (b : BayId) : (s.grantHead w rest).caa.grants.get b =
    if w.bay = b then { mag := w.mag, entry := w.entry } else s.caa.grants.get b := updAt_get ..

end

/-! ### An examination (R102) -/

/-- One examination from `s` to `t`, head by head: `served` are the heads granted or taken off, in order. -/
inductive Examination : State → List Waiting → State → Prop
  | ends {s : State} (stops : ∀ w, s.caa.waiting.head? = some w →
      w.mag ≤ s.caa.limit ∧ (s.broadcastInHand = true ∨ s.caa.limit < s.caa.committed + w.mag)) : Examination s [] s
  | removes {s t : State} {w : Waiting} {rest served : List Waiting} (head : s.caa.waiting = w :: rest)
      (above : s.caa.limit < w.mag) (more : Examination (s.removeHead w rest) served t) : Examination s (w :: served) t
  | grants {s t : State} {w : Waiting} {rest served : List Waiting} (head : s.caa.waiting = w :: rest)
      (free : s.broadcastInHand = false) (fits : s.caa.committed + w.mag ≤ s.caa.limit)
      (more : Examination (s.grantHead w rest) served t) : Examination s (w :: served) t

theorem examineMany_examination (n : Nat) (s : State) (enough : s.caa.waiting.length ≤ n) :
    ∃ served, Examination s served (s.examineMany n) := by
  induction n generalizing s with
  | zero => exact ⟨[], .ends (by simp [List.eq_nil_of_length_eq_zero (Nat.le_zero.mp enough)])⟩
  | succ n ih =>
    unfold State.examineMany
    split
    · rename_i none_
      exact ⟨[], .ends (by simp [none_])⟩
    · rename_i w rest head
      have fewer : rest.length ≤ n := by simpa [head] using enough
      split_ifs with above waits fits
      · obtain ⟨served, more⟩ := ih (s.removeHead w rest) (by simpa using fewer)
        exact ⟨w :: served, .removes head above more⟩
      · exact ⟨[], .ends (by simp [head, Nat.le_of_not_lt above, waits])⟩
      · obtain ⟨served, more⟩ := ih (s.grantHead w rest) fewer
        exact ⟨w :: served, .grants head (by simpa using waits) fits more⟩
      · exact ⟨[], .ends (by simp [head, Nat.le_of_not_lt above, Nat.lt_of_not_le fits])⟩

theorem examine_examination (s : State) : ∃ served, Examination s served s.examine := examineMany_examination _ s le_rfl

namespace Examination

variable {s t : State} {served : List Waiting}

theorem waiting_eq (e : Examination s served t) : s.caa.waiting = served ++ t.caa.waiting := by
  induction e with
  | ends => rfl
  | removes head _ _ ih => rw [head, List.cons_append, ← ih, removeHead_caa]
  | grants head _ _ _ ih => rw [head, List.cons_append, ← ih]; rfl

theorem limit_eq (e : Examination s served t) : t.caa.limit = s.caa.limit := by
  induction e with
  | ends => rfl
  | removes _ _ _ ih => rw [ih, removeHead_caa]
  | grants _ _ _ _ ih => exact ih

theorem broadcastInHand_eq (e : Examination s served t) : t.broadcastInHand = s.broadcastInHand := by
  induction e with
  | ends => rfl
  | removes _ _ _ ih => rw [ih, removeHead_broadcastInHand]
  | grants _ _ _ _ ih => exact ih

theorem grantsOut_eq (e : Examination s served t) : t.grantsOut = s.grantsOut ++
    ((served.filter fun w => decide (w.mag ≤ s.caa.limit)).map fun w => { bay := w.bay, entry := w.entry }) := by
  induction e with
  | ends => simp
  | removes _ above _ ih => simpa [Nat.not_le.mpr above] using ih
  | @grants s t w rest served _ _ fits _ ih =>
    have within : w.mag ≤ s.caa.limit := (Nat.le_add_left ..).trans fits
    rw [ih, List.filter_cons_of_pos (by simpa using within)]
    exact List.append_assoc s.grantsOut [_] _

theorem stops (e : Examination s served t) : ∀ w, t.caa.waiting.head? = some w →
    w.mag ≤ t.caa.limit ∧ (t.broadcastInHand = true ∨ t.caa.limit < t.caa.committed + w.mag) := by
  induction e with
  | ends stops => exact stops
  | removes _ _ _ ih => exact ih
  | grants _ _ _ _ ih => exact ih

/-- With a broadcast OFF in hand nothing is granted. -/
theorem none_granted (e : Examination s served t) (waits : s.broadcastInHand = true) :
    t.caa.grants = s.caa.grants ∧ t.caa.committed = s.caa.committed := by
  induction e with
  | ends => exact ⟨rfl, rfl⟩
  | removes _ _ _ ih => simpa using ih (by simpa using waits)
  | grants _ free _ _ _ => exact absurd waits (by simp [free])

theorem committed_le (e : Examination s served t) (le : s.caa.committed ≤ s.caa.limit) :
    t.caa.committed ≤ s.caa.limit := by
  induction e with
  | ends => exact le
  | removes _ _ _ ih => simpa using ih (by simpa using le)
  | grants _ _ fits _ ih => exact ih ((Nat.add_le_add_right (Nat.sub_le ..) _).trans fits)

theorem grant_other (e : Examination s served t) {b : BayId} (none_ : ∀ w ∈ served, w.mag ≤ s.caa.limit → w.bay ≠ b) :
    t.caa.grants.get b = s.caa.grants.get b := by
  induction e with
  | ends => rfl
  | removes _ _ _ ih => simpa using ih fun w member => by simpa using none_ w (.tail _ member)
  | @grants s t w rest served _ _ fits _ ih =>
    have other : w.bay ≠ b := none_ w (.head _) ((Nat.le_add_left ..).trans fits)
    rw [ih fun w member => none_ w (.tail _ member), grantHead_grants, if_neg other]

theorem grant_own (e : Examination s served t) (once : (served.map Waiting.bay).Nodup) {w : Waiting}
    (member : w ∈ served) (within : w.mag ≤ s.caa.limit) :
    t.caa.grants.get w.bay = { mag := w.mag, entry := w.entry } := by
  induction e with
  | ends => exact absurd member List.not_mem_nil
  | removes _ above _ ih =>
    obtain ⟨-, once⟩ := List.nodup_cons.mp once
    rcases List.mem_cons.mp member with rfl | member
    · exact absurd within (Nat.not_le.mpr above)
    · exact ih once member (by simpa using within)
  | grants _ _ _ more ih =>
    obtain ⟨notLater, once⟩ := List.nodup_cons.mp once
    rcases List.mem_cons.mp member with rfl | member
    · rw [more.grant_other fun v later _ same => notLater (List.mem_map.mpr ⟨v, later, same⟩), grantHead_grants,
        if_pos rfl]
    · exact ih once member within

/-- A bay that awaits under no request above the limit keeps its record. -/
theorem bay_other (e : Examination s served t) {b : BayId}
    (none_ : ∀ w ∈ served, s.caa.limit < w.mag → w.bay = b → ∀ p, ¬ (s.bay b).awaits w p) : t.bay b = s.bay b := by
  induction e with
  | ends => rfl
  | @removes s t w rest served _ above _ ih =>
    have kept : (s.removeHead w rest).bay b = s.bay b := removeHead_bay_other (none_ w (.head _) above)
    rw [← kept]
    exact ih fun v member => by simpa [kept] using none_ v (.tail _ member)
  | grants _ _ _ _ ih => exact ih fun v member => none_ v (.tail _ member)

/-- A bay that awaits under a request above the limit is suspended by the first such request. -/
theorem bay_suspended (e : Examination s served t) {w : Waiting} (member : w ∈ served) {p : Phase}
    (above : s.caa.limit < w.mag) (awaiting : (s.bay w.bay).awaits w p) : t.bay w.bay = (s.bay w.bay).overLimit p := by
  induction e with
  | ends => exact absurd member List.not_mem_nil
  | @removes s t v rest served _ _ more ih =>
    by_cases present : v.bay = w.bay ∧ v.entry = w.entry
    · obtain ⟨bay, entry⟩ := present
      have own : (s.removeHead v rest).bay w.bay = (s.bay w.bay).overLimit p := by
        rw [← bay] at awaiting ⊢
        obtain ⟨phase, awaits, same⟩ := awaiting
        exact removeHead_bay_awaiting ⟨phase, awaits, same.trans entry.symm⟩
      rw [more.bay_other fun x _ _ _ q again => ?_, own]
      obtain ⟨phase, -⟩ := again
      rw [own] at phase
      exact absurd phase nofun
    · have ⟨_, _, same⟩ := awaiting
      have kept : (s.removeHead v rest).bay w.bay = s.bay w.bay := removeHead_bay_other fun bay _ ⟨_, _, entry⟩ =>
        present ⟨bay, entry.symm.trans same⟩
      have later : w ∈ served := (List.mem_cons.mp member).resolve_left (by rintro rfl; exact present ⟨rfl, rfl⟩)
      rw [← kept]
      exact ih later (by simpa using above) (by rwa [kept])
  | @grants s t v rest served _ _ fits _ ih =>
    have within : v.mag ≤ s.caa.limit := (Nat.le_add_left ..).trans fits
    have later : w ∈ served := (List.mem_cons.mp member).resolve_left (by rintro rfl; omega)
    exact ih later above awaiting

end Examination

/-- Settles O47, by the facts of `Examination`: the heads served are the list without the tail that is left. -/
theorem examinationServesHeadOfLine : Obligations.ExaminationServesHeadOfLine := by
  intro s
  obtain ⟨served, e⟩ := examine_examination s
  have list := e.waiting_eq
  refine ⟨served.length, served, by simp [list], by simp [list], by rw [list, List.drop_left], e.limit_eq,
    e.grantsOut_eq, fun w head => ?_, e.none_granted, e.committed_le, fun once w member within => ?_,
    fun b none_ => e.grant_other none_,
    fun w member p above phase awaits entry => e.bay_suspended member above ⟨phase, awaits, entry⟩, fun b none_ => ?_⟩
  · have stops := e.stops w head
    rwa [e.limit_eq, e.broadcastInHand_eq] at stops
  · rw [list, List.map_append] at once
    exact e.grant_own once.of_append_left member within
  · refine e.bay_other fun w member above own p awaiting => ?_
    obtain ⟨phase, awaits, entry⟩ := awaiting
    rcases none_ w member above with h | h | h | h
    exacts [h own, h awaits, h entry, h p phase]

/-! ### The takings (R101, R103, R104) -/

section
variable {s : State} {b : BayId} {rest : List CaaMsg} (live : s.inReset = false)
include live

theorem exec_request {mag entry : Nat} (queue : s.toCaa = .request b mag entry :: rest) :
    exec .request s = .next (({ s with toCaa := rest } : State).takeRequest b mag entry) := by
  show execRequest s = _
  simp only [execRequest, event_runs live, queue]

theorem exec_leave (queue : s.toCaa = .leave b :: rest) :
    exec .leave s = .next (({ s with toCaa := rest } : State).takeLeave b) := by
  show execLeave s = _
  simp only [execLeave, event_runs live, queue]

theorem exec_grantReturn {entry : Nat} (queue : s.toCaa = .giveBack b entry :: rest) :
    exec .grantReturn s = .next (({ s with toCaa := rest } : State).takeReturn b entry) := by
  show execGrantReturn s = _
  simp only [execGrantReturn, event_runs live, queue]

end

theorem takeRequest_new {s : State} {b : BayId} (new : ∀ w ∈ s.caa.waiting, w.bay ≠ b) (mag entry : Nat) :
    s.takeRequest b mag entry = State.examine { s with
      caa := { s.caa with waiting := s.caa.waiting ++ [{ bay := b, mag := mag, entry := entry }] } } :=
  congrArg State.examine (if_neg (by simpa using new))

theorem serveSetLimit_beBytes {x : Nat} (lt : x < 4294967296) (s : State) : serveSetLimit (beBytes 4 x) s =
    (State.examine { s with caa := { s.caa with limit := min 100000 x } },
      { status := .ok, clamped := decide (100000 < x), body := beBytes 4 (min 100000 x) }) := by
  simp only [serveSetLimit, uField_beBytes_nil, Nat.reducePow, Nat.mod_eq_of_lt lt]
  rfl

/-- Settles O46, taking by taking. -/
theorem allowanceTakingsExamine : Obligations.AllowanceTakingsExamine := by
  rintro s u b mag entry x t rest rfl
  refine ⟨fun live queue new => ?_, fun live queue => ?_, fun live queue => ?_, fun ready lt => ?_⟩
  · rw [exec_request live queue]
    exact congrArg _ (takeRequest_new (s := { s with toCaa := rest }) new mag entry)
  · exact exec_leave live queue
  · rw [exec_grantReturn live queue]
    exact ⟨fun present => congrArg _ (if_pos present), fun released => congrArg _ (if_neg released)⟩
  · refine (message_ready ready (by simp [MessageKind.takes])).trans ?_
    rw [serveSetLimit_beBytes lt]

end Sys2Proof.Machine
end

section
/-! Frames (R83, R175, R176, R178, R187): how the receiver judges the bytes of a frame, and what the part sends. -/

namespace Sys2Proof.Machine

/-! ### Within a frame (R176) -/

/-- The receiver is within a frame, with these bytes held after SYNC. -/
def State.inFrame (s : State) (held : List Byte) (overrun : Bool) : State :=
  s.updLink fun l => { l with rx := .frame held overrun }

theorem lenOf_beBytes {n : Nat} (fits : n ≤ 250) {hi lo : Byte} (spelt : beBytes 2 n = [hi, lo]) :
    lenOf hi lo = n := by
  rw [lenOf, ← spelt, beNat_beBytes]
  omega

/-- What a frame not yet complete began with is not complete either. -/
theorem frameUnfinished_of_append {held more : List Byte} (h : frameUnfinished (held ++ more) = true) :
    frameUnfinished held = true := by
  match held with
  | [] => rfl
  | [_] => rfl
  | hi :: lo :: rest =>
    simp only [List.cons_append, frameUnfinished, Bool.and_eq_true, decide_eq_true_eq, List.length_append] at h ⊢
    exact ⟨h.1, by omega⟩

section
variable {s : State} {held : List Byte} {overrun : Bool}

theorem holdByte_unfinished (h : frameUnfinished held = true) : s.holdByte held overrun = s.inFrame held overrun := by
  match held with
  | [] => rfl
  | [_] => rfl
  | hi :: lo :: rest =>
    simp only [frameUnfinished, Bool.and_eq_true, decide_eq_true_eq] at h
    simp only [State.holdByte]
    rw [if_neg (by omega), if_neg (by omega)]
    rfl

theorem receiveByte_inFrame (live : s.inReset = false) (x : Byte) :
    (s.inFrame held overrun).receiveByte x = (s.inFrame held overrun).holdByte (held ++ [x]) overrun := by
  simp [State.receiveByte, State.inFrame, live]

theorem receive_inFrame (live : s.inReset = false) (more : List Byte) (h : frameUnfinished (held ++ more) = true) :
    (s.inFrame held overrun).receive more = s.inFrame (held ++ more) overrun := by
  induction more generalizing held with
  | nil => rw [List.append_nil]; rfl
  | cons x more ih =>
    rw [List.append_cons] at h
    have stored : (s.inFrame held overrun).receiveByte x = s.inFrame (held ++ [x]) overrun := by
      rw [receiveByte_inFrame live, holdByte_unfinished (frameUnfinished_of_append h)]
      rfl
    rw [List.append_cons held x more, ← ih h, ← stored]
    rfl

section
variable (hunting : s.link.rx = .hunt)
include hunting

/-- The end of a frame leaves nothing of it but its command (R176; log 8). -/
theorem frameEnds_inFrame (c : Instr) :
    (s.inFrame held overrun).frameEnds c = { s with pending := s.pending ++ [c] } := by
  have same : { s.link with rx := .hunt } = s.link := by rw [← hunting]
  show { s with link := { s.link with rx := .hunt }, pending := s.pending ++ [c] } = _
  rw [same]

theorem gapExpiry_hunting : s.gapExpiry = s := by simp only [State.gapExpiry, hunting]

theorem receive_noise {x : Byte} (noise : x ≠ 0xA7) : s.receive [x] = s := by
  show s.receiveByte x = s
  simp only [State.receiveByte, hunting, Config.sync, noise, if_false, ite_self]

variable (live : s.inReset = false)
include live

theorem receiveByte_sync : s.receiveByte 0xA7 = s.inFrame [] s.link.reply.isSome := by
  simp only [State.receiveByte, live, hunting, Config.sync, if_true, Bool.false_eq_true, if_false]
  rfl

/-- A frame begun and not yet complete (R176). -/
theorem receive_begun (h : frameUnfinished held = true) :
    s.receive (0xA7 :: held) = s.inFrame held s.link.reply.isSome := by
  show (s.receiveByte 0xA7).receive held = _
  rw [receiveByte_sync hunting live]
  exact receive_inFrame (held := []) live held h

/-- The byte that ends a frame meets what is held of it. -/
theorem receive_last (h : frameUnfinished held = true) (x : Byte) : s.receive (0xA7 :: (held ++ [x])) =
    (s.inFrame held s.link.reply.isSome).holdByte (held ++ [x]) s.link.reply.isSome := by
  have split : s.receive (0xA7 :: (held ++ [x])) = (s.receive (0xA7 :: held)).receiveByte x :=
    List.foldl_append (l := 0xA7 :: held)
  rw [split, receive_begun hunting live h, receiveByte_inFrame live]

theorem receive_tooLong {hi lo : Byte} (long : 250 < lenOf hi lo) : s.receive [0xA7, hi, lo] =
    { s with pending := s.pending ++ [lengthFrame hi lo s.link.reply.isSome] } := by
  rw [← frameEnds_inFrame hunting]
  exact (receive_last hunting live (held := [hi]) rfl lo).trans (if_pos long)

theorem receive_gap (h : frameUnfinished held = true) : (s.receive (0xA7 :: held)).gapExpiry =
    { s with pending := s.pending ++ [gapFrame held s.link.reply.isSome] } := by
  rw [receive_begun hunting live h, ← frameEnds_inFrame hunting]
  rfl

/-- A frame of up to 250 body bytes is ended by its CHECK (R176). -/
theorem receive_complete {body : List Byte} (fits : body.length ≤ 250) (k t check : Byte) :
    s.receive ([0xA7] ++ beBytes 2 body.length ++ [k, t] ++ body ++ [check]) = { s with pending := s.pending ++
      [completedFrame (beBytes 2 body.length ++ [k, t] ++ body ++ [check]) s.link.reply.isSome] } := by
  obtain ⟨hi, lo, spelt⟩ : ∃ hi lo, beBytes 2 body.length = [hi, lo] := ⟨_, _, rfl⟩
  have len : lenOf hi lo = body.length := lenOf_beBytes fits spelt
  have unfinished : frameUnfinished ([hi, lo] ++ [k, t] ++ body) = true := by
    simp [frameUnfinished, len, Config.maxBody, fits]
  rw [spelt, ← frameEnds_inFrame hunting]
  refine (receive_last hunting live unfinished check).trans ?_
  refine (if_neg ?_).trans (if_pos ?_)
  · rw [len]
    exact Nat.not_lt.mpr fits
  · simp [len]

end
end

theorem completedFrame_badCheck {k t check : Byte} {body : List Byte} (bad : frameSum k t body check ≠ 0) :
    completedFrame (beBytes 2 body.length ++ [k, t] ++ body ++ [check]) false = .checkError k t body check := by
  have sum : byteSum (beBytes 2 body.length ++ [k, t] ++ body ++ [check]) ≠ 0 := bad
  simp only [completedFrame, sum, if_false, Bool.false_eq_true, List.getLastD_concat]
  simp [beBytes]

/-! ### What the part sends (R83, R175, R187) -/

theorem getLsbD_of_lt {x : Byte} {k j : Nat} (lt : x.toNat < 2 ^ k) (le : k ≤ j) : x.getLsbD j = false :=
  Nat.testBit_lt_two_pow (lt.trans_le (Nat.pow_le_pow_right (by decide) le))

theorem Reply.flags_spec (r : Reply) : r.flags.getLsbD 0 = r.clamped ∧ r.flags.getLsbD 1 = r.overrun ∧
    ∀ j, 2 ≤ j → r.flags.getLsbD j = false := by
  have small : r.flags.toNat < 2 ^ 2 := by
    unfold Reply.flags
    cases r.clamped <;> cases r.overrun <;> decide
  refine ⟨?_, ?_, fun j => getLsbD_of_lt small⟩ <;> unfold Reply.flags <;>
    cases r.clamped <;> cases r.overrun <;> rfl

theorem Reply.frame_spec (r : Reply) : byteSum (r.frame.drop 1) = 0 ∧ r.frame.length = r.body.length + 8 ∧
    ∃ flags check : Byte,
      r.frame = [0xA7] ++ beBytes 2 r.body.length ++ [r.kind, r.tag, r.status.code, flags] ++ r.body ++ [check] ∧
      flags.getLsbD 0 = r.clamped ∧ flags.getLsbD 1 = r.overrun ∧ ∀ j, 2 ≤ j → flags.getLsbD j = false :=
  ⟨byteSum_withCheck _, by simp [Reply.frame, withCheck]; omega, r.flags, _, rfl, r.flags_spec⟩

theorem BusEntry.bytes_length (e : BusEntry) : e.bytes.length = 5 := by simp [BusEntry.bytes, withCheck]

theorem BusEntry.bytes_take (e : BusEntry) : e.bytes.take 4 = [e.address, e.code] ++ beBytes 2 e.value :=
  List.take_left' (by simp)

theorem beBytes_spec (n : Nat) : beBytes 1 n = [BitVec.ofNat 8 n] ∧
    beBytes 2 n = [BitVec.ofNat 8 (n / 256), BitVec.ofNat 8 n] ∧
    beBytes 3 n = BitVec.ofNat 8 (n / 65536) :: beBytes 2 n ∧
    beBytes 4 n = BitVec.ofNat 8 (n / 16777216) :: beBytes 3 n := by
  simp [beBytes]

theorem bitIf_getLsbD (x : Bool) {n j : Nat} (hj : j < 8) : (bitIf x n).getLsbD j = (x && decide (n = j)) := by
  cases x
  · exact BitVec.getLsbD_zero
  · rw [bitIf, if_pos rfl, BitVec.getLsbD_ofNat, Nat.testBit_two_pow]
    simp [hj]

theorem Marks.byte_bits (m : Marks) : m.byte.getLsbD 0 = m.unsettled ∧ m.byte.getLsbD 1 = m.chargeTimeout ∧
    m.byte.getLsbD 2 = m.dischargeTimeout ∧ m.byte.getLsbD 3 = m.saturated ∧ m.byte.getLsbD 4 = m.interrupted ∧
    m.byte.getLsbD 5 = m.watchOff ∧ m.byte.getLsbD 6 = false ∧ m.byte.getLsbD 7 = false := by
  simp only [Marks.byte, BitVec.getLsbD_or, bitIf_getLsbD, Nat.reduceLT]
  simp

theorem sBytes_spec (w : Nat) (x : Int) : ∃ n : Nat, (n : Int) = x % (256 ^ w : Nat) ∧ sBytes w x = beBytes w n :=
  ⟨_, Int.toNat_of_nonneg (Int.emod_nonneg _ (by positivity)), rfl⟩

/-- Settles O12: the frames received by `receive_complete`, `receive_tooLong` and `receive_gap`, what is sent by the
lemma of its kind, and the codes one list after the other. -/
theorem framesJudgedAndSummed : Obligations.FramesJudgedAndSummed := by
  refine ⟨fun s k t check hi lo body held live hunting => ⟨fun idle fits bad => ?_, fun pending fits => ?_,
      receive_tooLong hunting live, receive_gap hunting live, gapExpiry_hunting hunting,
      fun x => receive_noise hunting⟩,
    fun s x => ⟨rfl, rfl⟩, Reply.frame_spec, fun s k t a => ⟨a.reply k t, rfl, rfl, rfl, rfl, rfl, rfl, rfl⟩,
    fun e => ⟨byteSum_withCheck _, e.bytes_length, ?_⟩, beBytes_spec, sBytes_spec, fun b k x => ⟨rfl, rfl, rfl⟩,
    fun id => rfl, Marks.byte_bits, ?_⟩
  · rw [receive_complete hunting live fits, idle, Option.isSome_none, completedFrame_badCheck bad]
  · rw [receive_complete hunting live fits, pending]
    rfl
  · rw [e.bytes_take]
    cases e <;> simp [BusEntry.address, BusEntry.code, BusEntry.value, beBytes]
  · decide

end Sys2Proof.Machine
end

section
/-! The grading arithmetic (spec/06): each stage by its rule, the mark SATURATED, and the class with its caps (R108 to
R119). -/

namespace Sys2Proof.Machine

/-! ### Results cut to 16 bits (R108) -/

theorem over16_iff (y : Nat) : over16 y = true ↔ 65535 < y := decide_eq_true_iff

theorem any_over16_iff (r : Option Nat) : r.any over16 = true ↔ ∃ y, 65535 < y ∧ r = some y := by
  cases r <;> simp [over16_iff]

/-! ### The stages (R111 to R117) -/

/-- The factor is clamped the same way round whichever end is taken first (R111). -/
theorem factorOf_eq (c : Nat) (tm : Int) :
    factorOf c tm = (max 9000 (min 11000 (10000 + ((c : Int) * (250 - tm)).tdiv 10))).toNat := by
  unfold factorOf
  omega

theorem resistanceOf_absent {m di : Nat} {dv : Int} (h : di < 4 * m ∨ dv ≤ 0) : resistanceOf m dv di = none :=
  if_pos h

theorem resistanceOf_present {m di : Nat} {dv : Int} (step : 4 * m ≤ di) (fall : 0 < dv) :
    resistanceOf m dv di = some (roundHalfUp (dv.toNat * 10000) di) :=
  if_neg fun h => h.elim step.not_gt fall.not_ge

/-- The resistance before saturation, of the inputs (R114, R115). -/
def GradeInputs.resistance (p : Profile) (x : GradeInputs) : Option Nat :=
  resistanceOf p.minDelta (deltaV x.preV x.pulseV) (deltaI x.preI x.pulseI)

/-- The ratio before saturation: of the resistance as cut (R116). -/
def GradeInputs.ratio (p : Profile) (x : GradeInputs) : Option Nat :=
  ((x.resistance p).map sat16).map (ratioOf · p.nominalRes)

/-- The self-discharge before saturation (R117). -/
def GradeInputs.selfDischarge (p : Profile) (x : GradeInputs) : Option Nat :=
  x.obs.map fun (first, last, k) => selfDischargeOf p.windowLen first last k

/-! ### The record of the stages -/

section
variable (p : Profile) (x : GradeInputs)

theorem gradeRecord_res : (gradeRecord p x).res =
    (x.resistance p).map fun r => (sat16 r, sat16 (ratioOf (sat16 r) p.nominalRes)) := by
  show (((x.resistance p).map sat16).bind fun r => ((x.ratio p).map sat16).map fun k => (r, k)) = _
  unfold GradeInputs.ratio
  cases x.resistance p <;> rfl

theorem gradeRecord_sd : (gradeRecord p x).sd = (x.selfDischarge p).map sat16 := rfl

/-- SATURATED tells of the five results that are cut, and stays where it was set before (R108). -/
theorem gradeRecord_saturated_iff : (gradeRecord p x).marks.saturated = true ↔ x.marks.saturated = true ∨
    ∃ y, 65535 < y ∧ (y = crawOf x.q ∨
      y = ccorrOf (gradeRecord p x).craw (factorOf p.tempCoeff (gradeRecord p x).tm) ∨
      x.resistance p = some y ∨ x.ratio p = some y ∨ x.selfDischarge p = some y) := by
  have marked : (gradeRecord p x).marks.saturated = (x.marks.saturated || over16 (crawOf x.q) ||
      over16 (ccorrOf (gradeRecord p x).craw (factorOf p.tempCoeff (gradeRecord p x).tm)) ||
      (x.resistance p).any over16 || (x.ratio p).any over16 || (x.selfDischarge p).any over16) := rfl
  simp only [marked, Bool.or_eq_true, any_over16_iff, over16_iff, and_or_left, exists_or, exists_eq_right, or_assoc]

end

/-! ### The class before caps (R118) -/

/-- The tests of one class, on a record (R118). -/
def GradeRecord.meets (g : GradeRecord) (soh ratio sd : Nat) : Prop :=
  soh ≤ g.soh ∧ (∃ y z, g.res = some (y, z) ∧ z ≤ ratio) ∧ ∀ y, g.sd = some y → y ≤ sd

/-- The class that the measurements of a record alone allow, with its reject cause (R118). -/
def GradeRecord.beforeCaps (p : Profile) (g : GradeRecord) : GradeClass × Option RejectCause :=
  classBefore p g.soh (g.res.map Prod.snd) g.sd

theorem gradeRecord_beforeCaps (p : Profile) (x : GradeInputs) :
    (gradeRecord p x).cls = ((gradeRecord p x).beforeCaps p).1.capped (gradeRecord p x).marks.cap ∧
    (gradeRecord p x).reject = ((gradeRecord p x).beforeCaps p).2 := by
  have ratio : (gradeRecord p x).res.map Prod.snd = (x.ratio p).map sat16 := by
    rw [gradeRecord_res, GradeInputs.ratio]
    cases x.resistance p <;> rfl
  rw [GradeRecord.beforeCaps, ratio]
  exact ⟨rfl, rfl⟩

section
variable {p : Profile} {g : GradeRecord}

theorem passes_iff_meets {y z : Nat} (present : g.res = some (y, z)) (soh ratio sd : Nat) :
    passes g.soh z g.sd soh ratio sd = true ↔ g.meets soh ratio sd := by
  simp [passes, GradeRecord.meets, present, Option.all_eq_true, and_assoc]

theorem GradeRecord.meets.present {soh ratio sd : Nat} (h : g.meets soh ratio sd) : g.res ≠ none := by
  obtain ⟨-, ⟨y, z, present, -⟩, -⟩ := h
  simp [present]

theorem beforeCaps_absent (absent : g.res = none) : g.beforeCaps p = (.x, some .noResistance) := by
  simp [GradeRecord.beforeCaps, classBefore, absent]

open Classical in
/-- The rows of R118 below the first, in their order. -/
theorem beforeCaps_present (present : g.res ≠ none) : g.beforeCaps p =
    if g.meets p.sohA p.ratioA p.sdA then (.a, none)
    else if g.meets p.sohB p.ratioB p.sdB then (.b, none)
    else if g.meets p.sohC p.ratioC p.sdC then (.c, none)
    else (.x, some .belowClassC) := by
  obtain ⟨⟨y, z⟩, present⟩ := Option.ne_none_iff_exists'.mp present
  simp only [GradeRecord.beforeCaps, classBefore, present, Option.map_some, passes_iff_meets present]

end

/-! ### The caps of the marks (R119) -/

theorem Marks.cap_eq (m : Marks) : m.cap =
    if m.chargeTimeout = true ∨ m.saturated = true ∨ m.dischargeTimeout = true then .c
    else if m.unsettled = true ∨ m.interrupted = true ∨ m.watchOff = true then .b else .a := by
  simp only [Marks.cap, Bool.or_eq_true, or_assoc]

theorem GradeClass.x_capped (cap : GradeClass) : GradeClass.x.capped cap = .x := by cases cap <;> rfl

theorem GradeClass.capped_a (cls : GradeClass) : cls.capped .a = cls := by cases cls <;> rfl

theorem GradeClass.capped_b {cls : GradeClass} (h : cls ≠ .x) : cls.capped .b = if cls = .a then .b else cls := by
  cases cls
  case x => exact absurd rfl h
  all_goals rfl

theorem GradeClass.capped_c {cls : GradeClass} (h : cls ≠ .x) : cls.capped .c = .c := by
  cases cls
  case x => exact absurd rfl h
  all_goals rfl

/-- Settles O39: the stages by their lemmas, the class by the rows of `beforeCaps_present`, its cap by `Marks.cap_eq`. -/
theorem gradeRecordFollowsStages : Obligations.GradeRecordFollowsStages := by
  rintro p x g rfl
  obtain ⟨cls, reject⟩ := gradeRecord_beforeCaps p x
  have row : ∀ {before cause}, (gradeRecord p x).beforeCaps p = (before, cause) →
      ((gradeRecord p x).beforeCaps p).1 = before ∧ (gradeRecord p x).reject = cause := fun h => by
    rw [reject, h]
    exact ⟨rfl, rfl⟩
  refine ⟨crawOf x.q, ccorrOf (gradeRecord p x).craw (factorOf p.tempCoeff (gradeRecord p x).tm),
    deltaI x.preI x.pulseI, _, deltaV x.preV x.pulseV, x.resistance p, x.ratio p, x.selfDischarge p,
    ((gradeRecord p x).beforeCaps p).1, (gradeRecord p x).meets, _, _,
    rfl, rfl, rfl, rfl, rfl, roundHalfAway_eq _ _, rfl, by rw [ccorrOf, factorOf_eq], rfl, rfl, rfl, rfl,
    ?absent, ?present, ?unobserved, ?observed, rfl, gradeRecord_saturated_iff p x, rfl,
    fun absent => row (beforeCaps_absent absent),
    fun a => row (by rw [beforeCaps_present a.present, if_pos a]),
    fun a b => row (by rw [beforeCaps_present b.present, if_neg a, if_pos b]),
    fun a b c => row (by rw [beforeCaps_present c.present, if_neg a, if_neg b, if_pos c]),
    fun present a b c => row (by rw [beforeCaps_present present, if_neg a, if_neg b, if_neg c]),
    rfl, rfl, ?capX, ?capC, ?capB, ?uncapped⟩
  case absent =>
    intro h
    have res : x.resistance p = none := resistanceOf_absent h
    simp [GradeInputs.ratio, gradeRecord_res, res]
  case present =>
    intro step fall
    have res : x.resistance p = some _ := resistanceOf_present step fall
    refine ⟨_, _, res, ?_, rfl, rfl, ?_⟩
    · rw [GradeInputs.ratio, res]
      rfl
    · rw [gradeRecord_res, res]
      rfl
  case unobserved =>
    intro unseen
    simp [gradeRecord_sd, GradeInputs.selfDischarge, unseen]
  case observed =>
    intro first last n seen
    have sd : x.selfDischarge p = some (selfDischargeOf p.windowLen first last n) := by
      rw [GradeInputs.selfDischarge, seen]
      rfl
    exact ⟨first - last, _, _, by omega, rfl, sd, by rw [gradeRecord_sd, sd]; rfl, rfl⟩
  case capX =>
    intro rejected
    rw [cls, rejected, GradeClass.x_capped]
  case capC =>
    intro passed capC
    rw [cls, Marks.cap_eq, if_pos capC, GradeClass.capped_c passed]
  case capB =>
    intro passed noC capB
    rw [cls, Marks.cap_eq, if_neg noC, if_pos capB, GradeClass.capped_b passed]
  case uncapped =>
    intro noC noB
    rw [cls, Marks.cap_eq, if_neg noC, if_neg noB, GradeClass.capped_a]

end Sys2Proof.Machine
end

section
/-! The pool (R123 to R132, R188): its form, which every step keeps, the records written and read, and the two messages by
which a record enters from the link and leaves. -/

namespace Sys2Proof.Machine

/-! ### The form of the pool (R123, R124) -/

/-- Only a change of the pool bears on its form, and reset leaves no record in it. -/
theorem poolOrdered_closed : Closed PoolOrdered where
  bay _ _ _ _ h := h
  wev _ _ _ _ h := h
  trims _ _ _ _ h := h
  sbc _ _ _ _ h := h
  caa _ _ _ h := h
  pool _ _ keeps _ h := keeps h
  bank _ _ _ _ _ h := h
  tick _ h := h
  plm _ _ _ h := h
  nqa _ _ _ h := h
  link _ _ _ h := h
  profiles _ _ _ _ h := h
  handOver _ _ e h := by rw [e]; exact h
  flag _ _ h := h
  reset _ := ⟨Nat.zero_le _, List.Pairwise.nil, fun _ none_ => absurd none_ List.not_mem_nil⟩
  pop _ _ h := h

/-- Settles O8: a record enters only where there is room, at the place its key gives it and with no lapse counted; a removal
keeps the order of the rest; no change of a record in its place touches its key or counts a third lapse. -/
theorem stepKeepsPoolOrdered : Obligations.StepKeepsPoolOrdered :=
  fun _ _ ordered e => poolOrdered_closed.step_keeps e ordered

/-! ### Records as bytes (R188) -/

theorem GradeRecord.bytes_eq (g : GradeRecord) : g.bytes = beBytes 4 g.tag ++
    [profileByte g.profile, bayByte g.bay, g.cls.code, (match g.reject with | none => 0 | some c => c.code)] ++
    beBytes 2 g.craw ++ sBytes 2 g.tm ++ beBytes 2 g.ccorr ++ beBytes 2 g.soh ++
    (match g.res with | none => [0, 0, 0, 0] | some (r, ratio) => beBytes 2 r ++ beBytes 2 ratio) ++
    (match g.sd with | none => [0, 0] | some d => beBytes 2 d) ++
    [(if g.res.isSome then 1 else 0) + (if g.sd.isSome then 2 else 0), g.marks.byte] := by
  have zero : beBytes 2 0 = [0, 0] := by decide
  unfold GradeRecord.bytes
  cases g.reject <;> cases g.res <;> cases g.sd <;> simp [zero, bitIf]

theorem Candidate.bytes_eq (c : Candidate) : c.bytes = c.grade.bytes ++ beBytes 4 c.seq ++ beBytes 1 c.lapses ++
    (match c.status with | none => [0, 0, 0] | some id => seatIdBytes id) := rfl

theorem uField_one (body : List Byte) (k : Nat) : uField body k 1 = (body.getD k 0).toNat := by
  induction body generalizing k with
  | nil => simp [uField, beNat]
  | cons x body ih =>
    cases k with
    | zero => simp
    | succ k => simpa using ih k

theorem classOf_none (n : Nat) : classOf n = none ↔ n = 0 ∨ 3 < n := by
  rcases n with _ | _ | _ | _ | n <;> simp [classOf]

section
variable {y : List Byte} {g : GradeRecord}

/-- What the bytes of a record that reads show: codes with a meaning, and the numbers whose ranges are left to the owner. -/
theorem gradeOfBytes_some (reads : gradeOfBytes y 0 = some g) :
    profileOf (y.getD 4 0).toNat ≠ none ∧ bayOf (y.getD 5 0).toNat ≠ none ∧ classOf (y.getD 6 0).toNat ≠ none ∧
    (y.getD 7 0).toNat = 0 ∧ (y.getD 22 0).toNat % 2 = 1 ∧ (y.getD 22 0).toNat < 4 ∧ (y.getD 23 0).toNat < 64 ∧
    g.tag = uField y 0 4 ∧ g.tm = sField y 10 2 ∧ g.soh = uField y 14 2 := by
  unfold gradeOfBytes at reads
  simp only [Nat.zero_add, uField_one] at reads
  split at reads
  · rename_i profile bay cls
    obtain ⟨⟨reject, presence, meaning, marks⟩, same⟩ := Option.ite_none_right_eq_some.mp reads
    obtain rfl := Option.some.inj same
    rw [profile, bay, cls]
    exact ⟨nofun, nofun, nofun, reject, presence, meaning, marks, rfl, rfl, rfl⟩
  · exact nomatch reads

theorem gradeOfBytes_tag (reads : gradeOfBytes y 0 = some g) : g.tag = uField y 0 4 := by
  obtain ⟨-, -, -, -, -, -, -, tag, -, -⟩ := gradeOfBytes_some reads
  exact tag

theorem gradeOfBytes_self (given : g.given) : gradeOfBytes g.bytes 0 = some g := gradeOfBytes_bytes [] g given

/-- The ranges that RESTORE-CANDIDATE and RESTORE-SEAT require of a record that reads (R128, R148). -/
def GradeRecord.outOfRange (g : GradeRecord) : Prop := g.tag = 0 ∨ g.tm < -400 ∨ 1250 < g.tm ∨ 1200 < g.soh

/-- Bytes refused whatever their profile do not read, or read as a record out of range. -/
theorem recordRefused_outOfRange (refused : recordRefused y) (reads : gradeOfBytes y 0 = some g) : g.outOfRange := by
  obtain ⟨-, bay, cls, reject, presence, meaning, marks, tag, tm, soh⟩ := gradeOfBytes_some reads
  have odd : (y.getD 22 0).getLsbD 0 = decide ((y.getD 22 0).toNat % 2 = 1) := Nat.testBit_zero _
  rw [ne_eq, bayOf_none, byte_toNat_eq_zero] at bay
  rw [ne_eq, classOf_none, byte_toNat_eq_zero] at cls
  rw [byte_toNat_eq_zero] at reject
  rcases refused with no | no | no | no | no | no | no | no | no | cold | hot | no
  · exact .inl (tag.trans no)
  · exact absurd (.inl no) bay
  · exact absurd (.inr no) bay
  · exact absurd (.inl no) cls
  · exact absurd (.inr no) cls
  · exact absurd reject no
  · rw [odd, decide_eq_false_iff_not] at no
    exact absurd presence no
  · omega
  · omega
  · exact .inr (.inl (tm ▸ cold))
  · exact .inr (.inr (.inl (tm ▸ hot)))
  · exact .inr (.inr (.inr (soh ▸ no)))

end

/-! ### RESTORE-CANDIDATE (R126, R128) -/

/-- What alone meets a test stands at the index the test finds. -/
theorem getElem?_findIdx_only {α : Type} {l : List α} {p : α → Bool} {c : α} (member : c ∈ l) (meets : p c = true)
    (only : ∀ d ∈ l, p d = true → d = c) : l[l.findIdx p]? = some c := by
  have found : l.findIdx p < l.length := List.findIdx_lt_length_of_exists ⟨c, member, meets⟩
  rw [List.getElem?_eq_getElem found]
  exact congrArg some (only _ (List.getElem_mem found) List.findIdx_getElem)

/-- A record that has entered under a tag no other holds is the one its index names (R126). -/
theorem Pool.enter_index {p : Pool} {g : GradeRecord} (fresh : ∀ c ∈ p.records, c.grade.tag ≠ g.tag) :
    (p.enter g).records[(p.enter g).index g.tag]? =
      some { grade := g, seq := p.nextSeq, lapses := 0, status := none } :=
  getElem?_findIdx_only ((mem_insertCandidate _ _ _).mpr (.inl rfl)) (by simp) fun d member tagged =>
    ((mem_insertCandidate _ _ d).mp member).resolve_right fun old => fresh d old (by simpa using tagged)

section
variable {s : State} {y : List Byte} {g : GradeRecord}

theorem serveRestoreCandidate_badValue (bad : ∀ g, gradeOfBytes y 0 = some g → g.outOfRange) :
    serveRestoreCandidate y s = (s, .refuse .badValue) := by
  by_cases zero : uField y 0 4 = 0
  · exact if_pos zero
  · refine (if_neg zero).trans ?_
    split
    · rfl
    · rename_i reads
      refine if_pos ?_
      rw [Bool.or_eq_true, outside_iff, decide_eq_true_iff]
      rcases bad _ reads with no | cold | hot | soh
      · exact absurd ((gradeOfBytes_tag reads).symm.trans no) zero
      · exact .inl (.inl cold)
      · exact .inl (.inr hot)
      · exact .inr soh

/-- RESTORE-CANDIDATE of a record in its ranges: the last three checks, and the entry. -/
theorem serveRestoreCandidate_bytes (given : g.given) (inRange : ¬ g.outOfRange) : serveRestoreCandidate g.bytes s =
    if (s.slot g.profile).isNone then (s, .refuse .notFound)
    else if s.tagHeld g.tag then (s, .refuse .duplicate)
    else if 128 ≤ s.pool.records.length then (s, .refuse .full)
    else (State.askPass { s with pool := s.pool.enter g },
      .ok (beBytes 4 s.pool.nextSeq ++ beBytes 1 ((s.pool.enter g).index g.tag))) := by
  simp only [GradeRecord.outOfRange, not_or, not_lt] at inRange
  obtain ⟨tagged, cold, hot, soh⟩ := inRange
  have within : ¬ (outside (-400) 1250 g.tm || decide (1200 < g.soh)) = true := by
    simp [outside_iff, cold, hot, soh]
  rw [serveRestoreCandidate, if_neg (gradeOfBytes_tag (gradeOfBytes_self given) ▸ tagged)]
  simp only [gradeOfBytes_self given, if_neg within]
  rfl

end

/-! ### WITHDRAW and the removal of a record (R131, R132, R134) -/

section
variable {s : State} {tag : Nat}

theorem removeRecord_unparked (found : s.pool.find tag ≠ none) (none_ : s.pool.park = []) :
    s.removeRecord tag = { s with
      pool := { s.pool with records := s.pool.records.filter fun c => !(c.grade.tag == tag) } } := by
  rw [removeRecord_found (Option.isSome_iff_ne_none.mpr found)]
  exact servePark_nil none_

theorem removeRecord_parked {b : BayId} {rest : List BayId} {g : GradeRecord} (found : s.pool.find tag ≠ none)
    (park : s.pool.park = b :: rest) (graded : (s.bay b).grade = some g) :
    s.removeRecord tag = State.askPass { s with
      pool := Pool.enter g { s.pool with
        records := s.pool.records.filter fun c => !(c.grade.tag == tag), park := rest }
      bays := s.bays.set b { s.bay b with state := .done, substate := .none }
      nqa := s.nqa.push (.graded g.tag b g.cls g.ccorr g.soh) } := by
  rw [removeRecord_found (Option.isSome_iff_ne_none.mpr found)]
  exact servePark_grade (s := s.updPool (Pool.without tag)) park graded

theorem serveWithdraw_beBytes (tagged : 0 < tag) (lt : tag < 4294967296) : serveWithdraw (beBytes 4 tag) s =
    match s.pool.find tag with
    | none => (s, .refuse .notFound)
    | some c =>
      match c.status with
      | some id => (s, .refuse .reserved (seatIdBytes id))
      | none => (s.removeRecord tag, .ok c.bytes) := by
  simp only [serveWithdraw, uField_beBytes_nil, Nat.reducePow, Nat.mod_eq_of_lt lt]
  exact if_neg tagged.ne'

end

/-- Settles O48: the records by their bytes, RESTORE-CANDIDATE by its two equations, WITHDRAW by the record it finds. -/
theorem poolEntryAndWithdrawalTaken : Obligations.PoolEntryAndWithdrawalTaken := by
  refine ⟨GradeRecord.bytes_eq, Candidate.bytes_eq, fun s t => ⟨fun y ready size bad => ?malformed,
    fun g ready given => ⟨_, rfl, fun out => ?outOfRange, fun tagged cold hot soh => ?entry⟩,
    fun tag ready tagged lt => ?withdraw, fun ready => ?tagZero, fun tag found => ⟨_, rfl, removeRecord_unparked found,
      fun b rest g => removeRecord_parked found⟩⟩⟩
  case malformed =>
    refine (message_ready ready (by simp [MessageKind.takes, size])).trans ?_
    rw [serveRestoreCandidate_badValue]
    intro g reads
    rcases bad with refused | profile
    · exact recordRefused_outOfRange refused reads
    · exact absurd (profileOf_byte_none profile) (gradeOfBytes_some reads).1
  case outOfRange =>
    refine (message_ready ready (by simp [MessageKind.takes])).trans ?_
    rw [serveRestoreCandidate_badValue fun h reads => ?_]
    rw [gradeOfBytes_self given] at reads
    exact Option.some.inj reads ▸ out
  case entry =>
    have inRange : ¬ g.outOfRange := by
      simp only [GradeRecord.outOfRange, not_or, not_lt]
      exact ⟨tagged, cold, hot, soh⟩
    rw [← tagHeld_iff]
    have served : exec (.restoreCandidate t g.bytes) s = _ := message_ready ready (by simp [MessageKind.takes])
    rw [served, serveRestoreCandidate_bytes given inRange]
    refine ⟨fun empty => ?_, fun filled held => ?_, fun filled free full => ?_, fun filled free room =>
      ⟨_, rfl, ?_, Pool.enter_index ?_, rfl⟩⟩
    · rw [if_pos (by simp [empty])]
    · rw [if_neg (by simp [filled]), if_pos held]
    · rw [if_neg (by simp [filled]), if_neg free, if_pos full]
    · rw [if_neg (by simp [filled]), if_neg free, if_neg (Nat.not_le.mpr room)]
      rfl
    · exact (free_of_not_tagHeld free).record
  case withdraw =>
    have served : exec (.withdraw t (beBytes 4 tag)) s = _ := message_ready ready (by simp [MessageKind.takes])
    rw [served, serveWithdraw_beBytes tagged lt]
    refine ⟨fun absent => by rw [absent], fun c found => ⟨fun id reserved => ?_, fun free => ⟨?_, c.bytes_length⟩⟩⟩
    · simp only [found, reserved]
    · simp only [found, free]
  case tagZero =>
    exact message_ready ready (by simp [MessageKind.takes])

end Sys2Proof.Machine
end

section
/-! The strings of the bank (R150, R151, R153): opened, given new values, released. -/

namespace Sys2Proof.Machine

section
variable {m : MessageKind} {t : Byte} {body : List Byte} {serve : State → State × Answer} {s u : State} {a : Answer}

/-- A message by what its owner makes of it. -/
theorem message_result {r : State × Answer} (ready : s.ready) (size : m.takes body.length = true)
    (result : serve s = r) : message m t body serve s = .next (r.1.answered m.code t r.2) := by
  rw [message_ready ready size, result]

theorem message_answers (ready : s.ready) (size : m.takes body.length = true) (answers : serve s = (u, a)) :
    message m t body serve s = .next (u.answered m.code t a) := message_result ready size answers

end

section
variable {s : State} {x : StringId}

/-! ### OPEN-STRING (R150) -/

theorem serveOpenString_used (used : (s.string x).state ≠ .unused) (rest : List Byte) :
    serveOpenString (stringByte x :: rest) s = (s, .refuse .wrongState) := by
  rw [serveOpenString, onString_stringByte, if_pos used]

/-- The values of a string, as OPEN-STRING and SET-REFERENCE carry them. -/
def stringValues (ref st ct imb : Nat) : List Byte := beBytes 3 ref ++ beBytes 2 st ++ beBytes 2 ct ++ beBytes 2 imb

section
variable {ref st ct imb : Nat} (href : ref < 16777216) (hst : st < 65536) (hct : ct < 65536) (himb : imb < 65536)
include href hst hct himb

theorem stringValues_fields : uField (stringValues ref st ct imb) 0 3 = ref ∧
    uField (stringValues ref st ct imb) 3 2 = st ∧ uField (stringValues ref st ct imb) 5 2 = ct ∧
    uField (stringValues ref st ct imb) 7 2 = imb := by
  simp [stringValues, List.append_assoc, uField_skip_beBytes, Nat.mod_eq_of_lt href, Nat.mod_eq_of_lt hst,
    Nat.mod_eq_of_lt hct, Nat.mod_eq_of_lt himb]

variable {kb n m : Byte} (unused : (s.string x).state = .unused)
include unused

theorem serveOpenString_badValue
    (bad : profileOf kb.toNat = none ∨ n.toNat < 2 ∨ 24 < n.toNat ∨ classOf m.toNat = none ∨ ref < 1 ∨ 131070 < ref ∨
      1000 < imb) :
    serveOpenString ([stringByte x, kb, n, m] ++ stringValues ref st ct imb) s = (s, .refuse .badValue) := by
  obtain ⟨fref, fst, fct, fimb⟩ := stringValues_fields href hst hct himb
  simp only [serveOpenString, List.cons_append, List.nil_append, onString_stringByte, uField_cons_succ, uField_zero_one,
    fref, fimb]
  rw [if_neg (not_not.mpr unused)]
  cases profile : profileOf kb.toNat with
  | none => rfl
  | some k =>
    cases cls : classOf m.toNat with
    | none => split_ifs <;> rfl
    | some least =>
      have range : n.toNat < 2 ∨ 24 < n.toNat ∨ ref < 1 ∨ 131070 < ref ∨ 1000 < imb := by simpa [profile, cls] using bad
      grind

theorem serveOpenString_inRange {k : ProfileId} {cl : GradeClass} (two : 2 ≤ n.toNat) (most : n.toNat ≤ 24)
    (cls : cl ≠ .x) (least : 1 ≤ ref) (top : ref ≤ 131070) (perMille : imb ≤ 1000) :
    serveOpenString ([stringByte x, profileByte k, n, cl.code] ++ stringValues ref st ct imb) s =
      if (s.slot k).isNone then (s, .refuse .notFound)
      else ((s.updString x fun _ => openedString k n.toNat cl ref st ct imb).askPass, .ok) := by
  obtain ⟨fref, fst, fct, fimb⟩ := stringValues_fields href hst hct himb
  simp only [serveOpenString, List.cons_append, List.nil_append, onString_stringByte, uField_cons_succ, uField_zero_one,
    profileByte_toNat, profileOf_succ, classOf_code cl cls, fref, fst, fct, fimb]
  rw [if_neg (not_not.mpr unused), if_neg (by omega), if_neg (by omega), if_neg (by omega)]

end

/-! ### SET-REFERENCE and RELEASE-STRING (R151, R153) -/

theorem serveSetReference_values {ref st ct imb : Nat} (href : ref < 16777216) (hst : st < 65536) (hct : ct < 65536)
    (himb : imb < 65536) : serveSetReference (stringByte x :: stringValues ref st ct imb) s =
      if (s.string x).state = .unused then (s, .refuse .wrongState)
      else if ref < 1 ∨ 131070 < ref ∨ 1000 < imb then (s, .refuse .badValue)
      else ((s.updString x fun r => { r with reference := ref, strTol := st, capTol := ct, imbalance := imb }).askPass,
        .ok) := by
  obtain ⟨fref, fst, fct, fimb⟩ := stringValues_fields href hst hct himb
  simp only [serveSetReference, onString_stringByte, uField_cons_succ, fref, fst, fct, fimb, ← or_assoc]
  grind

theorem serveReleaseString_eq : serveReleaseString [stringByte x] s =
    if (s.string x).state = .unused then (s, .refuse .wrongState)
    else if 0 < (s.string x).resCount then (s, .refuse .inUse)
    else (s.updString x fun _ => .unused, .ok) := by
  rw [serveReleaseString, onString_stringByte]

end

/-- Settles O49: the three messages by the equations of their owners. -/
theorem stringOpenedSetAndReleased : Obligations.StringOpenedSetAndReleased := by
  refine ⟨fun s t n m kb x k cl ref st ct imb ready href hst hct himb => ⟨_, _, _, rfl, rfl, rfl, fun used => ?used,
    fun unused => ⟨fun bad => ?badValue, fun two most cls least top perMille => ?inRange⟩⟩,
    fun s t x ref st ct imb ready href hst hct himb => ⟨_, _, rfl, rfl, ?setReference, ?release⟩⟩
  case used => exact message_answers ready (by simp [MessageKind.takes]) (serveOpenString_used used _)
  case badValue =>
    refine message_answers ready (by simp [MessageKind.takes]) (serveOpenString_badValue href hst hct himb unused ?_)
    simpa only [profileOf_none, classOf_none, byte_toNat_eq_zero, Nat.lt_one_iff, or_assoc] using bad
  case inRange =>
    have served := serveOpenString_inRange (k := k) href hst hct himb unused two most cls least top perMille
    refine ⟨fun empty => message_answers ready (by simp [MessageKind.takes]) (served.trans (if_pos ?_)),
      fun filled => message_answers ready (by simp [MessageKind.takes]) (served.trans (if_neg ?_))⟩
    · exact Option.isNone_iff_eq_none.mpr empty
    · exact fun empty => filled (Option.isNone_iff_eq_none.mp empty)
  case setReference =>
    refine (message_result ready (by simp [MessageKind.takes]) (serveSetReference_values href hst hct himb)).trans ?_
    rw [answered_ite, answered_ite]
    rfl
  case release =>
    refine (message_result ready (by simp [MessageKind.takes]) serveReleaseString_eq).trans ?_
    rw [answered_ite, answered_ite]
    rfl

end Sys2Proof.Machine
end

section
/-! The pairing rules (R142 to R145): the partner values of a seat, the imbalance, and the judgement of a candidate by
its six tests. -/

namespace Sys2Proof.Machine

/-! ### Partner values (R143) -/

section
variable {s : State} {id : SeatId} {judged other : Seat}

theorem partner_of_seats (hs : s.seat id = some judged)
    (mate : s.seat { id with seat := otherSeat id.seat } = some other) :
    s.partner id = partnerOf s.pool judged other := by
  rw [State.partner, mateOf, hs, mate]

theorem GradeRecord.r_of_res {g : GradeRecord} {r k : Nat} (h : g.res = some (r, k)) : g.r = r := by
  simp [GradeRecord.r, h]

theorem partnerOf_override (p : Pool) {judged : Seat} {ov : Override} (h : judged.override = some ov)
    (g : GradeRecord) : partnerOf p judged (.installed g) =
      some { cap := ov.cap, res := ov.res, source := .override } := by
  simp [partnerOf, h]

theorem partnerOf_installed (p : Pool) {judged : Seat} (h : judged.override = none) (g : GradeRecord) :
    partnerOf p judged (.installed g) = some { cap := g.ccorr, res := g.r, source := .installed } := by
  simp [partnerOf, h]

theorem partnerOf_reserved {p : Pool} {tag : Nat} {c : Candidate} (h : p.find tag = some c) (judged : Seat) (d : Nat)
    (under : UnderState) : partnerOf p judged (.reserved tag d under) =
      some { cap := c.grade.ccorr, res := c.grade.r, source := .reserved } := by
  simp [partnerOf, h]

theorem partnerOf_free (p : Pool) (judged : Seat) {other : Seat} (free : other = .empty ∨ ∃ ov, other = .vacant ov) :
    partnerOf p judged other = none := by
  rcases free with rfl | ⟨ov, rfl⟩ <;> rfl

end

/-! ### The imbalance (R144) -/

theorem dist_comm (x y : Nat) : Machine.dist x y = Machine.dist y x := by
  unfold Machine.dist
  omega

theorem dist_le_add (x y : Nat) : Machine.dist x y ≤ x + y := by
  unfold Machine.dist
  omega

theorem imbalanceOf_pos {r rp : Nat} (h : 0 < r + rp) :
    imbalanceOf r rp = (Machine.dist r rp * 1000 + (r + rp) / 2) / (r + rp) := if_neg h.ne'

theorem imbalanceOf_comm (r rp : Nat) : imbalanceOf r rp = imbalanceOf rp r := by
  unfold imbalanceOf
  rw [dist_comm, Nat.add_comm]

/-- A half of the sum does not carry the rounded per mille over 1,000. -/
theorem imbalanceOf_le (r rp : Nat) : imbalanceOf r rp ≤ 1000 := by
  unfold imbalanceOf
  split_ifs with zero
  · exact Nat.zero_le _
  · have bound := dist_le_add r rp
    refine Nat.le_of_lt_succ ((Nat.div_lt_iff_lt_mul (Nat.pos_of_ne_zero zero)).mpr ?_)
    omega

theorem imbalanceOf_zero_right {r : Nat} (h : 0 < r) : imbalanceOf r 0 = 1000 := by
  have whole : Machine.dist r 0 = r := by simp [Machine.dist]
  rw [imbalanceOf_pos (Nat.add_pos_left h 0), whole, Nat.add_zero, Nat.mul_add_div h,
    Nat.div_eq_of_lt (Nat.div_lt_self h (by decide))]

/-! ### The judgement (R142, R145) -/

section
variable {x : BankString} {least : GradeClass} (hx : x.minClass = some least) (c : Candidate)
include hx

/-- The six tests in their order, beside a partner. -/
theorem judge_paired (y : Partner) : judge x (some y) c =
    if x.profile ≠ some c.grade.profile then some .profile
    else if least.rank < c.grade.cls.rank then some .cls
    else if c.status ≠ none then some .reserved
    else if x.capTol < Machine.dist c.grade.ccorr y.cap then some .pairCapacity
    else if x.imbalance < imbalanceOf c.grade.r y.res then some .imbalance
    else if x.strTol < Machine.dist (c.grade.ccorr + y.cap) x.reference then some .string
    else none := by
  simp [judge, hx, GradeClass.meets, stringRule, Option.isSome_iff_ne_none]

/-- The tests without a partner: the doubled capacity alone is held to the string (R145). -/
theorem judge_alone : judge x none c =
    if x.profile ≠ some c.grade.profile then some .profile
    else if least.rank < c.grade.cls.rank then some .cls
    else if c.status ≠ none then some .reserved
    else if x.strTol + x.capTol < Machine.dist (2 * c.grade.ccorr) x.reference then some .string
    else none := by
  simp [judge, hx, GradeClass.meets, stringRule, Option.isSome_iff_ne_none]

end

/-- Settles O52: the partner values by the other seat, the imbalance by its bounds, and each outcome of the judgement by
the first condition of its equation that does not hold. -/
theorem judgementNamesFirstFailure : Obligations.JudgementNamesFirstFailure := by
  refine ⟨fun s id judged other hs mate => ?partner, fun g r k => GradeRecord.r_of_res, rfl,
    fun r rp => ⟨imbalanceOf_le r rp, fun zero => if_pos zero, imbalanceOf_zero_right, imbalanceOf_comm r rp,
      imbalanceOf_pos⟩,
    fun x least c hx => ⟨fun y => ?paired, ?alone, fun q => ?failures⟩⟩
  case partner =>
    rw [partner_of_seats hs mate]
    refine ⟨?_, ?_, ?_, partnerOf_free _ _⟩
    · rintro g ov rfl rfl
      exact partnerOf_override _ rfl g
    · rintro g r k rfl res free
      rw [← GradeRecord.r_of_res res]
      rcases free with rfl | rfl <;> exact partnerOf_installed _ rfl g
    · rintro tag d under c r k rfl found res -
      rw [← GradeRecord.r_of_res res]
      exact partnerOf_reserved found judged d under
  case paired =>
    rw [judge_paired hx]
    grind
  case alone =>
    rw [judge_alone hx]
    grind
  case failures =>
    cases q with
    | none =>
      rw [judge_alone hx]
      refine ⟨?_, ?_, ?_, _, rfl, ?_, ?_, ?_⟩ <;> grind
    | some y =>
      rw [judge_paired hx]
      refine ⟨?_, ?_, ?_, _, rfl, ?_, ?_, ?_⟩ <;> grind

end Sys2Proof.Machine
end

section
/-! DECLARE-VACANCY (R138, R139, R152): a seat named by a message, and a module taken out of it. -/

namespace Sys2Proof.Machine

@[simp] theorem otherSeat_ne (n : SeatName) : otherSeat n ≠ n := by cases n <;> decide

@[simp] theorem ne_otherSeat (n : SeatName) : n ≠ otherSeat n := (otherSeat_ne n).symm

/-! ### The four kinds of seat (R140) -/

theorem Seat.isInstalled_iff {e : Seat} : e.isInstalled = true ↔ ∃ g, e = .installed g := by
  cases e <;> simp [Seat.isInstalled]

theorem Seat.isReserved_iff {e : Seat} : e.isReserved = true ↔ ∃ tag d under, e = .reserved tag d under := by
  cases e <;> simp [Seat.isReserved]

theorem Seat.isVacant_iff {e : Seat} : e.isVacant = true ↔ ∃ ov, e = .vacant ov := by
  cases e <;> simp [Seat.isVacant]

theorem Seat.isFree_iff {e : Seat} : e.isFree = true ↔ e.isReserved = false ∧ e.isInstalled = false := by
  cases e <;> simp [Seat.isFree, Seat.isEmpty, Seat.isVacant, Seat.isReserved, Seat.isInstalled]

theorem Seat.installed_unreserved {e : Seat} (h : e.isInstalled = true) : ¬ e.isReserved = true := by
  obtain ⟨g, rfl⟩ := Seat.isInstalled_iff.mp h
  nofun

theorem Seat.vacant_free {e : Seat} (h : e.isVacant = true) : e.isReserved = false ∧ e.isInstalled = false := by
  obtain ⟨ov, rfl⟩ := Seat.isVacant_iff.mp h
  exact ⟨rfl, rfl⟩

/-! ### A seat named by a message (R138) -/

theorem seatOf_none {n : Nat} : seatOf n = none ↔ n = 0 ∨ 2 < n := by
  rcases n with _ | _ | _ | n <;> simp [seatOf]

theorem seatOf_byte_none {b : Byte} (out : b = 0 ∨ 2 < b.toNat) : seatOf b.toNat = none :=
  seatOf_none.mpr (out.imp_left (byte_toNat_eq_zero b).mpr)

theorem posByte_toNat {pos : Nat} (le : pos ≤ 24) : (BitVec.ofNat 8 pos : Byte).toNat = pos := by
  simp only [BitVec.toNat_ofNat]
  omega

section
variable {x : StringId} {str : BankString} {pos n : Nat}

theorem nameSeat_noPosition (out : pos = 0 ∨ str.positions.length < pos) :
    nameSeat x str pos n = .error .notFound := by rw [nameSeat, position_outOfRange out]

theorem nameSeat_badSeat (first : 1 ≤ pos) (last : pos ≤ str.positions.length) (bad : seatOf n = none) :
    nameSeat x str pos n = .error .badValue := by
  obtain ⟨p, hp⟩ := Option.isSome_iff_exists.mp ((position_isSome str pos).mpr ⟨first, last⟩)
  rw [nameSeat, hp, bad]

end

/-- What a message names is the seat that the state holds under the identifier. -/
theorem nameSeat_ok {s : State} {x : StringId} {pos : Nat} {n : SeatName} {e : Seat}
    (h : s.seat { str := x, pos := pos, seat := n } = some e) :
    nameSeat x (s.string x) pos (seatByte n).toNat = .ok ({ str := x, pos := pos, seat := n }, e) := by
  obtain ⟨p, hp, rfl⟩ := Option.map_eq_some_iff.mp h
  rw [nameSeat, hp, seatOf_seatByte]

/-- The bytes of an identifier name its seat. -/
theorem nameSeat_seatId {s : State} {id : SeatId} {e : Seat} (last : id.pos ≤ 24) (hs : s.seat id = some e) :
    nameSeat id.str (s.string id.str) (BitVec.ofNat 8 id.pos : Byte).toNat (seatByte id.seat).toNat = .ok (id, e) := by
  rw [posByte_toNat last]
  exact nameSeat_ok hs

theorem seat_of_position {s : State} {x : StringId} {pos : Nat} {p : Position} (h : (s.string x).position pos = some p)
    (n : SeatName) : s.seat { str := x, pos := pos, seat := n } = some (p.get n) := by
  simp [State.seat, h]

/-! ### A module taken out (R152) -/

theorem updPosition_eq_set {x : BankString} {pos : Nat} {p : Position} (h : x.position pos = some p)
    (f : Position → Position) : x.updPosition pos f = { x with positions := x.positions.set (pos - 1) (f p) } := by
  unfold BankString.position at h
  split at h
  · exact nomatch h
  · rename_i first
    rw [BankString.updPosition, if_neg first, List.modify_eq_set_getElem?, h]
    rfl

theorem updPosition_updPosition (x : BankString) (pos : Nat) (f g : Position → Position) :
    (x.updPosition pos f).updPosition pos g = x.updPosition pos (g ∘ f) := by
  unfold BankString.updPosition
  split_ifs
  · rfl
  · simp only [List.modify_modify_eq]

/-- A position after the module of a seat is taken out: the seat keeps the values given for the module beside it, and
without one both seats are left without an override. -/
def Position.vacated (n : SeatName) (ov : Override) (p : Position) : Position :=
  if (p.get (otherSeat n)).isInstalled then p.upd n fun _ => .vacant (some ov)
  else (p.upd n fun _ => .vacant none).upd (otherSeat n) Seat.dropOverride

theorem vacated_kept {n : SeatName} {p : Position} (kept : (p.get (otherSeat n)).isInstalled = true) (ov : Override) :
    (p.vacated n ov).get n = .vacant (some ov) ∧ (p.vacated n ov).get (otherSeat n) = p.get (otherSeat n) := by
  simp [Position.vacated, kept]

theorem vacated_alone {n : SeatName} {p : Position} (alone : (p.get (otherSeat n)).isInstalled = false)
    (ov : Override) : (p.vacated n ov).get n = .vacant none ∧
      (p.vacated n ov).get (otherSeat n) = (p.get (otherSeat n)).dropOverride := by
  simp [Position.vacated, alone]

theorem vacate_eq {s : State} {x : StringId} {pos : Nat} {n : SeatName} {p : Position}
    (hp : (s.string x).position pos = some p) (ov : Override) : s.vacate { str := x, pos := pos, seat := n } ov =
      { s with bank := s.bank.set x { s.string x with
          state := .service, positions := (s.string x).positions.set (pos - 1) (p.vacated n ov) } } := by
  have mate : (s.seat (mateOf { str := x, pos := pos, seat := n })).any Seat.isInstalled =
      (p.get (otherSeat n)).isInstalled := by
    rw [mateOf, seat_of_position hp, Option.any_some]
  have written : ∀ f : Position → Position, (s.updString x (BankString.updPosition pos f)).updString x
      (fun r => { r with state := .service }) = { s with bank := s.bank.set x { s.string x with
        state := .service, positions := (s.string x).positions.set (pos - 1) (f p) } } := fun f => by
    rw [updString_updString, State.updString, updAt_eq_set, Function.comp_apply]
    exact congrArg (fun r : BankString => { s with bank := s.bank.set x { r with state := .service } })
      (updPosition_eq_set hp f)
  unfold State.vacate Position.vacated
  rw [mate]
  cases (p.get (otherSeat n)).isInstalled with
  | true => exact written _
  | false =>
    have both : ((s.updSeat { str := x, pos := pos, seat := n } fun _ => .vacant none).updSeat
        (mateOf { str := x, pos := pos, seat := n }) Seat.dropOverride) = s.updString x (BankString.updPosition pos
          (Position.upd (otherSeat n) Seat.dropOverride ∘ Position.upd n fun _ => .vacant none)) :=
      (updString_updString ..).trans (congrArg _ (funext fun r => updPosition_updPosition r pos _ _))
    exact (congrArg (fun u : State => u.updString x fun r => { r with state := .service }) both).trans (written _)

/-! ### DECLARE-VACANCY -/

section
variable {s : State} {x : StringId} {pb sb : Byte} {y : List Byte}

theorem serveDeclareVacancy_closed (unsealed : (s.string x).state ≠ .sealed) (idle : (s.string x).state ≠ .service) :
    serveDeclareVacancy ([stringByte x, pb, sb] ++ y) s = (s, .refuse .wrongState) := by
  rw [serveDeclareVacancy, List.cons_append, onString_stringByte, if_pos ⟨unsealed, idle⟩]

variable (open_ : (s.string x).state = .sealed ∨ (s.string x).state = .service)
include open_

theorem serveDeclareVacancy_refused {st : Status} (refused : nameSeat x (s.string x) pb.toNat sb.toNat = .error st) :
    serveDeclareVacancy ([stringByte x, pb, sb] ++ y) s = (s, .refuse st) := by
  simp only [serveDeclareVacancy, List.cons_append, List.nil_append, onString_stringByte, uField_cons_succ,
    uField_zero_one, refused]
  exact if_neg (by tauto)

theorem serveDeclareVacancy_named {id : SeatId} {e : Seat}
    (named : nameSeat x (s.string x) pb.toNat sb.toNat = .ok (id, e)) :
    serveDeclareVacancy ([stringByte x, pb, sb] ++ y) s =
      if e.isReserved then (s, .refuse .inUse)
      else if e.isInstalled then ((s.vacate id { cap := uField y 0 2, res := uField y 2 2 }).askPass, .ok)
      else (s, .refuse .wrongState) := by
  simp only [serveDeclareVacancy, List.cons_append, List.nil_append, onString_stringByte, uField_cons_succ,
    uField_zero_one, named]
  exact if_neg (by tauto)

end

/-- Settles O50: the checks by `serveDeclareVacancy` of a seat named or not, the two seats by `Position.vacated`. -/
theorem vacancyDeclared : Obligations.VacancyDeclared := by
  refine ⟨fun s t pb sb x y ready len unsealed idle => ?closed, fun s t pb sb x y ready len open_ =>
    ⟨fun out => ?noPosition, fun first last bad => ?badSeat⟩,
    fun s t x pos n cap res p ready first le hcap hres hp => ⟨_, _, rfl, rfl, fun open_ => ?named⟩⟩
  case closed =>
    exact message_answers ready (by simp [MessageKind.takes, len]) (serveDeclareVacancy_closed unsealed idle)
  case noPosition =>
    refine message_answers ready (by simp [MessageKind.takes, len])
      (serveDeclareVacancy_refused open_ (nameSeat_noPosition ?_))
    exact out.imp_left (byte_toNat_eq_zero pb).mpr
  case badSeat =>
    exact message_answers ready (by simp [MessageKind.takes, len])
      (serveDeclareVacancy_refused open_ (nameSeat_badSeat first last (seatOf_byte_none bad)))
  case named =>
    have served := serveDeclareVacancy_named (y := beBytes 2 cap ++ beBytes 2 res) open_
      (nameSeat_seatId (id := { str := x, pos := pos, seat := n }) le (seat_of_position hp n))
    simp only [uField_beBytes, uField_skip_beBytes _ _ _ _ _ le_rfl, Nat.sub_self, uField_beBytes_nil, Nat.reducePow,
      Nat.mod_eq_of_lt hcap, Nat.mod_eq_of_lt hres, vacate_eq hp] at served
    refine ⟨fun reserved => ?_, fun vacant => ?_, fun installed => ⟨p.vacated n { cap := cap, res := res }, ?_,
      fun kept => vacated_kept kept _, fun ov alone => ?_, fun tag d ov alone => ?_⟩⟩
    · exact message_answers ready (by simp [MessageKind.takes]) (served.trans (if_pos reserved))
    · refine message_answers ready (by simp [MessageKind.takes]) (served.trans ((if_neg ?_).trans (if_neg ?_)))
      · simp [(Seat.vacant_free vacant).1]
      · simp [(Seat.vacant_free vacant).2]
    · refine message_answers ready (by simp [MessageKind.takes]) (served.trans ((if_neg ?_).trans (if_pos installed)))
      exact Seat.installed_unreserved installed
    · have both := vacated_alone (n := n) (p := p) (by rw [alone]; rfl) { cap := cap, res := res }
      rwa [alone] at both
    · have both := vacated_alone (n := n) (p := p) (by rw [alone]; rfl) { cap := cap, res := res }
      rwa [alone] at both

end Sys2Proof.Machine
end

section
/-! RESTORE-SEAT and INSTALL-DIRECT (R138, R146 to R149): an installation, the sealing check, and the two messages in
the order of their checks. -/

namespace Sys2Proof.Machine

/-! ### An installation and the sealing check (R146, R147) -/

section
variable {s : State} {id : SeatId} {e : Seat} (g : GradeRecord)

theorem install_own (hs : s.seat id = some e) : (s.install id g).seat id = some (.installed g) := by
  rw [install_seat, if_pos rfl, hs, Option.map_some]

theorem install_others {d : SeatId} (ne : d ≠ id) : (s.install id g).seat d = s.seat d := by
  rw [install_seat, if_neg ne.symm]

theorem install_string (s : State) (id : SeatId) (g : GradeRecord) : (s.install id g).string id.str =
    (s.string id.str).installed id.pos id.seat g ((s.seat id).any Seat.isReserved) := by
  rw [install_eq, State.updString_string, if_pos rfl]

theorem install_state : ((s.install id g).string id.str).state = (s.string id.str).state := by
  rw [install_string]
  exact BankString.updPosition_state ..

theorem install_resCount (hs : s.seat id = some e) : ((s.install id g).string id.str).resCount =
    if e.isReserved then (s.string id.str).resCount - 1 else (s.string id.str).resCount := by
  rw [install_string, hs]
  rfl

/-- The seats of the string are all INSTALLED once every seat but the one filled is. -/
theorem install_fills_iff (hs : s.seat id = some e) :
    ((s.install id g).string id.str).seats.all Seat.isInstalled = true ↔
      ∀ d x, d ≠ id → d.str = id.str → s.seat d = some x → x.isInstalled = true := by
  rw [List.all_eq_true]
  constructor
  · rintro all d x ne str hd
    refine all x ?_
    rw [← str]
    exact seat_mem ((install_others g ne).trans hd)
  · intro others x member
    obtain ⟨pos, n, hx⟩ := (mem_string_seats _ _ _).mp member
    by_cases own : ({ str := id.str, pos := pos, seat := n } : SeatId) = id
    · rw [own, install_own g hs] at hx
      rw [← Option.some.inj hx]
      rfl
    · exact others _ x own rfl ((install_others g own).symm.trans hx)

theorem complete_iff (x : BankString) :
    x.complete = true ↔ (x.state = .forming ∨ x.state = .service) ∧ x.seats.all Seat.isInstalled = true := by
  simp [BankString.complete]

theorem seal_eq (s : State) (x : StringId) : s.seal x = if (s.string x).complete then
    State.notify { s with bank := s.bank.set x { s.string x with state := .sealed } } (.stringComplete x) else s := rfl

/-- An installation completes a FORMING string, or one in SERVICE, exactly when it fills it. -/
theorem install_complete (open_ : (s.string id.str).state = .forming ∨ (s.string id.str).state = .service) :
    ((s.install id g).string id.str).complete = ((s.install id g).string id.str).seats.all Seat.isInstalled := by
  rw [Bool.eq_iff_iff, complete_iff, install_state]
  exact and_iff_right open_

end

/-- Whether an installation fills its string depends on the other seats alone. -/
theorem install_fills_eq {s u : State} {id : SeatId} {e : Seat} (bank : u.bank = s.bank) (hs : s.seat id = some e)
    (g h : GradeRecord) : ((u.install id g).string id.str).seats.all Seat.isInstalled =
      ((s.install id h).string id.str).seats.all Seat.isInstalled := by
  have seats : ∀ d, u.seat d = s.seat d := fun d => by rw [State.seat, State.string, bank]; rfl
  rw [Bool.eq_iff_iff, install_fills_iff h hs, install_fills_iff g ((seats id).trans hs)]
  simp only [seats]

/-! ### RESTORE-SEAT (R148) -/

section
variable {s : State} {x : StringId} {pb sb : Byte} {y : List Byte}

theorem gradeOfBytes_profile {g : GradeRecord} (reads : gradeOfBytes y 0 = some g) :
    y.getD 4 0 = profileByte g.profile := by
  unfold gradeOfBytes at reads
  simp only [Nat.zero_add, uField_one] at reads
  split at reads
  · rename_i p _ _ profile _ _
    obtain ⟨-, same⟩ := Option.ite_none_right_eq_some.mp reads
    obtain rfl := Option.some.inj same
    unfold profileOf at profile
    obtain ⟨range, same⟩ := Option.dite_none_right_eq_some.mp profile
    obtain rfl := Option.some.inj same
    refine BitVec.eq_of_toNat_eq ?_
    rw [profileByte_toNat]
    exact (Nat.sub_add_cancel range.1).symm
  · exact nomatch reads

theorem GradeRecord.inRange {g : GradeRecord} (tagged : g.tag ≠ 0) (cold : -400 ≤ g.tm) (hot : g.tm ≤ 1250)
    (soh : g.soh ≤ 1200) : ¬ g.outOfRange := by
  simp only [GradeRecord.outOfRange, not_or, not_lt]
  exact ⟨tagged, cold, hot, soh⟩

theorem Seat.filled {e : Seat} (h : e.isInstalled = true ∨ e.isVacant = true) :
    e.isReserved = false ∧ e.isEmpty = false := by
  rcases h with h | h
  · obtain ⟨g, rfl⟩ := Seat.isInstalled_iff.mp h
    exact ⟨rfl, rfl⟩
  · obtain ⟨ov, rfl⟩ := Seat.isVacant_iff.mp h
    exact ⟨rfl, rfl⟩

/-- A record is taken by RESTORE-SEAT when it reads, lies in its ranges and is of the string's profile (check 5 of
R148). -/
theorem restoredRecord_eq_some (a b c : Byte) (profile : Option ProfileId) (g : GradeRecord) :
    restoredRecord ([a, b, c] ++ y) 3 profile = some g ↔
      gradeOfBytes y 0 = some g ∧ ¬ g.outOfRange ∧ profile = some g.profile := by
  have bytes : gradeOfBytes ([a, b, c] ++ y) 3 = gradeOfBytes y 0 := rfl
  have range : ∀ g : GradeRecord, (outside (-400) 1250 g.tm = false) ↔ ¬ (g.tm < -400 ∨ 1250 < g.tm) := fun g => by
    rw [← outside_iff, Bool.not_eq_true]
  rw [restoredRecord, bytes, Option.filter_eq_some_iff]
  simp only [Bool.and_eq_true, decide_eq_true_eq, Bool.not_eq_true', range, GradeRecord.outOfRange, not_or, not_lt]
  tauto

theorem restoredRecord_none (a b c : Byte) {profile : Option ProfileId}
    (bad : recordRefused y ∨ ∀ k, profile = some k → y.getD 4 0 ≠ profileByte k) :
    restoredRecord ([a, b, c] ++ y) 3 profile = none := by
  refine Option.eq_none_iff_forall_ne_some.mpr fun g restored => ?_
  obtain ⟨reads, inRange, own⟩ := (restoredRecord_eq_some a b c profile g).mp restored
  rcases bad with refused | other
  · exact inRange (recordRefused_outOfRange refused reads)
  · exact other _ own (gradeOfBytes_profile reads)

theorem restoredRecord_bytes (a b c : Byte) {g : GradeRecord} (given : g.given) (inRange : ¬ g.outOfRange)
    {profile : Option ProfileId} (own : profile = some g.profile) :
    restoredRecord ([a, b, c] ++ g.bytes) 3 profile = some g :=
  (restoredRecord_eq_some a b c profile g).mpr ⟨gradeOfBytes_self given, inRange, own⟩

theorem serveRestoreSeat_unformed (other : (s.string x).state ≠ .forming) :
    serveRestoreSeat ([stringByte x, pb, sb] ++ y) s = (s, .refuse .wrongState) := by
  rw [serveRestoreSeat, List.cons_append, onString_stringByte, if_pos other]

variable (forming : (s.string x).state = .forming)
include forming

theorem serveRestoreSeat_refused {st : Status} (refused : nameSeat x (s.string x) pb.toNat sb.toNat = .error st) :
    serveRestoreSeat ([stringByte x, pb, sb] ++ y) s = (s, .refuse st) := by
  rw [serveRestoreSeat, List.cons_append, onString_stringByte, if_neg (not_not.mpr forming)]
  simp only [List.cons_append, List.nil_append, uField_cons_succ, uField_zero_one, refused]

/-- RESTORE-SEAT of a seat that is there: the checks by its state, of the record and of its tag, and the
installation. -/
theorem serveRestoreSeat_named {id : SeatId} {e : Seat}
    (named : nameSeat x (s.string x) pb.toNat sb.toNat = .ok (id, e)) :
    (e.isReserved = true → serveRestoreSeat ([stringByte x, pb, sb] ++ y) s = (s, .refuse .inUse)) ∧
    (e.isReserved = false → e.isEmpty = false →
      serveRestoreSeat ([stringByte x, pb, sb] ++ y) s = (s, .refuse .wrongState)) ∧
    (e = .empty → restoredRecord ([stringByte x, pb, sb] ++ y) 3 (s.string x).profile = none →
      serveRestoreSeat ([stringByte x, pb, sb] ++ y) s = (s, .refuse .badValue)) ∧
    ∀ g, e = .empty → restoredRecord ([stringByte x, pb, sb] ++ y) 3 (s.string x).profile = some g →
      serveRestoreSeat ([stringByte x, pb, sb] ++ y) s = if s.tagHeld g.tag then (s, .refuse .duplicate)
        else ((((s.install id g).seal x).askPass), sealedAnswer (s.install id g) x) := by
  rw [serveRestoreSeat]
  simp only [List.cons_append, List.nil_append, onString_stringByte, uField_cons_succ, uField_zero_one, named]
  rw [if_neg (not_not.mpr forming)]
  refine ⟨fun reserved => if_pos reserved, fun unreserved taken => ?_, fun empty none_ => ?_, fun g empty some_ => ?_⟩
  · rw [unreserved, if_neg Bool.false_ne_true, if_pos taken]
  · subst empty
    simp only [none_]
    rfl
  · subst empty
    simp only [some_]
    rfl

end

/-! ### INSTALL-DIRECT (R149) -/

section
variable {s : State} {tag : Nat} {xb pb sb : Byte}

theorem installDirect_fields (lt : tag < 4294967296) : uField (beBytes 4 tag ++ [xb, pb, sb]) 0 4 = tag ∧
    uField (beBytes 4 tag ++ [xb, pb, sb]) 4 1 = xb.toNat ∧ uField (beBytes 4 tag ++ [xb, pb, sb]) 5 1 = pb.toNat ∧
    uField (beBytes 4 tag ++ [xb, pb, sb]) 6 1 = sb.toNat := by
  simp [uField_skip_beBytes, Nat.mod_eq_of_lt lt]

theorem serveInstallDirect_zero : serveInstallDirect (beBytes 4 0 ++ [xb, pb, sb]) s = (s, .refuse .badValue) := by
  rw [serveInstallDirect, uField_beBytes]
  rfl

variable (lt : tag < 4294967296) (tagged : 0 < tag)
include lt tagged

theorem serveInstallDirect_badString (out : xb = 0 ∨ 16 < xb.toNat) :
    serveInstallDirect (beBytes 4 tag ++ [xb, pb, sb]) s = (s, .refuse .notFound) := by
  obtain ⟨ftag, fstr, -, -⟩ := installDirect_fields (xb := xb) (pb := pb) (sb := sb) lt
  have no : stringOf (uField (beBytes 4 tag ++ [xb, pb, sb]) 4 1) = none := by
    rw [fstr, stringOf_none]
    exact out.imp_left (byte_toNat_eq_zero xb).mpr
  simp only [serveInstallDirect, ftag, if_neg tagged.ne', onString_none no]

variable {x : StringId}

omit tagged in
theorem installDirect_string :
    stringOf (uField (beBytes 4 tag ++ [stringByte x, pb, sb]) 4 1) = some x := by
  obtain ⟨-, fstr, -, -⟩ := installDirect_fields (xb := stringByte x) (pb := pb) (sb := sb) lt
  rw [fstr, stringByte_toNat, stringOf_succ]

theorem serveInstallDirect_closed (unformed : (s.string x).state ≠ .forming) (idle : (s.string x).state ≠ .service) :
    serveInstallDirect (beBytes 4 tag ++ [stringByte x, pb, sb]) s = (s, .refuse .wrongState) := by
  obtain ⟨ftag, -, -, -⟩ := installDirect_fields (xb := stringByte x) (pb := pb) (sb := sb) lt
  simp only [serveInstallDirect, ftag, if_neg tagged.ne', onString_some (installDirect_string lt)]
  exact if_pos ⟨unformed, idle⟩

variable (open_ : (s.string x).state = .forming ∨ (s.string x).state = .service)
include open_

theorem serveInstallDirect_refused {st : Status} (refused : nameSeat x (s.string x) pb.toNat sb.toNat = .error st) :
    serveInstallDirect (beBytes 4 tag ++ [stringByte x, pb, sb]) s = (s, .refuse st) := by
  obtain ⟨ftag, -, fpos, fseat⟩ := installDirect_fields (xb := stringByte x) (pb := pb) (sb := sb) lt
  simp only [serveInstallDirect, ftag, if_neg tagged.ne', onString_some (installDirect_string lt), fpos, fseat,
    refused]
  exact if_neg (by tauto)

/-- INSTALL-DIRECT of a seat that is there: the checks by its state, of the record and of the pairing rules, and the
installation. -/
theorem serveInstallDirect_named {id : SeatId} {e : Seat}
    (named : nameSeat x (s.string x) pb.toNat sb.toNat = .ok (id, e)) :
    (e.isReserved = true → serveInstallDirect (beBytes 4 tag ++ [stringByte x, pb, sb]) s = (s, .refuse .inUse)) ∧
    (e.isInstalled = true → serveInstallDirect (beBytes 4 tag ++ [stringByte x, pb, sb]) s = (s, .refuse .wrongState)) ∧
    (e.isFree = true → s.pool.find tag = none →
      serveInstallDirect (beBytes 4 tag ++ [stringByte x, pb, sb]) s = (s, .refuse .notFound)) ∧
    ∀ c, e.isFree = true → s.pool.find tag = some c →
      (∀ held, c.status = some held → serveInstallDirect (beBytes 4 tag ++ [stringByte x, pb, sb]) s =
        (s, .refuse .reserved (seatIdBytes held))) ∧
      (∀ f, c.status = none → judge (s.string x) (s.partner id) c = some f →
        serveInstallDirect (beBytes 4 tag ++ [stringByte x, pb, sb]) s = (s, .refuse .notMatched [f.code])) ∧
      (c.status = none → judge (s.string x) (s.partner id) c = none →
        serveInstallDirect (beBytes 4 tag ++ [stringByte x, pb, sb]) s =
          (((((s.removeRecord tag).install id c.grade).seal x).askPass),
            sealedAnswer ((s.removeRecord tag).install id c.grade) x)) := by
  obtain ⟨ftag, -, fpos, fseat⟩ := installDirect_fields (xb := stringByte x) (pb := pb) (sb := sb) lt
  have shut : ¬ ((s.string x).state ≠ .forming ∧ (s.string x).state ≠ .service) := by tauto
  simp only [serveInstallDirect, ftag, if_neg tagged.ne', onString_some (installDirect_string lt), fpos, fseat,
    named, if_neg shut]
  refine ⟨fun reserved => if_pos reserved, fun installed => ?_, fun free none_ => ?_, fun c free found => ?_⟩
  · rw [if_neg (Seat.installed_unreserved installed), if_pos installed]
  all_goals
    obtain ⟨unreserved, open_⟩ := Seat.isFree_iff.mp free
    rw [unreserved, open_, if_neg Bool.false_ne_true, if_neg Bool.false_ne_true]
  · simp only [none_]
  · simp only [found]
    refine ⟨fun held status => ?_, fun f status failed => ?_, fun status fits => ?_⟩
    · simp only [status]
    · simp only [status, failed]
    · simp only [status, fits]

end

/-- Settles O51: the refusals of the two messages by their owners' equations, an installation by the seat it writes, and
what the string lacks by its other seats. -/
theorem seatsFilledAndSealed : Obligations.SeatsFilledAndSealed := by
  refine ⟨fun s t pb sb x y ready len => ⟨_, _, rfl, rfl, ?restoreRefused⟩,
    fun s t xb pb sb tag ready lt => ⟨_, _, rfl, rfl, ?installRefused⟩,
    fun s t id e g ready first last hs => ⟨((s.install id g).string id.str).seats.all Seat.isInstalled,
      install_fills_iff g hs, fun open_ => ?sealing, install_own g hs, fun d => install_others g, install_resCount g hs,
      fun given tagged cold hot soh forming own free empty => ?restored,
      fun c tag tagged lt found free open_ => ?direct⟩⟩
  case restoreRefused =>
    have refuse : ∀ st, serveRestoreSeat ([stringByte x, pb, sb] ++ y) s = (s, .refuse st) →
        exec (.restoreSeat t ([stringByte x, pb, sb] ++ y)) s = .next (s.answered 0x64 t (.refuse st)) :=
      fun st => message_answers ready (by simp [MessageKind.takes, len])
    refine ⟨fun other => refuse _ (serveRestoreSeat_unformed other), fun forming => ⟨fun out => ?_,
      fun first last bad => ?_, fun n e seat hs => ?_⟩⟩
    · exact refuse _ (serveRestoreSeat_refused forming
        (nameSeat_noPosition (out.imp_left (byte_toNat_eq_zero pb).mpr)))
    · exact refuse _ (serveRestoreSeat_refused forming (nameSeat_badSeat first last (seatOf_byte_none bad)))
    · subst seat
      obtain ⟨inUse, taken, badRecord, record⟩ := serveRestoreSeat_named (y := y) forming (nameSeat_ok hs)
      refine ⟨fun reserved => refuse _ (inUse reserved),
        fun filled => refuse _ (taken (Seat.filled filled).1 (Seat.filled filled).2),
        fun empty bad => refuse _ (badRecord empty (restoredRecord_none _ _ _ bad)), ?_⟩
      rintro g empty rfl given tagged cold hot soh own held
      refine refuse _ ((record g empty ?_).trans (if_pos ((tagHeld_iff s g.tag).mpr held)))
      exact restoredRecord_bytes _ _ _ given (GradeRecord.inRange tagged cold hot soh) own
  case installRefused =>
    have refuse : ∀ st, serveInstallDirect (beBytes 4 tag ++ [xb, pb, sb]) s = (s, .refuse st) →
        exec (.installDirect t (beBytes 4 tag ++ [xb, pb, sb])) s = .next (s.answered 0x65 t (.refuse st)) :=
      fun st => message_answers ready (by simp [MessageKind.takes])
    refine ⟨?_, fun tagged out => refuse _ (serveInstallDirect_badString lt tagged out), ?_⟩
    · rintro rfl
      exact refuse _ serveInstallDirect_zero
    · rintro x tagged rfl
      refine ⟨fun unformed idle => refuse _ (serveInstallDirect_closed lt tagged unformed idle), fun open_ =>
        ⟨fun out => ?_, fun first last bad => ?_, fun n e seat hs => ?_⟩⟩
      · exact refuse _ (serveInstallDirect_refused lt tagged open_
          (nameSeat_noPosition (out.imp_left (byte_toNat_eq_zero pb).mpr)))
      · exact refuse _ (serveInstallDirect_refused lt tagged open_ (nameSeat_badSeat first last (seatOf_byte_none bad)))
      · subst seat
        obtain ⟨inUse, installed, absent, -⟩ := serveInstallDirect_named lt tagged open_ (nameSeat_ok hs)
        exact ⟨fun h => refuse _ (inUse h), fun h => refuse _ (installed h), fun h none_ => refuse _ (absent h none_)⟩
  case sealing => rw [seal_eq, install_complete g open_]
  case restored =>
    obtain ⟨-, -, -, record⟩ := serveRestoreSeat_named (y := g.bytes) forming (nameSeat_seatId last hs)
    refine message_answers ready (by simp [MessageKind.takes, seatIdBytes])
      ((record g empty ?_).trans ((if_neg ?_).trans ?_))
    · exact restoredRecord_bytes _ _ _ given (GradeRecord.inRange tagged cold hot soh) own
    · rwa [tagHeld_iff]
    · rw [sealedAnswer, install_complete g (.inl forming)]
      rfl
  case direct =>
    obtain ⟨-, -, -, record⟩ := serveInstallDirect_named lt tagged open_ (nameSeat_seatId last hs)
    obtain ⟨reserved, failed, fits⟩ := record c free found
    have answers : ∀ u a, serveInstallDirect (beBytes 4 tag ++ seatIdBytes id) s = (u, a) →
        exec (.installDirect t (beBytes 4 tag ++ seatIdBytes id)) s = .next (u.answered 0x65 t a) :=
      fun u a => message_answers ready (by simp [MessageKind.takes, seatIdBytes])
    refine ⟨fun held status => answers _ _ (reserved held status),
      fun f status fails => answers _ _ (failed f status fails),
      fun status passes => answers _ _ ((fits status passes).trans ?_)⟩
    rw [sealedAnswer, install_complete c.grade (by rwa [removeRecord_string]),
      install_fills_eq (removeRecord_bank s tag) hs c.grade g]
    rfl

end Sys2Proof.Machine
end

section
/-! The seat order and the tests of a seat (R158, R159). -/

namespace Sys2Proof.Machine

/-! ### The seat order (R158) -/

theorem mem_seatsOf (x : StringId) (n : Nat) (id : SeatId) :
    id ∈ seatsOf x n ↔ id.str = x ∧ 1 ≤ id.pos ∧ id.pos ≤ n := by
  obtain ⟨str, pos, seat⟩ := id
  simp only [seatsOf, List.mem_flatMap, List.mem_range, List.mem_cons, List.not_mem_nil, or_false, SeatId.mk.injEq]
  constructor
  · rintro ⟨k, lt, ⟨rfl, rfl, -⟩ | ⟨rfl, rfl, -⟩⟩ <;> exact ⟨rfl, Nat.le_add_left 1 k, lt⟩
  · rintro ⟨rfl, first, last⟩
    refine ⟨pos - 1, by omega, ?_⟩
    rw [Nat.sub_add_cancel first]
    cases seat <;> simp

theorem State.mem_seatsIn (s : State) (st : StringState) (id : SeatId) : id ∈ s.seatsIn st ↔
    (s.string id.str).state = st ∧ 1 ≤ id.pos ∧ id.pos ≤ (s.string id.str).positions.length := by
  simp only [State.seatsIn, allStrings, List.mem_flatMap, List.mem_filter, List.mem_finRange, true_and, beq_iff_eq,
    mem_seatsOf]
  constructor
  · rintro ⟨x, state, rfl, range⟩
    exact ⟨state, range⟩
  · rintro ⟨state, range⟩
    exact ⟨id.str, state, rfl, range⟩

theorem State.mem_seatOrder (s : State) (id : SeatId) : id ∈ s.seatOrder ↔
    1 ≤ id.pos ∧ id.pos ≤ (s.string id.str).positions.length ∧
      ((s.string id.str).state = .service ∨ (s.string id.str).state = .forming) := by
  rw [State.seatOrder, List.mem_append, State.mem_seatsIn, State.mem_seatsIn]
  tauto

/-- What the seat order ascends by: SERVICE before FORMING, then string, position, A before B. -/
def State.orderKey (s : State) (id : SeatId) : List Nat :=
  [if (s.string id.str).state = .service then 0 else 1, id.str.val, id.pos, if id.seat = .a then 0 else 1]

theorem seatsOf_sorted (s : State) (x : StringId) (n : Nat) :
    (seatsOf x n).Pairwise fun y z => keyLt (s.orderKey y) (s.orderKey z) = true := by
  refine List.pairwise_flatMap.mpr ⟨fun k _ => ?_, List.pairwise_lt_range.imp fun {j k} lt => ?_⟩
  · simp [State.orderKey, keyLt]
  · simp [State.orderKey, keyLt, lt]

theorem seatsIn_sorted (s : State) (st : StringState) :
    (s.seatsIn st).Pairwise fun y z => keyLt (s.orderKey y) (s.orderKey z) = true := by
  refine List.pairwise_flatMap.mpr ⟨fun x _ => seatsOf_sorted s x _, ?_⟩
  have ascending : (allStrings.filter fun x => (s.string x).state == st).Pairwise (· < ·) :=
    (List.pairwise_lt_finRange 16).filter _
  refine ascending.imp_of_mem fun {x y} hx hy lt d hd e he => ?_
  obtain ⟨rfl, -, -⟩ := (mem_seatsOf _ _ _).mp hd
  obtain ⟨rfl, -, -⟩ := (mem_seatsOf _ _ _).mp he
  have dst : (s.string d.str).state = st := by simpa using (List.mem_filter.mp hx).2
  have est : (s.string e.str).state = st := by simpa using (List.mem_filter.mp hy).2
  simp [State.orderKey, keyLt, dst, est, Fin.lt_def.mp lt]

theorem seatOrder_sorted (s : State) :
    s.seatOrder.Pairwise fun y z => keyLt (s.orderKey y) (s.orderKey z) = true := by
  refine List.pairwise_append.mpr ⟨seatsIn_sorted s _, seatsIn_sorted s _, fun d hd e he => ?_⟩
  have service := ((State.mem_seatsIn _ _ _).mp hd).1
  have forming := ((State.mem_seatsIn _ _ _).mp he).1
  simp [State.orderKey, keyLt, service, forming]

/-! ### The tests of a seat (R159) -/

theorem State.mayServe_iff (s : State) (id : SeatId) : s.mayServe id = true ↔
    (∃ e, s.seat id = some e ∧ e.isFree = true) ∧ (s.string id.str).resCount < 4 ∧
      (id.seat = .b → ∃ e, s.seat { id with seat := .a } = some e ∧ e.isFree = false) := by
  have first : (id.seat == SeatName.a) = true ↔ ¬ id.seat = .b := by cases id.seat <;> decide
  simp only [State.mayServe, Bool.and_eq_true, Bool.or_eq_true, first, decide_eq_true_eq, Option.any_eq_true,
    Bool.not_eq_true', and_assoc, imp_iff_not_or]
  rfl

end Sys2Proof.Machine
end

section
/-! A pass of the matcher (R141, R157 to R162): its reservations one after the other, the seats they leave settled, and
what it leaves of the state. -/

namespace Sys2Proof.Machine

/-! ### One reservation (R141, R162) -/

section
variable (v : State) (id : SeatId) (tag : Nat)

/-- A string after a reservation of one of its seats. -/
def BankString.reserved (id : SeatId) (tag deadline : Nat) (x : BankString) : BankString :=
  { x.updPosition id.pos (Position.upd id.seat (Seat.reserve tag deadline)) with resCount := x.resCount + 1 }

theorem BankString.reserved_eq (deadline : Nat) (x : BankString) : x.reserved id tag deadline =
    { x with positions := (x.reserved id tag deadline).positions, resCount := x.resCount + 1 } := by
  unfold BankString.reserved BankString.updPosition
  split_ifs <;> rfl

/-- A record marked RESERVED for a seat where its tag is the one reserved. -/
def Candidate.mark (id : SeatId) (tag : Nat) (c : Candidate) : Candidate :=
  if c.grade.tag = tag then { c with status := some id } else c

theorem reserve_string (x : StringId) : (v.reserve id tag).string x =
    if id.str = x then (v.string x).reserved id tag (v.plm.timeout * 10) else v.string x := by
  have written : (v.reserve id tag).string x = (State.updString (v.updString id.str (BankString.updPosition id.pos
    (Position.upd id.seat (Seat.reserve tag (v.plm.timeout * 10))))) id.str
      fun r => { r with resCount := r.resCount + 1 }).string x := rfl
  rw [written, updString_updString, State.updString_string]
  by_cases own : id.str = x
  · subst own
    rw [if_pos rfl, if_pos rfl, Function.comp_apply, BankString.updPosition_resCount]
    rfl
  · rw [if_neg own, if_neg own]

theorem reserve_records : (v.reserve id tag).pool.records = v.pool.records.map (Candidate.mark id tag) := by
  have written : (v.reserve id tag).pool.records =
    v.pool.records.map fun c => if c.grade.tag == tag then { c with status := some id } else c := rfl
  rw [written]
  simp only [beq_iff_eq]
  rfl

theorem reserve_frame : v.reserve id tag = { v with
    pool := { v.pool with records := (v.reserve id tag).pool.records }
    bank := (v.reserve id tag).bank
    nqa := v.nqa.push (.place tag id v.plm.timeout) } := rfl

theorem mark_grade (c : Candidate) : (c.mark id tag).grade = c.grade := by
  unfold Candidate.mark
  split_ifs <;> rfl

theorem mark_cleared (c : Candidate) : { c.mark id tag with status := none } = { c with status := none } := by
  unfold Candidate.mark
  split_ifs <;> rfl

theorem reserve_find (t : Nat) : (v.reserve id tag).pool.find t = (v.pool.find t).map (Candidate.mark id tag) := by
  rw [Pool.find, reserve_records, List.find?_map]
  simp only [Function.comp_def, mark_grade]
  rfl

/-- A record FREE after a reservation was FREE before it, and is not the one reserved. -/
theorem free_of_reserve {c : Candidate} (member : c ∈ (v.reserve id tag).pool.records) (free : c.status = none) :
    c ∈ v.pool.records ∧ c.grade.tag ≠ tag := by
  rw [reserve_records] at member
  obtain ⟨d, hd, rfl⟩ := List.mem_map.mp member
  unfold Candidate.mark at free ⊢
  split_ifs at free ⊢ with own
  exact ⟨hd, own⟩

theorem reserve_seat_other {d : SeatId} (ne : d ≠ id) : (v.reserve id tag).seat d = v.seat d := by
  rw [reserve_seat, if_neg ne.symm]

end

/-! ### A seat settled: it may not be served, or has no candidate (R159 to R161) -/

/-- A pass that comes by the seat makes no reservation for it. -/
def State.settled (v : State) (d : SeatId) : Prop := v.mayServe d = true → v.choose d = none

/-- What the order gives of a seat and a later one: they differ, and of one position the later is seat B (R158). -/
def Precedes (d id : SeatId) : Prop := d ≠ id ∧ (id = mateOf d → id.seat = .b)

theorem smallest_eq_none_iff (key : Candidate → List Nat) (l : List Candidate) : smallest key l = none ↔ l = [] := by
  cases l with
  | nil => exact iff_of_true rfl rfl
  | cons c rest =>
    refine iff_of_false ?_ (List.cons_ne_nil _ _)
    unfold smallest
    split
    · exact nofun
    · split_ifs <;> exact nofun

theorem State.choose_eq_none_iff (v : State) (d : SeatId) :
    v.choose d = none ↔ ∀ c ∈ v.pool.records, judge (v.string d.str) (v.partner d) c ≠ none := by
  simp only [State.choose, smallest_eq_none_iff, List.filter_eq_nil_iff, Option.isNone_iff_eq_none, ne_eq]

section
variable {v : State} {id d : SeatId} {tag : Nat}

/-- A reservation changes neither what a string asks of a candidate nor what it has of one. -/
theorem judge_reserve (q : Option Partner) (c : Candidate) :
    judge ((v.reserve id tag).string d.str) q c = judge (v.string d.str) q c := by
  rw [reserve_string]
  split_ifs
  · unfold BankString.reserved BankString.updPosition
    split_ifs <;> rfl
  · rfl

theorem partnerOf_reserve (judged other : Seat) :
    partnerOf (v.reserve id tag).pool judged other = partnerOf v.pool judged other := by
  cases other with
  | reserved t n under =>
    simp only [partnerOf, reserve_find, Option.map_map, Function.comp_def, mark_grade]
  | _ => rfl

theorem partner_reserve (own : d ≠ id) (mate : mateOf d ≠ id) : (v.reserve id tag).partner d = v.partner d := by
  simp only [State.partner, reserve_seat_other _ _ _ own, reserve_seat_other _ _ _ mate, partnerOf_reserve]

theorem choose_reserve_none (own : d ≠ id) (mate : mateOf d ≠ id) (none_ : v.choose d = none) :
    (v.reserve id tag).choose d = none := by
  rw [State.choose_eq_none_iff] at none_ ⊢
  intro c member passes
  rw [judge_reserve, partner_reserve own mate] at passes
  exact none_ c (free_of_reserve v id tag member (judge_none_status passes)).1 passes

theorem seatA_cases (d : SeatId) : { d with seat := .a } = d ∨ { d with seat := .a } = mateOf d := by
  obtain ⟨x, pos, _ | _⟩ := d
  · exact .inl rfl
  · exact .inr rfl

theorem resCount_reserve_le (x : StringId) : (v.string x).resCount ≤ ((v.reserve id tag).string x).resCount := by
  rw [reserve_string]
  split_ifs
  · exact Nat.le_succ _
  · exact le_rfl

theorem mayServe_of_reserve (own : d ≠ id) (mate : mateOf d ≠ id) (serves : (v.reserve id tag).mayServe d = true) :
    v.mayServe d = true := by
  rw [State.mayServe_iff] at serves ⊢
  obtain ⟨free, few, first⟩ := serves
  rw [reserve_seat_other _ _ _ own] at free
  rw [reserve_seat_other _ _ _ (by rcases seatA_cases d with h | h <;> rwa [h])] at first
  exact ⟨free, (resCount_reserve_le d.str).trans_lt few, first⟩

theorem not_mayServe_of_mate (serves : v.mayServe id = true) (later : Precedes d id) (mate : mateOf d = id) :
    (v.reserve id tag).mayServe d = false := by
  obtain ⟨ne, second⟩ := later
  obtain ⟨x, pos, n⟩ := d
  subst mate
  cases n with
  | b => exact absurd (second rfl) nofun
  | a =>
    obtain ⟨-, -, filled⟩ := (State.mayServe_iff _ _).mp serves
    obtain ⟨e, he, full⟩ := filled rfl
    rw [← Bool.not_eq_true, State.mayServe_iff]
    rintro ⟨⟨e', he', free⟩, -, -⟩
    rw [reserve_seat_other _ _ _ ne] at he'
    obtain rfl := Option.some.inj (he.symm.trans he')
    exact absurd (free.symm.trans full) nofun

/-- A seat settled stays so when a later seat is reserved. -/
theorem settled_reserve (settled : v.settled d) (serves : v.mayServe id = true) (later : Precedes d id) :
    (v.reserve id tag).settled d := by
  intro serves'
  by_cases mate : mateOf d = id
  · exact absurd ((not_mayServe_of_mate serves later mate).symm.trans serves') nofun
  · exact choose_reserve_none later.1 mate (settled (mayServe_of_reserve later.1 mate serves'))

/-- A seat reserved is served no more. -/
theorem settled_reserved : (v.reserve id tag).settled id := by
  intro serves
  obtain ⟨⟨e, he, free⟩, -, -⟩ := (State.mayServe_iff _ _).mp serves
  rw [reserve_seat, if_pos rfl] at he
  obtain ⟨e', -, rfl⟩ := Option.map_eq_some_iff.mp he
  exact absurd free nofun

end

/-! ### The walk over the seats (R160) -/

/-- The reservations of a list, made one after the other. -/
def State.reserveAll (v : State) (made : List (Nat × SeatId)) : State := made.foldl (fun v m => v.reserve m.2 m.1) v

theorem State.reserveAll_cons (v : State) (m : Nat × SeatId) (made : List (Nat × SeatId)) :
    v.reserveAll (m :: made) = (v.reserve m.2 m.1).reserveAll made := rfl

/-- A walk over seats, each taken by the branch of `passWalk` that does not stop: from a state, over a list of seats,
making a list of reservations and serving a number of seats. -/
inductive Walked : State → List SeatId → List (Nat × SeatId) → Nat → Prop
  | done (v) : Walked v [] [] 0
  | passed {v id l made served} (closed : v.mayServe id = false) (next : Walked v l made served) :
      Walked v (id :: l) made served
  | barren {v id l made served} (serves : v.mayServe id = true) (room : v.nqa.queue.length < 64)
      (none_ : v.choose id = none) (next : Walked v l made served) : Walked v (id :: l) made (served + 1)
  | reserved {v id l made served c} (serves : v.mayServe id = true) (room : v.nqa.queue.length < 64)
      (chosen : v.choose id = some c) (next : Walked (v.reserve id c.grade.tag) l made served) :
      Walked v (id :: l) ((c.grade.tag, id) :: made) (served + 1)

/-- A pass walks the seats up to its end, which is the end of the order or a seat that finds the queue full. -/
theorem passWalk_walked (l : List SeatId) (a b : Nat) (v : State) : ∃ walked rest made served result,
    l = walked ++ rest ∧ Walked v walked made served ∧ passWalk l a b v = (v.reserveAll made, result) ∧
    ((rest = [] ∧ result = .complete (a + served) (b + made.length)) ∨
      ∃ id tail, rest = id :: tail ∧ (v.reserveAll made).mayServe id = true ∧
        64 ≤ (v.reserveAll made).nqa.queue.length ∧ result = .noticeRoom (a + served) (b + made.length) id) := by
  induction l generalizing a b v with
  | nil => exact ⟨[], [], [], 0, _, rfl, .done v, rfl, .inl ⟨rfl, rfl⟩⟩
  | cons id l ih =>
    unfold passWalk
    by_cases closed : v.mayServe id = false
    · rw [if_pos closed]
      obtain ⟨walked, rest, made, served, result, rfl, walk, run, ends⟩ := ih a b v
      exact ⟨id :: walked, rest, made, served, result, rfl, .passed closed walk, run, ends⟩
    have serves : v.mayServe id = true := Bool.not_eq_false _ ▸ closed
    rw [if_neg closed]
    by_cases full : Config.noticeRoom ≤ v.nqa.queue.length
    · exact ⟨[], id :: l, [], 0, _, rfl, .done v, if_pos full, .inr ⟨id, l, rfl, serves, full, rfl⟩⟩
    have room : v.nqa.queue.length < 64 := Nat.not_le.mp full
    rw [if_neg full]
    cases chosen : v.choose id with
    | none =>
      obtain ⟨walked, rest, made, served, result, rfl, walk, run, ends⟩ := ih (a + 1) b v
      refine ⟨id :: walked, rest, made, served + 1, result, rfl, .barren serves room chosen walk, run, ?_⟩
      simpa only [Nat.add_assoc, Nat.add_comm 1] using ends
    | some c =>
      obtain ⟨walked, rest, made, served, result, rfl, walk, run, ends⟩ := ih (a + 1) (b + 1) (v.reserve id c.grade.tag)
      refine ⟨id :: walked, rest, (c.grade.tag, id) :: made, served + 1, result, rfl,
        .reserved serves room chosen walk, run, ?_⟩
      simpa only [Nat.add_assoc, Nat.add_comm 1, List.length_cons, State.reserveAll_cons] using ends

section
variable {v : State} {l : List SeatId} {made : List (Nat × SeatId)} {served : Nat}

/-- The reservations of a walk are of its seats, in its order. -/
theorem Walked.sublist (walk : Walked v l made served) : (made.map Prod.snd).Sublist l := by
  induction walk with
  | done v => exact List.Sublist.refl _
  | passed _ _ ih => exact ih.cons _
  | barren _ _ _ _ ih => exact ih.cons _
  | reserved _ _ _ _ ih => exact ih.cons_cons _

theorem Walked.mem {m : Nat × SeatId} (walk : Walked v l made served) (h : m ∈ made) : m.2 ∈ l :=
  walk.sublist.subset (List.mem_map_of_mem h)

/-- A seat settled before a walk over later seats is settled after it. -/
theorem Walked.keeps_settled {d : SeatId} (walk : Walked v l made served) (settled : v.settled d)
    (later : ∀ id ∈ l, Precedes d id) : (v.reserveAll made).settled d := by
  induction walk with
  | done v => exact settled
  | passed _ _ ih => exact ih settled fun id h => later id (List.mem_cons_of_mem _ h)
  | barren _ _ _ _ ih => exact ih settled fun id h => later id (List.mem_cons_of_mem _ h)
  | reserved serves _ _ _ ih =>
    exact ih (settled_reserve settled serves (later _ List.mem_cons_self))
      fun id h => later id (List.mem_cons_of_mem _ h)

/-- A walk in the seat order leaves each of its seats settled. -/
theorem Walked.settles (walk : Walked v l made served) (order : l.Pairwise Precedes) :
    ∀ d ∈ l, (v.reserveAll made).settled d := by
  induction walk with
  | done v => exact fun d h => absurd h List.not_mem_nil
  | passed closed next ih =>
    obtain ⟨first, order⟩ := List.pairwise_cons.mp order
    refine List.forall_mem_cons.mpr ⟨next.keeps_settled (fun serves => ?_) first, ih order⟩
    exact absurd (closed.symm.trans serves) nofun
  | barren _ _ none_ next ih =>
    obtain ⟨first, order⟩ := List.pairwise_cons.mp order
    exact List.forall_mem_cons.mpr ⟨next.keeps_settled (fun _ => none_) first, ih order⟩
  | reserved _ _ _ next ih =>
    obtain ⟨first, order⟩ := List.pairwise_cons.mp order
    exact List.forall_mem_cons.mpr ⟨next.keeps_settled settled_reserved first, ih order⟩

/-- Each reservation of a walk ends a walk over the seats before its own, and is for the best candidate then (R161). -/
theorem Walked.stage (walk : Walked v l made served) {n tag : Nat} {id : SeatId} (h : made[n]? = some (tag, id)) :
    ∃ front behind count, l = front ++ id :: behind ∧ Walked v front (made.take n) count ∧
      (v.reserveAll (made.take n)).mayServe id = true ∧ (v.reserveAll (made.take n)).nqa.queue.length < 64 ∧
      ∃ c, (v.reserveAll (made.take n)).choose id = some c ∧ c.grade.tag = tag := by
  induction walk generalizing n with
  | done v => exact nomatch h
  | passed closed _ ih =>
    obtain ⟨front, behind, count, rfl, walk, stage⟩ := ih h
    exact ⟨_ :: front, behind, _, rfl, .passed closed walk, stage⟩
  | barren serves room none_ _ ih =>
    obtain ⟨front, behind, count, rfl, walk, stage⟩ := ih h
    exact ⟨_ :: front, behind, _, rfl, .barren serves room none_ walk, stage⟩
  | @reserved v first l made served c serves room chosen next ih =>
    cases n with
    | zero =>
      obtain ⟨rfl, rfl⟩ := Prod.mk.inj (Option.some.inj h)
      exact ⟨[], l, 0, rfl, .done v, serves, room, c, chosen, rfl⟩
    | succ n =>
      obtain ⟨front, behind, count, rfl, walk, stage⟩ := ih h
      exact ⟨first :: front, behind, _, rfl, .reserved serves room chosen walk, stage⟩

end

/-! ### The turn of a seat (R160) -/

/-- The number of reservations made before the turn of a seat of the order. -/
def turnOf (l : List SeatId) (made : List (Nat × SeatId)) (d : SeatId) : Nat :=
  made.countP fun m => decide (m.2 ∈ l.takeWhile (· ≠ d))

section
variable {l : List SeatId} {made : List (Nat × SeatId)} {id d : SeatId}

theorem turnOf_first (id : SeatId) (l : List SeatId) (made : List (Nat × SeatId)) : turnOf (id :: l) made id = 0 := by
  simp [turnOf]

theorem turnOf_cons (ne : id ≠ d) (fresh : ∀ m ∈ made, m.2 ≠ id) : turnOf (id :: l) made d = turnOf l made d := by
  refine List.countP_congr fun m member => ?_
  simp [ne, fresh m member]

theorem turnOf_made (ne : id ≠ d) (fresh : ∀ m ∈ made, m.2 ≠ id) (tag : Nat) :
    turnOf (id :: l) ((tag, id) :: made) d = turnOf l made d + 1 := by
  rw [← turnOf_cons ne fresh, turnOf, List.countP_cons_of_pos (by simp [ne])]
  rfl

end

/-- The state of a walk at the turn of one of its seats. -/
def State.atTurn (v : State) (l : List SeatId) (made : List (Nat × SeatId)) (d : SeatId) : State :=
  v.reserveAll (made.take (turnOf l made d))

section
variable {v : State} {l : List SeatId} {made : List (Nat × SeatId)} {served : Nat} {id d : SeatId}

theorem State.atTurn_first (v : State) (id : SeatId) (l : List SeatId) (made : List (Nat × SeatId)) :
    v.atTurn (id :: l) made id = v := by
  rw [State.atTurn, turnOf_first]
  rfl

theorem State.atTurn_cons (ne : id ≠ d) (fresh : ∀ m ∈ made, m.2 ≠ id) :
    v.atTurn (id :: l) made d = v.atTurn l made d := by
  rw [State.atTurn, turnOf_cons ne fresh]
  rfl

theorem State.atTurn_made (ne : id ≠ d) (fresh : ∀ m ∈ made, m.2 ≠ id) (tag : Nat) :
    v.atTurn (id :: l) ((tag, id) :: made) d = (v.reserve id tag).atTurn l made d := by
  rw [State.atTurn, turnOf_made ne fresh]
  rfl

/-- Of the seats `l`, each met in its state of `at_`, `served` may be served, and each of those finds room. -/
def ServedAt (at_ : SeatId → State) (l : List SeatId) (served : Nat) : Prop :=
  served = l.countP (fun d => (at_ d).mayServe d) ∧
    ∀ d ∈ l, (at_ d).mayServe d = true → (at_ d).nqa.queue.length < 64

section
variable {f g : SeatId → State} (rest : ServedAt g l served) (same : ∀ d ∈ l, f d = g d)
include rest same

theorem ServedAt.unserved (closed : (f id).mayServe id = false) : ServedAt f (id :: l) served := by
  obtain ⟨count, room⟩ := rest
  refine ⟨?_, List.forall_mem_cons.mpr ⟨fun serves => absurd (closed.symm.trans serves) nofun, fun d h => ?_⟩⟩
  · rw [count, List.countP_cons_of_neg (by simp [closed])]
    exact List.countP_congr fun d h => by rw [same d h]
  · rw [same d h]
    exact room d h

theorem ServedAt.serving (serves : (f id).mayServe id = true) (free : (f id).nqa.queue.length < 64) :
    ServedAt f (id :: l) (served + 1) := by
  obtain ⟨count, room⟩ := rest
  refine ⟨?_, List.forall_mem_cons.mpr ⟨fun _ => free, fun d h => ?_⟩⟩
  · rw [count, List.countP_cons_of_pos (p := fun d => (f d).mayServe d) serves]
    exact congrArg (· + 1) (List.countP_congr fun d h => by rw [same d h])
  · rw [same d h]
    exact room d h

end

/-- The seats that a walk serves are those that may be served at their turn, and each finds room for a notice. -/
theorem Walked.turns (walk : Walked v l made served) (nodup : l.Nodup) : ServedAt (v.atTurn l made) l served := by
  induction walk with
  | done v => exact ⟨rfl, fun d h => absurd h List.not_mem_nil⟩
  | @passed v id l made served closed next ih =>
    obtain ⟨new, nodup⟩ := List.nodup_cons.mp nodup
    refine (ih nodup).unserved (fun d h => State.atTurn_cons (ne_of_mem_of_not_mem h new).symm fun m hm => ?_) ?_
    · exact ne_of_mem_of_not_mem (next.mem hm) new
    · rwa [State.atTurn_first]
  | @barren v id l made served serves room none_ next ih =>
    obtain ⟨new, nodup⟩ := List.nodup_cons.mp nodup
    refine (ih nodup).serving (fun d h => State.atTurn_cons (ne_of_mem_of_not_mem h new).symm fun m hm => ?_) ?_ ?_
    · exact ne_of_mem_of_not_mem (next.mem hm) new
    all_goals rwa [State.atTurn_first]
  | @reserved v id l made served c serves room chosen next ih =>
    obtain ⟨new, nodup⟩ := List.nodup_cons.mp nodup
    refine (ih nodup).serving (fun d h => State.atTurn_made (ne_of_mem_of_not_mem h new).symm (fun m hm => ?_) _) ?_ ?_
    · exact ne_of_mem_of_not_mem (next.mem hm) new
    all_goals rwa [State.atTurn_first]

end

/-! ### What the reservations leave of the state -/

section
variable (made : List (Nat × SeatId)) (v : State)

theorem reserveAll_frame : v.reserveAll made = { v with
    pool := { v.pool with records := (v.reserveAll made).pool.records }
    bank := (v.reserveAll made).bank
    nqa := (v.reserveAll made).nqa } := by
  induction made generalizing v with
  | nil => rfl
  | cons m made ih =>
    rw [State.reserveAll_cons, ih, reserve_frame]

theorem reserveAll_plm : (v.reserveAll made).plm = v.plm := by rw [reserveAll_frame]

theorem reserveAll_seat {d : SeatId} (other : ∀ m ∈ made, m.2 ≠ d) : (v.reserveAll made).seat d = v.seat d := by
  induction made generalizing v with
  | nil => rfl
  | cons m made ih =>
    obtain ⟨first, other⟩ := List.forall_mem_cons.mp other
    rw [State.reserveAll_cons, ih _ other, reserve_seat_other _ _ _ first.symm]

theorem reserveAll_cleared : (v.reserveAll made).pool.records.map (fun c => { c with status := none }) =
    v.pool.records.map fun c => { c with status := none } := by
  induction made generalizing v with
  | nil => rfl
  | cons m made ih =>
    rw [State.reserveAll_cons, ih, reserve_records, List.map_map]
    exact List.map_congr_left fun c _ => mark_cleared m.2 m.1 c

/-- A record whose tag is not among those reserved stays as it is. -/
theorem reserveAll_keeps {c : Candidate} (other : ∀ m ∈ made, m.1 ≠ c.grade.tag) (member : c ∈ v.pool.records) :
    c ∈ (v.reserveAll made).pool.records := by
  induction made generalizing v with
  | nil => exact member
  | cons m made ih =>
    obtain ⟨first, other⟩ := List.forall_mem_cons.mp other
    refine ih _ other ?_
    rw [reserve_records]
    exact List.mem_map.mpr ⟨c, member, if_neg first.symm⟩

theorem reserveAll_find {t : Nat} (other : ∀ m ∈ made, m.1 ≠ t) :
    (v.reserveAll made).pool.find t = v.pool.find t := by
  induction made generalizing v with
  | nil => rfl
  | cons m made ih =>
    obtain ⟨first, other⟩ := List.forall_mem_cons.mp other
    rw [State.reserveAll_cons, ih _ other, reserve_find]
    cases found : v.pool.find t with
    | none => rfl
    | some c =>
      obtain ⟨-, rfl⟩ := Pool.find_mem found
      exact congrArg some (if_neg first.symm)

/-- A string changes in its positions, and counts each reservation of its seats (R141). -/
theorem reserveAll_string (x : StringId) : (v.reserveAll made).string x = { v.string x with
    positions := ((v.reserveAll made).string x).positions
    resCount := (v.string x).resCount + made.countP fun m => decide (m.2.str = x) } := by
  induction made generalizing v with
  | nil => rfl
  | cons m made ih =>
    rw [State.reserveAll_cons, ih, reserve_string, List.countP_cons]
    by_cases own : m.2.str = x
    · rw [if_pos own, BankString.reserved_eq]
      simp [own, Nat.add_assoc, Nat.add_comm 1]
    · simp [own]

end

/-! ### What a walk leaves of notices, seats and records (R141, R162) -/

section
variable {v : State} {l : List SeatId} {made : List (Nat × SeatId)} {served : Nat}

theorem push_room {x : Nqa} (room : x.queue.length < 64) (n : Notice) : x.push n = { x with queue := x.queue ++ [n] } :=
  if_pos room

/-- Every PLACE notice of a walk finds room. -/
theorem Walked.notices (walk : Walked v l made served) : (v.reserveAll made).nqa = { v.nqa with
    queue := v.nqa.queue ++ made.map fun m => .place m.1 m.2 v.plm.timeout } := by
  induction walk with
  | done v => simp [State.reserveAll]
  | passed _ _ ih => exact ih
  | barren _ _ _ _ ih => exact ih
  | @reserved v id l made served c _ room _ _ ih =>
    have notice : (v.reserve id c.grade.tag).nqa = _ := push_room room (.place c.grade.tag id v.plm.timeout)
    have timeout : (v.reserve id c.grade.tag).plm.timeout = v.plm.timeout := rfl
    rw [State.reserveAll_cons, ih, notice, timeout, List.map_cons]
    simp only [List.append_assoc, List.singleton_append]

/-- The tags that a walk reserves are those of records FREE when it begins. -/
theorem Walked.tags_free (walk : Walked v l made served) :
    ∀ m ∈ made, ∃ c ∈ v.pool.records, c.status = none ∧ c.grade.tag = m.1 := by
  induction walk with
  | done v => exact fun m h => absurd h List.not_mem_nil
  | passed _ _ ih => exact ih
  | barren _ _ _ _ ih => exact ih
  | reserved _ _ chosen _ ih =>
    obtain ⟨member, free⟩ := choose_free chosen
    refine List.forall_mem_cons.mpr ⟨⟨_, member, free, rfl⟩, fun m h => ?_⟩
    obtain ⟨c, member, free, tag⟩ := ih m h
    exact ⟨c, (free_of_reserve _ _ _ member free).1, free, tag⟩

/-- After a reservation the walk reserves no tag twice. -/
theorem Walked.tags_ne {id : SeatId} {tag : Nat} (walk : Walked (v.reserve id tag) l made served) :
    ∀ m ∈ made, m.1 ≠ tag := by
  intro m h
  obtain ⟨c, member, free, own⟩ := walk.tags_free m h
  exact own ▸ (free_of_reserve _ _ _ member free).2

theorem Pool.find_of_mem {p : Pool} {c : Candidate} (h : c ∈ p.records) : ∃ d, p.find c.grade.tag = some d :=
  Option.isSome_iff_exists.mp (List.find?_isSome.mpr ⟨c, h, beq_self_eq_true _⟩)

/-- Seat and record of each reservation of a walk, before and after (R141, R162). -/
theorem Walked.reserves (walk : Walked v l made served) (nodup : l.Nodup) : ∀ m ∈ made, ∃ e c,
    v.seat m.2 = some e ∧ e.isFree = true ∧
    (v.reserveAll made).seat m.2 = some (e.reserve m.1 (v.plm.timeout * 10)) ∧
    v.pool.find m.1 = some c ∧ (v.reserveAll made).pool.find m.1 = some { c with status := some m.2 } := by
  induction walk with
  | done v => exact fun m h => absurd h List.not_mem_nil
  | passed _ _ ih => exact ih (List.nodup_cons.mp nodup).2
  | barren _ _ _ _ ih => exact ih (List.nodup_cons.mp nodup).2
  | @reserved v id l made served c serves _ chosen next ih =>
    obtain ⟨new, nodup⟩ := List.nodup_cons.mp nodup
    have seats : ∀ m ∈ made, m.2 ≠ id := fun m h => ne_of_mem_of_not_mem (next.mem h) new
    refine List.forall_mem_cons.mpr ⟨?_, fun m h => ?_⟩
    · obtain ⟨⟨e, he, free⟩, -, -⟩ := (State.mayServe_iff _ _).mp serves
      obtain ⟨d, found⟩ := Pool.find_of_mem (choose_free chosen).1
      refine ⟨e, d, he, free, ?_, found, ?_⟩
      · rw [State.reserveAll_cons, reserveAll_seat _ _ seats, reserve_seat, if_pos rfl, he, Option.map_some]
      · rw [State.reserveAll_cons, reserveAll_find _ _ next.tags_ne, reserve_find, found]
        exact congrArg some (if_pos (Pool.find_mem found).2)
    · obtain ⟨e, d, he, free, after, found, marked⟩ := ih nodup m h
      rw [reserve_seat_other _ _ _ (seats m h)] at he
      refine ⟨e, d, he, free, after, ?_, marked⟩
      rw [reserve_find] at found
      obtain ⟨d', found', rfl⟩ := Option.map_eq_some_iff.mp found
      rw [found']
      refine congrArg some (if_neg ?_).symm
      rw [(Pool.find_mem found').2]
      exact next.tags_ne m h

end

/-! ### The pass (R157 to R160) -/

theorem keyLt_irrefl (x : List Nat) : keyLt x x = false := by
  cases h : keyLt x x with
  | false => rfl
  | true => exact h.symm.trans (keyLt_asymm h)

theorem precedes_of_keyLt {s : State} {d id : SeatId} (lt : keyLt (s.orderKey d) (s.orderKey id) = true) :
    Precedes d id := by
  refine ⟨?_, ?_⟩
  · rintro rfl
    exact absurd ((keyLt_irrefl _).symm.trans lt) nofun
  · rintro rfl
    obtain ⟨x, pos, _ | _⟩ := d
    · rfl
    · have later : ∀ k, keyLt [k, x.val, pos, 1] [k, x.val, pos, 0] = false := fun k => by simp [keyLt]
      exact absurd ((later _).symm.trans lt) nofun

theorem seatOrder_precedes (s : State) : s.seatOrder.Pairwise Precedes :=
  (seatOrder_sorted s).imp precedes_of_keyLt

/-- The state in which a pass begins: its flag is cleared (R157). -/
def State.passBegun (s : State) : State := { s with plm := { s.plm with passPending := false } }

theorem exec_matchingPass_pending {s : State} (live : s.inReset = false) (pending : s.plm.passPending = true) :
    exec .matchingPass s = .next s.passBegun.runPass := by
  show execMatchingPass s = _
  rw [execMatchingPass, event_runs live, if_pos pending]
  rfl

theorem exec_matchingPass_idle {s : State} (live : s.inReset = false) (idle : s.plm.passPending = false) :
    exec .matchingPass s = .next s := by
  show execMatchingPass s = _
  rw [execMatchingPass, event_runs live, idle]
  rfl

theorem runPass_walked {v w : State} {result : PassResult} (run : passWalk v.seatOrder 0 0 v = (w, result)) :
    v.runPass = { w with plm := { w.plm with lastPass := result } } := by
  rw [State.runPass, run]
  rfl

/-- Settles O53: the walk of the pass, and what it leaves of seats, records, strings and notices. -/
theorem passReservesWithinNoticeRoom : Obligations.PassReservesWithinNoticeRoom := by
  refine ⟨fun s id => ⟨s.mem_seatOrder id, seatOrder_sorted s, s.mayServe_iff id⟩,
    fun s live => ⟨exec_matchingPass_idle live, fun pending => ?_⟩⟩
  obtain ⟨walked, rest, made, served, result, order, walk, run, ends⟩ :=
    passWalk_walked s.passBegun.seatOrder 0 0 s.passBegun
  rw [Nat.zero_add, Nat.zero_add] at ends
  have sorted : walked.Pairwise Precedes :=
    (List.pairwise_append.mp (order ▸ seatOrder_precedes s.passBegun)).1
  have nodup : walked.Nodup := sorted.imp And.left
  have whole : made.take made.length = made := List.take_length
  refine ⟨made, fun n => s.passBegun.reserveAll (made.take n), walked, rest, result,
    (s.passBegun.reserveAll made).updPlm fun _ => { s.plm with passPending := false, lastPass := result },
    fun n => rfl, by simp only [whole]; rfl, ?run, order, fun n tag id h => ?stage, walk.settles sorted,
    ⟨_, served, rfl, (walk.turns nodup).1, (walk.turns nodup).2, ends⟩, walk.notices, fun tag id h => ?reserves,
    fun id other => reserveAll_seat made _ other, fun n => ?cleared,
    fun c member other => reserveAll_keeps made s.passBegun other member, reserveAll_string made s.passBegun,
    ?frame, ?nextSeq, ?park⟩
  case run =>
    rw [exec_matchingPass_pending live pending, runPass_walked run, reserveAll_plm]
    rfl
  case stage =>
    obtain ⟨front, behind, count, rfl, walk, serves, room, chosen⟩ := walk.stage h
    refine ⟨serves, room, chosen, front, behind ++ rest, ?_, walk.settles (List.pairwise_append.mp sorted).1⟩
    exact order.trans (List.append_assoc _ _ _)
  case reserves =>
    obtain ⟨e, c, before, free, after, found, marked⟩ := walk.reserves nodup _ h
    exact ⟨e, c, before, free, after, found, marked⟩
  case cleared =>
    have same := congrArg (·[n]?) (reserveAll_cleared made s.passBegun)
    rw [List.getElem?_map, List.getElem?_map] at same
    exact same
  case frame =>
    rw [reserveAll_frame made s.passBegun]
    rfl
  case nextSeq =>
    rw [reserveAll_frame made s.passBegun]
    rfl
  case park =>
    rw [reserveAll_frame made s.passBegun]
    rfl

end Sys2Proof.Machine
end

section
/-! The time base and the expiry of a reservation (R141, R163, R169). -/

namespace Sys2Proof.Machine

/-! ### TIME_STEP (R163) -/

/-- The state after one step of the time base. -/
def State.ticked (s : State) : State := { s with bank := s.bank.map BankString.tick }

theorem ticked_string (s : State) (x : StringId) : s.ticked.string x = (s.string x).tick := by
  simp [State.ticked, State.string, Vector.get_eq_getElem]

theorem BankString.tick_position (x : BankString) (pos : Nat) :
    x.tick.position pos = (x.position pos).map Position.tick := by
  unfold BankString.position BankString.tick
  split_ifs
  · rfl
  · exact List.getElem?_map

theorem Position.tick_get (p : Position) (n : SeatName) : p.tick.get n = (p.get n).tick := by cases n <;> rfl

theorem ticked_seat (s : State) (d : SeatId) : s.ticked.seat d = (s.seat d).map Seat.tick := by
  simp only [State.seat, ticked_string, BankString.tick_position, Option.map_map, Function.comp_def, Position.tick_get]

theorem Seat.tick_unreserved {e : Seat} (h : e.isReserved = false) : e.tick = e := by
  cases e
  case reserved => exact absurd h nofun
  all_goals rfl

/-! ### The end of a reservation (R141) and a lapse (R169) -/

section
variable {s : State} {id : SeatId} {tag : Nat} {under : UnderState}

theorem UnderState.seat_eq (under : UnderState) :
    under.seat = match under with | .empty => .empty | .vacancy ov => .vacant ov := by cases under <;> rfl

theorem returnSeat_string (s : State) (id : SeatId) (under : UnderState) :
    ((s.returnSeat id under).string id.str).resCount = (s.string id.str).resCount - 1 := by
  simp [State.returnSeat, State.updSeat]

theorem returnSeat_others (s : State) {id d : SeatId} (under : UnderState) (ne : d ≠ id) :
    (s.returnSeat id under).seat d = s.seat d := by
  rw [returnSeat_seat, if_neg ne.symm]

theorem exec_expiry {c : Candidate} (live : s.inReset = false) (due : s.seat id = some (.reserved tag 0 under))
    (found : s.pool.find tag = some c) :
    exec (.expiry id) s = .next (((s.returnSeat id under).lapse id c).askPass) := by
  show execExpiry id s = _
  simp only [execExpiry, event_runs live, due, found]

theorem lapse_again {c : Candidate} (few : c.lapses < 2) : s.lapse id c = { s with
    pool := { s.pool with records := s.pool.records.map fun d =>
      if d.grade.tag = c.grade.tag then { d with status := none, lapses := c.lapses + 1 } else d }
    nqa := s.nqa.push (.lapsed c.grade.tag id (c.lapses + 1)) } := by
  have freed : s.lapse id c = (s.freeRecord c.grade.tag (c.lapses + 1)).notify _ := if_pos few
  rw [freed]
  simp only [State.freeRecord, State.notify, State.updNqa, State.updPool, Pool.update, beq_iff_eq]

theorem lapse_dropped {c : Candidate} (often : 2 ≤ c.lapses) : s.lapse id c =
    State.removeRecord { s with nqa := s.nqa.push (.dropped c.grade.tag) } c.grade.tag := if_neg often.not_gt

end

/-- Settles O55: a step of the time base by the seat it leaves, an expiry by the two lapses. -/
theorem deadlinesRunDownAndExpire : Obligations.DeadlinesRunDownAndExpire := by
  refine fun s id live => ⟨⟨s.ticked, event_runs (f := State.ticked) live, rfl, ticked_string s,
    fun d => ⟨fun tag n under hd => ?_, fun e hd unreserved => ?_⟩⟩, ?_⟩
  · rw [ticked_seat, hd]
    rfl
  · rw [ticked_seat, hd, Option.map_some, Seat.tick_unreserved unreserved]
  · rintro _ under c one due found rfl
    have run := exec_expiry live due found
    refine ⟨_, rfl, ?_, returnSeat_string s id under, fun d => returnSeat_others s under, fun few => ?_,
      fun often => ?_⟩
    · rw [returnSeat_seat, if_pos rfl, due, Option.map_some]
      exact congrArg some under.seat_eq
    · rw [run, lapse_again few]
      rfl
    · rw [run, lapse_dropped often]
      rfl

end Sys2Proof.Machine
end

section
/-! The choice of a candidate (R161) and the reservation made for it (R162). -/

namespace Sys2Proof.Machine

/-! ### The keys (R161) -/

section
variable {key : Candidate → List Nat} {l : List Candidate} {c : Candidate}

/-- The record of smallest key has no other before it. -/
theorem smallest_least (len : ∀ d e, (key d).length = (key e).length) (h : smallest key l = some c) :
    ∀ d ∈ l, keyLt (key d) (key c) = false := by
  induction l generalizing c with
  | nil => exact fun d h => absurd h List.not_mem_nil
  | cons first rest ih =>
    unfold smallest at h
    split at h
    case h_1 none_ =>
      obtain rfl := Option.some.inj h
      obtain rfl := (smallest_eq_none_iff key rest).mp none_
      exact List.forall_mem_singleton.mpr (keyLt_irrefl _)
    case h_2 best some_ =>
      have least := ih some_
      split_ifs at h with lt <;> obtain rfl := Option.some.inj h
      · exact List.forall_mem_cons.mpr ⟨keyLt_asymm lt, least⟩
      · refine List.forall_mem_cons.mpr ⟨keyLt_irrefl _, fun d member => ?_⟩
        exact keyLt_trans_false (len _ _) (len _ _) (Bool.not_eq_true _ ▸ lt) (least d member)

end

theorem choiceKey_length (x : BankString) (q : Option Partner) (c : Candidate) : (choiceKey x c q).length = 4 := by
  cases q <;> rfl

theorem choiceKey_paired (x : BankString) (c : Candidate) (y : Partner) : choiceKey x c (some y) =
    [((c.grade.ccorr : Int) - y.cap).natAbs, imbalanceOf c.grade.r y.res, c.seq, c.grade.tag] := rfl

theorem choiceKey_alone (x : BankString) (c : Candidate) : choiceKey x c none =
    [(2 * (c.grade.ccorr : Int) - x.reference).natAbs, c.grade.r, c.seq, c.grade.tag] := by
  rw [choiceKey, Machine.dist, Nat.cast_mul]
  rfl

/-! ### The candidate chosen (R161) -/

section
variable {s : State} {id : SeatId} {c : Candidate}

theorem choose_fits (chosen : s.choose id = some c) : judge (s.string id.str) (s.partner id) c = none :=
  Option.isNone_iff_eq_none.mp (List.mem_filter.mp (smallest_mem chosen)).2

theorem choose_least (chosen : s.choose id = some c) {d : Candidate} (member : d ∈ s.pool.records)
    (fits : judge (s.string id.str) (s.partner id) d = none) :
    keyLt (choiceKey (s.string id.str) d (s.partner id)) (choiceKey (s.string id.str) c (s.partner id)) = false := by
  refine smallest_least (fun d e => ?_) chosen d (List.mem_filter.mpr ⟨member, Option.isNone_iff_eq_none.mpr fits⟩)
  rw [choiceKey_length, choiceKey_length]

end

/-! ### What its reservation changes (R141, R162) -/

section
variable {s : State} {id : SeatId} (tag : Nat)

theorem reserve_own {e : Seat} (hs : s.seat id = some e) :
    (s.reserve id tag).seat id = some (e.reserve tag (s.plm.timeout * 10)) := by
  rw [reserve_seat, if_pos rfl, hs, Option.map_some]

theorem reserve_resCount (s : State) (id : SeatId) :
    ((s.reserve id tag).string id.str).resCount = (s.string id.str).resCount + 1 := by
  rw [reserve_string, if_pos rfl]
  rfl

theorem reserve_pool (s : State) (id : SeatId) : (s.reserve id tag).pool =
    { s.pool with records := s.pool.records.map (Candidate.mark id tag) } := by
  rw [reserve_frame, reserve_records]

end

/-- Settles O54: the choice by the least key of those that fit the seat, the reservation part by part. -/
theorem choiceIsBestCandidate : Obligations.ChoiceIsBestCandidate := by
  rintro s id _ q rfl hq
  refine ⟨hq ▸ s.choose_eq_none_iff id, fun c chosen => ?chosen, fun c => ?keys, keyLt_cons,
    fun tag e hs free first => ⟨reserve_own tag hs, reserve_resCount tag s id, fun d => reserve_seat_other s id tag,
      rfl, reserve_pool tag s id⟩⟩
  case chosen =>
    subst hq
    exact ⟨(choose_free chosen).1, choose_fits chosen, fun d => choose_least chosen⟩
  case keys =>
    cases q with
    | some y => exact choiceKey_paired _ c y
    | none => exact choiceKey_alone _ c

end Sys2Proof.Machine
end

section
/-! PLACED and NOT-PLACED (R165 to R168): the seat they name, the reservation they end, and their refusals. -/

namespace Sys2Proof.Machine

/-! ### Their fields (R165, R167) -/

section
variable {tag : Nat} {xb pb sb : Byte}

theorem placement_tag (lt : tag < 4294967296) (l : List Byte) : uField (beBytes 4 tag ++ l) 0 4 = tag := by
  rw [uField_beBytes]
  exact Nat.mod_eq_of_lt lt

theorem placement_reason (tag : Nat) (xb pb sb w : Byte) :
    uField (beBytes 4 tag ++ [xb, pb, sb, w]) 7 1 = w.toNat := by
  simp [uField_skip_beBytes]

/-- The seat named stands behind the tag. -/
theorem namedSeat_skip (tag : Nat) (xb pb sb : Byte) (l : List Byte) :
    namedSeat (beBytes 4 tag ++ xb :: pb :: sb :: l) 4 = namedSeat [xb, pb, sb] 0 := by
  simp [namedSeat, uField_skip_beBytes]

theorem namedSeat_outOfRange (out : xb = 0 ∨ 16 < xb.toNat ∨ pb = 0 ∨ 24 < pb.toNat) :
    namedSeat [xb, pb, sb] 0 = .error .notFound := by
  simp only [namedSeat, uField_cons_succ, uField_zero_one, zero_add]
  split
  · rfl
  · rename_i known
    refine if_pos ?_
    have string : ¬ (xb = 0 ∨ 16 < xb.toNat) := by
      rw [← byte_toNat_eq_zero, ← stringOf_none, known]
      nofun
    rw [Nat.lt_one_iff, byte_toNat_eq_zero]
    tauto

theorem namedSeat_badSeat (str : 1 ≤ xb.toNat) (strLe : xb.toNat ≤ 16) (pos : 1 ≤ pb.toNat) (posLe : pb.toNat ≤ 24)
    (bad : sb = 0 ∨ 2 < sb.toNat) : namedSeat [xb, pb, sb] 0 = .error .badValue := by
  have known : stringOf xb.toNat ≠ none := by
    rw [Ne, stringOf_none]
    omega
  obtain ⟨x, hx⟩ := Option.ne_none_iff_exists'.mp known
  simp only [namedSeat, uField_cons_succ, uField_zero_one, zero_add, hx, seatOf_byte_none bad]
  exact if_neg (by omega)

theorem namedSeat_seatIdBytes {id : SeatId} (first : 1 ≤ id.pos) (last : id.pos ≤ 24) :
    namedSeat (seatIdBytes id) 0 = .ok id := by
  simp only [namedSeat, seatIdBytes, uField_cons_succ, uField_zero_one, zero_add, stringByte_toNat, stringOf_succ,
    posByte_toNat last, seatOf_seatByte]
  exact if_neg (by omega)

end

theorem reasonOf_none {n : Nat} : reasonOf n = none ↔ n = 0 ∨ 3 < n := by
  rcases n with _ | _ | _ | _ | n <;> simp [reasonOf]

theorem reasonOf_some {n : Nat} (least : 1 ≤ n) (most : n ≤ 3) : ∃ why, reasonOf n = some why := by
  refine Option.ne_none_iff_exists'.mp ?_
  rw [Ne, reasonOf_none]
  omega

/-! ### The reservation named (R165 to R167) -/

section
variable {s : State} {id : SeatId} {tag : Nat}

theorem reservation_of_seat {n : Nat} {under : UnderState} (hs : s.seat id = some (.reserved tag n under)) :
    s.reservation id tag = some under := by
  simp [State.reservation, hs]

theorem reservation_none (none_ : ∀ n under, s.seat id ≠ some (.reserved tag n under)) :
    s.reservation id tag = none := by
  unfold State.reservation
  split
  · rename_i held n under hs
    refine if_neg ?_
    rintro rfl
    exact none_ n under hs
  · rfl

theorem notReserved_elsewhere {c : Candidate} {held : SeatId} (found : s.pool.find tag = some c)
    (status : c.status = some held) (ne : held ≠ id) :
    s.notReserved id tag = .refuse .mismatch (seatIdBytes held) := by
  simp [State.notReserved, found, status, ne]

theorem notReserved_late (free : ∀ c, s.pool.find tag = some c → c.status = none) :
    s.notReserved id tag = .refuse .late := by
  have unheld : (s.pool.find tag).bind Candidate.status = none := Option.bind_eq_none_iff.mpr free
  rw [State.notReserved, unheld]

end

/-! ### PLACED (R165, R166) -/

section
variable {s u : State} {t : Byte} {body : List Byte} {tag : Nat} {id : SeatId} {st : Status} {a : Answer}

theorem exec_placed (ready : s.ready) (size : body.length = 7) (answers : servePlaced body s = (u, a)) :
    exec (.placed t body) s = .next (u.answered 0x70 t a) :=
  message_answers ready (by simp [MessageKind.takes, size]) answers

theorem servePlaced_zero (zero : uField body 0 4 = 0) : servePlaced body s = (s, .refuse .badValue) := if_pos zero

variable (reads : uField body 0 4 = tag) (tagged : tag ≠ 0)
include reads tagged

theorem servePlaced_refused (refused : namedSeat body 4 = .error st) : servePlaced body s = (s, .refuse st) := by
  simp only [servePlaced, reads, if_neg tagged, refused]

theorem servePlaced_reserved {under : UnderState} {c : Candidate} (named : namedSeat body 4 = .ok id)
    (reserved : s.reservation id tag = some under) (found : s.pool.find tag = some c) :
    servePlaced body s = (s.place id tag c.grade, sealedAnswer (s.install id c.grade) id.str) := by
  simp only [servePlaced, reads, if_neg tagged, named, reserved, found]

theorem servePlaced_unreserved (named : namedSeat body 4 = .ok id) (none_ : s.reservation id tag = none) :
    servePlaced body s = (s, s.notReserved id tag) := by
  simp only [servePlaced, reads, if_neg tagged, named, none_]

end

theorem exec_placed_refused {s : State} {t xb pb sb : Byte} {tag : Nat} {st : Status} (ready : s.ready)
    (lt : tag < 4294967296) (tagged : 0 < tag) (refused : namedSeat [xb, pb, sb] 0 = .error st) :
    exec (.placed t (beBytes 4 tag ++ [xb, pb, sb])) s = .next (s.answered 0x70 t (.refuse st)) :=
  exec_placed ready (by simp)
    (servePlaced_refused (placement_tag lt _) tagged.ne' ((namedSeat_skip ..).trans refused))

/-! ### NOT-PLACED (R167, R168) -/

section
variable {s u : State} {t : Byte} {body : List Byte} {tag : Nat} {id : SeatId} {st : Status} {a : Answer}
  {why : NotPlacedReason}

theorem exec_notPlaced (ready : s.ready) (size : body.length = 8) (answers : serveNotPlaced body s = (u, a)) :
    exec (.notPlaced t body) s = .next (u.answered 0x71 t a) :=
  message_answers ready (by simp [MessageKind.takes, size]) answers

theorem serveNotPlaced_zero (zero : uField body 0 4 = 0) : serveNotPlaced body s = (s, .refuse .badValue) :=
  if_pos zero

theorem serveNotPlaced_badReason (bad : reasonOf (uField body 7 1) = none) :
    serveNotPlaced body s = (s, .refuse .badValue) := by
  simp only [serveNotPlaced, bad, ite_self]

variable (reads : uField body 0 4 = tag) (tagged : tag ≠ 0) (reason : reasonOf (uField body 7 1) = some why)
include reads tagged reason

theorem serveNotPlaced_refused (refused : namedSeat body 4 = .error st) :
    serveNotPlaced body s = (s, .refuse st) := by
  simp only [serveNotPlaced, reads, if_neg tagged, reason, refused]

theorem serveNotPlaced_unreserved (named : namedSeat body 4 = .ok id) (none_ : s.reservation id tag = none) :
    serveNotPlaced body s = (s, .refuse .notFound) := by
  simp only [serveNotPlaced, reads, if_neg tagged, reason, named, none_]

theorem serveNotPlaced_reserved {under : UnderState} (named : namedSeat body 4 = .ok id)
    (reserved : s.reservation id tag = some under) :
    serveNotPlaced body s = (((s.returnSeat id under).dealWith tag why).askPass, .ok) := by
  simp only [serveNotPlaced, reads, if_neg tagged, reason, named, reserved]

end

section
variable {s : State} {t xb pb sb w : Byte} {tag : Nat} {st : Status} (ready : s.ready)
include ready

theorem exec_notPlaced_badReason (bad : w = 0 ∨ 3 < w.toNat) :
    exec (.notPlaced t (beBytes 4 tag ++ [xb, pb, sb, w])) s = .next (s.answered 0x71 t (.refuse .badValue)) := by
  refine exec_notPlaced ready (by simp) (serveNotPlaced_badReason ?_)
  rw [placement_reason, reasonOf_none, byte_toNat_eq_zero]
  exact bad

theorem exec_notPlaced_refused (lt : tag < 4294967296) (tagged : 0 < tag) (least : 1 ≤ w.toNat) (most : w.toNat ≤ 3)
    (refused : namedSeat [xb, pb, sb] 0 = .error st) :
    exec (.notPlaced t (beBytes 4 tag ++ [xb, pb, sb, w])) s = .next (s.answered 0x71 t (.refuse st)) := by
  obtain ⟨why, known⟩ := reasonOf_some least most
  exact exec_notPlaced ready (by simp) (serveNotPlaced_refused (placement_tag lt _) tagged.ne'
    ((placement_reason ..).symm ▸ known) ((namedSeat_skip ..).trans refused))

end

/-- A record dealt with as OTHER is FREE, and keeps its lapse count (R167). -/
theorem dealWith_other (s : State) (tag : Nat) : s.dealWith tag .other = { s with
    pool := { s.pool with records := s.pool.records.map fun d =>
      if d.grade.tag = tag then { d with status := none } else d } } := by
  simp only [State.dealWith, State.updPool, Pool.update, beq_iff_eq]

/-- Settles O56: the refusals by the field that is out of range, the outcomes by the reservation of the seat named. -/
theorem placedAndNotPlacedTaken : Obligations.PlacedAndNotPlacedTaken := by
  refine ⟨fun s t xb pb sb w tag ready lt => ⟨_, _, _, _, rfl, rfl, rfl, rfl, ?refused⟩,
    fun s t id tag ready first last tagged lt => ⟨_, rfl, ?named⟩⟩
  case refused =>
    refine ⟨fun zero => ?tagZero, fun bad => ?badReason, fun tagged out => ?outOfRange,
      fun tagged str strLe pos posLe bad => ?badSeat⟩
    case tagZero =>
      have reads := fun l => (placement_tag lt l).trans zero
      exact ⟨exec_placed ready (by simp) (servePlaced_zero (reads _)),
        exec_notPlaced ready (by simp) (serveNotPlaced_zero (reads _))⟩
    case badReason => exact exec_notPlaced_badReason ready bad
    case outOfRange =>
      have refused := namedSeat_outOfRange (sb := sb) out
      exact ⟨exec_placed_refused ready lt tagged refused,
        fun least most => exec_notPlaced_refused ready lt tagged least most refused⟩
    case badSeat =>
      have refused := namedSeat_badSeat str strLe pos posLe bad
      exact ⟨exec_placed_refused ready lt tagged refused,
        fun least most => exec_notPlaced_refused ready lt tagged least most refused⟩
  case named =>
    have reads := placement_tag lt
    have named : ∀ l, namedSeat (beBytes 4 tag ++ (seatIdBytes id ++ l)) 4 = .ok id :=
      fun l => (namedSeat_skip ..).trans (namedSeat_seatIdBytes first last)
    have reason : ∀ w, uField (beBytes 4 tag ++ (seatIdBytes id ++ [w])) 7 1 = w.toNat := placement_reason tag _ _ _
    simp only [List.append_assoc]
    refine ⟨fun n under c hs found => ?reserved, fun none_ => ?unreserved, fun w bad => ?badReason⟩
    case reserved =>
      have reserved := reservation_of_seat hs
      have ended : ∀ w why, reasonOf w.toNat = some why →
          exec (.notPlaced t (beBytes 4 tag ++ (seatIdBytes id ++ [w]))) s =
            .next ((((s.returnSeat id under).dealWith tag why).askPass).answered 0x71 t .ok) := fun w why known =>
        exec_notPlaced ready (by simp [seatIdBytes])
          (serveNotPlaced_reserved (reads _) tagged.ne' (reason w ▸ known) (named [w]) reserved)
      refine ⟨?_, ended 1 .missing rfl, ended 2 .damaged rfl, ?_⟩
      · exact exec_placed ready (by simp [seatIdBytes])
          (servePlaced_reserved (reads _) tagged.ne' (named []) reserved found)
      · rw [ended 3 .other rfl, dealWith_other]
        rfl
    case unreserved =>
      have no := reservation_none none_
      have placed : exec (.placed t (beBytes 4 tag ++ seatIdBytes id)) s =
          .next (s.answered 0x70 t (s.notReserved id tag)) :=
        exec_placed ready (by simp [seatIdBytes]) (servePlaced_unreserved (reads _) tagged.ne' (named []) no)
      refine ⟨fun c held found status ne => ?_, fun free => ?_, fun w least most => ?_⟩
      · rw [placed, notReserved_elsewhere found status ne]
      · rw [placed, notReserved_late free]
      · obtain ⟨why, known⟩ := reasonOf_some least most
        exact exec_notPlaced ready (by simp [seatIdBytes])
          (serveNotPlaced_unreserved (reads _) tagged.ne' (reason w ▸ known) (named [w]) no)
    case badReason => exact exec_notPlaced_badReason ready bad

end Sys2Proof.Machine
end

section
/-! The matcher paused, resumed and timed (R157, R164, R172, R173). -/

namespace Sys2Proof.Machine

section
variable {s : State}

theorem askPass_running (running : s.plm.paused = false) :
    s.askPass = { s with plm := { s.plm with passPending := true } } := by
  simp [State.askPass, State.updPlm, running]

theorem askPass_paused (paused : s.plm.paused = true) : s.askPass = s := by
  simp [State.askPass, State.updPlm, paused]

theorem serveResumeMatcher_eq (s : State) : serveResumeMatcher s =
    ({ s with plm := { s.plm with paused := false, passPending := true } }, .ok) :=
  congrArg (·, Answer.ok) (askPass_running rfl)

end

/-- The placement timeout that a request leaves, in seconds (R164). -/
def clampedTimeout (x : Nat) : Nat := if x < 30 then 30 else if 3600 < x then 3600 else x

theorem clampedTimeout_eq (x : Nat) : min 3600 (max 30 x) = clampedTimeout x := by
  unfold clampedTimeout
  split_ifs <;> omega

theorem clampedTimeout_ne (x : Nat) : clampedTimeout x ≠ x ↔ x < 30 ∨ 3600 < x := by
  unfold clampedTimeout
  split_ifs <;> omega

theorem serveSetPlacementTimeout_beBytes (s : State) {x : Nat} (lt : x < 65536) :
    serveSetPlacementTimeout (beBytes 2 x) s =
      ({ s with plm := { s.plm with timeout := clampedTimeout x } },
        { status := .ok, clamped := decide (x < 30 ∨ 3600 < x), body := beBytes 2 (clampedTimeout x) }) := by
  simp only [serveSetPlacementTimeout, uField_beBytes_nil, Nat.reducePow, Nat.mod_eq_of_lt lt, clampedTimeout_eq,
    clampedTimeout_ne]
  rfl

/-- Settles O57: a pass asked for by the flag, the three messages by the equations of their owners. -/
theorem matcherPausedResumedAndTimed : Obligations.MatcherPausedResumedAndTimed := by
  refine ⟨fun s => ⟨askPass_running, askPass_paused⟩, fun s t x ready lt => ⟨clampedTimeout x, rfl, ?_, ?_, ?_⟩⟩
  · exact message_ready (serve := servePauseMatcher) ready rfl
  · exact message_answers ready rfl (serveResumeMatcher_eq s)
  · exact message_answers ready (by simp [MessageKind.takes]) (serveSetPlacementTimeout_beBytes s lt)

end Sys2Proof.Machine
end

section
/-! A request judged (R176, R177, R179, R186): its frame becomes its command, and what stands before its owner. -/

namespace Sys2Proof.Machine

/-! ### A good frame becomes its command (R175, R176, R186) -/

theorem frameSum_computedCheck (k t : Byte) (body : List Byte) : frameSum k t body (computedCheck k t body) = 0 :=
  byteSum_withCheck _

theorem requestFrame_eq (k t : Byte) (body : List Byte) : requestFrame k t body =
    [0xA7] ++ beBytes 2 body.length ++ [k, t] ++ body ++ [computedCheck k t body] := rfl

theorem completedFrame_goodCheck {k t check : Byte} {body : List Byte} (good : frameSum k t body check = 0) :
    completedFrame (beBytes 2 body.length ++ [k, t] ++ body ++ [check]) false = decodeRequest k t body := by
  have sum : byteSum (beBytes 2 body.length ++ [k, t] ++ body ++ [check]) = 0 := good
  simp only [completedFrame, sum, if_true, if_false, Bool.false_eq_true]
  simp [beBytes]

/-- Settles O11: the frame is complete with its CHECK, whose sum is 0, and spells its command. -/
theorem requestFrameBecomesItsCommand : Obligations.RequestFrameBecomesItsCommand := by
  intro s i k t body wf frame live hunting idle
  obtain ⟨spelt, fits⟩ := decodeRequest_frameOf i k t body wf frame
  rw [requestFrame_eq, receive_complete hunting live fits, idle, Option.isSome_none,
    completedFrame_goodCheck (frameSum_computedCheck k t body), spelt]

/-! ### The order in which a request is judged (R177, R179, R181) -/

theorem Link.held_iff (l : Link) : l.held = true ↔ l.mode = .hold ∧ 1 ≤ l.errorCount := by
  simp [Link.held]

/-- The least body size of a message kind (R186). -/
def MessageKind.least (m : MessageKind) : Nat := if m.upTo then 0 else m.size

theorem MessageKind.takes_iff (m : MessageKind) (n : Nat) : m.takes n = true ↔ m.least ≤ n ∧ n ≤ m.size := by
  unfold MessageKind.takes MessageKind.least
  split_ifs <;> rw [decide_eq_true_iff] <;> omega

/-- A message kind is the entry of the catalogue for a KIND, is served on a held link where R177 says so, and is refused
with the body of R179. -/
structure MessageKind.Catalogued (m : MessageKind) (k : Byte) : Prop where
  code : m.code = k
  listed : (k.toNat, m.least, m.size) ∈ catalogue
  only : ∀ e ∈ catalogue, e.1 = k.toNat → e.2 = (m.least, m.size)
  onHeld : m.onHeld = true ↔ k = 0x01 ∨ k = 0x04 ∨ k = 0x05
  refusedBody : m.refusedBody = if k = 0x10 then [0xFF] else []

/-- A request is BAD_KIND, or the message of its entry in the catalogue. -/
theorem badKind_or_message {i : Instr} {k t : Byte} {body : List Byte} (wf : i.wf = true)
    (frame : i.frameOf = some (k, t, body)) :
    (i = .badKind k t body ∧ knownKind k = false ∧ bodyFits body = true) ∨
    ∃ m serve, MessageKind.Catalogued m k ∧ ∀ s, exec i s = message m t body serve s := by
  cases i with
  | badKind x y z =>
    cases frame
    exact .inl ⟨rfl, by simpa [Instr.wf, and_comm] using wf⟩
  | _ => cases frame <;> exact .inr ⟨_, _, ⟨rfl, by decide, by decide, by decide, rfl⟩, fun _ => rfl⟩

theorem knownKind_of_mem : ∀ e ∈ catalogue, knownKind (BitVec.ofNat 8 e.1) = true := by decide

theorem not_mem_catalogue {k : Byte} (unknown : knownKind k = false) {lo hi : Nat} :
    (k.toNat, lo, hi) ∉ catalogue := by
  intro mem
  have known := knownKind_of_mem _ mem
  rw [BitVec.ofNat_toNat, BitVec.setWidth_eq, unknown] at known
  exact Bool.false_ne_true known

section
variable {s : State} {k t : Byte} {body : List Byte} (live : s.inReset = false) (unknown : knownKind k = false)
  (fits : bodyFits body = true)
include live unknown fits

theorem exec_badKind (idle : s.link.reply = none) :
    exec (.badKind k t body) s = .next (s.answered k t (.refuse .badKind)) := by
  show execBadKind k t body s = _
  simp [execBadKind, event_runs live, unknown, fits, idle]

theorem exec_badKind_overrun (pending : s.link.reply.isSome = true) :
    exec (.badKind k t body) s = .next s.overrunFrame := by
  show execBadKind k t body s = _
  simp [execBadKind, event_runs live, unknown, fits, pending]

end

/-- Settles O13: BAD_KIND by its own two outcomes, every other request by those of its message before its owner. -/
theorem dispatchFollowsItsOrder : Obligations.DispatchFollowsItsOrder := by
  refine ⟨Link.held_iff, fun s i k t body wf frame live => ?_⟩
  rcases badKind_or_message wf frame with ⟨rfl, unknown, fits⟩ | ⟨m, serve, kind, means⟩
  case inl =>
    exact ⟨exec_badKind_overrun live unknown fits, fun idle =>
      ⟨fun _ => exec_badKind live unknown fits idle, fun lo hi mem => absurd mem (not_mem_catalogue unknown)⟩⟩
  case inr =>
    rw [means]
    refine ⟨message_overrun live, fun idle => ⟨fun unlisted => absurd rfl (unlisted _ kind.listed),
      fun lo hi mem => ?_⟩⟩
    obtain ⟨rfl, rfl⟩ : lo = m.least ∧ hi = m.size := Prod.mk.inj (kind.only _ mem rfl)
    rw [← kind.refusedBody]
    refine ⟨fun held no1 no4 no5 => ?_, fun served size => ?_⟩
    · have shut : m.onHeld = false := by
        rw [← Bool.not_eq_true, kind.onHeld, not_or, not_or]
        exact ⟨no1, no4, no5⟩
      rw [message_held ⟨live, idle⟩ held shut, kind.code]
    · have wrong : m.takes body.length = false := by
        rw [← Bool.not_eq_true, m.takes_iff]
        omega
      rw [message_badLength ⟨live, idle⟩ (served.imp_right kind.onHeld.mpr) wrong, kind.code]

end Sys2Proof.Machine
end

section
/-! Link errors (R176, R178, R180). -/

namespace Sys2Proof.Machine

section
variable {s : State} (live : s.inReset = false)
include live

theorem exec_checkError {k t check : Byte} {body : List Byte} (idle : s.link.reply = none)
    (bad : frameSum k t body check ≠ 0) :
    exec (.checkError k t body check) s = .next (s.linkError (checkLog k t body check)) := by
  show execCheckError k t body check s = _
  rw [execCheckError, event_runs live, if_neg bad, idle]
  rfl

theorem exec_lengthError {hi lo : Byte} (idle : s.link.reply = none) (long : 250 < lenOf hi lo) :
    exec (.lengthError hi lo) s = .next (s.linkError (lengthLog hi lo)) := by
  show execLengthError hi lo s = _
  simp [execLengthError, event_runs live, Config.maxBody, long, State.cutFrame, idle]

theorem exec_gapError {held : List Byte} (idle : s.link.reply = none) (cut : frameUnfinished held = true) :
    exec (.gapError held) s = .next (s.linkError (gapLog held)) := by
  show execGapError held s = _
  simp [execGapError, event_runs live, cut, State.cutFrame, idle]

theorem exec_overrunFrame_complete : exec (.overrunFrame .complete) s = .next s.overrunFrame := event_runs live

theorem exec_overrunFrame_length {hi lo : Byte} (long : 250 < lenOf hi lo) :
    exec (.overrunFrame (.length hi lo)) s = .next (s.overrunFrame.linkError (lengthLog hi lo)) := by
  show execOverrunFrame (.length hi lo) s = _
  simp [execOverrunFrame, event_runs live, OverrunEnd.wf, Config.maxBody, long]

theorem exec_overrunFrame_gap {held : List Byte} (cut : frameUnfinished held = true) :
    exec (.overrunFrame (.gap held)) s = .next (s.overrunFrame.linkError (gapLog held)) := by
  show execOverrunFrame (.gap held) s = _
  simp [execOverrunFrame, event_runs live, OverrunEnd.wf, cut]

end

/-- Settles O16: each error and each end of an overrun frame by its own equation. -/
theorem linkErrorsLogged : Obligations.LinkErrorsLogged := by
  intro s k t check hi lo body held e live
  exact ⟨s.overrunFrame, lengthLog hi lo, gapLog held, rfl, rfl, rfl, rfl,
    fun idle _ => exec_checkError live idle, frameSum_computedCheck k t body, exec_lengthError live,
    exec_gapError live, exec_overrunFrame_complete live, exec_overrunFrame_length live, exec_overrunFrame_gap live⟩

end Sys2Proof.Machine
end

section
/-! The messages of the link itself (R181 to R185), and the sending of a reply (R178, R183, R185). -/

namespace Sys2Proof.Machine

/-- A message that a held link serves too (R177). -/
theorem message_onHeld {m : MessageKind} {t : Byte} {body : List Byte} {serve : State → State × Answer} {s : State}
    {r : State × Answer} (h : s.dispatches) (open_ : m.onHeld = true) (size : m.takes body.length = true)
    (result : serve s = r) : message m t body serve s = .next (r.1.answered m.code t r.2) := by
  rw [message_served h (.inr open_) size, result]

/-- Settles O14: each message by its owner's own equation. -/
theorem echoAndIdentityAnswered : Obligations.EchoAndIdentityAnswered := fun s t body =>
  ⟨fun h fits => message_onHeld h rfl (by simpa [MessageKind.takes] using fits) rfl,
    fun ready => message_result ready rfl rfl⟩

/-! ### The link log (R180, R182) -/

theorem serveGetLinkLog_eq (s : State) : serveGetLinkLog s =
    (s, .ok ([s.link.mode.code, s.link.rate.code, BitVec.ofNat 8 s.link.errorCount] ++
      match s.link.log with
      | none => [0, 0, 0, 0, 0, 0, 0]
      | some e => [e.cause.code, e.kind, e.tag] ++ beBytes 2 e.len ++ [e.received, e.computed])) := by
  rw [serveGetLinkLog, Link.logBytes, beBytes_one]
  cases s.link.log <;> rfl

/-- The cause byte of LINK_ERROR alone, as CLEAR-ALERT takes it (R194, R196). -/
theorem serveClearAlert_linkError (s : State) : serveClearAlert [0x08] s =
    ({ s with nqa := { s.nqa with linkError := false } },
      .ok [State.rawCauses { s with nqa := { s.nqa with linkError := false } } |>.byte]) := by
  have cleared : s.updNqa (Nqa.clear (causesOf 0x08)) = { s with nqa := { s.nqa with linkError := false } } := by
    simp [State.updNqa, Nqa.clear, causesOf]
  rw [← cleared]
  rfl

/-- Settles O15: the log as its bytes, and what each clear leaves. -/
theorem linkLogReadAndCleared : Obligations.LinkLogReadAndCleared := by
  intro s t
  refine ⟨fun h => ?_, fun h => ?_, fun ready => ?_⟩
  · exact message_onHeld h rfl rfl (serveGetLinkLog_eq s)
  · refine ⟨_, rfl, message_onHeld (serve := serveClearLinkError) h rfl rfl rfl, ?_, fun e => rfl⟩
    simp [Link.held]
  · exact ⟨_, rfl, message_result ready rfl (serveClearAlert_linkError s)⟩

/-! ### Mode and rate (R181, R183) -/

theorem linkModeOf_byte (x : Byte) : linkModeOf x.toNat =
    if x = 0 then some .hold else if x = 1 then some .continue else none := by
  revert x; decide

theorem linkRateOf_byte (x : Byte) : linkRateOf x.toNat =
    if x = 0 then some .r115 else if x = 1 then some .r460 else if x = 2 then some .r921 else none := by
  revert x; decide

theorem serveSetLinkMode_byte (s : State) (x : Byte) : serveSetLinkMode [x] s =
    if x = 0 then ({ s with link := { s.link with mode := .hold } }, .ok [0])
    else if x = 1 then ({ s with link := { s.link with mode := .continue } }, .ok [1])
    else (s, .refuse .badValue) := by
  unfold serveSetLinkMode
  rw [uField_zero_one, linkModeOf_byte]
  split_ifs <;> rfl

theorem serveSetLinkRate_byte (s : State) (x : Byte) : serveSetLinkRate [x] s = (s,
    if x = 0 then { status := .ok, body := [0], act := .setRate .r115 }
    else if x = 1 then { status := .ok, body := [1], act := .setRate .r460 }
    else if x = 2 then { status := .ok, body := [2], act := .setRate .r921 }
    else .refuse .badValue) := by
  unfold serveSetLinkRate
  rw [uField_zero_one, linkRateOf_byte]
  split_ifs <;> rfl

/-! ### A reply sent (R178, R183, R185) -/

section
variable {s : State} {r : Reply} (live : s.inReset = false)
include live

theorem exec_replyStart (free : s.link.sending = none) (waits : s.link.reply = some r) :
    exec .replyStart s = .next { s with link := { s.link with
      sending := some { r with overrun := s.link.overrun }, reply := none, overrun := false } } := by
  show execReplyStart s = _
  simp only [execReplyStart, event_runs live, State.updLink, Link.startReply, free, waits]

theorem exec_replyEnd (sent : s.link.sending = some r) : exec .replyEnd s =
    .next (State.afterReply { s with link := { s.link with sending := none } } r.act) := by
  show execReplyEnd s = _
  simp only [execReplyEnd, event_runs live, sent]
  rfl

end

/-- Settles O17: the three messages by their owner's equations, the sending by what follows each reply. -/
theorem rateAndResetComeWithTheReply : Obligations.RateAndResetComeWithTheReply := by
  refine ⟨fun s t x ready => ⟨?_, ?_, ?_⟩, fun s r live => ⟨exec_replyStart live, fun sent => ?_⟩⟩
  · refine (message_result ready rfl (serveSetLinkMode_byte s x)).trans ?_
    split_ifs <;> rfl
  · exact message_result ready rfl (serveSetLinkRate_byte s x)
  · exact message_result (serve := serveReset) ready rfl rfl
  · rw [exec_replyEnd live sent]
    cases r.act <;> rfl

end Sys2Proof.Machine
end

section
/-! Notices (R189, R191 to R193): their bytes, the queue they join, and the two messages of the queue. -/

namespace Sys2Proof.Machine

/-! ### The bytes of a notice (R189) -/

theorem Notice.fields_length (n : Notice) : n.fields.length ≤ 13 := by
  cases n with
  | rejected tag b c graded => cases graded <;> simp [Notice.fields]
  | _ => simp [Notice.fields, seatIdBytes]

theorem Notice.bytes_length (n : Notice) : n.bytes.length = 14 := by
  have fits := n.fields_length
  simp only [Notice.bytes, List.length_append, List.length_cons, zeros_length]
  omega

/-- A notice is its kind and its fields, filled with zeros. -/
theorem Notice.bytes_eq (n : Notice) : n.bytes =
    (n.code :: n.fields) ++ List.replicate (14 - (n.code :: n.fields).length) 0 := by
  rw [List.length_cons, Nat.succ_sub_succ]
  rfl

/-! ### The queue (R191) -/

theorem push_full {x : Nqa} (full : 64 ≤ x.queue.length) (n : Notice) :
    x.push n = { x with overflow := min 255 (x.overflow + 1), overflowCause := true } :=
  if_neg (Nat.not_lt.mpr full)

/-! ### FETCH-NOTICES and SET-NOTICE-THRESHOLD (R192, R193) -/

theorem countOf_byte (w : Byte) : countOf w.toNat = if w = 0 then 8 else w.toNat := by
  simp only [countOf, byte_toNat_eq_zero]

theorem countOf_pos (n : Nat) : 0 < countOf n := by
  unfold countOf
  split_ifs <;> omega

section
variable {w : Byte}

theorem serveFetchNotices_tooMany (s : State) (many : 8 < countOf w.toNat) :
    serveFetchNotices [w] s = (s, .refuse .badValue) := by
  simp only [serveFetchNotices, uField_zero_one, if_pos many]

theorem serveSetNoticeThreshold_tooMany (s : State) (many : 8 < countOf w.toNat) :
    serveSetNoticeThreshold [w] s = (s, .refuse .badValue) := by
  simp only [serveSetNoticeThreshold, uField_zero_one, if_pos many]

variable (few : countOf w.toNat ≤ 8)
include few

theorem serveSetNoticeThreshold_few (s : State) : serveSetNoticeThreshold [w] s =
    ({ s with nqa := { s.nqa with threshold := countOf w.toNat } }, .ok [BitVec.ofNat 8 (countOf w.toNat)]) := by
  simp only [serveSetNoticeThreshold, uField_zero_one, if_neg (Nat.not_lt.mpr few), beBytes_one]
  rfl

/-- At least one notice is asked for, so that none is removed only from an empty queue. -/
theorem serveFetchNotices_few (s : State) : serveFetchNotices [w] s =
    (if s.nqa.queue.take (countOf w.toNat) = [] then s.updNqa (Nqa.fetch (countOf w.toNat))
      else (s.updNqa (Nqa.fetch (countOf w.toNat))).askPass,
      .ok ([BitVec.ofNat 8 s.nqa.overflow, BitVec.ofNat 8 (s.nqa.queue.take (countOf w.toNat)).length] ++
        (s.nqa.queue.take (countOf w.toNat)).flatMap Notice.bytes)) := by
  simp only [serveFetchNotices, uField_zero_one, if_neg (Nat.not_lt.mpr few), Nqa.fetched, beBytes_one,
    List.isEmpty_iff, List.take_eq_nil_iff, (countOf_pos _).ne', false_or]
  rfl

end

/-- Settles O58: the bytes notice by notice, the queue by its two cases, the messages by their owner's equations. -/
theorem noticesQueuedAndFetched : Obligations.NoticesQueuedAndFetched := by
  refine ⟨fun n => ⟨n.code :: n.fields, n.bytes_eq, ?_⟩, fun x n => ⟨fun room => push_room room n,
    fun full => push_full full n⟩, fun s t w n ready count => ?_⟩
  · cases n with
    | rejected tag b c graded =>
      rcases graded with _ | ⟨ccorr, soh, _ | res⟩
      · rfl
      · rfl
      · simp [Notice.code, Notice.fields, bitIf]
    | _ => rfl
  · rw [← countOf_byte] at count
    subst count
    refine ⟨fun many => ⟨?_, ?_⟩, fun few => ?_⟩
    · exact message_unchanged ready rfl (serveFetchNotices_tooMany s many)
    · exact message_unchanged ready rfl (serveSetNoticeThreshold_tooMany s many)
    · exact ⟨_, _, rfl, List.length_take, rfl, message_answers ready rfl (serveFetchNotices_few few s),
        fun m _ => m.bytes_length, message_answers ready rfl (serveSetNoticeThreshold_few few s)⟩

end Sys2Proof.Machine
end

section
/-! The alert causes (R194), the ALERT line (R195) and the three messages about them (R195, R196). -/

namespace Sys2Proof.Machine

/-! ### A cause byte (R194) -/

theorem Causes.byte_bits (c : Causes) : c.byte.getLsbD 0 = c.notices ∧ c.byte.getLsbD 1 = c.attention ∧
    c.byte.getLsbD 2 = c.poolFull ∧ c.byte.getLsbD 3 = c.linkError ∧ c.byte.getLsbD 4 = c.overflow ∧
    c.byte.getLsbD 5 = c.stageBus ∧ c.byte.getLsbD 6 = false ∧ c.byte.getLsbD 7 = false := by
  simp only [Causes.byte, BitVec.getLsbD_or, bitIf_getLsbD, Nat.reduceLT]
  simp

/-- The zero byte is the byte of no cause. -/
theorem Causes.byte_eq_zero_iff (c : Causes) : c.byte = 0 ↔ c = causesOf 0 :=
  ⟨fun zero => by rw [← zero, causesOf_byte], fun noCause => by rw [noCause]; rfl⟩

theorem Causes.byte_ne_zero_iff (c : Causes) : c.byte ≠ 0 ↔
    (c.notices || c.attention || c.poolFull || c.linkError || c.overflow || c.stageBus) = true := by
  rw [ne_eq, c.byte_eq_zero_iff, ← Bool.not_eq_false, not_iff_not]
  obtain ⟨_, _, _, _, _, _⟩ := c
  simp [causesOf, and_assoc]

/-! ### Causes raised and enabled (R194, R195) -/

theorem State.attention_iff (s : State) :
    s.rawCauses.attention = true ↔ ∃ b, (s.bay b).state = .suspended := by
  simp only [State.rawCauses, any_toList, beq_iff_eq, State.bay]

/-- Both bytes hold a cause in the same bit, so that the causes enabled and raised are the bits common to them. -/
theorem State.activeCauses_byte (s : State) :
    s.activeCauses.byte = s.rawCauses.byte &&& s.nqa.enables.byte := by
  refine BitVec.eq_of_getLsbD_eq fun j lt => ?_
  rw [BitVec.getLsbD_and]
  interval_cases j <;> simp only [Causes.byte_bits, State.activeCauses, Bool.and_self]

theorem State.alertLow_iff (s : State) :
    s.alertLow = true ↔ s.inReset = false ∧ s.rawCauses.byte &&& s.nqa.enables.byte ≠ 0 := by
  rw [← s.activeCauses_byte, s.activeCauses.byte_ne_zero_iff, ← Bool.not_eq_true', ← Bool.and_eq_true]
  rfl

/-! ### GET-ALERT, SET-ALERT-ENABLE and CLEAR-ALERT (R195, R196) -/

theorem serveGetAlert_eq (s : State) : serveGetAlert s =
    (s, .ok [s.rawCauses.byte, s.nqa.enables.byte, s.rawCauses.byte &&& s.nqa.enables.byte]) := by
  rw [serveGetAlert, s.activeCauses_byte]

section
variable {x : Byte}

theorem causeByte_none (high : 64 ≤ x.toNat) : causeByte [x] = none := by
  rw [causeByte, uField_zero_one, if_neg (Nat.not_lt.mpr high)]

theorem causeByte_some (low : x.toNat < 64) : causeByte [x] = some (causesOf x) := by
  rw [causeByte, uField_zero_one, if_pos low]
  rfl

theorem serveSetAlertEnable_badValue (s : State) (high : 64 ≤ x.toNat) :
    serveSetAlertEnable [x] s = (s, .refuse .badValue) := by
  rw [serveSetAlertEnable, causeByte_none high]

theorem serveClearAlert_badValue (s : State) (high : 64 ≤ x.toNat) :
    serveClearAlert [x] s = (s, .refuse .badValue) := by
  rw [serveClearAlert, causeByte_none high]

theorem serveSetAlertEnable_causes (s : State) (low : x.toNat < 64) : serveSetAlertEnable [x] s =
    ({ s with nqa := { s.nqa with enables := causesOf x } }, .ok [x]) := by
  simp only [serveSetAlertEnable, causeByte_some low, causes_byte x low]
  rfl

theorem serveClearAlert_causes (s : State) (low : x.toNat < 64) : serveClearAlert [x] s =
    (s.updNqa (Nqa.clear (causesOf x)), .ok [(s.updNqa (Nqa.clear (causesOf x))).rawCauses.byte]) := by
  rw [serveClearAlert, causeByte_some low]

end

/-- Settles O59: the cause byte bit by bit, ALERT by the byte of its causes, the messages by their owner's equations. -/
theorem alertFollowsCausesAndEnables : Obligations.AlertFollowsCausesAndEnables := by
  refine ⟨Causes.byte_bits, fun s => ⟨decide_eq_true_iff, s.attention_iff, decide_eq_true_iff, rfl, rfl, rfl,
    s.alertLow_iff⟩, fun s t x ready => ⟨?_, fun high => ⟨?_, ?_⟩, fun low => ?_⟩⟩
  · exact message_unchanged ready rfl (serveGetAlert_eq s)
  · exact message_unchanged ready rfl (serveSetAlertEnable_badValue s high)
  · exact message_unchanged ready rfl (serveClearAlert_badValue s high)
  · exact ⟨causesOf x, s.updNqa (Nqa.clear (causesOf x)), causes_byte x low,
      message_answers ready rfl (serveSetAlertEnable_causes s low), rfl,
      message_answers ready rfl (serveClearAlert_causes s low)⟩

end Sys2Proof.Machine
end

section
/-! A step (section 5.7 of spec/00): the command at the front of the queue, and a next state for every command. -/

namespace Sys2Proof.Machine

/-- Every command runs in one of the two shells, save the two that move the reset itself (log 7). -/
theorem exec_shell (i : Instr) :
    (∃ m t body serve, exec i = message m t body serve) ∨ (∃ f, exec i = event f) ∨
      i = .resetInput ∨ ∃ sda scl fault, i = .resetRelease sda scl fault := by
  cases i with
  | echo | getIdentity | reset | getLinkLog | clearLinkError | setLinkMode | setLinkRate
  | writeProfile | readProfile | eraseProfile
  | enterCal | trim | setTrimRange | exitCal | getTrim | getWindow
  | load | start | startGroup | suspend | resume | resumeGroup | abort | abortGroup | unload | getBay
  | stopAll | getStageBus | setLimit | getAllowance
  | restoreCandidate | withdraw | getPool | getCandidate
  | openString | setReference | declareVacancy | releaseString | restoreSeat | installDirect | getString | getPosition
  | placed | notPlaced | pauseMatcher | resumeMatcher | setPlacementTimeout | getMatcher
  | fetchNotices | setNoticeThreshold | getAlert | setAlertEnable | clearAlert => exact .inl ⟨_, _, _, _, rfl⟩
  | resetInput => exact .inr (.inr (.inl rfl))
  | resetRelease sda scl fault => exact .inr (.inr (.inr ⟨sda, scl, fault, rfl⟩))
  | _ => exact .inr (.inl ⟨_, rfl⟩)

/-- No command faults and none is refused. -/
theorem exec_next (i : Instr) (s : State) : ∃ t, exec i s = .next t := by
  rcases exec_shell i with ⟨m, t, body, serve, e⟩ | ⟨f, e⟩ | rfl | ⟨sda, scl, fault, rfl⟩
  · exact e ▸ message_next m t body serve s
  · exact e ▸ event_next f s
  · exact ⟨s.enterReset, rfl⟩
  · exact ⟨_, rfl⟩

theorem step_cons (c : Instr) (rest : List Instr) (s : State) :
    step { s with pending := c :: rest } = exec c { s with pending := rest } := rfl

theorem step_idle {s : State} (idle : s.pending = []) : step s = .next s := by
  rw [step, idle]

/-- Settles O1: the two equations of `step`, and the shells, each of which answers a next state. -/
theorem stepTakesFrontCommand : Obligations.StepTakesFrontCommand :=
  ⟨step_cons, exec_next, fun _ => step_idle⟩

end Sys2Proof.Machine
end
